-- ==== Sys2Proof/Word.lean ====
section
/-! DEFINITION. The words of the Lohira 3220: bytes of frames, multi-byte wire fields, timebase instants, step records
(spec 00_scope.md "Units and conventions", 11_frame_record_and_pin_reference.md 11.2 and 11.5). -/
namespace Sys2Proof

/-- One byte of a frame or of step memory. -/
abbrev Byte := BitVec 8

/-- A two-byte wire field. -/
abbrev Half := BitVec 16

/-- A four-byte wire field. -/
abbrev Long := BitVec 32

/-- A value of the 32-bit microsecond timebase (R1). -/
abbrev Instant := BitVec 32

/-- A step record of 8 bytes; its byte 0 is the most significant byte of the word (section 11.5). -/
abbrev StepWord := BitVec 64

/-- A bell number (section "Numbering"). -/
abbrev BellNo := Fin 32

/-- A figure axis number. -/
abbrev AxisNo := Fin 12

/-- A playback lane number. -/
abbrev LaneNo := Fin 4

/-- A show-key number. -/
abbrev KeyNo := Fin 4

end Sys2Proof
end

