-- ==== Sys2Proof/Syntax.lean ====
section
/-! DEFINITION. The commands of the Lohira 3220: one constructor for each row of spec/opcode_table.json. A host request
carries the tag of its frame and its payload fields at their wire widths (section 11.4); an event carries what names it. -/
namespace Sys2Proof

/-- What makes a hard reset (R155). -/
inductive ResetCause where
  /-- Power-up. -/
  | powerUp
  /-- RESET_N held low for so many microseconds. -/
  | pin (lowMicros : Nat)
  deriving DecidableEq, Repr

/-- The commands and events of the block. -/
inductive Instr where
  -- host requests to the message port
  | ping (tag : Byte)
  | reset (tag : Byte)
  | status (tag : Byte)
  | noticeMask (tag : Byte) (mask : Half)
  | queryLane (tag : Byte) (lane : Byte)
  | queryQueue (tag : Byte)
  | queryBell (tag : Byte) (bell : Byte)
  | queryAxis (tag : Byte) (axis : Byte)
  | queryCalendar (tag : Byte) (sub : Byte) (index : Byte)
  | queryExercise (tag : Byte)
  | requestBadKind (tag : Byte) (kind : Byte) (payload : List Byte)
  -- host requests to the calendar unit
  | setTime (tag : Byte) (year : Half) (month day hour minute second : Byte) (milli : Half) (pps : Byte)
  | getTime (tag : Byte)
  | setProgramme (tag : Byte) (programme openLevel quietLevel : Byte) (quietStart quietEnd : Half)
  | setSeason (tag : Byte) (entry startMonth startDay endMonth endDay weekdays programme priority : Byte)
  | clearSeason (tag : Byte) (entry : Byte)
  | setTrigger (tag : Byte) (entry selector : Byte) (hours : BitVec 24) (minute weekdays showNo priority grace : Byte)
  | clearTrigger (tag : Byte) (entry : Byte)
  -- host requests to the show store
  | showOpen (tag : Byte) (showNo kind : Byte) (count claims limit : Half)
  | showData (tag : Byte) (showNo : Byte) (start : Half) (records : List StepWord)
  | showClose (tag : Byte) (showNo : Byte)
  | showErase (tag : Byte) (showNo : Byte)
  | storeCompact (tag : Byte)
  | storeList (tag : Byte) (first : Byte)
  -- host requests to the show scheduler
  | play (tag : Byte) (showNo priority grace : Byte)
  | playTimed (tag : Byte) (showNo priority grace : Byte) (year : Half) (month day hour minute second : Byte)
  | cancel (tag : Byte) (id : Byte)
  | setFlags (tag : Byte) (flags : Byte)
  | setKey (tag : Byte) (key enabled showNo priority grace : Byte)
  -- host requests to the strike unit
  | strike (tag : Byte) (bell velocity : Byte) (delay : Half)
  | setBell (tag : Byte) (bell : Byte) (k : Long) (pmin pmax guard : Half) (window missLimit : Byte)
  | bellEnable (tag : Byte) (bell on : Byte)
  | setCurve (tag : Byte) (points : List Half)
  | setLevel (tag : Byte) (master emax : Byte) (tau : Long)
  -- host requests to the motion unit
  | setAxis (tag : Byte) (axis form : Byte) (lower upper vmax : Long) (dv stopDv tolerance : Half)
  | axisCmdMove (tag : Byte) (axis : Byte) (target rate : Long) (direction : Byte)
  | axisCmdSpin (tag : Byte) (axis : Byte) (rate : Long)
  | axisCmdStop (tag : Byte) (axis : Byte)
  | axisCmdFollow (tag : Byte) (axis leader numerator denominator : Byte) (offset : Long)
  | axisCmdEnable (tag : Byte) (axis : Byte)
  | axisCmdDisable (tag : Byte) (axis : Byte)
  | axisCmdClear (tag : Byte) (axis : Byte)
  -- host requests to the tracking verifier and to output control
  | setVerify (tag : Byte) (on : Byte)
  | exercise (tag : Byte) (axis : Byte)
  | exerciseAbort (tag : Byte)
  | setMode (tag : Byte) (mode : Byte)
  -- events of the message port, the resets and the store
  | frameComplete
  | frameGapTimeout
  | frameByteError
  | transmitFrameSent
  | softReset
  | hardReset (cause : ResetCause) (baud : BitVec 2)
  | compactionEnd
  -- events of the calendar
  | minuteBoundary
  | timedPlayRelease
  | ppsEdge
  | ppsLossDeadline
  -- events of the keys, the request queue and the lanes
  | keyPress (key : KeyNo)
  | requestExpiry (id : Nat)
  | laneTimerExpiry (lane : LaneNo)
  | waitDeadlineExpiry (lane : LaneNo)
  | runLimitExpiry (lane : LaneNo)
  -- events of the strike unit
  | fireInstantArrival
  | heldGuardWaitExpiry (order : Nat)
  | guardInstantExpiry (bell : BellNo)
  | pulseEnd (bell : BellNo)
  | senseEdge (bell : BellNo)
  | impactWindowEnd (bell : BellNo)
  | confirmedWindowEndPasses (bell : BellNo)
  | deemedImpact (bell : BellNo)
  -- events of the motion unit
  | axisUpdate (axis : AxisNo)
  | axisReply (bytes : List Byte)
  | axisReplyTimeout (axis : AxisNo)
  | axisBusDecode (bytes : List Byte)
  -- events of output control and of the input pins
  | atriumDebounceChange
  | receivedByte (byte : Byte)
  | atriumClearChange (level : Bool)
  | keyInputChange (key : KeyNo) (level : Bool)
  deriving DecidableEq, Repr

end Sys2Proof
end

