-- ==== Sys2Proof/Decode.lean ====
section
/-! DEFINITION. The opcode table of this block gives no bits to any row: no word spells a command. The bytes of a
request frame are read in Machine/Frames.lean, where the receive queue is served. -/
namespace Sys2Proof

/-- The command a table word spells: none, since spec/opcode_table.json gives no row any bits. -/
def decodeTableWord (_nbits _w : Nat) : Option Instr := none

end Sys2Proof
end

