-- ==== Sys2Proof/Config.lean ====
section
/-! DEFINITION. What one part fixes: its capacities, its identity, its timings, and the free values the manual leaves
open (spec R153, R144, R158, R60; notes/assumptions/6.md and 8.md for the free values). -/
namespace Sys2Proof.Config

/-- Family code of the Lohira family (R153). -/
def familyCode : Byte := 0x4C

/-- Revision of the Lohira 3220 (R153). -/
def revision : Byte := 0x01

/-- Step slots of the show store (R21). -/
def stepSlots : Nat := 8192

/-- Requests the request queue holds (R39). -/
def requestCapacity : Nat := 8

/-- Timed plays the list holds (R17). -/
def timedPlayCapacity : Nat := 8

/-- Strikes the strike queue holds (R91). -/
def strikeCapacity : Nat := 64

/-- Frames the receive queue holds (R146). -/
def receiveCapacity : Nat := 4

/-- Frames the transmit queue holds (R148). -/
def transmitCapacity : Nat := 16

/-- The value at which run-record counters stay (R54). -/
def counterTop : Nat := 65535

/-- The strike lookahead, 250 ms, in microseconds (R60). -/
def lookahead : Nat := 250000

/-- The key debounce, 50 ms, in microseconds (R44). -/
def keyDebounce : Nat := 50000

/-- The interlock debounce, 20 ms, in microseconds (R141). -/
def atriumDebounce : Nat := 20000

/-- The longest gap inside a frame, 2 ms, in microseconds (R144). -/
def frameGap : Nat := 2000

/-- The PPS loss time after an accepted edge, 2,500 ms, in microseconds (R7). -/
def ppsLoss : Nat := 2500000

/-- The update cycle of the motion unit, in microseconds (R111). -/
def updateCycle : Nat := 10000

/-- The spacing of the axis slots, in microseconds (R111). -/
def slotSpacing : Nat := 800

/-- How long a setpoint frame lasts on the axis bus, in microseconds (R158). -/
def axisFrameTime : Nat := 90

/-- The reply allowance after the setpoint frame, in microseconds (R112, R158). -/
def replyAllowance : Nat := 200

/-- Updates in a verifier dwell and in an exercise dwell (R128, R133). -/
def dwellUpdates : Nat := 20

/-- Compaction time for each slot moved, in microseconds (R32). -/
def compactTime : Nat := 5

/-- Line rate in baud for each code of BAUD1:0 (R144). -/
def baudRate (code : BitVec 2) : Nat :=
  if code = 0 then 19200 else if code = 1 then 57600 else if code = 2 then 115200 else 230400

/-- FREE VALUE (notes/assumptions/6.md): a choice the manual leaves open, applied to the counter `choices` of State. -/
opaque freePick : Nat → Nat

/-- FREE VALUE (notes/assumptions/8.md): the setpoint of a DISABLE frame sent while no cmd is held. -/
opaque freeSetpoint : Nat → Long

end Sys2Proof.Config
end

