-- ==== Sys2Proof/Machine/State.lean ====
section
/-! DEFINITION. The state of the Lohira 3220 as plain data, unit by unit, and its value after a hard reset. -/
namespace Sys2Proof.Machine

/-! ## Calendar unit (chapter 1) -/

/-- A date (R2). -/
structure Date where
  year : Nat
  month : Nat
  day : Nat
  deriving DecidableEq, Repr

/-- A date and a time of day to the second (R17, R54). -/
structure DateTime where
  date : Date
  hour : Nat
  minute : Nat
  second : Nat
  deriving DecidableEq, Repr

/-- The mall time (R2), with the microseconds inside the present millisecond (R3). At 1,000 microseconds of
millisecond 999 the carry into the next second has come. -/
structure MallTime where
  date : Date
  hour : Nat
  minute : Nat
  second : Nat
  milli : Nat
  micro : Nat
  deriving DecidableEq, Repr

/-- A date-minute (opening file, "Mall time"). -/
structure DateMinute where
  date : Date
  minute : Nat
  deriving DecidableEq, Repr

/-- An elapsed count of milliseconds, with the microseconds inside the present one. -/
structure MsCount where
  ms : Nat
  us : Nat
  deriving DecidableEq, Repr

/-- PPS states (R8). -/
inductive PpsState where
  | none
  | locked
  | lost
  deriving DecidableEq, Repr

/-- A programme table entry (R9). -/
structure Programme where
  openLevel : Nat
  quietLevel : Nat
  quietStart : Nat
  quietEnd : Nat
  deriving DecidableEq, Repr

/-- A season table entry (R11). -/
structure Season where
  inUse : Bool
  startMonth : Nat
  startDay : Nat
  endMonth : Nat
  endDay : Nat
  weekdays : BitVec 7
  programme : Nat
  priority : Nat
  deriving DecidableEq, Repr

/-- A trigger table entry (R13); selector `none` is ANY. -/
structure Trigger where
  inUse : Bool
  selector : Option Nat
  hours : BitVec 24
  minute : Nat
  weekdays : BitVec 7
  showNo : Nat
  priority : Nat
  grace : Nat
  lastFired : Option DateMinute
  deriving DecidableEq, Repr

/-- A timed play waiting for its start time (R17). -/
structure TimedPlay where
  id : Nat
  showNo : Nat
  priority : Nat
  grace : Nat
  start : DateTime
  deriving DecidableEq, Repr

/-- The calendar unit. -/
structure Calendar where
  time : MallTime
  timeValid : Bool
  ppsEnable : Bool
  ppsState : PpsState
  ppsDeadline : Instant
  ppsSince : Option MsCount
  programmes : Vector Programme 16
  seasons : Vector Season 16
  triggers : Vector Trigger 96
  active : Fin 16
  winner : Option (Fin 16)
  quiet : Bool
  level : Nat
  timedPlays : List TimedPlay
  deriving DecidableEq, Repr

/-! ## Show store (chapter 2) -/

/-- Step memory: (byte address, byte) pairs, addresses strictly rising, no byte equal to what an unlisted address
reads as. Slot i is bytes 8 i … 8 i + 7. -/
abbrev Memory := List Host.Cell

/-- Kind of a directory entry with the fields only that kind has (R21). -/
inductive EntryKind where
  | playable (claims : BitVec 12) (limit : Nat)
  | phrase
  deriving DecidableEq, Repr

/-- The block an OPEN or READY entry owns (R21). -/
structure Block where
  kind : EntryKind
  first : Nat
  count : Nat
  deriving DecidableEq, Repr

/-- A directory entry (R21). -/
inductive DirEntry where
  | free
  | opened (b : Block)
  | ready (b : Block)
  deriving DecidableEq, Repr

/-- A compaction in progress: when it ends and the tag its reply will carry (R31, R32). -/
structure Compaction where
  tag : Byte
  endsAt : Instant
  deriving DecidableEq, Repr

/-- The show store. -/
structure Store where
  directory : Vector DirEntry 64
  cursor : Option Nat
  mem : Memory
  compaction : Option Compaction
  deriving DecidableEq, Repr

/-! ## Show scheduler (chapter 3) -/

/-- Where a request came from (R37). -/
inductive Source where
  | trigger (entry : Fin 96)
  | key (k : KeyNo)
  | link
  deriving DecidableEq, Repr

/-- Owners of strikes and claims (opening file, "Request ids and owners"). -/
inductive Owner where
  | lane (n : LaneNo)
  | link
  | exercise
  deriving DecidableEq, Repr

/-- A request of the request queue (R37). -/
structure Request where
  id : Nat
  showNo : Nat
  priority : Nat
  source : Source
  arrival : Nat
  /-- remaining grace in ms -/
  grace : Nat
  /-- microseconds gone of the present millisecond of grace -/
  graceMicro : Nat
  deriving DecidableEq, Repr

/-- A key table entry (R45). -/
structure KeyEntry where
  enabled : Bool
  showNo : Nat
  priority : Nat
  grace : Nat
  deriving DecidableEq, Repr

/-- A KEY input with its debounce and held request (R44). -/
structure KeyInput where
  level : Bool
  changedAt : Instant
  debounced : Bool
  held : Option Nat
  deriving DecidableEq, Repr

/-- The show scheduler. -/
structure Scheduler where
  queue : List Request
  arrivals : Nat
  lastId : Nat
  startSeq : Nat
  claims : Vector (Option Owner) 12
  keys : Vector KeyEntry 4
  inputs : Vector KeyInput 4
  flags : BitVec 8
  deriving DecidableEq, Repr

/-! ## Playback lanes (chapters 3 and 4) -/

/-- Outcomes of a run (R51). -/
inductive RunOutcome where
  | complete
  | cancelled
  | preempted
  | interlock
  | mode
  | runLimit
  | badStep
  | noPhrase
  deriving DecidableEq, Repr

/-- A run record (R54). -/
structure RunRecord where
  showNo : Nat
  id : Nat
  source : Source
  start : DateTime
  startValid : Bool
  outcome : Option RunOutcome
  taken : Nat
  fired : Nat
  late : Nat
  merged : Nat
  suppressed : Nat
  droppedLate : Nat
  droppedGuard : Nat
  droppedFull : Nat
  droppedInhibited : Nat
  droppedDisabled : Nat
  targetsLimited : Nat
  axisSkipped : Nat
  waitsTimedOut : Nat
  deriving DecidableEq, Repr

/-- Results of a wait (R64, R65). -/
inductive WaitResult where
  | ok
  | faulted
  | timeout
  deriving DecidableEq, Repr

/-- The states of a lane that is not IDLE (R47), with the fields present in WAITING (R58). -/
inductive LanePhase where
  | running
  | waiting (axes : BitVec 12) (deadline : Instant)
  | draining
  deriving DecidableEq, Repr

/-- The directory entry a lane executes (R58). -/
structure Executing where
  number : Nat
  phrase : Bool
  first : Nat
  count : Nat
  deriving DecidableEq, Repr

/-- What a lane that is not IDLE holds for its run (R47, R58). -/
structure Run where
  id : Nat
  showNo : Nat
  priority : Nat
  source : Source
  startSeq : Nat
  cursor : Nat
  returnPoint : Option Nat
  due : Instant
  counter : Nat
  lastWait : WaitResult
  elapsed : MsCount
  /-- run limit in seconds, taken at start (R34) -/
  limit : Nat
  record : RunRecord
  phase : LanePhase
  executing : Executing
  shown : Executing
  base : Instant
  /-- the take instant while the lane's timer is set -/
  timer : Option Instant
  zeroCount : Nat
  deriving DecidableEq, Repr

/-- A playback lane: IDLE when it has no run. -/
structure Lane where
  run : Option Run
  last : Option RunRecord
  deriving DecidableEq, Repr

/-! ## Strike unit (chapters 5 and 6) -/

/-- Why a bell is DISABLED (R94). -/
inductive DisableCause where
  | unconfigured
  | host
  | misses
  deriving DecidableEq, Repr

/-- Bell states (R94). -/
inductive BellState where
  | disabled (cause : DisableCause)
  | ready
  | firing
  | flight
  deriving DecidableEq, Repr

/-- The impact window of a strike in flight: not yet decided, confirmed (or deemed so, R103), or ended unconfirmed. -/
inductive Window where
  | pending
  | confirmed
  | ended
  deriving DecidableEq, Repr

/-- A strike in flight (R94, R98). -/
structure InFlight where
  owner : Owner
  velocity : Nat
  due : Instant
  flight : Nat
  pulse : Nat
  firedAt : Instant
  impact : Instant
  windowStart : Instant
  windowEnd : Instant
  window : Window
  deriving DecidableEq, Repr

/-- A bell: calibration record (R88) and run state (R94). -/
structure Bell where
  k : Nat
  pmin : Nat
  pmax : Nat
  guardMs : Nat
  windowMs : Nat
  missLimit : Nat
  state : BellState
  streak : Nat
  lastImpact : Option Instant
  guardInstant : Option Instant
  guardRunning : Bool
  inFlight : Option InFlight
  confirmedEnd : Option Instant
  deriving DecidableEq, Repr

/-- Fire states of a queued strike (R91, R95). -/
inductive FireState where
  | scheduled
  | heldBell
  | heldGuard (wait : Instant)
  | heldSupply
  deriving DecidableEq, Repr

/-- A strike record of the strike queue (R91): `due` is D, `flight` T, `pulse` W, `fireAt` the queued fire instant F. -/
structure Strike where
  bell : BellNo
  velocity : Nat
  owner : Owner
  due : Instant
  flight : Nat
  pulse : Nat
  fireAt : Instant
  late : Bool
  clipped : Bool
  merged : Bool
  fire : FireState
  order : Nat
  deriving DecidableEq, Repr

/-- The strike unit. -/
structure StrikeUnit where
  bells : Vector Bell 32
  curve : Vector Nat 17
  master : Nat
  emax : Nat
  tau : Nat
  queue : List Strike
  orderCount : Nat
  hammers : BitVec 32
  deriving DecidableEq, Repr

/-! ## Motion unit (chapter 7) -/

/-- Form of an axis, with the soft limits of a BOUNDED one (R109). -/
inductive AxisForm where
  | wrap
  | bounded (lower upper : Int)
  deriving DecidableEq, Repr

/-- Axis configuration (R109). -/
structure AxisConfig where
  form : AxisForm
  vmax : Nat
  dv : Nat
  stopDv : Nat
  tolerance : Nat
  deriving DecidableEq, Repr

/-- Directions of a MOVE (R115). -/
inductive Direction where
  | short
  | cw
  | ccw
  deriving DecidableEq, Repr

/-- Fault causes of an axis (R110). -/
inductive AxisFaultCause where
  | axisLink
  | ampFault
  | overtravel
  | tracking
  deriving DecidableEq, Repr

/-- Axis modes with the fields present in each (R110). -/
inductive AxisMode where
  | off
  | hold
  | move (target : Int) (direction : Direction) (rate : Nat)
  | spin (rate : Int)
  | follow (leader : AxisNo) (numerator : Int) (denominator : Nat) (offset : Int)
  | stopping (dv : Nat)
  | fault (cause : AxisFaultCause)
  deriving DecidableEq, Repr

/-- Commands of a setpoint frame (R158). -/
inductive FrameCommand where
  | enable
  | hold
  | disable
  deriving DecidableEq, Repr

/-- Amplifier status codes (R158). -/
inductive AmpStatus where
  | ready
  | notReady
  | fault
  deriving DecidableEq, Repr

/-- An amplifier's reply as read from the bus. -/
structure AmpReply where
  status : AmpStatus
  measured : Int
  deriving DecidableEq, Repr

/-- An axis: configuration (R109), run state (R110) and the state of its present update (R111, R112, R137, R138). -/
structure Axis where
  config : Option AxisConfig
  mode : AxisMode
  cmd : Option Int
  residue : Int
  v : Int
  turns : Int
  measured : Option Int
  lastCommand : Option FrameCommand
  previousCommand : Option FrameCommand
  missed : Nat
  lag : Bool
  /-- the slot of the present cycle has been taken -/
  slotTaken : Bool
  /-- the setpoint the last update sent, or would have sent in LIVE (R128, R138) -/
  sent : Int
  /-- cmd as it stood at the last slot instant, before the profile (R137) -/
  slotCmd : Option Int
  /-- the end of the reply allowance while a reply is awaited -/
  awaiting : Option Instant
  /-- the latest valid reply decoded in LISTEN since the previous slot; none while unconfigured -/
  heard : Option AmpReply
  deriving DecidableEq, Repr

/-- A frame the part is driving on the axis bus, and the instant AXB_DE falls (R158). -/
structure BusFrame where
  bytes : List Byte
  endsAt : Instant
  deriving DecidableEq, Repr

/-- The motion unit. -/
structure Motion where
  axes : Vector Axis 12
  line : Option BusFrame
  deriving DecidableEq, Repr

/-! ## Tracking verifier and axis exercise (chapter 8) -/

/-- Verdicts of a dwell (R129). -/
inductive Verdict where
  | pass
  | fail
  | skipped
  deriving DecidableEq, Repr

/-- The verdict record of an axis (R127): error and allowance are absent for SKIPPED. -/
structure VerdictRecord where
  verdict : Verdict
  error : Option Nat
  allowance : Option Nat
  deriving DecidableEq, Repr

/-- The verifier's scan (R127). -/
structure Verifier where
  enable : Bool
  scan : Option AxisNo
  last : Option AxisNo
  dwell : Nat
  disturbed : Bool
  previousSetpoint : Option Int
  pass : BitVec 16
  verdicts : Vector (Option VerdictRecord) 12
  /-- the scan axis has had an update in this dwell whose reply is not yet taken -/
  updateSeen : Bool
  deriving DecidableEq, Repr

/-- Phases of the exercise (R132). -/
inductive ExercisePhase where
  | moving
  | dwelling
  | returning
  | done
  deriving DecidableEq, Repr

/-- Why an exercise was aborted (R134). -/
inductive AbortCause where
  | host
  | interlock
  | mode
  | fault
  deriving DecidableEq, Repr

/-- Verdict of an exercise (R132). -/
inductive ExerciseVerdict where
  | pass
  | fail
  | aborted (cause : AbortCause)
  deriving DecidableEq, Repr

/-- The result of one test position (R133). -/
structure PositionResult where
  error : Nat
  passed : Bool
  deriving DecidableEq, Repr

/-- The exercise record (R132). -/
structure Exercise where
  axis : AxisNo
  start : Int
  rate : Nat
  phase : ExercisePhase
  index : Fin 8
  dwell : Nat
  positions : Vector Int 8
  results : Vector (Option PositionResult) 8
  verdict : Option ExerciseVerdict
  deriving DecidableEq, Repr

/-! ## Output control (chapter 9) -/

/-- Output modes (R136). -/
inductive OutputMode where
  | safe
  | live
  | rehearse
  | listen
  deriving DecidableEq, Repr

/-- Output control: the mode, the debounced interlock (`isOpen`), the ATRIUM_CLEAR level and its last change (R141). -/
structure OutputControl where
  mode : OutputMode
  isOpen : Bool
  atriumClear : Bool
  changedAt : Instant
  deriving DecidableEq, Repr

/-! ## Message port (chapter 10) -/

/-- A good request frame of the receive queue. -/
structure RxFrame where
  tag : Byte
  kind : Byte
  payload : List Byte
  deriving DecidableEq, Repr

/-- What a frame of the transmit queue is (R148, R154). -/
inductive FrameRole where
  | reply
  | resetReply
  | notice
  deriving DecidableEq, Repr

/-- A frame of the transmit queue. -/
structure TxFrame where
  role : FrameRole
  tag : Byte
  kind : Byte
  payload : List Byte
  deriving DecidableEq, Repr

/-- The receiver (R144): hunting, or inside a frame with the bytes received after START. -/
inductive Receiver where
  | hunting
  | inside (bytes : List Byte)
  deriving DecidableEq, Repr

/-- The condition latches of a bell (R150). -/
structure BellLatches where
  miss : Bool
  disabled : Bool
  stray : Bool
  shadowMiss : Bool
  shadowExtra : Bool
  deriving DecidableEq, Repr

/-- The condition latches of an axis (R150); FAULT holds its cause. -/
structure AxisLatches where
  fault : Option AxisFaultCause
  lag : Bool
  mismatch : Bool
  deriving DecidableEq, Repr

/-- The condition latches (R150). -/
structure Latches where
  bells : Vector BellLatches 32
  axes : Vector AxisLatches 12
  interlock : Bool
  timeInvalid : Bool
  ppsLost : Bool
  linkCheck : Bool
  linkFraming : Bool
  receiveOverflow : Bool
  noticeLost : Bool
  supplyDeferred : Bool
  requestDropped : Bool
  deriving DecidableEq, Repr

/-- Kind of a reset (R153). -/
inductive ResetKind where
  | hard
  | soft
  deriving DecidableEq, Repr

/-- The reset record (R153). -/
structure ResetRecord where
  kind : ResetKind
  reported : Bool
  deriving DecidableEq, Repr

/-- The message port. -/
structure Port where
  receiver : Receiver
  lastByte : Instant
  baud : BitVec 2
  rx : List RxFrame
  tx : List TxFrame
  /-- when the last stop bit of the head frame will have been sent -/
  sentAt : Option Instant
  held : Option TxFrame
  /-- a RESET has been taken and its reset has not yet acted (R154) -/
  resetWaiting : Bool
  /-- the RESET reply has been sent: the soft reset acts now (R154) -/
  resetDue : Bool
  /-- the model's own: the port is handing over the frame it has taken; never set between steps
  (notes/assumptions/11.md) -/
  handing : Bool
  mask : BitVec 12
  latches : Latches
  resetRecord : ResetRecord
  deriving DecidableEq, Repr

/-! ## The machine -/

/-- The whole block. -/
structure State where
  /-- the timebase -/
  now : Instant
  /-- microseconds since the start of the present update cycle (R111) -/
  cycle : Nat
  cal : Calendar
  store : Store
  sched : Scheduler
  lanes : Vector Lane 4
  strikes : StrikeUnit
  motion : Motion
  verifier : Verifier
  exercise : Option Exercise
  output : OutputControl
  port : Port
  /-- the model's own: the counter free values are applied to (notes/assumptions/6.md) -/
  choices : Nat
  /-- the commands that wait, first in, first out -/
  pending : List Instr
  deriving DecidableEq, Repr

/-- Reasons to stop with a fault. The manual lets nothing stop the block. -/
inductive Fault where
  /-- Raised by no command: every command of the table has an effect. Safe. -/
  | never
  deriving DecidableEq, Repr

/-- Reasons to refuse. -/
inductive Refusal where
  /-- Raised by an arm of `exec` whose command has no meaning yet (none is left). Safe. -/
  | notModelled (mnemonic : String)
  deriving DecidableEq, Repr

/-! ## Values after a hard reset -/

/-- The calendar after a hard reset (R2, R9, R11, R13, R17, R20). -/
def Calendar.reset : Calendar where
  time := ⟨⟨2000, 1, 1⟩, 0, 0, 0, 0, 0⟩
  timeValid := false
  ppsEnable := false
  ppsState := .none
  ppsDeadline := 0
  ppsSince := none
  programmes := Vector.replicate 16 ⟨100, 100, 0, 0⟩
  seasons := Vector.replicate 16 ⟨false, 0, 0, 0, 0, 0, 0, 0⟩
  triggers := Vector.replicate 96 ⟨false, some 0, 0, 0, 0, 0, 0, 0, none⟩
  active := 0
  winner := none
  quiet := false
  level := 100
  timedPlays := []

/-- The show store after a hard reset (R36). -/
def Store.reset : Store where
  directory := Vector.replicate 64 .free
  cursor := none
  mem := []
  compaction := none

/-- The scheduler after a hard reset (R57); key inputs low (notes/assumptions/4.md). -/
def Scheduler.reset : Scheduler where
  queue := []
  arrivals := 0
  lastId := 0
  startSeq := 0
  claims := Vector.replicate 12 none
  keys := Vector.replicate 4 ⟨false, 0, 0, 0⟩
  inputs := Vector.replicate 4 ⟨false, 0, false, none⟩
  flags := 0

/-- A bell after a hard reset (R88, R108). -/
def Bell.reset : Bell where
  k := 640000
  pmin := 2000
  pmax := 12000
  guardMs := 150
  windowMs := 15
  missLimit := 3
  state := .disabled .unconfigured
  streak := 0
  lastImpact := none
  guardInstant := none
  guardRunning := false
  inFlight := none
  confirmedEnd := none

/-- The strike unit after a hard reset (R88, R89, R90, R108). -/
def StrikeUnit.reset : StrikeUnit where
  bells := Vector.replicate 32 Bell.reset
  curve := Vector.ofFn fun i : Fin 17 => 256 * i.val
  master := 100
  emax := 6
  tau := 20000
  queue := []
  orderCount := 0
  hammers := 0

/-- An axis after a hard reset (R126). -/
def Axis.reset : Axis where
  config := none
  mode := .off
  cmd := none
  residue := 0
  v := 0
  turns := 0
  measured := none
  lastCommand := none
  previousCommand := none
  missed := 0
  lag := false
  slotTaken := false
  sent := 0
  slotCmd := none
  awaiting := none
  heard := none

/-- The motion unit after a hard reset (R126, R155). -/
def Motion.reset : Motion where
  axes := Vector.replicate 12 Axis.reset
  line := none

/-- The verifier after a hard reset (R127). -/
def Verifier.reset : Verifier where
  enable := true
  scan := none
  last := none
  dwell := 0
  disturbed := false
  previousSetpoint := none
  pass := 0
  verdicts := Vector.replicate 12 none
  updateSeen := false

/-- Output control after a hard reset (R136, R141); ATRIUM_CLEAR low (notes/assumptions/4.md), and the count of the debounce
starting at the reset instant, for which R141 gives no value (notes/assumptions/54.md). -/
def OutputControl.reset : OutputControl where
  mode := .safe
  isOpen := true
  atriumClear := false
  changedAt := 0

/-- The latches after a hard reset: the level causes present are presented at once (R150). -/
def Latches.reset : Latches where
  bells := Vector.replicate 32 ⟨false, true, false, false, false⟩
  axes := Vector.replicate 12 ⟨none, false, false⟩
  interlock := true
  timeInvalid := true
  ppsLost := false
  linkCheck := false
  linkFraming := false
  receiveOverflow := false
  noticeLost := false
  supplyDeferred := false
  requestDropped := false

/-- The message port after a hard reset with the line rate code sampled (R144, R149, R150, R155). -/
def Port.reset (baud : BitVec 2) : Port where
  receiver := .hunting
  lastByte := 0
  baud := baud
  rx := []
  tx := []
  sentAt := none
  held := none
  resetWaiting := false
  resetDue := false
  handing := false
  mask := 0
  latches := Latches.reset
  resetRecord := ⟨.hard, false⟩

/-- The machine right after a hard reset (R155), with BAUD1:0 sampled as 00 (notes/assumptions/4.md). -/
def State.reset : State where
  now := 0
  cycle := 0
  cal := Calendar.reset
  store := Store.reset
  sched := Scheduler.reset
  lanes := Vector.replicate 4 ⟨none, none⟩
  strikes := StrikeUnit.reset
  motion := Motion.reset
  verifier := Verifier.reset
  exercise := none
  output := OutputControl.reset
  port := Port.reset 0
  choices := 0
  pending := []

end Sys2Proof.Machine
end

