-- ==== Sys2Proof/Machine/Ops.lean ====
section
/-! DEFINITION. The named operations every unit uses: the order of instants, tables, axis masks, step memory, and the
accessors of State. -/
namespace Sys2Proof.Machine

/-! ## Instants (R1) -/

/-- Instant a is before instant b: (b − a) mod 2^32 lies in 1 … 2^31 − 1 (R1). -/
def before (a b : Instant) : Bool :=
  let d := (b - a).toNat
  1 ≤ d && d ≤ 2147483647

/-- An instant has come: it is not after now. -/
def reached (t now : Instant) : Bool := !before now t

/-- Microseconds as a distance between instants. -/
def micros (n : Nat) : Instant := BitVec.ofNat 32 n

/-- Milliseconds as a distance between instants. -/
def millis (n : Nat) : Instant := micros (n * 1000)

/-- The distance between two instants, whichever is first. -/
def distance (a b : Instant) : Nat :=
  if before a b then (b - a).toNat else (a - b).toNat

/-- How late `now` is after `t`, 0 when `t` is not before now (R83). -/
def lateness (t now : Instant) : Nat :=
  if before t now then (now - t).toNat else 0

/-! ## Counts -/

/-- A run-record counter plus one: at 65,535 it stays (R54). -/
def satInc (n : Nat) : Nat := if n < Config.counterTop then n + 1 else n

/-- One microsecond on an elapsed count. -/
def MsCount.tick (c : MsCount) : MsCount :=
  if c.us + 1 < 1000 then { c with us := c.us + 1 } else { ms := c.ms + 1, us := 0 }

/-! ## Tables -/

/-- Entry i of a table. -/
def tget {α : Type} {n : Nat} (t : Vector α n) (i : Fin n) : α := t[i.val]

/-- A table with entry i replaced. -/
def tset {α : Type} {n : Nat} (t : Vector α n) (i : Fin n) (x : α) : Vector α n := t.set i.val x

/-- The indexes of a table in ascending order. -/
def indexes (n : Nat) : List (Fin n) := List.finRange n

/-- A wire number as a table index, if it is one. -/
def index? (n : Nat) (x : Nat) : Option (Fin n) := if h : x < n then some ⟨x, h⟩ else none

/-- Axis a is in an axis mask (section 11.2: bit a is axis a). -/
def inMask (m : BitVec 12) (a : AxisNo) : Bool := m.getLsbD a.val

/-- The axes of a mask in ascending order. -/
def maskAxes (m : BitVec 12) : List AxisNo := (indexes 12).filter (inMask m)

/-- The mask of the axes with a property. -/
def maskOf (p : AxisNo → Bool) : BitVec 12 :=
  BitVec.ofNat 12 ((indexes 12).foldl (fun acc a => if p a then acc + 2 ^ a.val else acc) 0)

/-! ## Step memory (R21, R35, R36) -/

/-- What an unlisted byte reads as: every step slot holds zero after a hard reset (R36). -/
def unlistedByte : Byte := 0

/-- Read one byte of step memory. -/
def Memory.readByte : Memory → Nat → Byte
  | [], _ => unlistedByte
  | (k, v) :: rest, a => if a = k then v else Memory.readByte rest a

/-- Write one byte of step memory, keeping the canonical form. -/
def Memory.writeByte : Memory → Nat → Byte → Memory
  | [], a, b => if b = unlistedByte then [] else [(a, b)]
  | (k, v) :: rest, a, b =>
    if a < k then (if b = unlistedByte then (k, v) :: rest else (a, b) :: (k, v) :: rest)
    else if a = k then (if b = unlistedByte then rest else (a, b) :: rest)
    else (k, v) :: Memory.writeByte rest a b

/-- The canonical form above a lower bound: addresses strictly rising, no unlisted value listed. -/
def Memory.wfFrom : Nat → Memory → Bool
  | _, [] => true
  | lo, (k, v) :: rest => decide (lo ≤ k) && (v != unlistedByte) && Memory.wfFrom (k + 1) rest

/-- The canonical form of step memory. -/
def Memory.wf (m : Memory) : Bool := Memory.wfFrom 0 m

/-- Byte i (0 … 7) of a step record, in the order of the record (section 11.5). -/
def stepByte (w : StepWord) (i : Nat) : Byte := w.extractLsb' (8 * (7 - i)) 8

/-- The step record made of 8 bytes, first byte first. -/
def stepOfBytes (f : Nat → Byte) : StepWord :=
  f 0 ++ f 1 ++ f 2 ++ f 3 ++ f 4 ++ f 5 ++ f 6 ++ f 7

/-- The step record in a slot (R35). -/
def Memory.readSlot (m : Memory) (slot : Nat) : StepWord :=
  stepOfBytes fun i => m.readByte (8 * slot + i)

/-- Write a step record into a slot. -/
def Memory.writeSlot (m : Memory) (slot : Nat) (w : StepWord) : Memory :=
  (List.range 8).foldl (fun acc i => acc.writeByte (8 * slot + i) (stepByte w i)) m

/-- Write records into consecutive slots (R24). -/
def Memory.writeSlots : Memory → Nat → List StepWord → Memory
  | m, _, [] => m
  | m, slot, w :: rest => Memory.writeSlots (m.writeSlot slot w) (slot + 1) rest

/-- Move `n` records down from slot `src` to slot `dst`, lowest first (R32). -/
def Memory.moveSlots (m : Memory) (src dst : Nat) : Nat → Memory
  | 0 => m
  | n + 1 =>
    let m' := Memory.moveSlots m src dst n
    m'.writeSlot (dst + n) (m'.readSlot (src + n))

/-! ## Accessors of State -/

def State.bell (s : State) (b : BellNo) : Bell := tget s.strikes.bells b
def State.axis (s : State) (a : AxisNo) : Axis := tget s.motion.axes a
def State.lane (s : State) (n : LaneNo) : Lane := tget s.lanes n
def State.claim (s : State) (a : AxisNo) : Option Owner := tget s.sched.claims a
def State.mode (s : State) : OutputMode := s.output.mode

def State.setBell (s : State) (b : BellNo) (x : Bell) : State :=
  { s with strikes := { s.strikes with bells := tset s.strikes.bells b x } }
def State.setAxis (s : State) (a : AxisNo) (x : Axis) : State :=
  { s with motion := { s.motion with axes := tset s.motion.axes a x } }
def State.setLane (s : State) (n : LaneNo) (x : Lane) : State :=
  { s with lanes := tset s.lanes n x }
def State.setRun (s : State) (n : LaneNo) (r : Run) : State :=
  s.setLane n { s.lane n with run := some r }
def State.setClaim (s : State) (a : AxisNo) (o : Option Owner) : State :=
  { s with sched := { s.sched with claims := tset s.sched.claims a o } }
def State.setQueue (s : State) (q : List Strike) : State :=
  { s with strikes := { s.strikes with queue := q } }
def State.setRequests (s : State) (q : List Request) : State :=
  { s with sched := { s.sched with queue := q } }

/-- While the mode is LIVE and the debounced interlock is open (R48, R85, R123, R132, R143). -/
def State.stopped (s : State) : Bool := s.mode == .live && s.output.isOpen

/-- A free choice between the two orders of two events, and the state with the next choice (notes/assumptions/6.md). -/
def State.freeBool (s : State) : Bool := Config.freePick s.choices % 2 == 0
def State.nextChoice (s : State) : State := { s with choices := s.choices + 1 }

end Sys2Proof.Machine
end

