-- ==== Sys2Proof/Machine/Operands.lean ====
section
/-! DEFINITION. Operand forms: how wire fields and step records are read (sections 11.2, 11.3, 11.5; R26, R157), and how
fields are put on the wire. -/
namespace Sys2Proof.Machine

/-! ## Fields on the wire: high byte first (section 11.2) -/

def byteOf (n : Nat) : Byte := BitVec.ofNat 8 n
def boolByte (b : Bool) : Byte := if b then 1 else 0
def two (h : Half) : List Byte := [h.extractLsb' 8 8, h.extractLsb' 0 8]
def three (w : BitVec 24) : List Byte := [w.extractLsb' 16 8, w.extractLsb' 8 8, w.extractLsb' 0 8]
def four (w : Long) : List Byte :=
  [w.extractLsb' 24 8, w.extractLsb' 16 8, w.extractLsb' 8 8, w.extractLsb' 0 8]
def twoOf (n : Nat) : List Byte := two (BitVec.ofNat 16 n)
def fourOf (n : Nat) : List Byte := four (BitVec.ofNat 32 n)
/-- A signed angle or rate, two's complement in four bytes. -/
def signed (x : Int) : List Byte := four (BitVec.ofInt 32 x)

/-- Absent markers (R157). -/
def absentOne : Byte := 0xFF
def absentTwo : List Byte := [0xFF, 0xFF]
def absentFour : List Byte := [0x80, 0x00, 0x00, 0x00]

def oneOrAbsent : Option Nat → Byte
  | some n => byteOf n
  | none => absentOne
def signedOrAbsent : Option Int → List Byte
  | some x => signed x
  | none => absentFour
def instantOrAbsent : Option Instant → List Byte
  | some t => four t
  | none => absentFour

/-! ## Codes of one byte (section 11.3) -/

def OutputMode.code : OutputMode → Byte
  | .safe => 0 | .live => 1 | .rehearse => 2 | .listen => 3
def outputModeOf (b : Byte) : Option OutputMode :=
  if b = 0 then some .safe else if b = 1 then some .live else if b = 2 then some .rehearse
  else if b = 3 then some .listen else none

def directionOf (b : Byte) : Option Direction :=
  if b = 0 then some .short else if b = 1 then some .cw else if b = 2 then some .ccw else none
def Direction.code : Direction → Byte
  | .short => 0 | .cw => 1 | .ccw => 2

/-- A boolean byte: 0 off or clear, 1 on or set; any other value is out of range (section 11.2, R157). -/
def boolOf (b : Byte) : Option Bool := if b = 0 then some false else if b = 1 then some true else none

def RunOutcome.code : RunOutcome → Byte
  | .complete => 0 | .cancelled => 1 | .preempted => 2 | .interlock => 3 | .mode => 4 | .runLimit => 5
  | .badStep => 6 | .noPhrase => 7

/-- Why a request was dropped (R43). -/
inductive DropReason where
  | expired
  | evicted
  | full
  | noShow
  | cancelled
  deriving DecidableEq, Repr

def DropReason.code : DropReason → Byte
  | .expired => 0 | .evicted => 1 | .full => 2 | .noShow => 3 | .cancelled => 4

def WaitResult.code : WaitResult → Byte
  | .ok => 0 | .faulted => 1 | .timeout => 2
def DisableCause.code : DisableCause → Byte
  | .unconfigured => 0 | .host => 1 | .misses => 2
def BellState.code : BellState → Byte
  | .disabled _ => 0 | .ready => 1 | .firing => 2 | .flight => 3
def AxisMode.code : AxisMode → Byte
  | .off => 0 | .hold => 1 | .move .. => 2 | .spin _ => 3 | .follow .. => 4 | .stopping _ => 5 | .fault _ => 6
def AxisFaultCause.code : AxisFaultCause → Byte
  | .axisLink => 1 | .ampFault => 2 | .overtravel => 3 | .tracking => 4
def FrameCommand.code : FrameCommand → Byte
  | .enable => 1 | .hold => 2 | .disable => 3
def PpsState.code : PpsState → Byte
  | .none => 0 | .locked => 1 | .lost => 2
def Verdict.code : Verdict → Byte
  | .pass => 0 | .fail => 1 | .skipped => 2
def ExercisePhase.code : ExercisePhase → Byte
  | .moving => 0 | .dwelling => 1 | .returning => 2 | .done => 3
def AbortCause.code : AbortCause → Byte
  | .host => 0 | .interlock => 1 | .mode => 2 | .fault => 3
def FireState.code : FireState → Byte
  | .scheduled => 0 | .heldBell => 1 | .heldGuard _ => 2 | .heldSupply => 3
def Owner.code : Owner → Byte
  | .lane n => byteOf n.val | .link => 4 | .exercise => 5
def ownerOrNone : Option Owner → Byte
  | some o => o.code
  | none => 0xFF
def Source.bytes : Source → List Byte
  | .trigger e => [0, byteOf e.val]
  | .key k => [1, byteOf k.val]
  | .link => [2, 0]
def ResetKind.code : ResetKind → Byte
  | .hard => 0 | .soft => 1

/-! ## Result codes (section 11.3) -/

/-- Result codes of replies. -/
inductive Result where
  | ok | badKind | badLength | badArg | busy | inUse | claimed | notFound | full | sequence | incomplete
  | invalidStep | mode | interlock | noTime | disabled
  deriving DecidableEq, Repr

def Result.code : Result → Byte
  | .ok => 0 | .badKind => 1 | .badLength => 2 | .badArg => 3 | .busy => 4 | .inUse => 5 | .claimed => 6
  | .notFound => 7 | .full => 8 | .sequence => 9 | .incomplete => 10 | .invalidStep => 11 | .mode => 12
  | .interlock => 13 | .noTime => 14 | .disabled => 15

/-! ## Step records (section 11.5) -/

/-- A decoded step. Numbers are those the record holds, whether or not R26 accepts them. -/
inductive Step where
  | strike (bell velocity : Nat)
  | move (axis : Nat) (wrap : Bool) (direction : Direction) (target : Int) (rate : Nat)
  | spin (axis : Nat) (rate : Int)
  | stop (axis : Nat)
  | follow (axis leader : Nat) (numerator : Int) (denominator : Nat) (offset : Int)
  | waitAxis (mask : Half) (timeout : Nat)
  | setFlag (flag value : Nat)
  | countSet (source value : Nat)
  | branch (sense condition : Nat) (argument : Half) (target : Nat)
  | call (entry : Nat)
  | returnStep
  | endStep
  | unknown
  deriving DecidableEq, Repr

/-- The delta of a step record in ms: bytes 1 and 2 (section 11.5). -/
def stepDelta (w : StepWord) : Nat := (w.extractLsb' 40 16).toNat

/-- Bits of the 40-bit argument field, bytes 3 … 7. -/
def argBits (w : StepWord) (low width : Nat) : BitVec width := w.extractLsb' low width

/-- The MOVE field: bits 39–38 form and direction, 37–19 target, 18–0 rate (section 11.5). -/
def decodeMove (axis : Nat) (w : StepWord) : Step :=
  let form := argBits w 38 2
  let target := argBits w 19 19
  let rate := (argBits w 0 19).toNat
  if form = 3 then .move axis false .short target.toInt rate
  else .move axis true (if form = 0 then .short else if form = 1 then .cw else .ccw) (target.toNat : Int) rate

/-- A step record decoded by the layout of section 11.5. -/
def decodeStep (w : StepWord) : Step :=
  let kind := (w.extractLsb' 60 4).toNat
  let nibble := (w.extractLsb' 56 4).toNat
  match kind with
  | 1 => .strike (argBits w 32 8).toNat (argBits w 24 8).toNat
  | 2 => decodeMove nibble w
  | 3 => .spin nibble (argBits w 16 24).toInt
  | 4 => .stop nibble
  | 5 => .follow nibble (argBits w 36 4).toNat (argBits w 30 6).toInt (argBits w 24 5).toNat (argBits w 0 24).toInt
  | 6 => .waitAxis (argBits w 24 16) (argBits w 8 16).toNat
  | 7 => .setFlag (argBits w 32 8).toNat (argBits w 24 8).toNat
  | 8 => .countSet (argBits w 32 8).toNat (argBits w 24 8).toNat
  | 9 => .branch nibble (argBits w 32 8).toNat (argBits w 16 16) (argBits w 0 16).toNat
  | 10 => .call (argBits w 32 8).toNat
  | 11 => .returnStep
  | 12 => .endStep
  | _ => .unknown

/-- The BRANCH conditions by code (section 11.5). -/
inductive Condition where
  | flag | programme | quiet | settled | axisFault | bellOk | waitTimeout | rehearsal | hour | count
  deriving DecidableEq, Repr

def conditionOf : Nat → Option Condition
  | 0 => some .flag | 1 => some .programme | 2 => some .quiet | 3 => some .settled | 4 => some .axisFault
  | 5 => some .bellOk | 6 => some .waitTimeout | 7 => some .rehearsal | 8 => some .hour | 9 => some .count
  | _ => none

/-- The low twelve bits of a two-byte axis mask. -/
def axisMaskOf (m : Half) : BitVec 12 := m.extractLsb' 0 12

/-- An axis mask names an axis above 11 (section 11.2, R157). -/
def maskBeyond (m : Half) : Bool := m.extractLsb' 12 4 != 0

/-! ## Validation of a step (R26, R27) -/

/-- The axis a MOVE, SPIN, STOP or FOLLOW step names. -/
def Step.commandAxis : Step → Option Nat
  | .move axis .. => some axis
  | .spin axis _ => some axis
  | .stop axis => some axis
  | .follow axis .. => some axis
  | _ => none

/-- What validation reads of the entry a step stands in (R25). -/
structure StepContext where
  kind : EntryKind
  count : Nat
  index : Nat
  deriving DecidableEq, Repr

def failsKind : Step → Bool
  | .unknown => true
  | _ => false

def failsBell : Step → Bool
  | .strike bell _ => 31 < bell
  | .branch _ condition argument _ => conditionOf condition == some .bellOk && 31 < argument.toNat
  | _ => false

def failsVelocity : Step → Bool
  | .strike _ velocity => velocity < 1 || 127 < velocity
  | _ => false

def failsAxis : Step → Bool
  | .move axis .. => 11 < axis
  | .spin axis _ => 11 < axis
  | .stop axis => 11 < axis
  | .follow axis .. => 11 < axis
  | .waitAxis mask _ => maskBeyond mask
  | .branch _ condition argument _ =>
    (conditionOf condition == some .settled && maskBeyond argument)
      || (conditionOf condition == some .axisFault && 11 < argument.toNat)
  | _ => false

def failsClaim (c : StepContext) (st : Step) : Bool :=
  match c.kind, st.commandAxis with
  | .playable claims _, some axis => !claims.getLsbD axis
  | _, _ => false

def failsTarget : Step → Bool
  | .move _ true _ target _ => target < 0 || 359999 < target
  | .move _ false _ target _ => target < -180000 || 180000 < target
  | _ => false

def failsRate : Step → Bool
  | .move _ _ _ _ rate => rate < 1 || 360000 < rate
  | .spin _ rate => rate == 0 || 360000 < rate.natAbs
  | _ => false

/-- The bounds of R26 on the values of a FOLLOW. -/
def followOutOfRange (axis leader : Nat) (numerator : Int) (denominator : Nat) (offset : Int) : Bool :=
  11 < leader || leader == axis || numerator == 0 || 16 < numerator.natAbs
    || denominator < 1 || 16 < denominator || 359999 < offset.natAbs

def failsFollow : Step → Bool
  | .follow axis leader numerator denominator offset => followOutOfRange axis leader numerator denominator offset
  | _ => false

def failsTimeout : Step → Bool
  | .waitAxis _ timeout => timeout == 0
  | _ => false

def failsFlag : Step → Bool
  | .setFlag flag value => 7 < flag || 1 < value
  | .branch _ condition argument _ => conditionOf condition == some .flag && 7 < argument.toNat
  | _ => false

def failsCount : Step → Bool
  | .countSet source _ => 3 < source
  | _ => false

def failsCondition : Step → Bool
  | .branch sense condition argument _ =>
    1 < sense
      || (match conditionOf condition with
          | none => true
          | some .programme => 15 < argument.toNat
          | some .hour => 23 < argument.toNat
          | some _ => false)
  | _ => false

def failsBranchTarget (c : StepContext) : Step → Bool
  | .branch _ _ _ target => c.count ≤ target
  | _ => false

def failsCallTarget : Step → Bool
  | .call entry => 63 < entry
  | _ => false

def failsPlacement (c : StepContext) : Step → Bool
  | .call _ => c.kind == .phrase
  | .returnStep => c.kind != .phrase
  | .endStep => c.kind == .phrase
  | _ => false

def failsLast (c : StepContext) (st : Step) : Bool :=
  c.index + 1 == c.count
    && (match c.kind with
        | .playable _ _ => st != .endStep
        | .phrase => st != .returnStep)

/-- The checks of R26 in the order of their reason codes. A MOVE, SPIN or FOLLOW that fails UNCLAIMED (5) and one of TARGET,
RATE and FOLLOW (6 to 8) as well is given 5, the lower code (notes/assumptions/44.md). -/
def stepChecks (c : StepContext) (st : Step) : List (Nat × Bool) :=
  [(1, failsKind st), (2, failsBell st), (3, failsVelocity st), (4, failsAxis st), (5, failsClaim c st),
   (6, failsTarget st), (7, failsRate st), (8, failsFollow st), (9, failsTimeout st), (10, failsFlag st),
   (11, failsCount st), (12, failsCondition st), (13, failsBranchTarget c st), (14, failsCallTarget st),
   (15, failsPlacement c st), (16, failsLast c st)]

/-- The reason code of the first check a step fails, if it fails one (R26). -/
def stepFailure (c : StepContext) (st : Step) : Option Nat :=
  ((stepChecks c st).find? (·.2)).map (·.1)

end Sys2Proof.Machine
end

