-- ==== Sys2Proof/Machine/Flags.lean ====
section
/-! DEFINITION. Every flag the block computes: the condition latches and their causes (R150, R151), the alarm causes and
ALARM_N (R152), the strike flags byte (R87, section 11.2), and the STATUS bytes of the latches (section 11.7). -/
namespace Sys2Proof.Machine

/-! ## Level causes (R150) -/

/-- The bell presents its DISABLED cause (R101, R104). -/
def Bell.isDisabled (b : Bell) : Bool :=
  match b.state with
  | .disabled _ => true
  | _ => false

/-- The bell presents its alarm cause: DISABLED with cause MISSES (R101). -/
def Bell.alarms (b : Bell) : Bool := b.state == .disabled .misses

/-- The fault an axis presents (R113). -/
def Axis.faultCause (x : Axis) : Option AxisFaultCause :=
  match x.mode with
  | .fault c => some c
  | _ => none

/-- The level causes of a bell, as latches. -/
def bellLevel (b : Bell) : BellLatches := ⟨false, b.isDisabled, false, false, false⟩

/-- The level causes of an axis, as latches. -/
def axisLevel (x : Axis) : AxisLatches := ⟨x.faultCause, x.lag, false⟩

/-- The latches the level causes present now would set: what stands after a reset (R150). -/
def levelLatches (s : State) : Latches where
  bells := s.strikes.bells.map bellLevel
  axes := s.motion.axes.map axisLevel
  interlock := s.output.isOpen
  timeInvalid := !s.cal.timeValid
  ppsLost := s.cal.ppsState == .lost
  linkCheck := false
  linkFraming := false
  receiveOverflow := false
  noticeLost := false
  supplyDeferred := false
  requestDropped := false

/-! ## STATUS clears every latch whose cause is not presented (R151) -/

def BellLatches.keep (old present : BellLatches) : BellLatches :=
  ⟨old.miss && present.miss, old.disabled && present.disabled, old.stray && present.stray,
   old.shadowMiss && present.shadowMiss, old.shadowExtra && present.shadowExtra⟩

def AxisLatches.keep (old present : AxisLatches) : AxisLatches :=
  ⟨if present.fault.isSome then old.fault else none, old.lag && present.lag, old.mismatch && present.mismatch⟩

def Latches.keep (old present : Latches) : Latches where
  bells := Vector.ofFn fun b => (tget old.bells b).keep (tget present.bells b)
  axes := Vector.ofFn fun a => (tget old.axes a).keep (tget present.axes a)
  interlock := old.interlock && present.interlock
  timeInvalid := old.timeInvalid && present.timeInvalid
  ppsLost := old.ppsLost && present.ppsLost
  linkCheck := old.linkCheck && present.linkCheck
  linkFraming := old.linkFraming && present.linkFraming
  receiveOverflow := old.receiveOverflow && present.receiveOverflow
  noticeLost := old.noticeLost && present.noticeLost
  supplyDeferred := old.supplyDeferred && present.supplyDeferred
  requestDropped := old.requestDropped && present.requestDropped

/-! ## Setting a latch -/

/-- The latches changed. -/
def State.latch (s : State) (f : Latches → Latches) : State :=
  { s with port := { s.port with latches := f s.port.latches } }

def State.latchBell (s : State) (b : BellNo) (f : BellLatches → BellLatches) : State :=
  s.latch fun l => { l with bells := tset l.bells b (f (tget l.bells b)) }

def State.latchAxis (s : State) (a : AxisNo) (f : AxisLatches → AxisLatches) : State :=
  s.latch fun l => { l with axes := tset l.axes a (f (tget l.axes a)) }

/-! ## The alarm (R152) -/

/-- Some alarm cause is presented (R152). -/
def State.alarm (s : State) : Bool :=
  (indexes 32).any (fun b => (s.bell b).alarms)
    || (indexes 12).any (fun a => (s.axis a).faultCause.isSome)
    || !s.cal.timeValid
    || s.cal.ppsState == .lost
    || s.stopped

/-- The level of the ALARM_N pin: low while any alarm cause is presented, released (high) when none is (R152). -/
def State.alarmN (s : State) : Bool := !s.alarm

/-- The level of AXB_DE: high while a setpoint frame is driven (R158). -/
def State.axbDE (s : State) : Bool := s.motion.line.isSome

/-! ## Bytes of flags (section 11.2, 11.7) -/

/-- Strike flags: bit 0 LATE, bit 1 FLIGHT_CLIPPED, bit 2 MERGED. -/
def Strike.flagsByte (k : Strike) : Byte :=
  (if k.late then 1 else 0) + (if k.clipped then 2 else 0) + (if k.merged then 4 else 0)

def BellLatches.byte (l : BellLatches) : Byte :=
  (if l.miss then 1 else 0) + (if l.disabled then 2 else 0) + (if l.stray then 4 else 0)
    + (if l.shadowMiss then 8 else 0) + (if l.shadowExtra then 16 else 0)

def AxisLatches.byte (l : AxisLatches) : Byte :=
  (match l.fault with | some c => c.code | none => 0) + (if l.lag then 8 else 0) + (if l.mismatch then 16 else 0)

/-- The global latches: bit 0 INTERLOCK seen … bit 8 REQUEST_DROPPED seen. -/
def Latches.globalBits (l : Latches) : Half :=
  (if l.interlock then 1 else 0) + (if l.timeInvalid then 2 else 0) + (if l.ppsLost then 4 else 0)
    + (if l.linkCheck then 8 else 0) + (if l.linkFraming then 16 else 0) + (if l.receiveOverflow then 32 else 0)
    + (if l.noticeLost then 64 else 0) + (if l.supplyDeferred then 128 else 0) + (if l.requestDropped then 256 else 0)

/-- The latches of the status record (section 11.7): 32 bell bytes, 12 axis bytes, 2 global bytes. -/
def Latches.bytes (l : Latches) : List Byte :=
  l.bells.toList.map BellLatches.byte ++ l.axes.toList.map AxisLatches.byte ++ two l.globalBits

end Sys2Proof.Machine
end

