-- ==== Sys2Proof/Machine/Records.lean ====
section
/-! DEFINITION. The byte layouts of records and notices (chapter 11), and the check of a frame (R145, R158). -/
namespace Sys2Proof.Machine

/-! ## The check (R145) -/

/-- One bit of the check: generator x^16 + x^12 + x^5 + 1. -/
def checkBit (c : Half) : Half := if c.msb then (c <<< 1) ^^^ 0x1021 else c <<< 1

/-- One byte fed most significant bit first. -/
def checkByte (c : Half) (b : Byte) : Half :=
  (List.range 8).foldl (fun r _ => checkBit r) (c ^^^ (b ++ (0 : Byte)))

/-- The check over bytes: the register preset to all ones, the result not inverted (R145). -/
def checkOf (bytes : List Byte) : Half := bytes.foldl checkByte 0xFFFF

/-! ## Dates (section 11.2) -/

def Date.bytes (d : Date) : List Byte := twoOf d.year ++ [byteOf d.month, byteOf d.day]
def DateTime.bytes (t : DateTime) : List Byte := t.date.bytes ++ [byteOf t.hour, byteOf t.minute, byteOf t.second]
def MallTime.dateTime (t : MallTime) : DateTime := ⟨t.date, t.hour, t.minute, t.second⟩
def MallTime.fullBytes (t : MallTime) : List Byte := t.dateTime.bytes ++ twoOf t.milli

/-! ## Configuration records (section 11.6) -/

def Programme.bytes (p : Programme) : List Byte :=
  [byteOf p.openLevel, byteOf p.quietLevel] ++ twoOf p.quietStart ++ twoOf p.quietEnd

def Season.bytes (e : Season) : List Byte :=
  [boolByte e.inUse, byteOf e.startMonth, byteOf e.startDay, byteOf e.endMonth, byteOf e.endDay,
   e.weekdays.setWidth 8, byteOf e.programme, byteOf e.priority]

/-- A last-fired record: presence 1, date 4, minute of day 2; absent: year 0 and the absent two-byte number (R157), the month
and the day of an absent date, which R157 leaves open, being 0 (notes/assumptions/9.md). -/
def lastFiredBytes : Option DateMinute → List Byte
  | some d => 1 :: (d.date.bytes ++ twoOf d.minute)
  | none => 0 :: ([0, 0, 0, 0] ++ absentTwo)

def Trigger.bytes (t : Trigger) : List Byte :=
  [boolByte t.inUse, oneOrAbsent t.selector] ++ three t.hours
    ++ [byteOf t.minute, t.weekdays.setWidth 8, byteOf t.showNo, byteOf t.priority, byteOf t.grace]
    ++ lastFiredBytes t.lastFired

def Bell.recordBytes (b : Bell) : List Byte :=
  fourOf b.k ++ twoOf b.pmin ++ twoOf b.pmax ++ twoOf b.guardMs ++ [byteOf b.windowMs, byteOf b.missLimit]

def AxisForm.code : AxisForm → Byte
  | .wrap => 0
  | .bounded _ _ => 1

/-- The soft limits; absent for a WRAP axis (R109, R157). -/
def AxisForm.limitBytes : AxisForm → List Byte
  | .wrap => absentFour ++ absentFour
  | .bounded lower upper => signed lower ++ signed upper

def AxisConfig.bytes (c : AxisConfig) : List Byte :=
  c.form.code :: (c.form.limitBytes ++ fourOf c.vmax ++ twoOf c.dv ++ twoOf c.stopDv ++ twoOf c.tolerance)

/-! ## Run record (section 11.7) -/

def RunRecord.bytes (r : RunRecord) : List Byte :=
  [byteOf r.showNo, byteOf r.id] ++ r.source.bytes ++ r.start.bytes ++ [boolByte r.startValid]
    ++ [match r.outcome with | some o => o.code | none => absentOne]
    ++ twoOf r.taken ++ twoOf r.fired ++ twoOf r.late ++ twoOf r.merged ++ twoOf r.suppressed
    ++ twoOf r.droppedLate ++ twoOf r.droppedGuard ++ twoOf r.droppedFull ++ twoOf r.droppedInhibited
    ++ twoOf r.droppedDisabled ++ twoOf r.targetsLimited ++ twoOf r.axisSkipped ++ twoOf r.waitsTimedOut

/-- A run record or its absence: a presence byte, then the record (notes/assumptions/9.md). -/
def recordOrAbsent : Option RunRecord → List Byte
  | some r => 1 :: r.bytes
  | none => [0]

/-! ## Exercise results (section 11.8) -/

/-- One position: presence 1, error 4, result 1 (0 PASS, 1 FAIL). -/
def resultBytes : Option PositionResult → List Byte
  | some r => 1 :: (fourOf r.error ++ [if r.passed then 0 else 1])
  | none => 0 :: (absentFour ++ [absentOne])

def exerciseVerdictCode : Option ExerciseVerdict → Byte
  | some .pass => 0
  | some .fail => 1
  | some (.aborted _) => 3
  | none => absentOne

def abortCauseCode : Option ExerciseVerdict → Byte
  | some (.aborted c) => c.code
  | _ => absentOne

/-! ## Notices (section 11.8) -/

/-- The twelve notice kinds with what each carries. -/
inductive Notice where
  | showStarted (lane : LaneNo) (id showNo priority : Nat) (source : Source) (start : DateTime)
  | showEnded (lane : LaneNo) (record : RunRecord)
  | requestDropped (id showNo : Nat) (source : Source) (reason : DropReason)
  | bellMiss (bell : BellNo) (streak : Nat) (owner : Owner) (due impact : Instant)
  | bellDisabled (bell : BellNo) (cause : DisableCause) (streak : Nat)
  | axisFault (axis : AxisNo) (cause : AxisFaultCause) (cmd measured : Option Int)
  | interlock (isOpen : Bool) (mode : OutputMode)
  | programme (old new : Nat)
  | time (regained : Bool)
  | exerciseDone (record : Exercise)
  | shadowMiss (bell : BellNo)
  | shadowExtra (bell : BellNo)
  | shadowMismatch (axis : AxisNo)
  | stray (bell : BellNo) (edge : Instant)
  deriving DecidableEq, Repr

/-- Bit of the notice mask: notice kind 0x41 + n has bit n (section 11.2). -/
def Notice.number : Notice → Nat
  | .showStarted .. => 0
  | .showEnded .. => 1
  | .requestDropped .. => 2
  | .bellMiss .. => 3
  | .bellDisabled .. => 4
  | .axisFault .. => 5
  | .interlock .. => 6
  | .programme .. => 7
  | .time _ => 8
  | .exerciseDone _ => 9
  | .shadowMiss _ => 10
  | .shadowExtra _ => 10
  | .shadowMismatch _ => 10
  | .stray .. => 11

/-- The payload of a notice. -/
def Notice.payload : Notice → List Byte
  | .showStarted lane id showNo priority source start =>
    [byteOf lane.val, byteOf id, byteOf showNo, byteOf priority] ++ source.bytes ++ start.bytes
  | .showEnded lane record => byteOf lane.val :: record.bytes
  | .requestDropped id showNo source reason => [byteOf id, byteOf showNo] ++ source.bytes ++ [reason.code]
  | .bellMiss bell streak owner due impact =>
    [byteOf bell.val, byteOf streak, owner.code] ++ four due ++ four impact
  | .bellDisabled bell cause streak => [byteOf bell.val, cause.code, byteOf streak]
  | .axisFault axis cause cmd measured =>
    [byteOf axis.val, cause.code] ++ signedOrAbsent cmd ++ signedOrAbsent measured
  | .interlock isOpen mode => [boolByte isOpen, mode.code]
  | .programme old new => [byteOf old, byteOf new]
  | .time regained => [boolByte regained]
  | .exerciseDone r =>
    [byteOf r.axis.val, exerciseVerdictCode r.verdict, abortCauseCode r.verdict]
      ++ r.results.toList.flatMap resultBytes
  | .shadowMiss bell => [0, byteOf bell.val, 0]
  | .shadowExtra bell => [0, byteOf bell.val, 1]
  | .shadowMismatch axis => [1, byteOf axis.val, 2]
  | .stray bell edge => byteOf bell.val :: four edge

/-- The frame of a notice: tag 0 (R149). -/
def Notice.frame (n : Notice) : TxFrame := ⟨.notice, 0, byteOf (0x41 + n.number), n.payload⟩

/-! ## Frames on the lines -/

/-- The bytes of a frame the check covers: LEN, TAG, KIND, PAYLOAD (R145). -/
def frameBody (tag kind : Byte) (payload : List Byte) : List Byte :=
  byteOf (payload.length + 2) :: tag :: kind :: payload

/-- A whole frame of the message port: START, body, CHECK (R144, section 11.1). -/
def frameBytes (tag kind : Byte) (payload : List Byte) : List Byte :=
  0xC5 :: (frameBody tag kind payload ++ two (checkOf (frameBody tag kind payload)))

/-- A setpoint frame of the axis bus (R158). -/
def setpointBytes (a : AxisNo) (command : FrameCommand) (setpoint : Long) : List Byte :=
  let body := byteOf (a.val + 1) :: command.code :: four setpoint
  0xA3 :: (body ++ two (checkOf body))

def AmpStatus.code : AmpStatus → Byte
  | .ready => 0 | .notReady => 1 | .fault => 2

/-- An amplifier reply on the axis bus (R158). -/
def replyBytes (address : Byte) (r : AmpReply) : List Byte :=
  let body := address :: r.status.code :: signed r.measured
  0x3A :: (body ++ two (checkOf body))

def statusOf (b : Byte) : Option AmpStatus :=
  if b = 0 then some .ready else if b = 1 then some .notReady else if b = 2 then some .fault else none

/-- An amplifier reply read by the tests of R158: nine bytes, 0x3A, a good check, a known status code. -/
def readReply (bytes : List Byte) : Option (Byte × AmpReply) :=
  match bytes with
  | [start, address, status, m3, m2, m1, m0, c1, c0] =>
    if start = 0x3A ∧ checkOf [address, status, m3, m2, m1, m0] = c1 ++ c0 then
      (statusOf status).map fun st => (address, ⟨st, (m3 ++ m2 ++ m1 ++ m0 : Long).toInt⟩)
    else none
  | _ => none

end Sys2Proof.Machine
end

