-- ==== Sys2Proof/Machine/PortOps.lean ====
section
/-! DEFINITION. The message port's queues: entering replies, BUSY answers and notices, and sending (R146, R148, R149). -/
namespace Sys2Proof.Machine

/-- How long a frame takes on the line: 10 bits a byte, START, LEN, TAG, KIND, payload and CHECK, back to back (R144);
a fraction of a microsecond counts as a whole one (notes/assumptions/10.md). -/
def frameTime (baud : BitVec 2) (f : TxFrame) : Nat :=
  ((f.payload.length + 6) * 10 * 1000000 + Config.baudRate baud - 1) / Config.baudRate baud

/-- A frame joins the end of the transmit queue; into an empty queue it is sent at once (R148). -/
def Port.append (p : Port) (now : Instant) (f : TxFrame) : Port :=
  { p with
    tx := p.tx ++ [f]
    sentAt := if p.tx.isEmpty then some (now + micros (frameTime p.baud f)) else p.sentAt }

/-- The list with its oldest notice removed, if it has one. -/
def dropNotice : List TxFrame → Option (List TxFrame)
  | [] => none
  | f :: rest => if f.role = .notice then some rest else (dropNotice rest).map (f :: ·)

/-- Room for a reply (R148): there is room, or the oldest notice not being sent is removed, or there is none. -/
def Port.makeRoom (p : Port) : Option Port :=
  if p.tx.length < Config.transmitCapacity then some p
  else
    match p.tx with
    | [] => none
    | head :: rest =>
      (dropNotice rest).map fun rest' =>
        { p with tx := head :: rest', latches := { p.latches with noticeLost := true } }

/-- A reply to a taken request enters, or is held (R148). -/
def Port.enterReply (p : Port) (now : Instant) (f : TxFrame) : Port :=
  match p.makeRoom with
  | some p' => p'.append now f
  | none => { p with held := some f }

/-- A BUSY answer to an overflow frame enters, or is not entered (R146, R148). -/
def Port.enterBusy (p : Port) (now : Instant) (f : TxFrame) : Port :=
  match p.makeRoom with
  | some p' => p'.append now f
  | none => p

/-- A notice enters, or is discarded with NOTICE_LOST; one whose kind is disabled is not made (R148, R149). -/
def Port.enterNotice (p : Port) (now : Instant) (n : Notice) : Port :=
  if p.mask.getLsbD n.number then
    if p.tx.length < Config.transmitCapacity then p.append now n.frame
    else { p with latches := { p.latches with noticeLost := true } }
  else p

/-- The head frame has been sent: it leaves, a held reply enters, the next frame starts at once (R148). -/
def Port.frameSent (p : Port) (now : Instant) : Port :=
  match p.tx with
  | [] => p
  | sent :: rest =>
    let tx := match p.held with | some h => rest ++ [h] | none => rest
    { p with
      tx := tx
      held := none
      sentAt := tx.head?.map fun f => now + micros (frameTime p.baud f)
      resetDue := p.resetDue || sent.role == .resetReply }

/-- A frame is offered to the receive queue (R146): it joins the end, or RECEIVE_OVERFLOW is latched and BUSY answered. -/
def Port.offer (p : Port) (now : Instant) (f : RxFrame) : Port :=
  if p.rx.length < Config.receiveCapacity then { p with rx := p.rx ++ [f] }
  else
    { p with latches := { p.latches with receiveOverflow := true } }.enterBusy now
      ⟨.reply, f.tag, f.kind + 0x80, [Result.busy.code]⟩

/-! ## At the state -/

/-- A reply: the request's tag, its kind + 0x80, the result code and the fields its rule names (R147). -/
def replyFrame (tag kind : Byte) (result : Result) (fields : List Byte) : TxFrame :=
  ⟨.reply, tag, kind + 0x80, result.code :: fields⟩

def State.reply (s : State) (tag kind : Byte) (result : Result) (fields : List Byte := []) : State :=
  { s with port := s.port.enterReply s.now (replyFrame tag kind result fields) }

def State.notice (s : State) (n : Notice) : State :=
  { s with port := s.port.enterNotice s.now n }

def State.offer (s : State) (f : RxFrame) : State :=
  { s with port := s.port.offer s.now f }

/-- The port may take a request (R146): no reply is held, no compaction is in progress, no RESET reply waits to leave. -/
def State.portReady (s : State) : Bool :=
  s.store.compaction.isNone && s.port.held.isNone && !s.port.resetWaiting

/-- A request command is taken now (R146): the port may take a request, and no older frame waits, or it is the frame just
taken that is handed over (notes/assumptions/11.md). -/
def State.takes (s : State) : Bool := s.portReady && (s.port.handing || s.port.rx.isEmpty)

end Sys2Proof.Machine
end

