-- ==== Sys2Proof/Machine/MotionOps.lean ====
section
/-! DEFINITION. Axis profiles, commands and frame commands as functions of an axis (chapter 7). -/
namespace Sys2Proof.Machine

/-! ## Modes -/

/-- The enabled modes (R110). -/
def AxisMode.enabled : AxisMode → Bool
  | .off => false
  | .fault _ => false
  | _ => true

/-- In MOVE, SPIN, FOLLOW or STOPPING (R139, R142). -/
def AxisMode.moving : AxisMode → Bool
  | .move .. => true
  | .spin _ => true
  | .follow .. => true
  | .stopping _ => true
  | _ => false

/-- At rest for a wait: HOLD, OFF or FAULT (R64). -/
def AxisMode.atRest (m : AxisMode) : Bool := !m.moving

def Axis.isFault (x : Axis) : Bool := x.faultCause.isSome

/-! ## The position advance (R114) -/

def turnsUp (t : Int) : Int := if 360359 ≤ t then -360360 else t + 1
def turnsDown (t : Int) : Int := if t ≤ -360360 then 360359 else t - 1

/-- A WRAP position after a travel, with the turns counted. -/
def wrapTo (position turns : Int) : Int × Int :=
  if 360000 ≤ position then (position - 360000, turnsUp turns)
  else if position < 0 then (position + 360000, turnsDown turns)
  else (position, turns)

/-- The advance at velocity v: the axis after it, and whether a BOUNDED soft limit was met. -/
def advance (form : AxisForm) (x : Axis) (v : Int) : Axis × Bool :=
  let sum := v + x.residue
  let position := x.cmd.getD 0 + sum / 100
  match form with
  | .wrap =>
    let (cmd, turns) := wrapTo position x.turns
    ({ x with cmd := some cmd, turns := turns, v := v, residue := sum % 100 }, false)
  | .bounded lower upper =>
    if position < lower then ({ x with cmd := some lower, v := 0, residue := 0 }, true)
    else if upper < position then ({ x with cmd := some upper, v := 0, residue := 0 }, true)
    else ({ x with cmd := some position, v := v, residue := sum % 100 }, false)

/-- How far an advance at velocity v goes, before any limit. -/
def advanceTravel (x : Axis) (v : Int) : Int := (v + x.residue) / 100

/-! ## Reductions -/

/-- Reduced mod 360,000 into −180,000 … +179,999. -/
def shortestWay (d : Int) : Int := (d + 180000) % 360000 - 180000

/-- |v| less dv, not past 0, the sign kept (R115, R118). -/
def shed (v : Int) (dv : Nat) : Int :=
  if 0 < v then max (v - dv) 0 else min (v + dv) 0

def bound (low high x : Int) : Int := max low (min high x)

/-! ## MOVE (R115, R116) -/

/-- The distance of a MOVE (step 1 of R115). -/
def moveDistance (form : AxisForm) (direction : Direction) (target cmd : Int) : Int :=
  let d := target - cmd
  match form with
  | .bounded _ _ => d
  | .wrap =>
    match direction with
    | .short => shortestWay d
    | .cw => d % 360000
    | .ccw => -((-d) % 360000)

/-- The velocity of a MOVE (steps 2 and 3 of R115). -/
def moveVelocity (c : AxisConfig) (rate : Nat) (v d : Int) : Int :=
  if v ≠ 0 ∧ v.sign ≠ d.sign then shed v c.dv
  else
    let cap := min rate c.vmax
    let speed := v.natAbs
    let braking := speed * speed / (200 * c.dv)
    let next :=
      if d.natAbs ≤ braking then max (speed - c.dv) (min c.dv cap)
      else if cap < speed then max (speed - c.dv) cap
      else min (speed + c.dv) cap
    d.sign * next

/-- An axis come to HOLD. -/
def Axis.held (x : Axis) : Axis := { x with mode := .hold, v := 0, residue := 0 }

/-- Arrival at the target over a distance d; the turns are those of that travel (R116). -/
def Axis.arrive (x : Axis) (form : AxisForm) (target d : Int) : Axis :=
  let turns := match form with
    | .wrap => (wrapTo (x.cmd.getD 0 + d) x.turns).2
    | .bounded _ _ => x.turns
  { x.held with cmd := some target, turns := turns }

/-- The travel reaches the distance, in its direction (R116). -/
def covers (travel d : Int) : Bool := if 0 < d then d ≤ travel else travel ≤ d

/-- One update of a MOVE: the axis, and whether a settle event is raised. -/
def moveUpdate (c : AxisConfig) (x : Axis) (target : Int) (direction : Direction) (rate : Nat) : Axis × Bool :=
  let d := moveDistance c.form direction target (x.cmd.getD 0)
  if d = 0 then (x.arrive c.form target 0, true)
  else
    let v := moveVelocity c rate x.v d
    let (y, limited) := advance c.form x v
    let travel := if limited then y.cmd.getD 0 - x.cmd.getD 0 else advanceTravel x v
    if covers travel d then (x.arrive c.form target d, true) else (y, false)

/-! ## SPIN and STOP (R117, R118) -/

/-- v moved toward a goal by dv, not past it. -/
def toward (v goal : Int) (dv : Nat) : Int := if v < goal then min (v + dv) goal else max (v - dv) goal

def spinUpdate (c : AxisConfig) (x : Axis) (rate : Int) : Axis :=
  (advance c.form x (toward x.v (bound (-(c.vmax : Int)) c.vmax rate) c.dv)).1

def stopUpdate (c : AxisConfig) (x : Axis) (dv : Nat) : Axis × Bool :=
  let v := shed x.v dv
  let (y, limited) := advance c.form x v
  if v = 0 ∨ limited then (y.held, true) else (y, false)

/-! ## FOLLOW (R121) -/

/-- A leader's travel. -/
def leaderTravel (leader : Axis) : Int := leader.turns * 360000 + leader.cmd.getD 0

def followUpdate (c : AxisConfig) (x leader : Axis) (numerator : Int) (denominator : Nat) (offset : Int) : Axis :=
  let q := leaderTravel leader * numerator / (denominator : Int)
  let cmd := x.cmd.getD 0
  let e := match c.form with
    | .wrap => shortestWay ((q + offset) % 360000 - cmd)
    | .bounded lower upper => bound lower upper (q + offset) - cmd
  let most : Int := (c.vmax / 100 : Nat)
  let limited := most < e.natAbs
  let travel := if limited then e.sign * most else e
  let (position, turns) := match c.form with
    | .wrap => wrapTo (cmd + travel) x.turns
    | .bounded _ _ => (cmd + travel, x.turns)
  { x with cmd := some position, turns := turns, v := travel * 100, residue := 0, lag := limited }

/-! ## One update's profile (R111 step 1) -/

/-- The axis after the profile of one update, and whether a settle event is raised. `leaders` gives the axes as they
stand at that instant. -/
def profile (leaders : AxisNo → Axis) (c : AxisConfig) (x : Axis) : Axis × Bool :=
  match x.mode with
  | .move target direction rate => moveUpdate c x target direction rate
  | .spin rate => (spinUpdate c x rate, false)
  | .follow leader numerator denominator offset =>
    (followUpdate c x (leaders leader) numerator denominator offset, false)
  | .stopping dv => stopUpdate c x dv
  | .hold => ({ x with v := 0 }, false)
  | .off => (x, false)
  | .fault _ => (x, false)

/-! ## Commands (R118, R119, R120) -/

/-- A motion command. -/
inductive MotionCommand where
  | move (target : Int) (direction : Direction) (rate : Nat)
  | spin (rate : Int)
  | stop
  | follow (leader : AxisNo) (numerator : Int) (denominator : Nat) (offset : Int)
  deriving DecidableEq, Repr

/-- STOP with a dv given to an axis: the axis, and whether a settle event is raised (R118). -/
def Axis.stop (x : Axis) (dv : Nat) : Axis × Bool :=
  if x.mode.moving then
    if x.v = 0 then (x.held, true) else ({ x with mode := .stopping dv }, false)
  else (x, false)

/-- A target clamped to the soft limits (R119), and whether it was. -/
def clampTarget (form : AxisForm) (target : Int) : Int × Bool :=
  match form with
  | .wrap => (target, false)
  | .bounded lower upper => (bound lower upper target, target < lower || upper < target)

/-- Passing from an axis in FOLLOW to its leader, `fuel` times at most, the chain reaches the follower (R120). -/
def chainReaches (leaders : AxisNo → Axis) (follower : AxisNo) : Nat → AxisNo → Bool
  | 0, _ => false
  | fuel + 1, a =>
    a == follower
      || (match (leaders a).mode with
          | .follow next _ _ _ => chainReaches leaders follower fuel next
          | _ => false)

/-- The leader is unconfigured, OFF or in FAULT, is the follower, or its chain leads back to it (R120). -/
def followRefused (leaders : AxisNo → Axis) (follower leader : AxisNo) : Bool :=
  leader == follower
    || (leaders leader).config.isNone
    || !(leaders leader).mode.enabled
    || chainReaches leaders follower 12 leader

/-- What a command that is carried out makes of an axis: the axis, the LIMITED report, the settle event. -/
structure Carried where
  axis : Axis
  limited : Bool
  settled : Bool

/-- A command on an axis; none when the motion unit refuses it (R119). -/
def Axis.command (leaders : AxisNo → Axis) (a : AxisNo) (x : Axis) (m : MotionCommand) : Option Carried :=
  match x.config with
  | none => none
  | some c =>
    if x.mode.enabled then
      match m with
      | .move target direction rate =>
        let (goal, limited) := clampTarget c.form target
        some ⟨{ x with mode := .move goal direction rate }, limited, false⟩
      | .spin rate => if c.form = .wrap then some ⟨{ x with mode := .spin rate }, false, false⟩ else none
      | .stop =>
        let (y, settled) := x.stop c.dv
        some ⟨y, false, settled⟩
      | .follow leader numerator denominator offset =>
        if followRefused leaders a leader then none
        else some ⟨{ x with mode := .follow leader numerator denominator offset, lag := false }, false, false⟩
    else none

/-! ## Frame command and reply (R111, R112, R136 … R138) -/

/-- The frame command of an update in an output mode. -/
def frameCommandFor (mode : OutputMode) (m : AxisMode) : FrameCommand :=
  if m.enabled then (if mode = .rehearse then .hold else .enable) else .disable

/-- A measured position lies within the form's range (R112). -/
def AxisForm.inRange (form : AxisForm) (measured : Int) : Bool :=
  match form with
  | .wrap => 0 ≤ measured && measured ≤ 359999
  | .bounded _ _ => -180000 ≤ measured && measured ≤ 180000

/-- The soft limits are exceeded by more than the tolerance (R112). -/
def AxisConfig.overtravel (c : AxisConfig) (measured : Int) : Bool :=
  match c.form with
  | .wrap => false
  | .bounded lower upper => measured < lower - c.tolerance || upper + c.tolerance < measured

/-- The fault that a valid reply finds, if it finds one: the checks in the order of R112's table. -/
def replyFault (c : AxisConfig) (x : Axis) (status : AmpStatus) (measured : Int) : Option AxisFaultCause :=
  if status = .fault ∧ x.lastCommand = some .enable then some .ampFault
  else if status = .notReady ∧ x.lastCommand = some .enable ∧ x.previousCommand = some .enable then some .ampFault
  else if c.overtravel measured then some .overtravel
  else none

/-! ## Run state at a soft reset and at SET_AXIS (R109, R126) -/

/-- The run state of an axis after a soft reset; an unconfigured axis holds these values already. -/
def Axis.softReset (x : Axis) : Axis :=
  { x with
    mode := .off, cmd := x.measured, v := 0, residue := 0, turns := 0
    missed := 0, lastCommand := none, previousCommand := none, lag := false }

/-- An axis put in OFF by the steps of DISABLE (R124). The measured position stands until the next reply: after REHEARSE it
is the one looped back from cmd (R137), and an ENABLE before that reply holds the axis there (notes/assumptions/50.md). -/
def Axis.putOff (x : Axis) : Axis := { x with mode := .off, v := 0, residue := 0 }

/-- An axis put in HOLD by ENABLE at its measured position (R124). -/
def Axis.enableAt (x : Axis) (measured : Int) : Axis :=
  { x with mode := .hold, cmd := some measured, v := 0, residue := 0, turns := 0 }

/-- An axis that enters FAULT (R113 step 1). -/
def Axis.enterFault (x : Axis) (cause : AxisFaultCause) : Axis :=
  { x with mode := .fault cause, cmd := if x.measured.isSome then x.measured else x.cmd, v := 0, residue := 0 }

end Sys2Proof.Machine
end

