-- ==== Sys2Proof/Machine/AxisOps.lean ====
section
/-! DEFINITION. Motion commands at the state: what reaches an axis, and the disturbance of a dwell it makes
(R119, R129). -/
namespace Sys2Proof.Machine

/-- The axes as they stand, for a follower to read. -/
def State.leaders (s : State) : AxisNo → Axis := s.axis

/-- A disturbance reaches an axis: a dwell on it is disturbed (R129). -/
def State.disturb (s : State) (a : AxisNo) : State :=
  if s.verifier.scan = some a then { s with verifier := { s.verifier with disturbed := true } } else s

/-- A motion command on an axis (R119). None when it is refused; else the state, the LIMITED report, the settle event. -/
def State.commandAxis (s : State) (a : AxisNo) (m : MotionCommand) : Option (State × Bool × Bool) :=
  ((s.axis a).command s.leaders a m).map fun c => ((s.setAxis a c.axis).disturb a, c.limited, c.settled)

/-- STOP with a dv given to an axis that is moving: the state, and whether a settle event is raised (R118). An axis in
HOLD, OFF or FAULT is left as it is. -/
def State.stopAxis (s : State) (a : AxisNo) (dv : Nat) : State × Bool :=
  let x := s.axis a
  if x.mode.moving then
    let (y, settled) := x.stop dv
    ((s.setAxis a y).disturb a, settled)
  else (s, false)

/-- The dv of an axis for an ordinary STOP; 0 for an unconfigured one, which is never moving. -/
def Axis.dv (x : Axis) : Nat :=
  match x.config with
  | some c => c.dv
  | none => 0

/-- The dv of an axis for the fast stop. -/
def Axis.stopDv (x : Axis) : Nat :=
  match x.config with
  | some c => c.stopDv
  | none => 0

end Sys2Proof.Machine
end

