-- ==== Sys2Proof/Machine/CalendarOps.lean ====
section
/-! DEFINITION. Calendar arithmetic: dates, weekdays, carries, quiet windows, the season choice and trigger conditions
(chapter 1). -/
namespace Sys2Proof.Machine

/-! ## Dates (R2) -/

def leap (year : Nat) : Bool := year % 4 == 0

def monthLength (year month : Nat) : Nat :=
  if month = 2 then (if leap year then 29 else 28)
  else if month = 4 ∨ month = 6 ∨ month = 9 ∨ month = 11 then 30 else 31

/-- The date exists in 2000 … 2099 (R2, R5). -/
def Date.valid (d : Date) : Bool :=
  2000 ≤ d.year && d.year ≤ 2099 && 1 ≤ d.month && d.month ≤ 12 && 1 ≤ d.day && d.day ≤ monthLength d.year d.month

/-- The time of day to the second exists (R2). -/
def DateTime.valid (t : DateTime) : Bool := t.date.valid && t.hour ≤ 23 && t.minute ≤ 59 && t.second ≤ 59

/-- Days from 1 January of the year to the first of the month. -/
def daysBeforeMonth (year month : Nat) : Nat :=
  ((List.range (month - 1)).map fun i => monthLength year (i + 1)).sum

/-- Days from 1 January 2000 to the date (R2). -/
def Date.dayNumber (d : Date) : Nat :=
  365 * (d.year - 2000) + (d.year - 2000 + 3) / 4 + daysBeforeMonth d.year d.month + (d.day - 1)

/-- The weekday, 0 Monday … 6 Sunday: Saturday advanced by the days from 1 January 2000, mod 7 (R2). -/
def Date.weekday (d : Date) : Nat := (5 + d.dayNumber) % 7

/-- Numbers whose order is the calendar order. -/
def Date.key (d : Date) : Nat := d.year * 10000 + d.month * 100 + d.day
def DateTime.key (t : DateTime) : Nat := t.date.key * 1000000 + t.hour * 10000 + t.minute * 100 + t.second
def DateMinute.key (t : DateMinute) : Nat := t.date.key * 10000 + t.minute

/-- Start time t is not later than the present date and second (R17, R18). -/
def DateTime.hasCome (t now : DateTime) : Bool := t.key ≤ now.key

def MallTime.minuteOfDay (t : MallTime) : Nat := t.hour * 60 + t.minute
def MallTime.dateMinute (t : MallTime) : DateMinute := ⟨t.date, t.minuteOfDay⟩

/-! ## Carries (R3) -/

/-- The day after; 31 December 2099 goes to 1 January 2000. -/
def Date.next (d : Date) : Date :=
  if d.day < monthLength d.year d.month then { d with day := d.day + 1 }
  else if d.month < 12 then ⟨d.year, d.month + 1, 1⟩
  else if d.year < 2099 then ⟨d.year + 1, 1, 1⟩
  else ⟨2000, 1, 1⟩

/-- The next whole second, by the carries of R3. -/
def MallTime.nextSecond (t : MallTime) : MallTime :=
  let t := { t with milli := 0, micro := 0 }
  if t.second < 59 then { t with second := t.second + 1 }
  else if t.minute < 59 then { t with second := 0, minute := t.minute + 1 }
  else if t.hour < 23 then { t with second := 0, minute := 0, hour := t.hour + 1 }
  else { t with second := 0, minute := 0, hour := 0, date := t.date.next }

/-- The carry out of 31 December 2099 (R3). -/
def MallTime.isYearCarry (t next : MallTime) : Bool := next.date.year < t.date.year

/-- One microsecond of running. At 1,000 microseconds of millisecond 999 the second's carry has come; the count waits
there for it (notes/assumptions/5.md). -/
def MallTime.tick (t : MallTime) : MallTime :=
  if t.micro + 1 < 1000 then { t with micro := t.micro + 1 }
  else if t.milli < 999 then { t with milli := t.milli + 1, micro := 0 }
  else { t with micro := 1000 }

/-- The carry into the next second has come. -/
def MallTime.carryDue (t : MallTime) : Bool := t.milli == 999 && t.micro == 1000

/-! ## Quiet window and level (R10) -/

/-- The quiet window of a programme contains minute of day m. -/
def Programme.quietAt (p : Programme) (m : Nat) : Bool :=
  if p.quietStart < p.quietEnd then p.quietStart ≤ m && m < p.quietEnd
  else if p.quietEnd < p.quietStart then p.quietStart ≤ m || m < p.quietEnd
  else false

/-- The quiet state and P evaluated again (R10). -/
def Calendar.relevel (c : Calendar) : Calendar :=
  let p := tget c.programmes c.active
  let quiet := c.timeValid && p.quietAt c.time.minuteOfDay
  { c with quiet := quiet, level := if quiet then p.quietLevel else p.openLevel }

/-! ## Seasons (R12) -/

/-- The date range of a season contains a month and day; an end before the start wraps the year. -/
def Season.rangeContains (e : Season) (d : Date) : Bool :=
  let start := e.startMonth * 100 + e.startDay
  let stop := e.endMonth * 100 + e.endDay
  let today := d.month * 100 + d.day
  if start ≤ stop then start ≤ today && today ≤ stop else start ≤ today || today ≤ stop

/-- A season entry matches a date (R12). -/
def Season.matchesDate (e : Season) (d : Date) : Bool :=
  e.inUse && e.weekdays.getLsbD d.weekday && e.rangeContains d

/-- The winning entry: highest priority, then lowest index (R12). -/
def Calendar.seasonWinner (c : Calendar) : Option (Fin 16) :=
  (indexes 16).foldl
    (fun best i =>
      let e := tget c.seasons i
      if e.matchesDate c.time.date then
        match best with
        | none => some i
        | some j => if (tget c.seasons j).priority < e.priority then some i else best
      else best)
    none

/-- The winner now and its programme: none and 0 while time is invalid or nothing matches (R12). -/
def Calendar.choice (c : Calendar) : Option (Fin 16) × Fin 16 :=
  if c.timeValid then
    match c.seasonWinner with
    | some i => (some i, (index? 16 (tget c.seasons i).programme).getD 0)
    | none => (none, 0)
  else (none, 0)

/-- The active programme evaluated again (R12): the winner is recorded; a different programme becomes active, the quiet
state and P follow, and a PROGRAMME notice is sent. -/
def State.reviewProgramme (s : State) : State :=
  let (winner, programme) := s.cal.choice
  let cal := { s.cal with winner := winner }
  if programme = s.cal.active then { s with cal := cal }
  else
    { s with cal := { cal with active := programme }.relevel }.notice (.programme s.cal.active.val programme.val)

/-- The quiet state and P evaluated again (R10). -/
def State.reviewLevel (s : State) : State := { s with cal := s.cal.relevel }

/-! ## Triggers (R15) -/

/-- A trigger entry qualifies at the present minute (R15). -/
def Trigger.firesAt (t : Trigger) (c : Calendar) : Bool :=
  t.inUse
    && (match t.selector with | none => true | some p => p == c.active.val)
    && t.hours.getLsbD c.time.hour
    && t.minute == c.time.minute
    && t.weekdays.getLsbD c.time.date.weekday
    && (match t.lastFired with | none => true | some d => decide (d.key < c.time.dateMinute.key))

end Sys2Proof.Machine
end

