-- ==== Sys2Proof/Machine/StoreOps.lean ====
section
/-! DEFINITION. The show store's lookups, free runs, first fit and compaction (chapter 2). -/
namespace Sys2Proof.Machine

/-- Directory entry n; a number beyond the directory is treated as FREE. -/
def Store.entry (st : Store) (n : Nat) : DirEntry :=
  match index? 64 n with
  | some i => tget st.directory i
  | none => .free

def Store.setEntry (st : Store) (i : Fin 64) (e : DirEntry) : Store :=
  { st with directory := tset st.directory i e }

/-- The block an entry owns, if it owns one (R21). -/
def DirEntry.block : DirEntry → Option Block
  | .free => none
  | .opened b => some b
  | .ready b => some b

def DirEntry.isOpened : DirEntry → Bool
  | .opened _ => true
  | _ => false

def DirEntry.isReady : DirEntry → Bool
  | .ready _ => true
  | _ => false

/-- The number of the OPEN entry, if one is OPEN. -/
def Store.opened (st : Store) : Option (Fin 64) := (indexes 64).find? fun i => (tget st.directory i).isOpened

/-! ## Free space (R22) -/

/-- Blocks in ascending order of their first slots. -/
def insertBlock (b : Block) : List Block → List Block
  | [] => [b]
  | c :: rest => if b.first ≤ c.first then b :: c :: rest else c :: insertBlock b rest

/-- The owned blocks, lowest first slot first. -/
def Store.blocks (st : Store) : List Block :=
  (st.directory.toList.filterMap DirEntry.block).foldr insertBlock []

/-- The gaps from slot `pos` upward between ascending blocks: (first slot, length). -/
def gapsFrom : Nat → List Block → List (Nat × Nat)
  | pos, [] => if pos < Config.stepSlots then [(pos, Config.stepSlots - pos)] else []
  | pos, b :: rest =>
    (if pos < b.first then [(pos, b.first - pos)] else []) ++ gapsFrom (b.first + b.count) rest

/-- The free runs in ascending slot order (R22). -/
def Store.freeRuns (st : Store) : List (Nat × Nat) := gapsFrom 0 st.blocks

/-- The largest free run, 0 when every slot is owned (R22). -/
def Store.largestRun (st : Store) : Nat := (st.freeRuns.map (·.2)).foldl max 0

/-- The free total (R22). -/
def Store.freeTotal (st : Store) : Nat := Config.stepSlots - (st.blocks.map Block.count).sum

/-- First fit: the lowest free run of at least n slots (R22). -/
def Store.firstFit (st : Store) (n : Nat) : Option Nat :=
  (st.freeRuns.find? fun r => n ≤ r.2).map (·.1)

/-! ## Lookups (R34, R35) -/

/-- The READY SHOW of a number with its claims and run limit: the number is playable (R34). -/
def Store.playable (st : Store) (n : Nat) : Option (Block × BitVec 12 × Nat) :=
  match st.entry n with
  | .ready b =>
    match b.kind with
    | .playable claims limit => some (b, claims, limit)
    | .phrase => none
  | _ => none

/-- The READY PHRASE of a number (R35). -/
def Store.phrase (st : Store) (n : Nat) : Option Block :=
  match st.entry n with
  | .ready b =>
    match b.kind with
    | .playable _ _ => none
    | .phrase => some b
  | _ => none

/-! ## In use (R29) -/

/-- A lane's run uses entry n: as its show while the lane is not IDLE, or as the phrase it executes while RUNNING or
WAITING. -/
def Run.uses (r : Run) (n : Nat) : Bool :=
  r.showNo == n || (r.phase != .draining && r.executing.phrase && r.executing.number == n)

def State.inUse (s : State) (n : Nat) : Bool :=
  (indexes 4).any fun l => match (s.lane l).run with
    | some r => r.uses n
    | none => false

/-! ## Compaction (R32) -/

/-- A READY entry with its number. -/
def insertEntry (e : Fin 64 × Block) : List (Fin 64 × Block) → List (Fin 64 × Block)
  | [] => [e]
  | c :: rest => if e.2.first ≤ c.2.first then e :: c :: rest else c :: insertEntry e rest

/-- The READY entries, lowest first slot first. -/
def Store.readyEntries (st : Store) : List (Fin 64 × Block) :=
  ((indexes 64).filterMap fun i => match tget st.directory i with
    | .ready b => some (i, b)
    | _ => none).foldr insertEntry []

/-- How many slots a compaction moves, the next block going to slot `pos`. -/
def slotsMoved : Nat → List (Fin 64 × Block) → Nat
  | _, [] => 0
  | pos, (_, b) :: rest => (if b.first = pos then 0 else b.count) + slotsMoved (pos + b.count) rest

/-- Blocks moved down one after another, the next to slot `pos` (R32). -/
def compactFrom : Nat → List (Fin 64 × Block) → Store → Store
  | _, [], st => st
  | pos, (i, b) :: rest, st =>
    let st' :=
      if b.first = pos then st
      else { st.setEntry i (.ready { b with first := pos }) with mem := st.mem.moveSlots b.first pos b.count }
    compactFrom (pos + b.count) rest st'

/-- The store after a compaction. -/
def Store.compacted (st : Store) : Store := compactFrom 0 st.readyEntries st

end Sys2Proof.Machine
end

