-- ==== Sys2Proof/Machine/StrikeOps.lean ====
section
/-! DEFINITION. Strike arithmetic (R77 … R83), the strike queue's order, and merging (R86, R91 … R93), as functions of
the strike unit's values. -/
namespace Sys2Proof.Machine

/-! ## Effective velocity, loudness, pulse and flight (R77 … R81) -/

/-- Effective velocity in sixteenths, from the velocity and the level product (R78). -/
def effectiveVelocity (velocity product : Nat) : Nat := (velocity * product * 16 + 5000) / 10000

/-- Point i of the loudness curve. -/
def curvePoint (curve : Vector Nat 17) (i : Nat) : Nat :=
  match index? 17 i with
  | some j => tget curve j
  | none => 0

/-- Loudness E (R79). -/
def loudness (curve : Vector Nat 17) (ve : Nat) : Nat :=
  let low := curvePoint curve (ve / 128)
  let high := curvePoint curve (ve / 128 + 1)
  low + ((high - low) * (ve % 128) + 64) / 128

/-- Pulse width W (R80). -/
def pulseWidth (b : Bell) (e : Nat) : Nat := b.pmin + ((b.pmax - b.pmin) * e + 2048) / 4096

/-- The quotient of the flight time, before it is bounded (R81). -/
def flightQuotient (k ve : Nat) : Nat := k * 16 / ve

/-- Flight time T (R81). -/
def flightTime (k ve : Nat) : Nat :=
  let q := flightQuotient k ve
  if q < 1000 then 1000 else if 100000 < q then 100000 else q

/-- FLIGHT_CLIPPED (R81). -/
def flightClipped (k ve : Nat) : Bool := flightQuotient k ve < 1000 || 100000 < flightQuotient k ve

/-- The computed values of a strike. -/
structure Computed where
  pulse : Nat
  flight : Nat
  clipped : Bool
  deriving DecidableEq, Repr

/-- The values of a strike of a velocity on a bell at programme level P; none when it is suppressed (R77 … R81). -/
def StrikeUnit.compute (u : StrikeUnit) (level : Nat) (b : Bell) (velocity : Nat) : Option Computed :=
  let ve := effectiveVelocity velocity (level * u.master)
  if ve < 16 then none
  else some ⟨pulseWidth b (loudness u.curve ve), flightTime b.k ve, flightClipped b.k ve⟩

/-! ## Lateness at entry (R83) -/

/-- What becomes of a computed strike at entry: its queued fire instant and its LATE flag, or dropped late. -/
def entryFire (now original : Instant) (tau : Nat) : Option (Instant × Bool) :=
  let late := lateness original now
  if late = 0 then some (original, false) else if late ≤ tau then some (now, true) else none

/-! ## The queue's order (R91) -/

/-- The original fire instant D − T (R82). -/
def Strike.original (k : Strike) : Instant := k.due - micros k.flight

/-- Record a stands before record b: by F, then bell, then entry order. -/
def Strike.precedes (a b : Strike) : Bool :=
  before a.fireAt b.fireAt
    || (a.fireAt == b.fireAt && (a.bell < b.bell || (a.bell == b.bell && a.order < b.order)))

/-- A record entered at its place. -/
def insertStrike (k : Strike) : List Strike → List Strike
  | [] => [k]
  | x :: rest => if k.precedes x then k :: x :: rest else x :: insertStrike k rest

/-- The queue without the record of an entry order. -/
def withoutOrder (order : Nat) (q : List Strike) : List Strike := q.filter fun k => k.order != order

/-- The queue with a record changed and moved to its place. -/
def replaceStrike (k : Strike) (q : List Strike) : List Strike := insertStrike k (withoutOrder k.order q)

/-- A record changed where it stands. -/
def updateStrike (k : Strike) (q : List Strike) : List Strike := q.map fun x => if x.order = k.order then k else x

/-! ## The absorbing strike (R92 step 2, R93) -/

/-- Queued strikes for a bell within the repeat guard of a due instant. -/
def StrikeUnit.within (u : StrikeUnit) (b : BellNo) (due : Instant) : List Strike :=
  u.queue.filter fun k => k.bell == b && distance k.due due < (tget u.bells b).guardMs * 1000

/-- The nearer of two candidates; at one distance the one with the earlier D. -/
def nearer (due : Instant) (a b : Strike) : Strike :=
  if distance b.due due < distance a.due due
      || (distance b.due due == distance a.due due && before b.due a.due) then b else a

/-- The queued strike that absorbs a strike for a bell due at an instant, if one does. -/
def StrikeUnit.absorber (u : StrikeUnit) (b : BellNo) (due : Instant) : Option Strike :=
  match u.within b due with
  | [] => none
  | k :: rest => some (rest.foldl (nearer due) k)

/-! ## Merging (R86, R93) -/

/-- The absorbing strike with a raised velocity's candidate, where it is applied; LATE is set when it is late. -/
def raisedBy (u : StrikeUnit) (level : Nat) (now : Instant) (k : Strike) (velocity : Nat) : Option Strike :=
  match u.compute level (tget u.bells k.bell) velocity with
  | none => none
  | some c =>
    (entryFire now (k.due - micros c.flight) u.tau).map fun (fireAt, late) =>
      { k with
        velocity := velocity
        flight := c.flight
        pulse := c.pulse
        clipped := c.clipped
        fireAt := fireAt
        late := k.late || late
        fire := if before now fireAt then .scheduled else k.fire }

/-- A HELD_GUARD strike's wait instant formed again with the T it now holds (R93). -/
def regard (b : Bell) (k : Strike) : Strike :=
  match k.fire, b.guardInstant with
  | .heldGuard _, some g => { k with fire := .heldGuard (g - micros k.flight) }
  | _, _ => k

/-- The absorbing strike after it has absorbed a strike of a velocity. -/
def mergedWith (u : StrikeUnit) (level : Nat) (now : Instant) (k : Strike) (velocity : Nat) : Strike :=
  let raised := if k.velocity < velocity then (raisedBy u level now k velocity).getD k else k
  regard (tget u.bells k.bell) { raised with merged := true }

/-! ## The supply (R96) -/

/-- The number of hammers in FIRING, virtual energises included. -/
def StrikeUnit.firing (u : StrikeUnit) : Nat := ((indexes 32).filter fun b => (tget u.bells b).state == .firing).length

/-- Supply order: original fire instant, then bell, then entry order. -/
def Strike.servedBefore (a b : Strike) : Bool :=
  before a.original b.original
    || (a.original == b.original && (a.bell < b.bell || (a.bell == b.bell && a.order < b.order)))

/-- The waiting set in queue order. -/
def StrikeUnit.waiting (u : StrikeUnit) : List Strike := u.queue.filter fun k => k.fire == .heldSupply

/-- The first strike of the waiting set in supply order. -/
def StrikeUnit.firstWaiting (u : StrikeUnit) : Option Strike :=
  match u.waiting with
  | [] => none
  | k :: rest => some (rest.foldl (fun best x => if x.servedBefore best then x else best) k)

/-! ## HAMMER outputs -/

def hammerBit (b : BellNo) : BitVec 32 := 1#32 <<< b.val
def StrikeUnit.drive (u : StrikeUnit) (b : BellNo) : StrikeUnit := { u with hammers := u.hammers ||| hammerBit b }
def StrikeUnit.release (u : StrikeUnit) (b : BellNo) : StrikeUnit := { u with hammers := u.hammers &&& ~~~(hammerBit b) }

/-! ## The hammer stop (R106) -/

/-- A bell at a hammer stop. -/
def Bell.hammerStop (b : Bell) : Bell :=
  match b.state with
  | .firing => { b with state := .ready, inFlight := none, confirmedEnd := none }
  | .flight => { b with state := .ready, inFlight := none, confirmedEnd := none }
  | _ => { b with confirmedEnd := none }

/-- Every hammer low, every window cancelled, every bell in FIRING or FLIGHT READY. -/
def StrikeUnit.hammerStop (u : StrikeUnit) : StrikeUnit :=
  { u with bells := Vector.ofFn fun b => (tget u.bells b).hammerStop, hammers := 0 }

end Sys2Proof.Machine
end

