-- ==== Sys2Proof/Machine/SchedulerOps.lean ====
section
/-! DEFINITION. The show scheduler: ids, admission, dropping, the walk, starting and ending runs (chapter 3). -/
namespace Sys2Proof.Machine

/-! ## Ids (R38) -/

/-- An id is held by a queued request, a timed play or a lane that is not IDLE. -/
def State.heldId (s : State) (id : Nat) : Bool :=
  s.sched.queue.any (·.id == id)
    || s.cal.timedPlays.any (·.id == id)
    || (indexes 4).any fun n => match (s.lane n).run with
        | some r => r.id == id
        | none => false

/-- One advance of the id counter, going from 255 to 1. -/
def advanceId (id : Nat) : Nat := if 255 ≤ id then 1 else id + 1

/-- Advances from an id until one is not held. -/
def State.freeIdFrom (s : State) : Nat → Nat → Nat
  | 0, id => id
  | fuel + 1, id =>
    let next := advanceId id
    if s.heldId next then s.freeIdFrom fuel next else next

/-- The id the scheduler assigns next. -/
def State.nextId (s : State) : Nat := s.freeIdFrom 255 s.sched.lastId

/-- The counter after an assignment. -/
def State.assigned (s : State) (id : Nat) : State := { s with sched := { s.sched with lastId := id } }

/-! ## Keys' held requests (R44) -/

/-- The held request of a key is released with its id. -/
def State.releaseKey (s : State) (source : Source) (id : Nat) : State :=
  match source with
  | .key k =>
    let input := tget s.sched.inputs k
    if input.held = some id then
      { s with sched := { s.sched with inputs := tset s.sched.inputs k { input with held := none } } }
    else s
  | _ => s

/-- A key's press has made a request that entered the queue. -/
def State.holdKey (s : State) (source : Source) (id : Nat) : State :=
  match source with
  | .key k =>
    let input := tget s.sched.inputs k
    { s with sched := { s.sched with inputs := tset s.sched.inputs k { input with held := some id } } }
  | _ => s

/-! ## Dropping (R43) -/

/-- A request leaves, or is refused, without starting: notice, latch, release. -/
def State.dropRequest (s : State) (id showNo : Nat) (source : Source) (reason : DropReason) : State :=
  ((s.notice (.requestDropped id showNo source reason)).latch fun l => { l with requestDropped := true }).releaseKey
    source id

/-- The queue without the request of an id. -/
def withoutId (id : Nat) (q : List Request) : List Request := q.filter fun r => r.id != id

/-- A queued request leaves with a reason. -/
def State.dropQueued (s : State) (r : Request) (reason : DropReason) : State :=
  (s.setRequests (withoutId r.id s.sched.queue)).dropRequest r.id r.showNo r.source reason

/-- The queued request of an id. -/
def State.queued (s : State) (id : Nat) : Option Request := s.sched.queue.find? (·.id == id)

/-! ## Strikes and owners -/

/-- A lane owns a strike that is queued, FIRING or in FLIGHT (R52). -/
def State.ownsStrike (s : State) (n : LaneNo) : Bool :=
  s.strikes.queue.any (·.owner == .lane n)
    || (indexes 32).any fun b => match (s.bell b).inFlight with
        | some f => f.owner == .lane n
        | none => false

/-- A count in the present run record of a strike's owner, if that is a lane with a run (R54). -/
def State.countFor (s : State) (o : Owner) (f : RunRecord → RunRecord) : State :=
  match o with
  | .lane n =>
    match (s.lane n).run with
    | some r => s.setRun n { r with record := f r.record }
    | none => s
  | _ => s

/-! ## Ending a run (R51, R53) -/

/-- Every claim of an owner is released (R46). -/
def State.releaseClaims (s : State) (o : Owner) : State :=
  { s with sched := { s.sched with
      claims := Vector.ofFn fun a => if s.claim a = some o then none else s.claim a } }

/-- Lane n's run is over: record, SHOW_ENDED, IDLE, id and key released (R53 steps 1 to 4). -/
def State.finalise (s : State) (n : LaneNo) (r : Run) (outcome : RunOutcome) : State :=
  let record := { r.record with outcome := some outcome }
  ((s.setLane n ⟨none, some record⟩).notice (.showEnded n record)).releaseKey r.source r.id

/-- STOP with its dv to an axis of an ended run in MOVE, SPIN or FOLLOW (R51 step 3). No lane waits on it and no exercise
runs on it, so a settle event it raises reaches no one. -/
def State.stopEnded (s : State) (a : AxisNo) : State :=
  let x := s.axis a
  match x.mode with
  | .move .. => (s.stopAxis a x.dv).1
  | .spin _ => (s.stopAxis a x.dv).1
  | .follow .. => (s.stopAxis a x.dv).1
  | _ => s

/-- The axes an owner holds, in ascending order. -/
def State.owned (s : State) (o : Owner) : List AxisNo := (indexes 12).filter fun a => s.claim a == some o

/-- INTERLOCK and MODE leave the axes to output control (R51 step 3). -/
def RunOutcome.stopsAxes : RunOutcome → Bool
  | .interlock => false
  | .mode => false
  | _ => true

/-- Lane n's run ends with an outcome other than COMPLETE (R51), without the walk that follows. -/
def State.endRun (s : State) (n : LaneNo) (outcome : RunOutcome) : State :=
  match (s.lane n).run with
  | none => s
  | some r =>
    let s := s.setQueue (s.strikes.queue.filter fun k => k.owner != .lane n)
    let s := if outcome.stopsAxes then (s.owned (.lane n)).foldl State.stopEnded s else s
    (s.releaseClaims (.lane n)).finalise n r outcome

/-! ## Starting a run (R50) -/

/-- A step is ready 250 ms before its due instant if it is a STRIKE, at its due instant otherwise (R60). -/
def readyInstant (step : Step) (due : Instant) : Instant :=
  match step with
  | .strike _ _ => due - micros Config.lookahead
  | _ => due

/-- A run record at the start of a run. -/
def RunRecord.opened (showNo id : Nat) (source : Source) (start : DateTime) (valid : Bool) : RunRecord :=
  ⟨showNo, id, source, start, valid, none, 0, 0, 0, 0, 0, 0, 0, 0, 0, 0, 0, 0, 0⟩

/-- The run a request starts, in the block of its show. -/
def State.newRun (s : State) (r : Request) (b : Block) (limit : Nat) : Run :=
  let word := s.store.mem.readSlot b.first
  let due := s.now + millis (stepDelta word)
  let entry : Executing := ⟨r.showNo, false, b.first, b.count⟩
  { id := r.id, showNo := r.showNo, priority := r.priority, source := r.source
    startSeq := s.sched.startSeq
    cursor := b.first
    returnPoint := none
    due := due
    counter := 0
    lastWait := .ok
    elapsed := ⟨0, 0⟩
    limit := limit
    record := RunRecord.opened r.showNo r.id r.source s.cal.time.dateTime s.cal.timeValid
    phase := .running
    executing := entry
    shown := entry
    base := s.now
    timer := some (readyInstant (decodeStep word) due)
    zeroCount := 0 }

/-- The claim table with every axis of a mask owned by a lane. -/
def State.claimFor (s : State) (n : LaneNo) (mask : BitVec 12) : State :=
  { s with sched := { s.sched with
      claims := Vector.ofFn fun a => if inMask mask a then some (.lane n) else s.claim a } }

/-- A request starts on lane n (R50). -/
def State.startRun (s : State) (n : LaneNo) (r : Request) (b : Block) (mask : BitVec 12) (limit : Nat) : State :=
  let run := s.newRun r b limit
  let s := s.setRequests (withoutId r.id s.sched.queue)
  let s := { s with sched := { s.sched with startSeq := s.sched.startSeq + 1 } }
  ((s.setRun n run).claimFor n mask).notice
    (.showStarted n r.id r.showNo r.priority r.source s.cal.time.dateTime)

/-! ## The walk (R48, R49) -/

/-- The walk starts nothing (R48). -/
def State.walkHeld (s : State) : Bool :=
  s.mode == .safe || s.store.compaction.isSome || s.stopped

/-- The run of a lane that is RUNNING or WAITING. -/
def State.activeRun (s : State) (n : LaneNo) : Option Run :=
  match (s.lane n).run with
  | some r => if r.phase == .draining then none else some r
  | none => none

/-- The lowest-numbered IDLE lane. -/
def State.idleLane (s : State) : Option LaneNo := (indexes 4).find? fun n => (s.lane n).run.isNone

/-- Run b is a victim before run a: lower priority, or the same and started more recently (R49). -/
def Run.victimBefore (b a : Run) : Bool :=
  b.priority < a.priority || (b.priority == a.priority && a.startSeq < b.startSeq)

/-- The victim where no lane is IDLE (R49). -/
def State.victim (s : State) : Option LaneNo :=
  ((indexes 4).foldl
    (fun best n =>
      match s.activeRun n, best with
      | none, _ => best
      | some r, none => some (n, r)
      | some r, some (_, q) => if r.victimBefore q then some (n, r) else best)
    none).map (·.1)

/-- Lane n is RUNNING or WAITING and owns an axis of a mask. -/
def State.ownsNeeded (s : State) (mask : BitVec 12) (n : LaneNo) : Bool :=
  (s.activeRun n).isSome && (maskAxes mask).any fun a => s.claim a == some (.lane n)

/-- The blocking set: owners of needed axes, and the victim where no lane is IDLE (R49 step 3). -/
def State.blocking (s : State) (mask : BitVec 12) : List LaneNo :=
  (indexes 4).filter fun n => s.ownsNeeded mask n || (s.idleLane.isNone && s.victim == some n)

/-- Lane n's run has a priority strictly below p. -/
def State.below (s : State) (p : Nat) (n : LaneNo) : Bool :=
  match (s.lane n).run with
  | some r => r.priority < p
  | none => false

/-- One request tested in the walk (R49). -/
def State.tryStart (s : State) (r : Request) : State :=
  match s.store.playable r.showNo with
  | none => s
  | some (b, mask, limit) =>
    let free := (maskAxes mask).all fun a => (s.claim a).isNone
    match s.idleLane, free with
    | some n, true => s.startRun n r b mask limit
    | idle, _ =>
      if (maskAxes mask).any fun a => s.claim a == some .exercise then s
      else if idle.isNone && s.victim.isNone then s
      else
        let lanes := s.blocking mask
        if lanes.all (s.below r.priority) then
          let s := lanes.foldl (fun s n => s.endRun n .preempted) s
          match s.idleLane with
          | some n => s.startRun n r b mask limit
          | none => s
        else s

/-- The scheduler walks the queue (R48). -/
def State.walk (s : State) : State :=
  if s.walkHeld then s else s.sched.queue.foldl State.tryStart s

/-! ## Ends with the walk that follows them (R52, R53) -/

/-- Lane n's run ends and the queue is walked. -/
def State.endAndWalk (s : State) (n : LaneNo) (outcome : RunOutcome) : State := (s.endRun n outcome).walk

/-- A strike of lane n has finished: a DRAINING lane that owns no further strike ends COMPLETE (R52). -/
def State.drainCheck (s : State) (n : LaneNo) : State :=
  match (s.lane n).run with
  | some r => if r.phase == .draining && !s.ownsStrike n then (s.finalise n r .complete).walk else s
  | none => s

/-- The finish of a strike reported to its owner (R52). -/
def State.finished (s : State) (o : Owner) : State :=
  match o with
  | .lane n => s.drainCheck n
  | _ => s

/-- Finishes reported to every lane, where strikes of several owners finish at once. Where several DRAINING lanes end by it,
they end in ascending lane number, each with its walk (R53): an order that R52 and R105 do not name
(notes/assumptions/52.md). -/
def State.finishedAll (s : State) : State := (indexes 4).foldl State.drainCheck s

/-! ## Admission (R39, R41) -/

/-- The newest request of the lowest priority present. -/
def lowestQueued (q : List Request) : Option Request :=
  q.foldl
    (fun best r =>
      match best with
      | none => some r
      | some x => if r.priority < x.priority || (r.priority == x.priority && x.arrival < r.arrival) then some r else best)
    none

/-- Room for a request of a priority: none when it is refused; else the request it evicts, if it evicts one. -/
def State.roomFor (s : State) (priority : Nat) : Option (Option Request) :=
  if s.sched.queue.length < Config.requestCapacity then some none
  else
    match lowestQueued s.sched.queue with
    | some x => if x.priority < priority then some (some x) else none
    | none => none

/-- A request at its place: by priority, the older first among equals. -/
def insertRequest (r : Request) : List Request → List Request
  | [] => [r]
  | x :: rest => if x.priority < r.priority then r :: x :: rest else x :: insertRequest r rest

/-- What reaches the scheduler as a request. -/
structure Wish where
  id : Nat
  showNo : Nat
  priority : Nat
  /-- seconds -/
  grace : Nat
  source : Source
  deriving DecidableEq, Repr

/-- A request with no grace that the walk on its arrival did not start expires at once (R41). -/
def State.expireUnstarted (s : State) (id : Nat) : State :=
  match s.queued id with
  | some r => if r.grace = 0 then s.dropQueued r .expired else s
  | none => s

/-- A request enters the queue, after the request it evicts has left; then the queue is walked (R39, R41, R44). -/
def State.enterRequest (s : State) (w : Wish) (evicted : Option Request) : State :=
  let s := match evicted with
    | some x => s.dropQueued x .evicted
    | none => s
  let r : Request := ⟨w.id, w.showNo, w.priority, w.source, s.sched.arrivals, w.grace * 1000, 0⟩
  let s := { s with sched := { s.sched with
    queue := insertRequest r s.sched.queue, arrivals := s.sched.arrivals + 1 } }
  ((s.holdKey w.source w.id).walk).expireUnstarted w.id

/-- A trigger request, key request or released timed play is admitted, or dropped with NO_SHOW or FULL (R39). -/
def State.enterWish (s : State) (w : Wish) : State :=
  if (s.store.playable w.showNo).isNone then s.dropRequest w.id w.showNo w.source .noShow
  else
    match s.roomFor w.priority with
    | some evicted => s.enterRequest w evicted
    | none => s.dropRequest w.id w.showNo w.source .full

end Sys2Proof.Machine
end

