-- ==== Sys2Proof/Machine/HammerOps.lean ====
section
/-! DEFINITION. Strikes at the state: entry to the queue, the tests at fire, firing, the supply arbiter, bells becoming
READY or DISABLED (R84, R92 … R105). -/
namespace Sys2Proof.Machine

/-! ## Entry (R92, R93) -/

/-- What the queue makes of a strike offered to it. -/
inductive Entry where
  | guarded (guard : Instant)
  | merged (k : Strike)
  | full
  | queued (k : Strike)
  deriving DecidableEq, Repr

/-- The entry guard: the guard is running and D is before the guard instant. -/
def Bell.guards (b : Bell) (due : Instant) : Option Instant :=
  match b.guardRunning, b.guardInstant with
  | true, some g => if before due g then some g else none
  | _, _ => none

/-- The queue's examination of a strike (R92). The entry order is the queue's to give. -/
def State.examineEntry (s : State) (k : Strike) : Entry :=
  match (s.bell k.bell).guards k.due with
  | some g => .guarded g
  | none =>
    match s.strikes.absorber k.bell k.due with
    | some x => .merged (mergedWith s.strikes s.cal.level s.now x k.velocity)
    | none =>
      if Config.strikeCapacity ≤ s.strikes.queue.length then .full
      else .queued { k with order := s.strikes.orderCount }

/-- LATE is newly set on a strike (R87). -/
def countLate (r : RunRecord) : RunRecord := { r with late := satInc r.late }

/-- The strikes-late count of an owner, where LATE is newly set on its strike (R87). -/
def State.countIfLate (s : State) (o : Owner) (newly : Bool) : State := if newly then s.countFor o countLate else s

/-- The result of an entry: the queue and the owners' counts (R92, R93). -/
def State.enterStrike (s : State) (owner : Owner) (e : Entry) : State :=
  match e with
  | .guarded _ => s.countFor owner fun r => { r with droppedGuard := satInc r.droppedGuard }
  | .full => s.countFor owner fun r => { r with droppedFull := satInc r.droppedFull }
  | .merged k =>
    let was := s.strikes.queue.any fun x => x.order == k.order && x.late
    ((s.setQueue (replaceStrike k s.strikes.queue)).countIfLate k.owner (k.late && !was)).countFor owner fun r =>
      { r with merged := satInc r.merged }
  | .queued k =>
    let s := { s with strikes := { s.strikes with
      queue := insertStrike k s.strikes.queue, orderCount := s.strikes.orderCount + 1 } }
    s.countIfLate owner k.late

/-- A strike from its computed values, its due instant and what R83 made of its fire instant. -/
def strikeOf (bell : BellNo) (velocity : Nat) (owner : Owner) (due : Instant) (c : Computed) (fireAt : Instant)
    (late : Bool) : Strike :=
  ⟨bell, velocity, owner, due, c.flight, c.pulse, fireAt, late, c.clipped, false, .scheduled, 0⟩

/-! ## Firing (R95 … R98) -/

/-- A record held at fire for a reason. -/
def State.holdStrike (s : State) (k : Strike) (f : FireState) : State :=
  s.setQueue (updateStrike { k with fire := f } s.strikes.queue)

/-- The strike in flight that a strike becomes when it fires now (R98 step 3). -/
def inFlightOf (k : Strike) (b : Bell) (now : Instant) : InFlight :=
  let impact := now + micros k.flight
  { owner := k.owner, velocity := k.velocity, due := k.due, flight := k.flight, pulse := k.pulse
    firedAt := now, impact := impact
    windowStart := now + micros (k.flight / 2)
    windowEnd := impact + millis b.windowMs
    window := .pending }

/-- A bell whose strike fires now (R98 steps 3 to 5). -/
def Bell.firedWith (b : Bell) (k : Strike) (now : Instant) : Bell :=
  let impact := now + micros k.flight
  { b with
    state := .firing
    inFlight := some (inFlightOf k b now)
    confirmedEnd := none
    lastImpact := some impact
    guardInstant := some (impact + millis b.guardMs)
    guardRunning := true }

/-- A strike fires (R98). -/
def State.fire (s : State) (k : Strike) : State :=
  let s := s.setQueue (withoutOrder k.order s.strikes.queue)
  let s := if s.mode = .live then { s with strikes := s.strikes.drive k.bell } else s
  (s.setBell k.bell ((s.bell k.bell).firedWith k s.now)).countFor k.owner fun r => { r with fired := satInc r.fired }

/-- The guard at fire: the wait instant, where the guard holds the strike (R95). -/
def guardWait (b : Bell) (now : Instant) (flight : Nat) : Option Instant :=
  (b.guards (now + micros flight)).map (· - micros flight)

/-- A record examined at fire (R95, R97). -/
def State.examine (s : State) (k : Strike) : State :=
  let b := s.bell k.bell
  if b.state ≠ .ready then s.holdStrike k .heldBell
  else
    match guardWait b s.now k.flight with
    | some wait => s.holdStrike k (.heldGuard wait)
    | none =>
      if s.strikes.emax ≤ s.strikes.firing then
        (s.holdStrike k .heldSupply).latch fun l => { l with supplyDeferred := true }
      else
        let late := lateness k.original s.now
        if s.strikes.tau < late then
          ((s.setQueue (withoutOrder k.order s.strikes.queue)).countFor k.owner fun r =>
            { r with droppedLate := satInc r.droppedLate }).finished k.owner
        else (s.fire k).countIfLate k.owner (0 < late && !k.late)

/-- A HELD_GUARD strike's wait instant has arrived. -/
def Strike.guardWaitOver (k : Strike) (now : Instant) : Bool :=
  match k.fire with
  | .heldGuard wait => reached wait now
  | _ => false

/-- What follows a merge at once: an absorbing strike that stays HELD_GUARD is examined again where its wait instant,
formed with the T it now holds, is not after now (R93). -/
def State.examineMerged (s : State) (e : Entry) : State :=
  match e with
  | .merged k => if k.guardWaitOver s.now then s.examine k else s
  | _ => s

/-! ## A strike from a lane (R84) -/

/-- A strike from a lane, examined for the queue (R84, R92, R93). -/
def State.laneStrike (s : State) (n : LaneNo) (bell : BellNo) (velocity : Nat) (due : Instant) : State :=
  let owner := Owner.lane n
  let b := s.bell bell
  if b.isDisabled then s.countFor owner fun r => { r with droppedDisabled := satInc r.droppedDisabled }
  else
    match s.strikes.compute s.cal.level b velocity with
    | none => s.countFor owner fun r => { r with suppressed := satInc r.suppressed }
    | some c =>
      match entryFire s.now (due - micros c.flight) s.strikes.tau with
      | none => s.countFor owner fun r => { r with droppedLate := satInc r.droppedLate }
      | some (fireAt, late) =>
        let e := s.examineEntry (strikeOf bell velocity owner due c fireAt late)
        (s.enterStrike owner e).examineMerged e

/-! ## The supply (R96) -/

/-- The supply arbiter serves, at most `fuel` times: each service fires a strike, drops it or takes it from the waiting
set, so the length of the queue suffices (R96). -/
def State.serveTimes (s : State) : Nat → State
  | 0 => s
  | fuel + 1 =>
    if s.strikes.emax ≤ s.strikes.firing then s
    else
      match s.strikes.firstWaiting with
      | none => s
      | some k => (s.examine k).serveTimes fuel

/-- The supply arbiter serves its waiting set (R96). -/
def State.serve (s : State) : State := s.serveTimes s.strikes.queue.length

/-- A record examined again if it still waits for its bell. -/
def State.examineHeldBell (s : State) (order : Nat) : State :=
  match s.strikes.queue.find? (·.order == order) with
  | some k => if k.fire = .heldBell then s.examine k else s
  | none => s

/-- A bell has become READY: its HELD_BELL strikes are examined in queue order (R95). -/
def State.releaseHeld (s : State) (b : BellNo) : State :=
  ((s.strikes.queue.filter fun k => k.bell == b && k.fire == .heldBell).map Strike.order).foldl
    State.examineHeldBell s

/-! ## A bell leaves FIRING or FLIGHT (R94, R99) -/

/-- A bell with its strike in flight finished, in a state. -/
def Bell.finish (b : Bell) (state : BellState) : Bell := { b with state := state, inFlight := none }

/-- From FLIGHT to READY: the finish is reported and the bell's HELD_BELL strikes examined (R95, R100, R101). -/
def State.flightReady (s : State) (b : BellNo) (x : Bell) (f : InFlight) : State :=
  ((s.setBell b (x.finish .ready)).finished f.owner).releaseHeld b

/-! ## Removals and disabling (R101, R104, R105) -/

/-- Every strike for a bell leaves the queue as dropped-disabled for its owner. -/
def State.removeForBell (s : State) (b : BellNo) : State :=
  let gone := s.strikes.queue.filter fun k => k.bell == b
  gone.foldl (fun s k => s.countFor k.owner fun r => { r with droppedDisabled := satInc r.droppedDisabled })
    (s.setQueue (s.strikes.queue.filter fun k => k.bell != b))

/-- Every strike leaves the queue as dropped-inhibited for its owner. -/
def State.removeInhibited (s : State) : State :=
  s.strikes.queue.foldl
    (fun s k => s.countFor k.owner fun r => { r with droppedInhibited := satInc r.droppedInhibited }) (s.setQueue [])

/-- A bell is disabled with a cause: its strikes are removed, its output driven low, its window cancelled, its DISABLED
cause presented. -/
def State.disableBell (s : State) (b : BellNo) (cause : DisableCause) : State :=
  let s := s.removeForBell b
  let s := { s with strikes := s.strikes.release b }
  (s.setBell b ((s.bell b).finish (.disabled cause))).latchBell b fun l => { l with disabled := true }

/-- After a disabling: the finishes are reported, and the supply is served where a place was freed (R96); the order is the
model's (notes/assumptions/33.md, 52.md). -/
def State.afterDisable (s : State) (wasFiring : Bool) : State :=
  if wasFiring then s.finishedAll.serve else s.finishedAll

end Sys2Proof.Machine
end

