-- ==== Sys2Proof/Machine/LaneOps.lean ====
section
/-! DEFINITION. A lane takes its steps: the meaning of each step kind, the runaway guard, waits, END (chapter 4). -/
namespace Sys2Proof.Machine

/-! ## Small parts -/

/-- The cursor moved to the next slot. -/
def Run.advanced (r : Run) : Run := { r with cursor := r.cursor + 1 }

/-- The hour on a twelve-hour dial (R67). -/
def hour12 (hour : Nat) : Nat := if hour % 12 = 0 then 12 else hour % 12

/-- What a COUNT_SET loads (R67). -/
def countValue (t : MallTime) (source value counter : Nat) : Nat :=
  match source with
  | 0 => value
  | 1 => hour12 t.hour
  | 2 => t.hour
  | 3 => t.minute
  | _ => counter

/-- The lane counter after a BRANCH on COUNT has decremented it (R70). -/
def counterAfter (condition : Option Condition) (counter : Nat) : Nat :=
  if condition = some .count then counter - 1 else counter

/-- A BRANCH condition, the counter being already decremented (R69, R70). -/
def State.holds (s : State) (r : Run) (condition : Option Condition) (argument : Half) : Bool :=
  match condition with
  | none => false
  | some .flag => s.sched.flags.getLsbD argument.toNat
  | some .programme => s.cal.active.val == argument.toNat
  | some .quiet => s.cal.quiet
  | some .settled => (maskAxes (axisMaskOf argument)).all fun a => (s.axis a).mode == .hold
  | some .axisFault =>
    match index? 12 argument.toNat with
    | some a => (s.axis a).isFault
    | none => false
  | some .bellOk =>
    match index? 32 argument.toNat with
    | some b => !(s.bell b).isDisabled
    | none => false
  | some .waitTimeout => r.lastWait == .timeout
  | some .rehearsal => s.mode == .rehearse
  | some .hour => s.cal.time.hour == argument.toNat
  | some .count => r.counter != 0

/-- A branch is followed (R68): sense 0 is WHEN_TRUE, 1 is WHEN_FALSE. -/
def followed (sense : Nat) (condition : Bool) : Bool := if sense = 0 then condition else !condition

/-! ## Axis steps (R62, R63) -/

/-- The motion command of an axis step, with the MOVE's form (`some true` for WRAP). -/
def axisStep : Step → Option (Nat × Option Bool × Option MotionCommand)
  | .move axis wrap direction target rate => some (axis, some wrap, some (.move target direction rate))
  | .spin axis rate => some (axis, none, some (.spin rate))
  | .stop axis => some (axis, none, some .stop)
  | .follow axis leader numerator denominator offset =>
    some (axis, none, (index? 12 leader).map fun l => .follow l numerator denominator offset)
  | _ => none

/-- The form of a configured axis is the one a MOVE step names. -/
def Axis.hasForm (x : Axis) (wrap : Bool) : Bool :=
  match x.config with
  | some c => (c.form == .wrap) == wrap
  | none => false

/-- The form test of an axis step: only a MOVE names a form (R62). -/
def Axis.fitsForm (x : Axis) : Option Bool → Bool
  | some wrap => x.hasForm wrap
  | none => true

/-- A step's command reaches its axis: none when the step is skipped; else the state and the LIMITED report (R62).
No other lane waits on the axis and no exercise runs on it, so a settle event of a STOP reaches no one. -/
def State.laneCommand (s : State) (n : LaneNo) (axis : Nat) (form : Option Bool) (m : Option MotionCommand) :
    Option (State × Bool) :=
  match index? 12 axis, m with
  | some a, some m =>
    let x := s.axis a
    if s.claim a = some (.lane n) ∧ x.mode.enabled ∧ x.fitsForm form then
      (s.commandAxis a m).map fun (s', limited, _) => (s', limited)
    else none
  | _, _ => none

/-! ## Waits (R64, R65) -/

/-- The wait set: the axes of the mask that the lane owns. -/
def State.waitSet (s : State) (n : LaneNo) (mask : BitVec 12) : BitVec 12 :=
  maskOf fun a => inMask mask a && s.claim a == some (.lane n)

/-- Every axis of a set is at rest. -/
def State.allAtRest (s : State) (set : BitVec 12) : Bool := (maskAxes set).all fun a => (s.axis a).mode.atRest

/-- The result of a wait whose axes are at rest: FAULTED if any is in FAULT, OK otherwise. -/
def State.restResult (s : State) (set : BitVec 12) : WaitResult :=
  if (maskAxes set).any fun a => (s.axis a).isFault then .faulted else .ok

/-- A wait ended: result, base instant, RUNNING, past the WAIT_AXIS (R64). -/
def Run.waitEnded (r : Run) (result : WaitResult) (now : Instant) : Run :=
  { r with lastWait := result, base := now, phase := .running, cursor := r.cursor + 1 }

/-! ## END (R52) -/

/-- Lane n takes END: claims released, DRAINING, COMPLETE at once where it owns no strike; then the walk. -/
def State.takeEnd (s : State) (n : LaneNo) (r : Run) : State :=
  let s := s.releaseClaims (.lane n)
  let r := { r with phase := .draining, timer := none }
  let s := s.setRun n r
  (if s.ownsStrike n then s else s.finalise n r .complete).walk

/-! ## One step -/

/-- Lane n, whose run is r with the step's base and zero-delta count already written, takes a step at the step's due
instant. The answer says whether the lane goes on taking steps. -/
def State.takeStep (s : State) (n : LaneNo) (r : Run) (step : Step) (due : Instant) : State × Bool :=
  match step with
  | .strike bell velocity =>
    let s := s.setRun n { r.advanced with record := { r.record with taken := satInc r.record.taken } }
    match index? 32 bell with
    | some b => (s.laneStrike n b velocity due, true)
    | none => (s, true)
  | .waitAxis mask timeout =>
    let set := s.waitSet n (axisMaskOf mask)
    if s.allAtRest set then (s.setRun n (r.waitEnded (s.restResult set) due), true)
    else
      (s.setRun n { r with phase := .waiting set (due + millis timeout), timer := none, zeroCount := 0 }, false)
  | .setFlag flag value =>
    let bit := 1#8 <<< flag
    let flags := if value = 0 then s.sched.flags &&& ~~~bit else s.sched.flags ||| bit
    ({ s.setRun n r.advanced with sched := { s.sched with flags := flags } }, true)
  | .countSet source value =>
    (s.setRun n { r.advanced with counter := countValue s.cal.time source value r.counter }, true)
  | .branch sense condition argument target =>
    let condition := conditionOf condition
    let r := { r with counter := counterAfter condition r.counter }
    let cursor := if followed sense (s.holds r condition argument) then r.executing.first + target else r.cursor + 1
    (s.setRun n { r with cursor := cursor }, true)
  | .call entry =>
    match s.store.phrase entry with
    | some b =>
      (s.setRun n { r with
        returnPoint := some (r.cursor + 1)
        executing := ⟨entry, true, b.first, b.count⟩
        cursor := b.first }, true)
    | none => ((s.setRun n r).endAndWalk n .noPhrase, false)
  | .returnStep =>
    match r.returnPoint with
    | some back => (s.setRun n { r with cursor := back, executing := r.shown, returnPoint := none }, true)
    | none => ((s.setRun n r).endAndWalk n .badStep, false)
  | .endStep => (s.takeEnd n r, false)
  | .unknown => ((s.setRun n r).endAndWalk n .badStep, false)
  | .move .. | .spin .. | .stop _ | .follow .. =>
    match axisStep step with
    | some (axis, form, m) =>
      match s.laneCommand n axis form m with
      | some (s', limited) =>
        let record := if limited then { r.record with targetsLimited := satInc r.record.targetsLimited } else r.record
        (s'.setRun n { r.advanced with record := record }, true)
      | none =>
        (s.setRun n { r.advanced with record := { r.record with axisSkipped := satInc r.record.axisSkipped } }, true)
    | none => (s, false)

/-! ## One expiry (R60, R73) -/

/-- What the lane finds at its cursor: nothing to do, a step that is not ready, the runaway guard, or a step taken. -/
def State.lookStep (s : State) (n : LaneNo) : State × Bool :=
  match (s.lane n).run with
  | none => (s, false)
  | some r =>
    if r.phase = .running then
      let word := s.store.mem.readSlot r.cursor
      let step := decodeStep word
      let delta := stepDelta word
      let due := r.base + millis delta
      if reached (readyInstant step due) s.now then
        if delta = 0 ∧ 64 ≤ r.zeroCount + 1 then (s.endAndWalk n .badStep, false)
        else
          s.takeStep n
            { r with due := due, base := due, zeroCount := if delta = 0 then r.zeroCount + 1 else 0 } step due
      else (s.setRun n { r with due := due, timer := some (readyInstant step due) }, false)
    else (s, false)

/-- The lane takes steps until one is not ready or the stepping stops. A timer left set at the end of the count is due
again at the same instant; 63 steps of delta 0 between at most 251 STRIKEs of one lookahead stay below the count. -/
def State.stepTimes (s : State) (n : LaneNo) : Nat → State
  | 0 => s
  | fuel + 1 =>
    match s.lookStep n with
    | (s', true) => s'.stepTimes n fuel
    | (s', false) => s'

/-- One expiry of lane n's timer. -/
def State.runSteps (s : State) (n : LaneNo) : State := s.stepTimes n 32768

/-! ## Waits end (R65) -/

/-- Lane n's wait ends with a result, and the lane goes on taking steps. The timer stands at now until the steps taken
set it. -/
def State.endWait (s : State) (n : LaneNo) (r : Run) (result : WaitResult) : State :=
  (s.setRun n { r.waitEnded result s.now with timer := some s.now }).runSteps n

/-- A settle event or a fault of an axis reaches lane n (R65). -/
def State.waitReview (s : State) (a : AxisNo) (n : LaneNo) : State :=
  match (s.lane n).run with
  | none => s
  | some r =>
    match r.phase with
    | .waiting set _ =>
      if inMask set a ∧ s.allAtRest set then s.endWait n r (s.restResult set) else s
    | _ => s

/-- A settle event or a fault of an axis reaches every lane waiting on it. -/
def State.tellLanes (s : State) (a : AxisNo) : State := (indexes 4).foldl (fun s n => s.waitReview a n) s

end Sys2Proof.Machine
end

