-- ==== Sys2Proof/Machine/FigureOps.lean ====
section
/-! DEFINITION. Figures at the state: settle events, follower stops, faults, replies, updates, with the tracking verifier
and the axis exercise that watch them (chapters 7 and 8). -/
namespace Sys2Proof.Machine

/-! ## The scan (R128) -/

/-- An axis is eligible for a dwell. -/
def State.eligible (s : State) (a : AxisNo) : Bool := (s.axis a).config.isSome && (s.axis a).mode.enabled

/-- The axes in ascending cyclic order from the one after the last axis. -/
def scanOrder (last : Option AxisNo) : List AxisNo :=
  (indexes 12).map fun i => match last with
    | some a => a + 1 + i
    | none => i

/-- The next dwell axis is chosen, while the enable is on. -/
def State.chooseDwell (s : State) : State :=
  let v := s.verifier
  if v.enable then
    match (scanOrder v.last).find? s.eligible with
    | some a =>
      { s with verifier := { v with
        scan := some a, last := some a, dwell := 0, disturbed := false, previousSetpoint := none
        updateSeen := false } }
    | none => { s with verifier := { v with scan := none } }
  else s

/-- An axis may have become eligible: the next dwell axis is chosen where no dwell is in progress. -/
def State.reviewScan (s : State) : State := if s.verifier.scan.isNone then s.chooseDwell else s

/-- A verdict ends the dwell: it is recorded and counted (R130 steps 1 and 2). -/
def State.verdict (s : State) (a : AxisNo) (r : VerdictRecord) : State :=
  let v := s.verifier
  { s with verifier := { v with scan := none, verdicts := tset v.verdicts a (some r), pass := v.pass + 1 } }

/-- The scan axis has left the enabled modes: its dwell ends SKIPPED and the next is chosen (R129, R130). -/
def State.skipDwell (s : State) (a : AxisNo) : State :=
  if s.verifier.scan = some a then (s.verdict a ⟨.skipped, none, none⟩).chooseDwell else s

/-! ## The exercise (R132 … R134) -/

/-- An exercise runs. -/
def State.exercising (s : State) : Option Exercise :=
  match s.exercise with
  | some e => if e.phase = .done then none else some e
  | none => none

/-- The test positions (R133). -/
def testPosition (form : AxisForm) (k : Fin 8) : Int :=
  match form with
  | .wrap => k.val * 45000
  | .bounded lower upper => lower + k.val * (upper - lower) / 7

/-- The exercise gives its axis a MOVE (R133 steps 1 and 3). -/
def State.exerciseMove (s : State) (e : Exercise) (target : Int) : State :=
  match s.commandAxis e.axis (.move target .short e.rate) with
  | some (s', _, _) => s'
  | none => s

/-- The exercise is done with a verdict: EXERCISE_DONE, the claim released, the walk (R133, R134). -/
def State.endExercise (s : State) (e : Exercise) (verdict : ExerciseVerdict) : State :=
  let e := { e with phase := .done, verdict := some verdict }
  ((({ s with exercise := some e }.notice (.exerciseDone e)).setClaim e.axis none)).walk

/-- A running exercise aborts with a cause (R134). -/
def State.abortExercise (s : State) (cause : AbortCause) : State :=
  match s.exercising with
  | some e => s.endExercise e (.aborted cause)
  | none => s

/-- Every position passed. -/
def Exercise.allPassed (e : Exercise) : Bool :=
  e.results.toList.all fun r => match r with
    | some p => p.passed
    | none => false

/-- A settle event of an axis reaches the exercise: at a test position the dwelling begins (R133 step 1). The settle event of
the return move leaves the axis in HOLD at the start position; the completion falls at that instant and is a thing of its
own (`State.completeExercise`), so that an EXERCISE_ABORT may be taken before it (R134; notes/assumptions/48.md). -/
def State.exerciseSettle (s : State) (a : AxisNo) : State :=
  match s.exercising with
  | none => s
  | some e =>
    if e.axis = a ∧ e.phase = .moving then { s with exercise := some { e with phase := .dwelling, dwell := 0 } }
    else s

/-- The exercise whose return move has ended: its axis has come to HOLD (R133 step 4). -/
def State.exerciseHome (s : State) : Option Exercise :=
  s.exercising.filter fun e => e.phase == .returning && (s.axis e.axis).mode == .hold

/-- The completion of the exercise whose return move has ended (R133 step 4). -/
def State.completeExercise (s : State) : State :=
  match s.exerciseHome with
  | some e => s.endExercise e (if e.allPassed then .pass else .fail)
  | none => s

/-- The magnitude of a difference of positions, the shortest way for a WRAP axis (R129, R133). -/
def positionError (form : AxisForm) (a b : Int) : Nat :=
  match form with
  | .wrap => (shortestWay (a - b)).natAbs
  | .bounded _ _ => (a - b).natAbs

/-- The measurement at a test position, and what follows it (R133 steps 2 and 3). The dwell count of 20 stands until the next
dwell begins (notes/assumptions/56.md). -/
def State.exerciseMeasure (s : State) (e : Exercise) (c : AxisConfig) (measured : Int) : State :=
  let error := positionError c.form measured (tget e.positions e.index)
  let e := { e with results := tset e.results e.index (some ⟨error, error ≤ c.tolerance⟩) }
  if h : e.index.val + 1 < 8 then
    let e := { e with index := ⟨e.index.val + 1, h⟩, phase := .moving }
    { s with exercise := some e }.exerciseMove e (tget e.positions e.index)
  else
    let e := { e with phase := .returning }
    { s with exercise := some e }.exerciseMove e e.start

/-- An update of an axis reaches the exercise, after its reply or the absence of it (R133 step 2). -/
def State.exerciseUpdate (s : State) (a : AxisNo) : State :=
  match s.exercising with
  | none => s
  | some e =>
    if e.axis = a ∧ e.phase = .dwelling then
      let e := { e with dwell := e.dwell + 1 }
      let s := { s with exercise := some e }
      if e.dwell < Config.dwellUpdates then s
      else
        match (s.axis a).config, (s.axis a).measured with
        | some c, some measured => s.exerciseMeasure e c measured
        | _, _ => s
    else s

/-! ## Settle events, follower stops, faults (R113, R116, R122) -/

/-- A settle event of an axis: to every lane waiting on it and to the exercise (R116). -/
def State.settle (s : State) (a : AxisNo) : State := (s.tellLanes a).exerciseSettle a

/-- An axis in FOLLOW with a leader that has entered OFF or FAULT is given STOP with its own dv (R122). -/
def State.stopFollower (leader : AxisNo) (s : State) (f : AxisNo) : State :=
  match (s.axis f).mode with
  | .follow l _ _ _ =>
    if l = leader then
      let (s', settled) := s.stopAxis f (s.axis f).dv
      if settled then s'.settle f else s'
    else s
  | _ => s

/-- Every follower of a leader is stopped, in ascending axis number: R122 names no order (notes/assumptions/46.md). -/
def State.stopFollowers (s : State) (leader : AxisNo) : State := (indexes 12).foldl (State.stopFollower leader) s

/-- The exercise aborts where its axis is the one (R113 step 4, R134). -/
def State.exerciseFault (s : State) (a : AxisNo) : State :=
  match s.exercising with
  | some e => if e.axis = a then s.abortExercise .fault else s
  | none => s

/-- An axis in an enabled mode enters FAULT (R113); a dwell on it ends after those steps (notes/assumptions/30.md). -/
def State.enterFault (s : State) (a : AxisNo) (cause : AxisFaultCause) : State :=
  let x := s.axis a
  if x.mode.enabled then
    let s := ((s.setAxis a (x.enterFault cause)).stopFollowers a).tellLanes a
    let s := (s.exerciseFault a).latchAxis a fun l => { l with fault := some cause }
    (s.notice (.axisFault a cause x.cmd x.measured)).skipDwell a
  else s

/-- An axis is put in OFF by the steps of DISABLE (R124); a dwell on it ends last (notes/assumptions/30.md). -/
def State.putOff (s : State) (a : AxisNo) : State :=
  ((s.setAxis a (s.axis a).putOff).stopFollowers a).skipDwell a

/-! ## Verdicts (R129, R130) -/

/-- The verdict of a dwell that its 20th update ends. -/
def State.judge (s : State) (a : AxisNo) (valid : Bool) : VerdictRecord :=
  let x := s.axis a
  match x.config, x.measured, s.verifier.previousSetpoint with
  | some c, some measured, some setpoint =>
    if s.verifier.disturbed || !valid then ⟨.skipped, none, none⟩
    else
      let error := positionError c.form measured setpoint
      let allowance := c.tolerance + x.v.natAbs / 100
      ⟨if allowance < error then .fail else .pass, some error, some allowance⟩
  | _, _, _ => ⟨.skipped, none, none⟩

/-- What a FAIL does (R130 step 3). -/
def State.trackingFail (s : State) (a : AxisNo) : State :=
  match s.mode with
  | .live => s.enterFault a .tracking
  | .rehearse => s.enterFault a .tracking
  | .listen => (s.latchAxis a fun l => { l with mismatch := true }).notice (.shadowMismatch a)
  | .safe => s

/-- The end of a dwell with a verdict (R130). -/
def State.endDwell (s : State) (a : AxisNo) (r : VerdictRecord) : State :=
  let s := s.verdict a r
  (if r.verdict = .fail then s.trackingFail a else s).chooseDwell

/-- An update of an axis reaches the verifier, after its reply or the absence of it (R128). -/
def State.verifierUpdate (s : State) (a : AxisNo) (valid : Bool) : State :=
  let v := s.verifier
  if v.scan = some a ∧ v.updateSeen then
    let s := { s with verifier := { v with dwell := v.dwell + 1, updateSeen := false } }
    if v.dwell + 1 < Config.dwellUpdates then
      { s with verifier := { s.verifier with previousSetpoint := some (s.axis a).sent } }
    else s.endDwell a (s.judge a valid)
  else s

/-! ## Replies (R112, R137) -/

/-- In REHEARSE the measured position of an enabled axis is looped back from cmd (R137). -/
def State.loopsBack (s : State) (a : AxisNo) : Bool := s.mode == .rehearse && (s.axis a).mode.enabled

/-- The reply of an update is missing: the axis after it, and the fault that the third in a row finds. -/
def State.replyMissing (s : State) (a : AxisNo) : State × Option AxisFaultCause :=
  let x := s.axis a
  let missed := min 3 (x.missed + 1)
  let measured := if s.loopsBack a && x.slotCmd.isSome then x.slotCmd else x.measured
  (s.setAxis a { x with awaiting := none, missed := missed, measured := measured },
    if missed = 3 then some .axisLink else none)

/-- A valid reply of an update is taken: the axis after it, and the fault that its checks find. -/
def State.replyValid (s : State) (a : AxisNo) (c : AxisConfig) (r : AmpReply) : State × Option AxisFaultCause :=
  let x := s.axis a
  let measured := if s.loopsBack a then x.slotCmd.getD r.measured else r.measured
  let y := { x with
    awaiting := none, missed := 0, measured := some measured
    cmd := if x.mode = .off then some measured else x.cmd }
  (s.setAxis a y, replyFault c y r.status measured)

/-- The dwell on an axis ends at the update that is counted now (R129). -/
def State.dwellEnds (s : State) (a : AxisNo) : Bool :=
  s.verifier.scan == some a && s.verifier.updateSeen && Config.dwellUpdates ≤ s.verifier.dwell + 1

/-- A reply or its absence has found a fault, or none, and the verifier counts the update. The fault comes before the count
(R112, R128). Where the count ends the dwell, the fault and the dwell's end fall at one instant, and either is taken first, by
a free choice (R129; notes/assumptions/49.md). -/
def State.countReply (s : State) (a : AxisNo) (valid : Bool) (fault : Option AxisFaultCause) : State :=
  match fault with
  | none => s.verifierUpdate a valid
  | some cause =>
    if s.dwellEnds a then
      if s.freeBool then (s.nextChoice.enterFault a cause).verifierUpdate a valid
      else (s.nextChoice.verifierUpdate a valid).enterFault a cause
    else (s.enterFault a cause).verifierUpdate a valid

/-- The reply of an update, or its absence, is taken (R112); then the verifier and the exercise count the update, in that
order (notes/assumptions/22.md). -/
def State.takeReply (s : State) (a : AxisNo) (r : Option AmpReply) : State :=
  match (s.axis a).config with
  | none => s.setAxis a { s.axis a with awaiting := none }
  | some c =>
    match r.filter fun m => c.form.inRange m.measured with
    | some m =>
      let (s', fault) := s.replyValid a c m
      (s'.countReply a true fault).exerciseUpdate a
    | none =>
      let (s', fault) := s.replyMissing a
      (s'.countReply a false fault).exerciseUpdate a

/-- The axis whose reply is awaited now: the allowance has begun and has not passed (R158). -/
def State.awaited (s : State) : Option AxisNo :=
  (indexes 12).find? fun a => match (s.axis a).awaiting with
    | some deadline => reached (deadline - micros Config.replyAllowance) s.now && !before deadline s.now
    | none => false

/-! ## The update (R111) -/

/-- The setpoint of an update's frame: cmd; free while no cmd is held (notes/assumptions/8.md). -/
def State.setpointOf (s : State) (x : Axis) : Long :=
  match x.cmd with
  | some c => BitVec.ofInt 32 c
  | none => Config.freeSetpoint s.choices

/-- An axis after its update: profile computed, frame command made. -/
def updated (s : State) (x y : Axis) : Axis :=
  { y with
    previousCommand := x.lastCommand
    lastCommand := some (frameCommandFor s.mode y.mode)
    slotTaken := true
    sent := y.cmd.getD x.sent
    slotCmd := x.cmd
    awaiting := if s.mode = .listen then none
      else some (s.now + micros (Config.axisFrameTime + Config.replyAllowance))
    heard := none }

/-- The frame of an update is driven on the axis bus, except in LISTEN (R111, R138, R158). -/
def State.driveFrame (s : State) (a : AxisNo) (x : Axis) : State :=
  if s.mode = .listen then s
  else
    { s with
      motion := { s.motion with
        line := some ⟨setpointBytes a (frameCommandFor s.mode x.mode) (s.setpointOf x),
          s.now + micros Config.axisFrameTime⟩ }
      choices := if x.cmd.isNone then s.choices + 1 else s.choices }

/-- An update of the scan axis belongs to its dwell (R128). -/
def State.noteUpdate (s : State) (a : AxisNo) : State :=
  if s.verifier.scan = some a then { s with verifier := { s.verifier with updateSeen := true } } else s

/-- One update of an axis (R111): profile, frame, settle event; in LISTEN the reply is taken here (R138). -/
def State.update (s : State) (a : AxisNo) : State :=
  let x := s.axis a
  match x.config with
  | none => s
  | some c =>
    let (y, settled) := profile s.leaders c x
    let s' := ((s.setAxis a (updated s x y)).driveFrame a y).noteUpdate a
    let s' := if y.lag then s'.latchAxis a fun l => { l with lag := true } else s'
    let s' := if settled then s'.settle a else s'
    if s.mode = .listen then s'.takeReply a x.heard else s'

end Sys2Proof.Machine
end

