-- ==== Sys2Proof/WellFormed.lean ====
section
/-! DEFINITION. Which commands can stand on the lines at all: what a frame of the message port or of the axis bus can
carry (sections 11.1, 11.4, 11.9). Range checks of the rules are the commands' own and are answered BAD_ARG. -/
namespace Sys2Proof

/-- The kinds of section 11.4: a frame of one of these kinds is a request. -/
def requestKinds : List Byte :=
  [0x01, 0x02, 0x03, 0x04, 0x05, 0x08, 0x09, 0x0A, 0x0B, 0x0C, 0x0D, 0x0E, 0x12, 0x13, 0x14, 0x15, 0x16, 0x17,
   0x20, 0x21, 0x22, 0x23, 0x28, 0x29, 0x2A, 0x2B, 0x2C, 0x30, 0x31, 0x32, 0x33, 0x34, 0x38]

/-- A byte is a request kind of section 11.4. -/
def isRequestKind (kind : Byte) : Bool := requestKinds.contains kind

/-- A command that the lines can carry. -/
def Instr.wf : Instr → Bool
  -- a taken frame of no request kind: below 0x80 (R145), at most 238 payload bytes (R144)
  | .requestBadKind _ kind payload => !isRequestKind kind && kind.toNat < 0x80 && payload.length ≤ 238
  -- 1 … 24 whole records (R24, R156)
  | .showData _ _ _ records => 1 ≤ records.length && records.length ≤ 24
  -- seventeen points, C0 … C16 (R89, section 11.4)
  | .setCurve _ points => points.length == 17
  -- request ids are 1 … 255 (R37)
  | .requestExpiry id => 1 ≤ id && id ≤ 255
  -- frames of the axis bus have 9 bytes (R158)
  | .axisReply bytes => bytes.length == 9
  | .axisBusDecode bytes => bytes.length == 9
  -- a low level shorter than 10 µs is no hard reset (R155)
  | .hardReset (.pin low) _ => 10 ≤ low
  | _ => true

end Sys2Proof
end

