-- ==== Sys2Proof/Machine/Frames.lean ====
section
/-! DEFINITION. Request frames: the frame of every host request (section 11.4) and what a taken frame asks for
(R147, R156). -/
namespace Sys2Proof.Machine

/-! ## The frame of a request -/

/-- The bytes of a step record, first byte first. -/
def stepBytes (w : StepWord) : List Byte := (List.range 8).map (stepByte w)

/-- The frame a host request stands for (section 11.4); an event has none. -/
def requestFrame : Instr → Option RxFrame
  | .ping tag => some ⟨tag, 0x01, []⟩
  | .reset tag => some ⟨tag, 0x02, []⟩
  | .status tag => some ⟨tag, 0x03, []⟩
  | .noticeMask tag mask => some ⟨tag, 0x04, two mask⟩
  | .queryLane tag lane => some ⟨tag, 0x05, [0, lane]⟩
  | .queryBell tag bell => some ⟨tag, 0x05, [1, bell]⟩
  | .queryAxis tag axis => some ⟨tag, 0x05, [2, axis]⟩
  | .queryQueue tag => some ⟨tag, 0x05, [3]⟩
  | .queryCalendar tag sub index => some ⟨tag, 0x05, [4, sub, index]⟩
  | .queryExercise tag => some ⟨tag, 0x05, [5]⟩
  | .requestBadKind tag kind payload => some ⟨tag, kind, payload⟩
  | .setTime tag year month day hour minute second milli pps =>
    some ⟨tag, 0x08, two year ++ [month, day, hour, minute, second] ++ two milli ++ [pps]⟩
  | .getTime tag => some ⟨tag, 0x09, []⟩
  | .setProgramme tag programme openLevel quietLevel quietStart quietEnd =>
    some ⟨tag, 0x0A, [programme, openLevel, quietLevel] ++ two quietStart ++ two quietEnd⟩
  | .setSeason tag entry startMonth startDay endMonth endDay weekdays programme priority =>
    some ⟨tag, 0x0B, [entry, startMonth, startDay, endMonth, endDay, weekdays, programme, priority]⟩
  | .clearSeason tag entry => some ⟨tag, 0x0C, [entry]⟩
  | .setTrigger tag entry selector hours minute weekdays showNo priority grace =>
    some ⟨tag, 0x0D, [entry, selector] ++ three hours ++ [minute, weekdays, showNo, priority, grace]⟩
  | .clearTrigger tag entry => some ⟨tag, 0x0E, [entry]⟩
  | .showOpen tag showNo kind count claims limit =>
    some ⟨tag, 0x12, [showNo, kind] ++ two count ++ two claims ++ two limit⟩
  | .showData tag showNo start records =>
    some ⟨tag, 0x13, showNo :: (two start ++ records.flatMap stepBytes)⟩
  | .showClose tag showNo => some ⟨tag, 0x14, [showNo]⟩
  | .showErase tag showNo => some ⟨tag, 0x15, [showNo]⟩
  | .storeCompact tag => some ⟨tag, 0x16, []⟩
  | .storeList tag first => some ⟨tag, 0x17, [first]⟩
  | .play tag showNo priority grace => some ⟨tag, 0x20, [showNo, priority, grace]⟩
  | .playTimed tag showNo priority grace year month day hour minute second =>
    some ⟨tag, 0x20, [showNo, priority, grace] ++ two year ++ [month, day, hour, minute, second]⟩
  | .cancel tag id => some ⟨tag, 0x21, [id]⟩
  | .setFlags tag flags => some ⟨tag, 0x22, [flags]⟩
  | .setKey tag key enabled showNo priority grace => some ⟨tag, 0x23, [key, enabled, showNo, priority, grace]⟩
  | .strike tag bell velocity delay => some ⟨tag, 0x28, [bell, velocity] ++ two delay⟩
  | .setBell tag bell k pmin pmax guard window missLimit =>
    some ⟨tag, 0x29, bell :: (four k ++ two pmin ++ two pmax ++ two guard ++ [window, missLimit])⟩
  | .bellEnable tag bell on => some ⟨tag, 0x2A, [bell, on]⟩
  | .setCurve tag points => some ⟨tag, 0x2B, points.flatMap two⟩
  | .setLevel tag master emax tau => some ⟨tag, 0x2C, [master, emax] ++ four tau⟩
  | .setAxis tag axis form lower upper vmax dv stopDv tolerance =>
    some ⟨tag, 0x30,
      [axis, form] ++ four lower ++ four upper ++ four vmax ++ two dv ++ two stopDv ++ two tolerance⟩
  | .axisCmdMove tag axis target rate direction =>
    some ⟨tag, 0x31, [axis, 0] ++ four target ++ four rate ++ [direction]⟩
  | .axisCmdSpin tag axis rate => some ⟨tag, 0x31, [axis, 1] ++ four rate⟩
  | .axisCmdStop tag axis => some ⟨tag, 0x31, [axis, 2]⟩
  | .axisCmdFollow tag axis leader numerator denominator offset =>
    some ⟨tag, 0x31, [axis, 3, leader, numerator, denominator] ++ four offset⟩
  | .axisCmdEnable tag axis => some ⟨tag, 0x31, [axis, 4]⟩
  | .axisCmdDisable tag axis => some ⟨tag, 0x31, [axis, 5]⟩
  | .axisCmdClear tag axis => some ⟨tag, 0x31, [axis, 6]⟩
  | .setVerify tag on => some ⟨tag, 0x32, [on]⟩
  | .exercise tag axis => some ⟨tag, 0x33, [axis]⟩
  | .exerciseAbort tag => some ⟨tag, 0x34, []⟩
  | .setMode tag mode => some ⟨tag, 0x38, [mode]⟩
  | .frameComplete => none
  | .frameGapTimeout => none
  | .frameByteError => none
  | .transmitFrameSent => none
  | .softReset => none
  | .hardReset _ _ => none
  | .compactionEnd => none
  | .minuteBoundary => none
  | .timedPlayRelease => none
  | .ppsEdge => none
  | .ppsLossDeadline => none
  | .keyPress _ => none
  | .requestExpiry _ => none
  | .laneTimerExpiry _ => none
  | .waitDeadlineExpiry _ => none
  | .runLimitExpiry _ => none
  | .fireInstantArrival => none
  | .heldGuardWaitExpiry _ => none
  | .guardInstantExpiry _ => none
  | .pulseEnd _ => none
  | .senseEdge _ => none
  | .impactWindowEnd _ => none
  | .confirmedWindowEndPasses _ => none
  | .deemedImpact _ => none
  | .axisUpdate _ => none
  | .axisReply _ => none
  | .axisReplyTimeout _ => none
  | .axisBusDecode _ => none
  | .atriumDebounceChange => none
  | .receivedByte _ => none
  | .atriumClearChange _ => none
  | .keyInputChange _ _ => none

/-! ## What a taken frame asks for -/

/-- A taken frame names a request for its owner, or is answered by the port with a result code alone. -/
inductive Parsed where
  | request (c : Instr)
  | answer (r : Result)
  deriving DecidableEq, Repr

/-- Step records of 8 bytes each, if the bytes divide so. -/
def recordsOf : List Byte → Option (List StepWord)
  | [] => some []
  | b0 :: b1 :: b2 :: b3 :: b4 :: b5 :: b6 :: b7 :: rest =>
    (recordsOf rest).map ((b0 ++ b1 ++ b2 ++ b3 ++ b4 ++ b5 ++ b6 ++ b7) :: ·)
  | _ => none

/-- Two-byte fields, if the bytes divide so. -/
def halvesOf : List Byte → Option (List Half)
  | [] => some []
  | high :: low :: rest => (halvesOf rest).map ((high ++ low) :: ·)
  | _ => none

/-- QUERY by its selector byte (R156, section 11.3). -/
def parseQuery (tag : Byte) : List Byte → Parsed
  | [] => .answer .badLength
  | selector :: rest =>
    match selector.toNat, rest with
    | 0, [lane] => .request (.queryLane tag lane)
    | 1, [bell] => .request (.queryBell tag bell)
    | 2, [axis] => .request (.queryAxis tag axis)
    | 3, [] => .request (.queryQueue tag)
    | 4, [sub, index] => .request (.queryCalendar tag sub index)
    | 5, [] => .request (.queryExercise tag)
    | n, _ => if n ≤ 5 then .answer .badLength else .answer .badArg

/-- AXIS_CMD by its command byte (R156, section 11.4). -/
def parseAxisCmd (tag : Byte) : List Byte → Parsed
  | axis :: command :: rest =>
    match command.toNat, rest with
    | 0, [t3, t2, t1, t0, r3, r2, r1, r0, direction] =>
      .request (.axisCmdMove tag axis (t3 ++ t2 ++ t1 ++ t0) (r3 ++ r2 ++ r1 ++ r0) direction)
    | 1, [r3, r2, r1, r0] => .request (.axisCmdSpin tag axis (r3 ++ r2 ++ r1 ++ r0))
    | 2, [] => .request (.axisCmdStop tag axis)
    | 3, [leader, numerator, denominator, o3, o2, o1, o0] =>
      .request (.axisCmdFollow tag axis leader numerator denominator (o3 ++ o2 ++ o1 ++ o0))
    | 4, [] => .request (.axisCmdEnable tag axis)
    | 5, [] => .request (.axisCmdDisable tag axis)
    | 6, [] => .request (.axisCmdClear tag axis)
    | n, _ => if n ≤ 6 then .answer .badLength else .answer .badArg
  | _ => .answer .badLength

/-- SHOW_DATA: 3 + 8 n bytes, n of 1 … 24 (R156). -/
def parseShowData (tag : Byte) : List Byte → Parsed
  | showNo :: s1 :: s0 :: rest =>
    match recordsOf rest with
    | some records =>
      if 1 ≤ records.length ∧ records.length ≤ 24 then .request (.showData tag showNo (s1 ++ s0) records)
      else .answer .badLength
    | none => .answer .badLength
  | _ => .answer .badLength

/-- SET_CURVE: 34 bytes. -/
def parseSetCurve (tag : Byte) (payload : List Byte) : Parsed :=
  match halvesOf payload with
  | some points => if points.length = 17 then .request (.setCurve tag points) else .answer .badLength
  | none => .answer .badLength

/-- A frame the port has taken (R147): the kind must be a request kind, the length one the kind allows. -/
def parseRequest (f : RxFrame) : Parsed :=
  if isRequestKind f.kind then
    match f.kind.toNat, f.payload with
    | 0x01, [] => .request (.ping f.tag)
    | 0x02, [] => .request (.reset f.tag)
    | 0x03, [] => .request (.status f.tag)
    | 0x04, [m1, m0] => .request (.noticeMask f.tag (m1 ++ m0))
    | 0x05, p => parseQuery f.tag p
    | 0x08, [y1, y0, month, day, hour, minute, second, ms1, ms0, pps] =>
      .request (.setTime f.tag (y1 ++ y0) month day hour minute second (ms1 ++ ms0) pps)
    | 0x09, [] => .request (.getTime f.tag)
    | 0x0A, [programme, openLevel, quietLevel, s1, s0, e1, e0] =>
      .request (.setProgramme f.tag programme openLevel quietLevel (s1 ++ s0) (e1 ++ e0))
    | 0x0B, [entry, sm, sd, em, ed, weekdays, programme, priority] =>
      .request (.setSeason f.tag entry sm sd em ed weekdays programme priority)
    | 0x0C, [entry] => .request (.clearSeason f.tag entry)
    | 0x0D, [entry, selector, h2, h1, h0, minute, weekdays, showNo, priority, grace] =>
      .request (.setTrigger f.tag entry selector (h2 ++ h1 ++ h0) minute weekdays showNo priority grace)
    | 0x0E, [entry] => .request (.clearTrigger f.tag entry)
    | 0x12, [showNo, kind, n1, n0, c1, c0, l1, l0] =>
      .request (.showOpen f.tag showNo kind (n1 ++ n0) (c1 ++ c0) (l1 ++ l0))
    | 0x13, p => parseShowData f.tag p
    | 0x14, [showNo] => .request (.showClose f.tag showNo)
    | 0x15, [showNo] => .request (.showErase f.tag showNo)
    | 0x16, [] => .request (.storeCompact f.tag)
    | 0x17, [first] => .request (.storeList f.tag first)
    | 0x20, [showNo, priority, grace] => .request (.play f.tag showNo priority grace)
    | 0x20, [showNo, priority, grace, y1, y0, month, day, hour, minute, second] =>
      .request (.playTimed f.tag showNo priority grace (y1 ++ y0) month day hour minute second)
    | 0x21, [id] => .request (.cancel f.tag id)
    | 0x22, [flags] => .request (.setFlags f.tag flags)
    | 0x23, [key, enabled, showNo, priority, grace] => .request (.setKey f.tag key enabled showNo priority grace)
    | 0x28, [bell, velocity, d1, d0] => .request (.strike f.tag bell velocity (d1 ++ d0))
    | 0x29, [bell, k3, k2, k1, k0, n1, n0, x1, x0, g1, g0, window, missLimit] =>
      .request (.setBell f.tag bell (k3 ++ k2 ++ k1 ++ k0) (n1 ++ n0) (x1 ++ x0) (g1 ++ g0) window missLimit)
    | 0x2A, [bell, on] => .request (.bellEnable f.tag bell on)
    | 0x2B, p => parseSetCurve f.tag p
    | 0x2C, [master, emax, t3, t2, t1, t0] => .request (.setLevel f.tag master emax (t3 ++ t2 ++ t1 ++ t0))
    | 0x30, [axis, form, l3, l2, l1, l0, u3, u2, u1, u0, v3, v2, v1, v0, d1, d0, s1, s0, t1, t0] =>
      .request (.setAxis f.tag axis form (l3 ++ l2 ++ l1 ++ l0) (u3 ++ u2 ++ u1 ++ u0) (v3 ++ v2 ++ v1 ++ v0)
        (d1 ++ d0) (s1 ++ s0) (t1 ++ t0))
    | 0x31, p => parseAxisCmd f.tag p
    | 0x32, [on] => .request (.setVerify f.tag on)
    | 0x33, [axis] => .request (.exercise f.tag axis)
    | 0x34, [] => .request (.exerciseAbort f.tag)
    | 0x38, [mode] => .request (.setMode f.tag mode)
    | _, _ => .answer .badLength
  else .request (.requestBadKind f.tag f.kind f.payload)

/-! ## A request reaches the port -/

/-- A host request at the port: it is taken now if the port may take one and no older frame waits (R146); otherwise its
frame is offered to the receive queue, where it waits, or is answered BUSY when four wait (R31, R146;
notes/assumptions/11.md). -/
def takeRequest (c : Instr) (taken : State → State) (s : State) : State :=
  if s.takes then taken s
  else
    match requestFrame c with
    | some f => s.offer f
    | none => s

end Sys2Proof.Machine
end

