-- ==== Sys2Proof/Machine/Port.lean ====
section
/-! DEFINITION. Commands of the message port: identity, status, notice mask, the receiver and the transmitter
(chapter 10). -/
namespace Sys2Proof.Machine

/-- What a command answers. -/
abbrev Answer := Host.Outcome State Fault Refusal

/-! ## PING, RESET, STATUS, NOTICE_MASK, unknown kinds -/

/-- The capacities of section 11.4, in order. -/
def capacityBytes : List Byte :=
  [32, 12, 4, 64] ++ twoOf Config.stepSlots
    ++ [byteOf Config.requestCapacity, byteOf Config.timedPlayCapacity, byteOf Config.strikeCapacity,
        byteOf Config.receiveCapacity, byteOf Config.transmitCapacity]

def ResetRecord.bytes (r : ResetRecord) : List Byte := [r.kind.code, boolByte r.reported]

def State.setReported (s : State) : State :=
  { s with port := { s.port with resetRecord := { s.port.resetRecord with reported := true } } }

/-- PING (R153). -/
def execPing (tag : Byte) (s : State) : Answer :=
  .next (takeRequest (.ping tag)
    (fun s => (s.reply tag 0x01 .ok
      ([Config.familyCode, Config.revision] ++ capacityBytes ++ s.port.resetRecord.bytes)).setReported) s)

/-- RESET (R154): the reply is entered, and the port takes no request until the reset acts. -/
def State.askReset (s : State) (tag : Byte) : State :=
  { s with port :=
    { s.port.enterReply s.now { replyFrame tag 0x02 .ok [] with role := .resetReply } with resetWaiting := true } }

def execReset (tag : Byte) (s : State) : Answer :=
  .next (takeRequest (.reset tag) (fun s => s.askReset tag) s)

/-- The status record (section 11.7). -/
def State.statusRecord (s : State) : List Byte :=
  s.port.latches.bytes ++ [s.mode.code, boolByte s.output.isOpen] ++ two s.verifier.pass
    ++ [byteOf s.port.rx.length, byteOf s.port.tx.length] ++ s.port.resetRecord.bytes

/-- Every latch whose cause is not presented is cleared (R151). -/
def State.clearLatches (s : State) : State := s.latch fun l => l.keep (levelLatches s)

/-- STATUS (R151). The reply's contents are fixed, then the latches cleared. -/
def execStatus (tag : Byte) (s : State) : Answer :=
  .next (takeRequest (.status tag) (fun s => s.clearLatches.reply tag 0x03 .ok s.statusRecord) s)

/-- NOTICE_MASK (R149). -/
def State.writeMask (s : State) (tag : Byte) (mask : Half) : State :=
  if maskBeyond mask then s.reply tag 0x04 .badArg
  else
    let s := { s with port := { s.port with mask := axisMaskOf mask } }
    s.reply tag 0x04 .ok (two (s.port.mask.setWidth 16))

def execNoticeMask (tag : Byte) (mask : Half) (s : State) : Answer :=
  .next (takeRequest (.noticeMask tag mask) (fun s => s.writeMask tag mask) s)

/-- A taken frame whose kind is not a request kind (R147 step 1). -/
def execRequestBadKind (tag kind : Byte) (payload : List Byte) (s : State) : Answer :=
  .next (takeRequest (.requestBadKind tag kind payload) (fun s => s.reply tag kind .badKind) s)

/-! ## The receiver (R144, R145) -/

def State.setReceiver (s : State) (r : Receiver) : State := { s with port := { s.port with receiver := r } }

/-- A frame is discarded with LINK_FRAMING, and the receiver hunts (R144). -/
def State.discardFrame (s : State) : State :=
  (s.setReceiver .hunting).latch fun l => { l with linkFraming := true }

/-- The bytes after START make a complete frame: LEN and LEN + 2 further bytes (R144). -/
def frameIsComplete (bytes : List Byte) : Bool :=
  match bytes with
  | [] => false
  | len :: _ => bytes.length == len.toNat + 3

/-- The parts of a complete frame: the bytes the check covers, the check. -/
def splitCheck (bytes : List Byte) : List Byte × List Byte :=
  (bytes.take (bytes.length - 2), bytes.drop (bytes.length - 2))

/-- A complete frame is examined (R145). -/
def State.examineFrame (s : State) (bytes : List Byte) : State :=
  let s := s.setReceiver .hunting
  let (body, check) := splitCheck bytes
  if two (checkOf body) = check then
    match body with
    | _ :: tag :: kind :: payload =>
      if 0x80 ≤ kind.toNat then s.latch fun l => { l with linkFraming := true }
      else s.offer ⟨tag, kind, payload⟩
    | _ => s
  else s.latch fun l => { l with linkCheck := true }

/-- The receiver holds a complete frame that has not been examined. -/
def State.frameWaiting (s : State) : Option (List Byte) :=
  match s.port.receiver with
  | .inside bytes => if frameIsComplete bytes then some bytes else none
  | .hunting => none

/-- A waiting complete frame is examined. -/
def State.completeFrame (s : State) : State :=
  match s.frameWaiting with
  | some bytes => s.examineFrame bytes
  | none => s

/-- FRAME_COMPLETE (R145). -/
def execFrameComplete (s : State) : Answer := .next s.completeFrame

/-- More than 2 ms have passed since the last byte of a frame that is not complete (R144). -/
def State.gapPassed (s : State) : Bool :=
  match s.port.receiver with
  | .inside bytes =>
    !frameIsComplete bytes && reached (s.port.lastByte + micros (Config.frameGap + 1)) s.now
  | .hunting => false

def State.passGap (s : State) : State := if s.gapPassed then s.discardFrame else s

/-- FRAME_GAP_TIMEOUT (R144). -/
def execFrameGapTimeout (s : State) : Answer := .next s.passGap

/-- A byte with a missing stop bit (R144): inside a frame it discards the frame, while hunting it is ignored. -/
def State.byteError (s : State) : State :=
  match s.port.receiver with
  | .inside _ => s.discardFrame
  | .hunting => s

/-- FRAME_BYTE_ERROR (R144). -/
def execFrameByteError (s : State) : Answer := .next s.completeFrame.byteError

/-- A byte examined by the receiver (R144). -/
def State.receive (s : State) (b : Byte) : State :=
  let s := { s with port := { s.port with lastByte := s.now } }
  match s.port.receiver with
  | .hunting => if b = 0xC5 then s.setReceiver (.inside []) else s
  | .inside [] => if 2 ≤ b.toNat ∧ b.toNat ≤ 240 then s.setReceiver (.inside [b]) else s.discardFrame
  | .inside bytes => s.setReceiver (.inside (bytes ++ [b]))

/-- RECEIVED_BYTE (R144): after a frame already complete, or a gap already passed. -/
def execReceivedByte (byte : Byte) (s : State) : Answer := .next (s.completeFrame.passGap.receive byte)

/-! ## The transmitter (R148) -/

/-- The last stop bit of the head frame has been sent. -/
def State.frameGone (s : State) : Bool :=
  match s.port.sentAt with
  | some t => reached t s.now
  | none => false

/-- TRANSMIT_FRAME_SENT (R148). -/
def execTransmitFrameSent (s : State) : Answer :=
  .next (if s.frameGone then { s with port := s.port.frameSent s.now } else s)

end Sys2Proof.Machine
end

