-- ==== Sys2Proof/Machine/AxisCommands.lean ====
section
/-! DEFINITION. Commands and events of the motion unit (chapter 7). -/
namespace Sys2Proof.Machine

/-! ## SET_AXIS (R109) -/

/-- The form of a SET_AXIS, its limits in range; the limits of a WRAP axis are not examined. -/
def formOf (form : Byte) (lower upper : Int) : Option AxisForm :=
  if form = 0 then some .wrap
  else if form = 1 then
    (if -180000 ≤ lower ∧ lower ≤ 179999 ∧ lower < upper ∧ upper ≤ 180000 then some (.bounded lower upper) else none)
  else none

/-- The configuration of a SET_AXIS, every examined field in range (R109 step 1). -/
def axisConfigOf (form : Byte) (lower upper vmax : Long) (dv stopDv tolerance : Half) : Option AxisConfig :=
  (formOf form lower.toInt upper.toInt).bind fun f =>
    if 1 ≤ vmax.toInt ∧ vmax.toInt ≤ 360000 ∧ 1 ≤ dv.toNat ∧ dv.toNat ≤ 20000 ∧ dv.toNat ≤ stopDv.toNat
        ∧ stopDv.toNat ≤ 20000 ∧ 50 ≤ tolerance.toNat ∧ tolerance.toNat ≤ 20000 then
      some ⟨f, vmax.toNat, dv.toNat, stopDv.toNat, tolerance.toNat⟩
    else none

/-- An axis with a configuration written: OFF, its run state as after a soft reset, no measured position. A reply awaited
stands (notes/assumptions/55.md). -/
def Axis.configured (x : Axis) (c : AxisConfig) : Axis :=
  { x.softReset with config := some c, measured := none, cmd := none }

def State.writeAxis (s : State) (tag axis : Byte) (config : Option AxisConfig) : State :=
  match index? 12 axis.toNat, config with
  | some a, some c =>
    let x := s.axis a
    if x.config.isSome ∧ x.mode ≠ .off then s.reply tag 0x30 .busy
    else (s.setAxis a (x.configured c)).reply tag 0x30 .ok
  | _, _ => s.reply tag 0x30 .badArg

/-- SET_AXIS (R109). -/
def execSetAxis (tag axis form : Byte) (lower upper vmax : Long) (dv stopDv tolerance : Half) (s : State) : Answer :=
  .next (takeRequest (.setAxis tag axis form lower upper vmax dv stopDv tolerance)
    (fun s => s.writeAxis tag axis (axisConfigOf form lower upper vmax dv stopDv tolerance)) s)

/-! ## AXIS_CMD (R123, R124) -/

/-- The first four steps of R123. -/
inductive Gate where
  | refused (r : Result)
  | passed (a : AxisNo) (c : AxisConfig)

def State.axisGate (s : State) (axis : Byte) : Gate :=
  match index? 12 axis.toNat with
  | none => .refused .badArg
  | some a =>
    match (s.axis a).config with
    | none => .refused .notFound
    | some c =>
      if (s.claim a).isSome then .refused .claimed
      else if s.mode = .safe then .refused .mode
      else .passed a c

/-- An OK reply to AXIS_CMD: the axis's mode after the command, and LIMITED. -/
def axisReplyBytes (m : AxisMode) (limited : Bool) : List Byte := [m.code, boolByte limited]

/-- A motion command that has passed steps 1 to 6 of R123. -/
def State.carryOut (s : State) (tag : Byte) (a : AxisNo) (m : MotionCommand) : State :=
  if (s.axis a).mode.enabled then
    match s.commandAxis a m with
    | some (s', limited, settled) =>
      let t := s'.reply tag 0x31 .ok (axisReplyBytes (s'.axis a).mode limited)
      if settled then t.settle a else t
    | none => s.reply tag 0x31 .badArg
  else s.reply tag 0x31 .disabled [(s.axis a).mode.code]

/-- A motion command of the host, its arguments examined by the axis's configuration (R123). -/
def State.motionCommand (s : State) (tag axis : Byte) (arguments : AxisNo → AxisConfig → Option MotionCommand) :
    State :=
  match s.axisGate axis with
  | .refused r => s.reply tag 0x31 r
  | .passed a c =>
    if s.stopped then s.reply tag 0x31 .interlock
    else
      match arguments a c with
      | none => s.reply tag 0x31 .badArg
      | some m => s.carryOut tag a m

/-- A rate of 1 … 360,000 (R123 step 6). -/
def rateOf (rate : Long) : Option Nat :=
  if 1 ≤ rate.toInt ∧ rate.toInt ≤ 360000 then some rate.toNat else none

/-- A target inside the range of the axis's form (R123 step 6). -/
def targetOf (form : AxisForm) (target : Long) : Option Int :=
  if form.inRange target.toInt then some target.toInt else none

/-- The arguments of a MOVE. -/
def moveArguments (target rate : Long) (direction : Byte) (c : AxisConfig) : Option MotionCommand :=
  match targetOf c.form target, rateOf rate, directionOf direction with
  | some t, some r, some d => some (.move t d r)
  | _, _, _ => none

/-- AXIS_CMD MOVE (R119, R123). -/
def execAxisCmdMove (tag axis : Byte) (target rate : Long) (direction : Byte) (s : State) : Answer :=
  .next (takeRequest (.axisCmdMove tag axis target rate direction)
    (fun s => s.motionCommand tag axis fun _ c => moveArguments target rate direction c) s)

/-- The argument of a SPIN: refused on a BOUNDED axis (R117, R123). -/
def spinArguments (rate : Long) (c : AxisConfig) : Option MotionCommand :=
  if c.form = .wrap ∧ rate.toInt ≠ 0 ∧ rate.toInt.natAbs ≤ 360000 then some (.spin rate.toInt) else none

/-- AXIS_CMD SPIN (R117, R123). -/
def execAxisCmdSpin (tag axis : Byte) (rate : Long) (s : State) : Answer :=
  .next (takeRequest (.axisCmdSpin tag axis rate)
    (fun s => s.motionCommand tag axis fun _ c => spinArguments rate c) s)

/-- AXIS_CMD STOP (R118, R123). -/
def execAxisCmdStop (tag axis : Byte) (s : State) : Answer :=
  .next (takeRequest (.axisCmdStop tag axis)
    (fun s => s.motionCommand tag axis fun _ _ => some .stop) s)

/-- The arguments of a FOLLOW: as R26 bounds them, and not refused by R120. -/
def State.followArguments (s : State) (leader numerator denominator : Byte) (offset : Long) (a : AxisNo) :
    Option MotionCommand :=
  if followOutOfRange a.val leader.toNat numerator.toInt denominator.toNat offset.toInt then none
  else
    match index? 12 leader.toNat with
    | some l =>
      if followRefused s.leaders a l then none
      else some (.follow l numerator.toInt denominator.toNat offset.toInt)
    | none => none

/-- AXIS_CMD FOLLOW (R120, R123). -/
def execAxisCmdFollow (tag axis leader numerator denominator : Byte) (offset : Long) (s : State) : Answer :=
  .next (takeRequest (.axisCmdFollow tag axis leader numerator denominator offset)
    (fun s => s.motionCommand tag axis fun a _ => s.followArguments leader numerator denominator offset a) s)

/-- A measured position lies inside the soft limits of a BOUNDED axis. -/
def AxisForm.withinLimits (form : AxisForm) (measured : Int) : Bool :=
  match form with
  | .wrap => true
  | .bounded lower upper => lower ≤ measured && measured ≤ upper

/-- The measured position at which ENABLE holds an OFF axis; none where it is refused with BUSY (R124). -/
def Axis.enablePosition (x : Axis) (c : AxisConfig) : Option Int :=
  if 3 ≤ x.missed then none else x.measured.filter c.form.withinLimits

def State.enableAxis (s : State) (tag axis : Byte) : State :=
  match s.axisGate axis with
  | .refused r => s.reply tag 0x31 r
  | .passed a c =>
    let x := s.axis a
    match x.mode with
    | .fault f => s.reply tag 0x31 .disabled [(AxisMode.fault f).code]
    | .off =>
      match x.enablePosition c with
      | none => s.reply tag 0x31 .busy
      | some measured =>
        ((s.setAxis a (x.enableAt measured)).reviewScan).reply tag 0x31 .ok (axisReplyBytes .hold false)
    | m => s.reply tag 0x31 .ok (axisReplyBytes m false)

/-- AXIS_CMD ENABLE (R124). -/
def execAxisCmdEnable (tag axis : Byte) (s : State) : Answer :=
  .next (takeRequest (.axisCmdEnable tag axis) (fun s => s.enableAxis tag axis) s)

def State.disableAxis (s : State) (tag axis : Byte) : State :=
  match s.axisGate axis with
  | .refused r => s.reply tag 0x31 r
  | .passed a _ => (s.reply tag 0x31 .ok (axisReplyBytes .off false)).putOff a

/-- AXIS_CMD DISABLE (R124). -/
def execAxisCmdDisable (tag axis : Byte) (s : State) : Answer :=
  .next (takeRequest (.axisCmdDisable tag axis) (fun s => s.disableAxis tag axis) s)

def State.clearAxis (s : State) (tag axis : Byte) : State :=
  match s.axisGate axis with
  | .refused r => s.reply tag 0x31 r
  | .passed a _ =>
    match (s.axis a).mode with
    | .fault _ => (s.reply tag 0x31 .ok (axisReplyBytes .off false)).putOff a
    | m => s.reply tag 0x31 .ok (axisReplyBytes m false)

/-- AXIS_CMD CLEAR (R124). -/
def execAxisCmdClear (tag axis : Byte) (s : State) : Answer :=
  .next (takeRequest (.axisCmdClear tag axis) (fun s => s.clearAxis tag axis) s)

/-! ## Updates and replies (R111, R112, R158) -/

/-- The slot of a configured axis begins now, and its update has not been made. -/
def State.slotDue (s : State) (a : AxisNo) : Bool :=
  (s.axis a).config.isSome && !(s.axis a).slotTaken && s.cycle == Config.slotSpacing * a.val

/-- AXIS_UPDATE (R111). -/
def execAxisUpdate (axis : AxisNo) (s : State) : Answer := .next (if s.slotDue axis then s.update axis else s)

/-- The amplifier reply that bytes on AXB_RX are, for the axis whose reply is awaited: it passes the tests of R158 and
its position is in the form's range. -/
def State.heardReply (s : State) (a : AxisNo) (bytes : List Byte) : Option AmpReply :=
  match readReply bytes, (s.axis a).config with
  | some (address, r), some c => if address.toNat = a.val + 1 ∧ c.form.inRange r.measured then some r else none
  | _, _ => none

/-- Bytes arrive on AXB_RX within the allowance: a valid reply is taken; others leave the reply missing at its end. -/
def State.takeBytes (s : State) (bytes : List Byte) : State :=
  match s.awaited with
  | some a =>
    match s.heardReply a bytes with
    | some r => s.takeReply a (some r)
    | none => s
  | none => s

/-- AXIS_REPLY (R112, R158). -/
def execAxisReply (bytes : List Byte) (s : State) : Answer := .next (s.takeBytes bytes)

/-- The reply allowance of an axis has ended. -/
def State.replyOverdue (s : State) (a : AxisNo) : Bool :=
  match (s.axis a).awaiting with
  | some t => reached t s.now
  | none => false

/-- AXIS_REPLY_TIMEOUT (R112). -/
def execAxisReplyTimeout (axis : AxisNo) (s : State) : Answer :=
  .next (if s.replyOverdue axis then s.takeReply axis none else s)

/-- A decoded reply lies in the range of its axis's form (R112); an unconfigured axis has no form, and no reply is valid
for it (notes/assumptions/19.md). -/
def Axis.hears (x : Axis) (r : AmpReply) : Bool :=
  match x.config with
  | some c => c.form.inRange r.measured
  | none => false

/-- A reply decoded in LISTEN becomes the latest of the axis its address names (R138, R158). -/
def State.decodeBus (s : State) (bytes : List Byte) : State :=
  if s.mode = .listen then
    match readReply bytes with
    | some (address, r) =>
      match index? 12 (address.toNat - 1) with
      | some a =>
        if 1 ≤ address.toNat ∧ (s.axis a).hears r then s.setAxis a { s.axis a with heard := some r } else s
      | none => s
    | none => s
  else s

/-- AXIS_BUS_DECODE (R138, R158). -/
def execAxisBusDecode (bytes : List Byte) (s : State) : Answer := .next (s.decodeBus bytes)

end Sys2Proof.Machine
end

