-- ==== Sys2Proof/Machine/LaneEvents.lean ====
section
/-! DEFINITION. Events of the playback lanes: the timer, the wait deadline, the run limit (R60, R65, R75). -/
namespace Sys2Proof.Machine

/-- Lane n's timer has expired. -/
def State.timerDue (s : State) (n : LaneNo) : Bool :=
  match (s.lane n).run with
  | some r =>
    match r.phase, r.timer with
    | .running, some t => reached t s.now
    | _, _ => false
  | none => false

/-- LANE_TIMER_EXPIRY (R60). -/
def execLaneTimerExpiry (lane : LaneNo) (s : State) : Answer :=
  .next (if s.timerDue lane then s.runSteps lane else s)

/-- The run of a lane whose wait deadline has come. -/
def State.deadlineDue (s : State) (n : LaneNo) : Option Run :=
  match (s.lane n).run with
  | some r =>
    match r.phase with
    | .waiting _ deadline => if reached deadline s.now then some r else none
    | _ => none
  | none => none

/-- The record of a run whose wait timed out. -/
def Run.timedOut (r : Run) : Run := { r with record := { r.record with waitsTimedOut := satInc r.record.waitsTimedOut } }

/-- WAIT_DEADLINE_EXPIRY (R65). -/
def execWaitDeadlineExpiry (lane : LaneNo) (s : State) : Answer :=
  .next (match s.deadlineDue lane with
    | some r => s.endWait lane r.timedOut .timeout
    | none => s)

/-- A run's elapsed count has reached its run limit. -/
def State.limitDue (s : State) (n : LaneNo) : Bool :=
  match (s.lane n).run with
  | some r => r.limit * 1000 ≤ r.elapsed.ms
  | none => false

/-- RUN_LIMIT_EXPIRY (R75). -/
def execRunLimitExpiry (lane : LaneNo) (s : State) : Answer :=
  .next (if s.limitDue lane then s.endAndWalk lane .runLimit else s)

end Sys2Proof.Machine
end

