-- ==== Sys2Proof/Machine/OutputUnit.lean ====
section
/-! DEFINITION. Output control: SET_MODE and the atrium interlock (chapter 9). -/
namespace Sys2Proof.Machine

/-- The mode is set. In LISTEN AXB_DE is held low (R138), so a frame being driven is cut off; in the other modes it is
driven to its end, and a reply still awaited is awaited in every mode (notes/assumptions/43.md). -/
def State.setOutputMode (s : State) (m : OutputMode) : State :=
  { s with
    output := { s.output with mode := m }
    motion := { s.motion with line := if m = .listen then none else s.motion.line } }

/-! ## The change of mode (R139, R140) -/

/-- Every run ends with an outcome, in ascending lane number; the walk that follows them is the caller's. -/
def State.endRuns (s : State) (outcome : RunOutcome) : State :=
  (indexes 4).foldl (fun s n => s.endRun n outcome) s

/-- Axes with a property of their mode enter OFF by the steps of DISABLE, all at this instant and without settle events;
a dwell on one of them ends SKIPPED (R129, R139, R140). An unconfigured axis is OFF already. -/
def State.allOff (s : State) (p : AxisMode → Bool) : State :=
  let leave := fun a => p (s.axis a).mode
  let t := { s with motion := { s.motion with
    axes := Vector.ofFn fun a => if leave a then (s.axis a).putOff else s.axis a } }
  match s.verifier.scan with
  | some a => if leave a then t.skipDwell a else t
  | none => t

/-- The change to SAFE (R139). -/
def State.toSafe (s : State) : State :=
  let s := (s.setOutputMode .safe).endRuns .mode
  let s := { s with strikes := { s.strikes.hammerStop with queue := [] } }
  ((s.allOff fun m => m != .off).abortExercise .mode).walk

/-- The five conditions of a quiet tower that fail (R139, section 11.4). -/
def State.unquiet (s : State) : Byte :=
  (if (indexes 4).any fun n => (s.lane n).run.isSome then 1 else 0)
    + (if s.strikes.queue.isEmpty then 0 else 2)
    + (if (indexes 32).any fun b => (s.bell b).state == .firing || (s.bell b).state == .flight then 4 else 0)
    + (if (indexes 12).any fun a => (s.axis a).mode.moving then 8 else 0)
    + (if s.exercising.isSome then 16 else 0)

/-- The change between two running modes of a quiet tower (R140). A reply still awaited from an update under the old mode
is taken or found missing under the new one (notes/assumptions/43.md). -/
def State.betweenRunning (s : State) (m : OutputMode) : State := ((s.allOff fun x => x == .hold).setOutputMode m).walk

def State.changeMode (s : State) (tag : Byte) (m : OutputMode) : State :=
  if m = s.mode then s.reply tag 0x38 .ok [m.code]
  else if m = .safe then (s.reply tag 0x38 .ok [m.code]).toSafe
  else if s.mode = .safe then ((s.reply tag 0x38 .ok [m.code]).setOutputMode m).walk
  else if s.unquiet ≠ 0 then s.reply tag 0x38 .busy [s.mode.code, s.unquiet]
  else (s.reply tag 0x38 .ok [m.code]).betweenRunning m

def State.askMode (s : State) (tag mode : Byte) : State :=
  match outputModeOf mode with
  | none => s.reply tag 0x38 .badArg
  | some m => s.changeMode tag m

/-- SET_MODE (R139). -/
def execSetMode (tag mode : Byte) (s : State) : Answer :=
  .next (takeRequest (.setMode tag mode) (fun s => s.askMode tag mode) s)

/-! ## The atrium interlock (R141, R142) -/

/-- The input changes level: the 20 ms count starts again (R141). -/
def State.atriumChange (s : State) (level : Bool) : State :=
  if s.output.atriumClear = level then s
  else { s with output := { s.output with atriumClear := level, changedAt := s.now } }

/-- ATRIUM_CLEAR_CHANGE (R141). -/
def execAtriumClearChange (level : Bool) (s : State) : Answer := .next (s.atriumChange level)

/-- The input has held the level opposite to the debounced state for 20 ms: clear while OPEN, not clear while CLOSED. -/
def State.atriumDue (s : State) : Bool :=
  s.output.atriumClear == s.output.isOpen && reached (s.output.changedAt + micros Config.atriumDebounce) s.now

/-- The fast stop to every moving axis (R118, R142). No lane and no exercise is left to hear its settle events. -/
def State.fastStop (s : State) : State := (indexes 12).foldl (fun s a => (s.stopAxis a (s.axis a).stopDv).1) s

/-- The strikes and the runs at an opening: the strike unit or the scheduler acts first, by a free choice
(R54, R142; notes/assumptions/6.md). -/
def State.clearTower (s : State) : State :=
  if s.freeBool then s.nextChoice.removeInhibited.endRuns .interlock
  else (s.nextChoice.endRuns .interlock).removeInhibited

/-- The tower is stopped at an opening in LIVE (R142). -/
def State.stopTower (s : State) : State :=
  let s := s.clearTower
  let s := { s with strikes := s.strikes.hammerStop }
  s.fastStop.abortExercise .interlock

def State.setOpen (s : State) (isOpen : Bool) : State := { s with output := { s.output with isOpen := isOpen } }

/-- The debounced state becomes OPEN (R141, R142). -/
def State.openInterlock (s : State) : State :=
  let s := (s.setOpen true).latch fun l => { l with interlock := true }
  let s := if s.mode = .live then s.stopTower else s
  (s.notice (.interlock true s.mode)).walk

/-- The debounced state becomes CLOSED (R141, R143). -/
def State.closeInterlock (s : State) : State :=
  let s := s.setOpen false
  (s.notice (.interlock false s.mode)).walk

/-- ATRIUM_DEBOUNCE_CHANGE (R141). -/
def execAtriumDebounceChange (s : State) : Answer :=
  .next (if s.atriumDue then (if s.output.isOpen then s.closeInterlock else s.openInterlock) else s)

end Sys2Proof.Machine
end

