-- ==== Sys2Proof/Machine/Query.lean ====
section
/-! DEFINITION. QUERY in its six selectors (R19, R55, R107, R125, R135): each item of the rule in the rule's order, by the
records and codes of chapter 11; the forms chapter 11 does not spell out are in notes/assumptions/9.md. -/
namespace Sys2Proof.Machine

/-! ## Lane (R55) -/

def Lane.stateCode (l : Lane) : Byte :=
  match l.run with
  | none => 0
  | some r =>
    match r.phase with
    | .running => 1
    | .waiting _ _ => 2
    | .draining => 3

/-- The run of a lane that is not IDLE. -/
def Run.bytes (r : Run) : List Byte :=
  [byteOf r.id, byteOf r.showNo, byteOf r.priority] ++ r.source.bytes
    ++ twoOf (r.cursor - r.executing.first) ++ [boolByte r.executing.phrase, byteOf r.counter, r.lastWait.code]
    ++ fourOf r.elapsed.ms ++ r.record.bytes

def Lane.bytes (l : Lane) : List Byte :=
  l.stateCode :: ((match l.run with | some r => r.bytes | none => []) ++ recordOrAbsent l.last)

def State.queryLane (s : State) (tag lane : Byte) : State :=
  match index? 4 lane.toNat with
  | some n => s.reply tag 0x05 .ok (s.lane n).bytes
  | none => s.reply tag 0x05 .badArg

/-- QUERY with selector lane (R55). -/
def execQueryLane (tag lane : Byte) (s : State) : Answer :=
  .next (takeRequest (.queryLane tag lane) (fun s => s.queryLane tag lane) s)

/-! ## Queue (R55) -/

/-- A queued request (section 11.4). -/
def Request.bytes (r : Request) : List Byte :=
  [byteOf r.id, byteOf r.showNo, byteOf r.priority] ++ r.source.bytes ++ fourOf r.grace

/-- A key-table entry (section 11.4). -/
def keyBytes (e : KeyEntry) (x : KeyInput) : List Byte :=
  [boolByte e.enabled, byteOf e.showNo, byteOf e.priority, byteOf e.grace, boolByte x.debounced,
   byteOf (x.held.getD 0)]

def Scheduler.bytes (c : Scheduler) : List Byte :=
  byteOf c.queue.length :: (c.queue.flatMap Request.bytes
    ++ c.claims.toList.map ownerOrNone
    ++ (indexes 4).flatMap (fun k => keyBytes (tget c.keys k) (tget c.inputs k))
    ++ [c.flags, byteOf c.lastId])

/-- QUERY with selector queue (R55). -/
def execQueryQueue (tag : Byte) (s : State) : Answer :=
  .next (takeRequest (.queryQueue tag) (fun s => s.reply tag 0x05 .ok s.sched.bytes) s)

/-! ## Bell (R107) -/

def InFlight.bytes (f : InFlight) : List Byte :=
  [f.owner.code, byteOf f.velocity] ++ four f.due ++ fourOf f.flight ++ twoOf f.pulse ++ four f.firedAt
    ++ four f.impact ++ four f.windowStart ++ four f.windowEnd ++ [boolByte (f.window == .confirmed)]

def inFlightBytes : Option InFlight → List Byte
  | some f => 1 :: f.bytes
  | none => [0]

/-- A queued strike (section 11.4). -/
def Strike.bytes (k : Strike) : List Byte :=
  [k.owner.code, byteOf k.velocity] ++ four k.due ++ fourOf k.flight ++ twoOf k.pulse ++ four k.fireAt
    ++ [k.flagsByte, k.fire.code]

def BellState.causeByte : BellState → Byte
  | .disabled c => c.code
  | _ => absentOne

/-- The strike unit summary (R107). -/
def StrikeUnit.summaryBytes (u : StrikeUnit) : List Byte :=
  [byteOf u.queue.length, byteOf u.firing, byteOf u.emax] ++ fourOf u.tau
    ++ [byteOf u.master, byteOf u.waiting.length]

def State.bellBytes (s : State) (b : BellNo) : List Byte :=
  let x := s.bell b
  let strikes := s.strikes.queue.filter fun k => k.bell == b
  let listed := strikes.take 8
  x.recordBytes ++ [x.state.code, x.state.causeByte, byteOf x.streak]
    ++ instantOrAbsent x.lastImpact ++ instantOrAbsent x.guardInstant ++ [boolByte x.guardRunning]
    ++ inFlightBytes x.inFlight
    ++ [byteOf strikes.length, byteOf listed.length] ++ listed.flatMap Strike.bytes ++ s.strikes.summaryBytes

def State.queryBell (s : State) (tag bell : Byte) : State :=
  match index? 32 bell.toNat with
  | some b => s.reply tag 0x05 .ok (s.bellBytes b)
  | none => s.reply tag 0x05 .badArg

/-- QUERY with selector bell (R107). -/
def execQueryBell (tag bell : Byte) (s : State) : Answer :=
  .next (takeRequest (.queryBell tag bell) (fun s => s.queryBell tag bell) s)

/-! ## Axis (R125) -/

/-- The fields of an axis's mode. -/
def AxisMode.fieldBytes : AxisMode → List Byte
  | .move target direction rate => signed target ++ [direction.code] ++ fourOf rate
  | .spin rate => signed rate
  | .stopping dv => twoOf dv
  | .follow leader numerator denominator offset =>
    [byteOf leader.val, BitVec.ofInt 8 numerator, byteOf denominator] ++ signed offset
  | _ => []

def faultCode : Option AxisFaultCause → Byte
  | some c => c.code
  | none => 0

def commandOrAbsent : Option FrameCommand → Byte
  | some c => c.code
  | none => absentOne

/-- A verdict record: verdict, error, allowance, with their absent markers. -/
def verdictBytes : Option VerdictRecord → List Byte
  | some r => r.verdict.code :: (signedOrAbsent (r.error.map Int.ofNat) ++ signedOrAbsent (r.allowance.map Int.ofNat))
  | none => absentOne :: (absentFour ++ absentFour)

def configBytes : Option AxisConfig → List Byte
  | some c => 1 :: c.bytes
  | none => [0]

/-- The items of R125. Chapter 11 gives no width for three of them: the residue and the missed count take 1 byte each, the
turns 4 bytes, signed; v takes the 4 signed bytes of a rate (notes/assumptions/9.md). -/
def State.axisBytes (s : State) (a : AxisNo) : List Byte :=
  let x := s.axis a
  configBytes x.config ++ [ownerOrNone (s.claim a), x.mode.code]
    ++ signedOrAbsent x.cmd ++ [byteOf x.residue.toNat] ++ signed x.v ++ signed x.turns
    ++ x.mode.fieldBytes ++ signedOrAbsent x.measured
    ++ [commandOrAbsent x.lastCommand, byteOf x.missed, faultCode x.faultCause, boolByte x.lag]
    ++ verdictBytes (tget s.verifier.verdicts a)

def State.queryAxis (s : State) (tag axis : Byte) : State :=
  match index? 12 axis.toNat with
  | some a => s.reply tag 0x05 .ok (s.axisBytes a)
  | none => s.reply tag 0x05 .badArg

/-- QUERY with selector axis (R125). -/
def execQueryAxis (tag axis : Byte) (s : State) : Answer :=
  .next (takeRequest (.queryAxis tag axis) (fun s => s.queryAxis tag axis) s)

/-! ## Calendar (R19) -/

def Calendar.summaryBytes (c : Calendar) : List Byte :=
  [boolByte c.timeValid, c.ppsState.code, byteOf c.active.val, oneOrAbsent (c.winner.map Fin.val), boolByte c.quiet,
   byteOf c.level, byteOf c.timedPlays.length]

def TimedPlay.bytes (p : TimedPlay) : List Byte :=
  [byteOf p.id, byteOf p.showNo, byteOf p.priority, byteOf p.grace] ++ p.start.bytes

/-- What a sub-selector and an index return; none where they are out of range. -/
def Calendar.queried (c : Calendar) (sub index : Nat) : Option (List Byte) :=
  match sub with
  | 0 => some c.summaryBytes
  | 1 => (index? 16 index).map fun i => (tget c.programmes i).bytes
  | 2 => (index? 16 index).map fun i => (tget c.seasons i).bytes
  | 3 => (index? 96 index).map fun i => (tget c.triggers i).bytes
  | 4 => some (byteOf c.timedPlays.length :: c.timedPlays.flatMap TimedPlay.bytes)
  | _ => none

def State.queryCalendar (s : State) (tag : Byte) (sub index : Nat) : State :=
  match s.cal.queried sub index with
  | some bytes => s.reply tag 0x05 .ok bytes
  | none => s.reply tag 0x05 .badArg

/-- QUERY with selector calendar (R19). -/
def execQueryCalendar (tag sub index : Byte) (s : State) : Answer :=
  .next (takeRequest (.queryCalendar tag sub index) (fun s => s.queryCalendar tag sub.toNat index.toNat) s)

/-! ## Exercise (R135) -/

def Exercise.bytes (e : Exercise) : List Byte :=
  [byteOf e.axis.val] ++ signed e.start ++ fourOf e.rate ++ [e.phase.code, byteOf e.index.val, byteOf e.dwell]
    ++ e.positions.toList.flatMap signed ++ e.results.toList.flatMap resultBytes
    ++ [exerciseVerdictCode e.verdict, abortCauseCode e.verdict]

def exerciseBytes : Option Exercise → List Byte
  | some e => 1 :: e.bytes
  | none => [0]

def State.exerciseReport (s : State) : List Byte :=
  [boolByte s.verifier.enable, oneOrAbsent (s.verifier.scan.map Fin.val), byteOf s.verifier.dwell]
    ++ two s.verifier.pass ++ exerciseBytes s.exercise

/-- QUERY with selector exercise (R135). -/
def execQueryExercise (tag : Byte) (s : State) : Answer :=
  .next (takeRequest (.queryExercise tag) (fun s => s.reply tag 0x05 .ok s.exerciseReport) s)

end Sys2Proof.Machine
end

