-- ==== Sys2Proof/Machine/Resets.lean ====
section
/-! DEFINITION. The soft reset and the hard reset (R20, R36, R57, R108, R126, R127, R134, R154, R155). -/
namespace Sys2Proof.Machine

/-! ## Soft reset, unit by unit -/

def Store.softReset (st : Store) : Store :=
  { st with
    directory := Vector.ofFn fun i =>
      let e := tget st.directory i
      if e.isOpened then .free else e
    cursor := none
    compaction := none }

def Scheduler.softReset (c : Scheduler) : Scheduler :=
  { c with
    queue := []
    claims := Vector.replicate 12 none
    inputs := Vector.ofFn fun k => { tget c.inputs k with held := none }
    flags := 0 }

def Bell.softReset (b : Bell) : Bell := { b.hammerStop with streak := 0 }

def StrikeUnit.softReset (u : StrikeUnit) : StrikeUnit :=
  { u with bells := Vector.ofFn fun b => (tget u.bells b).softReset, queue := [], hammers := 0 }

def Motion.softReset (m : Motion) : Motion :=
  { m with axes := Vector.ofFn fun a => (tget m.axes a).softReset }

def Verifier.softReset (v : Verifier) : Verifier :=
  { v with
    scan := none, last := none, dwell := 0, disturbed := false, previousSetpoint := none, updateSeen := false
    verdicts := Vector.replicate 12 none }

def Port.softReset (p : Port) : Port :=
  { p with
    receiver := .hunting, rx := [], tx := [], sentAt := none, held := none, resetWaiting := false, resetDue := false
    resetRecord := ⟨.soft, false⟩ }

/-- Every block at its soft-reset values, before the level causes set their latches again. -/
def State.softResetBlocks (s : State) : State :=
  { s with
    cal := { s.cal with timedPlays := [] }
    store := s.store.softReset
    sched := s.sched.softReset
    lanes := Vector.replicate 4 ⟨none, none⟩
    strikes := s.strikes.softReset
    motion := s.motion.softReset
    verifier := s.verifier.softReset
    exercise := none
    output := { s.output with mode := .safe }
    port := s.port.softReset }

/-- The soft reset (R154); every latch is cleared and set again by its level causes (R150). -/
def State.softReset (s : State) : State :=
  let t := s.softResetBlocks
  t.latch fun _ => levelLatches t

/-- SOFT_RESET (R154). -/
def execSoftReset (s : State) : Answer := .next s.softReset

/-! ## Hard reset (R155) -/

/-- A low level on RESET_N shorter than 10 µs is ignored. -/
def resetActs : ResetCause → Bool
  | .powerUp => true
  | .pin low => 10 ≤ low

/-- A key input after a hard reset: the level is the outside's, its count starts now (R44). -/
def KeyInput.hardReset (k : KeyInput) : KeyInput := ⟨k.level, 0, false, none⟩

/-- Every block at its hard-reset values, with BAUD1:0 sampled; the levels of the pins that the outside drives stand. -/
def State.hardReset (s : State) (baud : BitVec 2) : State :=
  { State.reset with
    port := Port.reset baud
    sched := { Scheduler.reset with inputs := Vector.ofFn fun k => (tget s.sched.inputs k).hardReset }
    output := { OutputControl.reset with atriumClear := s.output.atriumClear }
    choices := s.choices
    pending := s.pending }

/-- The levels of the output pins that a hard reset names. -/
structure OutputPins where
  hammers : BitVec 32
  axbDE : Bool
  txdIdle : Bool
  alarmN : Bool
  deriving DecidableEq, Repr

/-- The output pins of a state: AXB_DE is high while a setpoint frame is driven, TXD idles high between frames. -/
def State.outputPins (s : State) : OutputPins := ⟨s.strikes.hammers, s.axbDE, s.port.sentAt.isNone, s.alarmN⟩

/-- The output pins while RESET_N is low (R152, R155). -/
def pinsInReset : OutputPins := ⟨0, false, true, true⟩

/-- HARD_RESET (R155). -/
def execHardReset (cause : ResetCause) (baud : BitVec 2) (s : State) : Answer :=
  .next (if resetActs cause then s.hardReset baud else s)

end Sys2Proof.Machine
end

