-- ==== Sys2Proof/Machine/CalendarUnit.lean ====
section
/-! DEFINITION. Commands of the calendar unit (chapter 1). -/
namespace Sys2Proof.Machine

/-! ## Timed plays (R17, R18) -/

/-- The timed-play list without the entry of an id. -/
def withoutPlay (id : Nat) (l : List TimedPlay) : List TimedPlay := l.filter fun p => p.id != id

def State.setPlays (s : State) (l : List TimedPlay) : State := { s with cal := { s.cal with timedPlays := l } }

/-- A timed play leaves the list without release (R43). -/
def State.dropPlay (s : State) (p : TimedPlay) (reason : DropReason) : State :=
  (s.setPlays (withoutPlay p.id s.cal.timedPlays)).dropRequest p.id p.showNo .link reason

/-- The timed plays whose start time is not later than the present date and second. -/
def State.duePlays (s : State) : List TimedPlay :=
  s.cal.timedPlays.filter fun p => p.start.hasCome s.cal.time.dateTime

/-- A timed play is released to the scheduler (R18). -/
def State.releasePlay (s : State) (p : TimedPlay) : State :=
  (s.setPlays (withoutPlay p.id s.cal.timedPlays)).enterWish ⟨p.id, p.showNo, p.priority, p.grace, .link⟩

/-- Every due timed play is released, in list order (R18). -/
def State.releasePlays (s : State) : State := s.duePlays.foldl State.releasePlay s

/-! ## SET_TIME and GET_TIME (R5, R6) -/

/-- The PPS state after an accepted SET_TIME (R5 step 2, R8). -/
def Calendar.ppsAfterSet (c : Calendar) (flag : Bool) : PpsState :=
  if flag && c.ppsEnable then c.ppsState else .none

/-- The time loaded (R5 steps 1 and 2). -/
def State.loadTime (s : State) (t : MallTime) (flag : Bool) : State :=
  { s with cal := { s.cal with
    time := t, timeValid := true, ppsEnable := flag, ppsState := s.cal.ppsAfterSet flag } }

/-- Timed plays that the new time has reached are dropped (R5 step 4, R18), in list order, an order of the notices that R18
does not name (notes/assumptions/51.md). -/
def State.expirePlays (s : State) : State := s.duePlays.foldl (fun s p => s.dropPlay p .expired) s

def State.setTime (s : State) (tag : Byte) (t : MallTime) (pps : Byte) : State :=
  match boolOf pps with
  | some flag =>
    if t.dateTime.valid ∧ t.milli ≤ 999 then
      ((((s.reply tag 0x08 .ok).loadTime t flag).reviewProgramme).reviewLevel).expirePlays
    else s.reply tag 0x08 .badArg
  | none => s.reply tag 0x08 .badArg

/-- A mall time from its fields, at the start of its millisecond. -/
def mallTimeOf (year : Half) (month day hour minute second : Byte) (milli : Half) : MallTime :=
  ⟨⟨year.toNat, month.toNat, day.toNat⟩, hour.toNat, minute.toNat, second.toNat, milli.toNat, 0⟩

/-- SET_TIME (R5). -/
def execSetTime (tag : Byte) (year : Half) (month day hour minute second : Byte) (milli : Half) (pps : Byte)
    (s : State) : Answer :=
  .next (takeRequest (.setTime tag year month day hour minute second milli pps)
    (fun s => s.setTime tag (mallTimeOf year month day hour minute second milli) pps) s)

/-- GET_TIME (R6). -/
def execGetTime (tag : Byte) (s : State) : Answer :=
  .next (takeRequest (.getTime tag)
    (fun s => s.reply tag 0x09 .ok
      (s.cal.time.fullBytes
        ++ [byteOf s.cal.time.date.weekday, boolByte s.cal.timeValid, boolByte s.cal.ppsEnable, s.cal.ppsState.code]))
    s)

/-! ## Tables (R9, R11, R13) -/

def Programme.inRange (p : Programme) : Bool :=
  p.openLevel ≤ 100 && p.quietLevel ≤ 100 && p.quietStart ≤ 1439 && p.quietEnd ≤ 1439

def State.writeProgramme (s : State) (tag : Byte) (n : Nat) (p : Programme) : State :=
  match index? 16 n with
  | some i =>
    if p.inRange then
      ({ s with cal := { s.cal with programmes := tset s.cal.programmes i p } }.reviewLevel).reply tag 0x0A .ok
    else s.reply tag 0x0A .badArg
  | none => s.reply tag 0x0A .badArg

/-- SET_PROGRAMME (R9). -/
def execSetProgramme (tag programme openLevel quietLevel : Byte) (quietStart quietEnd : Half) (s : State) : Answer :=
  .next (takeRequest (.setProgramme tag programme openLevel quietLevel quietStart quietEnd)
    (fun s => s.writeProgramme tag programme.toNat
      ⟨openLevel.toNat, quietLevel.toNat, quietStart.toNat, quietEnd.toNat⟩) s)

/-- A month and day exist in a leap year (R11). -/
def dayExists (month day : Nat) : Bool := 1 ≤ month && month ≤ 12 && 1 ≤ day && day ≤ monthLength 2000 month

def Season.inRange (e : Season) : Bool :=
  dayExists e.startMonth e.startDay && dayExists e.endMonth e.endDay
    && 1 ≤ e.programme && e.programme ≤ 15 && e.priority ≤ 15

/-- A weekday mask names a day beyond Sunday (R157). -/
def weekdayBeyond (m : Byte) : Bool := m.msb

def weekdaysOf (m : Byte) : BitVec 7 := m.setWidth 7

def State.setSeasonEntry (s : State) (i : Fin 16) (e : Season) : State :=
  { s with cal := { s.cal with seasons := tset s.cal.seasons i e } }

def State.writeSeason (s : State) (tag : Byte) (n : Nat) (e : Season) (mask : Byte) : State :=
  match index? 16 n with
  | some i =>
    if e.inRange ∧ !weekdayBeyond mask then ((s.reply tag 0x0B .ok).setSeasonEntry i e).reviewProgramme
    else s.reply tag 0x0B .badArg
  | none => s.reply tag 0x0B .badArg

/-- SET_SEASON (R11). -/
def execSetSeason (tag entry startMonth startDay endMonth endDay weekdays programme priority : Byte) (s : State) :
    Answer :=
  .next (takeRequest (.setSeason tag entry startMonth startDay endMonth endDay weekdays programme priority)
    (fun s => s.writeSeason tag entry.toNat
      ⟨true, startMonth.toNat, startDay.toNat, endMonth.toNat, endDay.toNat, weekdaysOf weekdays,
        programme.toNat, priority.toNat⟩ weekdays) s)

def State.clearSeason (s : State) (tag : Byte) (n : Nat) : State :=
  match index? 16 n with
  | some i =>
    ((s.reply tag 0x0C .ok).setSeasonEntry i { tget s.cal.seasons i with inUse := false }).reviewProgramme
  | none => s.reply tag 0x0C .badArg

/-- CLEAR_SEASON (R11). -/
def execClearSeason (tag entry : Byte) (s : State) : Answer :=
  .next (takeRequest (.clearSeason tag entry) (fun s => s.clearSeason tag entry.toNat) s)

/-- A trigger's programme selector: 0 … 15, or 0xFF for ANY; none for any other byte (R13, section 11.6). -/
def selectorOf (b : Byte) : Option (Option Nat) :=
  if b = 0xFF then some none else if b.toNat ≤ 15 then some (some b.toNat) else none

def State.setTriggerEntry (s : State) (i : Fin 96) (t : Trigger) : State :=
  { s with cal := { s.cal with triggers := tset s.cal.triggers i t } }

/-- The fields of a trigger other than its selector, in range (R13, R157). -/
def triggerInRange (minute weekdays showNo priority : Byte) : Bool :=
  minute.toNat ≤ 59 && !weekdayBeyond weekdays && showNo.toNat ≤ 63 && priority.toNat ≤ 15

def State.writeTrigger (s : State) (tag entry selector : Byte) (hours : BitVec 24)
    (minute weekdays showNo priority grace : Byte) : State :=
  match index? 96 entry.toNat, selectorOf selector with
  | some i, some choice =>
    if triggerInRange minute weekdays showNo priority then
      (s.setTriggerEntry i ⟨true, choice, hours, minute.toNat, weekdaysOf weekdays, showNo.toNat, priority.toNat,
        grace.toNat, none⟩).reply tag 0x0D .ok
    else s.reply tag 0x0D .badArg
  | _, _ => s.reply tag 0x0D .badArg

/-- SET_TRIGGER (R13). -/
def execSetTrigger (tag entry selector : Byte) (hours : BitVec 24) (minute weekdays showNo priority grace : Byte)
    (s : State) : Answer :=
  .next (takeRequest (.setTrigger tag entry selector hours minute weekdays showNo priority grace)
    (fun s => s.writeTrigger tag entry selector hours minute weekdays showNo priority grace) s)

def State.clearTrigger (s : State) (tag : Byte) (n : Nat) : State :=
  match index? 96 n with
  | some i => (s.setTriggerEntry i { tget s.cal.triggers i with inUse := false }).reply tag 0x0E .ok
  | none => s.reply tag 0x0E .badArg

/-- CLEAR_TRIGGER (R13). -/
def execClearTrigger (tag entry : Byte) (s : State) : Answer :=
  .next (takeRequest (.clearTrigger tag entry) (fun s => s.clearTrigger tag entry.toNat) s)

/-! ## The carry into a new second (R3, R4, R14 … R16, R18) -/

/-- TIME_VALID is cleared by the year carry (R4), and every timed play is dropped (R18), in list order
(notes/assumptions/51.md). -/
def State.invalidateTime (s : State) : State :=
  let s := { s with cal := { s.cal with timeValid := false, ppsState := .none } }
  let s := s.reviewProgramme.reviewLevel.latch fun l => { l with timeInvalid := true }
  s.cal.timedPlays.foldl (fun s p => s.dropPlay p .expired) s

/-- Trigger entry i is tested at a minute boundary, and fires if it qualifies (R15, R16). -/
def State.testTrigger (s : State) (i : Fin 96) : State :=
  let t := tget s.cal.triggers i
  if t.firesAt s.cal then
    let s := s.setTriggerEntry i { t with lastFired := some s.cal.time.dateMinute }
    let id := s.nextId
    (s.assigned id).enterWish ⟨id, t.showNo, t.priority, t.grace, .trigger i⟩
  else s

/-- The triggers of a minute boundary, in ascending index (R14 step 3). -/
def State.fireTriggers (s : State) : State :=
  if s.cal.timeValid then (indexes 96).foldl State.testTrigger s else s

/-- A minute boundary reached by running, the time being already the new minute's (R14 steps 1 to 3). -/
def State.minuteBoundary (s : State) (before : MallTime) : State :=
  let s := if before.isYearCarry s.cal.time then s.invalidateTime
    else if before.date ≠ s.cal.time.date then s.reviewProgramme
    else s
  s.reviewLevel.fireTriggers

/-- The carry into the next second by running (R3): a minute boundary where it reaches one, then the timed plays. -/
def State.carry (s : State) : State :=
  let before := s.cal.time
  let s := { s with cal := { s.cal with time := before.nextSecond } }
  (if before.second = 59 then s.minuteBoundary before else s).releasePlays

/-- MINUTE_BOUNDARY (R14): the carry out of second 59, when it has come. -/
def execMinuteBoundary (s : State) : Answer :=
  .next (if s.cal.time.carryDue ∧ s.cal.time.second = 59 then s.carry else s)

/-- TIMED_PLAY_RELEASE (R18): a carry into any other second, when it has come. -/
def execTimedPlayRelease (s : State) : Answer :=
  .next (if s.cal.time.carryDue ∧ s.cal.time.second ≠ 59 then s.carry else s)

/-! ## PPS (R7, R8) -/

/-- An edge is accepted (R7). -/
def Calendar.acceptsEdge (c : Calendar) : Bool :=
  c.ppsEnable && c.timeValid && (match c.ppsSince with | none => true | some e => decide (500 ≤ e.ms))

/-- The time aligned to an accepted edge (R7). -/
def State.alignTime (s : State) : State :=
  if s.cal.time.milli < 500 then { s with cal := { s.cal with time := { s.cal.time with milli := 0, micro := 0 } } }
  else s.carry

/-- The PPS state after an accepted edge: LOCKED with a fresh deadline; NONE where the alignment's carry has cleared
TIME_VALID (R4, R8). -/
def State.lockPps (s : State) : State :=
  let t := { s with cal := { s.cal with
    ppsSince := some ⟨0, 0⟩, ppsDeadline := s.now + micros Config.ppsLoss
    ppsState := if s.cal.timeValid then .locked else .none } }
  if s.cal.timeValid ∧ s.cal.ppsState = .lost then t.notice (.time true) else t

/-- PPS_EDGE (R7). -/
def execPpsEdge (s : State) : Answer :=
  .next (if s.cal.acceptsEdge then s.alignTime.lockPps else s)

/-- The loss deadline has come in LOCKED. -/
def State.ppsLossDue (s : State) : Bool := s.cal.ppsState == .locked && reached s.cal.ppsDeadline s.now

def State.losePps (s : State) : State :=
  (({ s with cal := { s.cal with ppsState := .lost } }).latch fun l => { l with ppsLost := true }).notice (.time false)

/-- PPS_LOSS_DEADLINE (R8). -/
def execPpsLossDeadline (s : State) : Answer := .next (if s.ppsLossDue then s.losePps else s)

end Sys2Proof.Machine
end

