-- ==== Sys2Proof/Machine/SchedulerUnit.lean ====
section
/-! DEFINITION. Commands of the show scheduler and of the show keys (chapter 3). -/
namespace Sys2Proof.Machine

/-! ## PLAY (R17, R40) -/

/-- An immediate PLAY whose show is playable (R40 step 3). Where the queue refuses it, the reply is FULL without the id that
R38 would have it carry: R40 and section 11.4 name none (notes/assumptions/45.md). -/
def State.playAdmitted (s : State) (tag showNo priority grace : Byte) : State :=
  let id := s.nextId
  let s := s.assigned id
  match s.roomFor priority.toNat with
  | some evicted =>
    (s.reply tag 0x20 .ok [byteOf id]).enterRequest
      ⟨id, showNo.toNat, priority.toNat, grace.toNat, .link⟩ evicted
  | none => s.reply tag 0x20 .full

/-- An immediate PLAY at the scheduler (R40). -/
def State.playNow (s : State) (tag showNo priority grace : Byte) : State :=
  if 63 < showNo.toNat ∨ 15 < priority.toNat then s.reply tag 0x20 .badArg
  else if (s.store.playable showNo.toNat).isNone then s.reply tag 0x20 .notFound
  else s.playAdmitted tag showNo priority grace

/-- PLAY without a start time (R40). -/
def execPlay (tag showNo priority grace : Byte) (s : State) : Answer :=
  .next (takeRequest (.play tag showNo priority grace) (fun s => s.playNow tag showNo priority grace) s)

/-- A timed play joins the end of the list (R17 step 6). -/
def State.listPlay (s : State) (tag showNo priority grace : Byte) (start : DateTime) : State :=
  let id := s.nextId
  let s := s.assigned id
  (s.setPlays (s.cal.timedPlays ++ [⟨id, showNo.toNat, priority.toNat, grace.toNat, start⟩])).reply
    tag 0x20 .ok [byteOf id]

/-- A PLAY that carries a start time (R17). -/
def State.playTimed (s : State) (tag showNo priority grace : Byte) (start : DateTime) : State :=
  if 63 < showNo.toNat ∨ 15 < priority.toNat ∨ !start.valid then s.reply tag 0x20 .badArg
  else if !s.cal.timeValid then s.reply tag 0x20 .noTime
  else if (s.store.playable showNo.toNat).isNone then s.reply tag 0x20 .notFound
  else if start.hasCome s.cal.time.dateTime then s.playNow tag showNo priority grace
  else if Config.timedPlayCapacity ≤ s.cal.timedPlays.length then s.reply tag 0x20 .full
  else s.listPlay tag showNo priority grace start

/-- PLAY with a start time (R17). -/
def execPlayTimed (tag showNo priority grace : Byte) (year : Half) (month day hour minute second : Byte)
    (s : State) : Answer :=
  .next (takeRequest (.playTimed tag showNo priority grace year month day hour minute second)
    (fun s => s.playTimed tag showNo priority grace
      ⟨⟨year.toNat, month.toNat, day.toNat⟩, hour.toNat, minute.toNat, second.toNat⟩) s)

/-! ## CANCEL (R42) -/

/-- The lane whose run has an id. -/
def State.laneOf (s : State) (id : Nat) : Option LaneNo :=
  (indexes 4).find? fun n => match (s.lane n).run with
    | some r => r.id == id
    | none => false

def State.timedPlay (s : State) (id : Nat) : Option TimedPlay := s.cal.timedPlays.find? (·.id == id)

def State.cancel (s : State) (tag : Byte) (id : Nat) : State :=
  if id = 0 then s.reply tag 0x21 .badArg
  else
    match s.queued id, s.timedPlay id, s.laneOf id with
    | some r, _, _ => (s.reply tag 0x21 .ok).dropQueued r .cancelled
    | none, some p, _ => (s.reply tag 0x21 .ok).dropPlay p .cancelled
    | none, none, some n => (s.reply tag 0x21 .ok).endAndWalk n .cancelled
    | none, none, none => s.reply tag 0x21 .notFound

/-- CANCEL (R42). -/
def execCancel (tag id : Byte) (s : State) : Answer :=
  .next (takeRequest (.cancel tag id) (fun s => s.cancel tag id.toNat) s)

/-! ## SET_FLAGS and SET_KEY (R45, R56) -/

/-- SET_FLAGS (R56). -/
def execSetFlags (tag flags : Byte) (s : State) : Answer :=
  .next (takeRequest (.setFlags tag flags)
    (fun s => { s with sched := { s.sched with flags := flags } }.reply tag 0x22 .ok) s)

def State.writeKey (s : State) (tag key enabled showNo priority grace : Byte) : State :=
  match index? 4 key.toNat, boolOf enabled with
  | some k, some on =>
    if showNo.toNat ≤ 63 ∧ priority.toNat ≤ 15 then
      { s with sched := { s.sched with
        keys := tset s.sched.keys k ⟨on, showNo.toNat, priority.toNat, grace.toNat⟩ } }.reply tag 0x23 .ok
    else s.reply tag 0x23 .badArg
  | _, _ => s.reply tag 0x23 .badArg

/-- SET_KEY (R45). -/
def execSetKey (tag key enabled showNo priority grace : Byte) (s : State) : Answer :=
  .next (takeRequest (.setKey tag key enabled showNo priority grace)
    (fun s => s.writeKey tag key enabled showNo priority grace) s)

/-! ## Keys (R44) -/

def State.setInput (s : State) (k : KeyNo) (x : KeyInput) : State :=
  { s with sched := { s.sched with inputs := tset s.sched.inputs k x } }

/-- A KEY input changes level: its count starts, or starts again, now (R44). -/
def State.keyChange (s : State) (k : KeyNo) (level : Bool) : State :=
  let x := tget s.sched.inputs k
  if x.level = level then s else s.setInput k { x with level := level, changedAt := s.now }

/-- KEY_INPUT_CHANGE (R44). -/
def execKeyInputChange (key : KeyNo) (level : Bool) (s : State) : Answer := .next (s.keyChange key level)

/-- The input has held the level opposite to the debounced one for 50 ms. -/
def State.keyDue (s : State) (k : KeyNo) : Bool :=
  let x := tget s.sched.inputs k
  x.level != x.debounced && reached (x.changedAt + micros Config.keyDebounce) s.now

/-- A press (R44): ignored while the entry is not enabled or the key has a held request. -/
def State.press (s : State) (k : KeyNo) : State :=
  let e := tget s.sched.keys k
  if e.enabled ∧ (tget s.sched.inputs k).held = none then
    let id := s.nextId
    (s.assigned id).enterWish ⟨id, e.showNo, e.priority, e.grace, .key k⟩
  else s

/-- The debounced level of a key changes; a change to high is a press. -/
def State.debounceKey (s : State) (k : KeyNo) : State :=
  let x := tget s.sched.inputs k
  let s := s.setInput k { x with debounced := x.level }
  if x.level then s.press k else s

/-- KEY_PRESS (R44). -/
def execKeyPress (key : KeyNo) (s : State) : Answer := .next (if s.keyDue key then s.debounceKey key else s)

/-! ## Expiry (R41) -/

/-- REQUEST_EXPIRY (R41): the queued request of that id, when its grace has run out. -/
def execRequestExpiry (id : Nat) (s : State) : Answer :=
  .next (match s.queued id with
    | some r => if r.grace = 0 then s.dropQueued r .expired else s
    | none => s)

end Sys2Proof.Machine
end

