-- ==== Sys2Proof/Machine/StoreUnit.lean ====
section
/-! DEFINITION. Commands of the show store (chapter 2). -/
namespace Sys2Proof.Machine

def State.setStore (s : State) (st : Store) : State := { s with store := st }

/-! ## SHOW_OPEN (R23) -/

/-- The kind of a new entry, its fields in range; none where step 4 of R23 refuses it. -/
def openKind (kind : Byte) (count claims limit : Half) : Option EntryKind :=
  if count.toNat < 1 ∨ Config.stepSlots < count.toNat then none
  else if kind = 0 then
    (if maskBeyond claims || limit.toNat < 1 || 3600 < limit.toNat then none
     else some (.playable (axisMaskOf claims) limit.toNat))
  else if kind = 1 then some .phrase
  else none

/-- An entry other than the one of index i is OPEN. -/
def Store.otherOpened (st : Store) (i : Fin 64) : Bool :=
  (indexes 64).any fun j => j != i && (tget st.directory j).isOpened

def State.showOpen (s : State) (tag showNo kind : Byte) (count claims limit : Half) : State :=
  match index? 64 showNo.toNat with
  | none => s.reply tag 0x12 .badArg
  | some i =>
    if s.store.otherOpened i then s.reply tag 0x12 .busy
    else if tget s.store.directory i ≠ .free then s.reply tag 0x12 .inUse
    else
      match openKind kind count claims limit with
      | none => s.reply tag 0x12 .badArg
      | some k =>
        match s.store.firstFit count.toNat with
        | none => s.reply tag 0x12 .full (twoOf s.store.largestRun)
        | some first =>
          (s.setStore { s.store.setEntry i (.opened ⟨k, first, count.toNat⟩) with cursor := some 0 }).reply
            tag 0x12 .ok (twoOf first)

/-- SHOW_OPEN (R23). -/
def execShowOpen (tag showNo kind : Byte) (count claims limit : Half) (s : State) : Answer :=
  .next (takeRequest (.showOpen tag showNo kind count claims limit)
    (fun s => s.showOpen tag showNo kind count claims limit) s)

/-! ## SHOW_DATA (R24) -/

def State.showData (s : State) (tag showNo : Byte) (start : Half) (records : List StepWord) : State :=
  match index? 64 showNo.toNat with
  | none => s.reply tag 0x13 .badArg
  | some i =>
    match tget s.store.directory i with
    | .opened b =>
      let cursor := s.store.cursor.getD 0
      if start.toNat ≠ cursor then s.reply tag 0x13 .sequence (twoOf cursor)
      else if b.count < start.toNat + records.length then s.reply tag 0x13 .badArg
      else
        let cursor := cursor + records.length
        (s.setStore { s.store with
          mem := s.store.mem.writeSlots (b.first + start.toNat) records, cursor := some cursor }).reply
            tag 0x13 .ok (twoOf cursor)
    | _ => s.reply tag 0x13 .notFound

/-- SHOW_DATA (R24). -/
def execShowData (tag showNo : Byte) (start : Half) (records : List StepWord) (s : State) : Answer :=
  .next (takeRequest (.showData tag showNo start records) (fun s => s.showData tag showNo start records) s)

/-! ## SHOW_CLOSE (R25 … R27) -/

/-- The first step of a block that fails a check: its index and the reason code. -/
def Memory.firstInvalid (m : Memory) (b : Block) : Option (Nat × Nat) :=
  (List.range b.count).findSome? fun i =>
    (stepFailure ⟨b.kind, b.count, i⟩ (decodeStep (m.readSlot (b.first + i)))).map fun reason => (i, reason)

def State.showClose (s : State) (tag showNo : Byte) : State :=
  match index? 64 showNo.toNat with
  | none => s.reply tag 0x14 .badArg
  | some i =>
    match tget s.store.directory i with
    | .opened b =>
      let cursor := s.store.cursor.getD 0
      if cursor < b.count then s.reply tag 0x14 .incomplete (twoOf cursor)
      else
        match s.store.mem.firstInvalid b with
        | some (index, reason) => s.reply tag 0x14 .invalidStep (twoOf index ++ [byteOf reason])
        | none => (s.setStore { s.store.setEntry i (.ready b) with cursor := none }).reply tag 0x14 .ok
    | _ => s.reply tag 0x14 .notFound

/-- SHOW_CLOSE (R25). -/
def execShowClose (tag showNo : Byte) (s : State) : Answer :=
  .next (takeRequest (.showClose tag showNo) (fun s => s.showClose tag showNo) s)

/-! ## SHOW_ERASE (R28, R30) -/

/-- Every queued request that names a show is dropped with NO_SHOW (R30), in queue order, an order of the notices that R30
does not name (notes/assumptions/47.md). -/
def State.dropForShow (s : State) (showNo : Nat) : State :=
  (s.sched.queue.filter fun r => r.showNo == showNo).foldl (fun s r => s.dropQueued r .noShow) s

def State.showErase (s : State) (tag showNo : Byte) : State :=
  match index? 64 showNo.toNat with
  | none => s.reply tag 0x15 .badArg
  | some i =>
    match tget s.store.directory i with
    | .free => s.reply tag 0x15 .notFound
    | .opened _ => (s.setStore { s.store.setEntry i .free with cursor := none }).reply tag 0x15 .ok
    | .ready b =>
      if s.inUse i.val then s.reply tag 0x15 .inUse
      else
        let s := (s.setStore (s.store.setEntry i .free)).reply tag 0x15 .ok
        if b.kind = .phrase then s else s.dropForShow i.val

/-- SHOW_ERASE (R28). -/
def execShowErase (tag showNo : Byte) (s : State) : Answer :=
  .next (takeRequest (.showErase tag showNo) (fun s => s.showErase tag showNo) s)

/-! ## STORE_COMPACT (R31, R32) -/

/-- The compaction is refused (R31). -/
def State.compactBusy (s : State) : Bool :=
  (indexes 4).any (fun n => (s.lane n).run.isSome) || s.store.opened.isSome || s.exercising.isSome

/-- The compaction ends: blocks in place, the reply, the walk (R32). -/
def State.endCompaction (s : State) (tag : Byte) : State :=
  let s := s.setStore { s.store.compacted with compaction := none }
  (s.reply tag 0x16 .ok (twoOf s.store.largestRun)).walk

def State.storeCompact (s : State) (tag : Byte) : State :=
  if s.compactBusy then s.reply tag 0x16 .busy
  else
    let moved := slotsMoved 0 s.store.readyEntries
    if moved = 0 then s.endCompaction tag
    else s.setStore { s.store with compaction := some ⟨tag, s.now + micros (moved * Config.compactTime)⟩ }

/-- STORE_COMPACT (R31). -/
def execStoreCompact (tag : Byte) (s : State) : Answer :=
  .next (takeRequest (.storeCompact tag) (fun s => s.storeCompact tag) s)

/-- The compaction whose end has come. -/
def State.compactionDue (s : State) : Option Compaction := s.store.compaction.filter fun c => reached c.endsAt s.now

/-- COMPACTION_END (R32). -/
def execCompactionEnd (s : State) : Answer :=
  .next (match s.compactionDue with
    | some c => s.endCompaction c.tag
    | none => s)

/-! ## STORE_LIST (R33) -/

def EntryKind.code : EntryKind → Byte
  | .playable _ _ => 0
  | .phrase => 1

/-- The claim mask and run limit of an entry, absent for a PHRASE (section 11.4, R157). -/
def EntryKind.tailBytes : EntryKind → List Byte
  | .playable claims limit => two (claims.setWidth 16) ++ twoOf limit
  | .phrase => absentTwo ++ absentTwo

def Block.bytes (b : Block) : List Byte := b.kind.code :: (twoOf b.first ++ twoOf b.count ++ b.kind.tailBytes)

/-- A directory entry: number, state, kind, first slot, step count, claim mask, run limit. -/
def entryBytes (i : Fin 64) : DirEntry → List Byte
  | .free => [byteOf i.val, 0, absentOne] ++ absentTwo ++ absentTwo ++ absentTwo ++ absentTwo
  | .opened b => [byteOf i.val, 1] ++ b.bytes
  | .ready b => [byteOf i.val, 2] ++ b.bytes

/-- The OPEN entry of the summary: number, step count, cursor. -/
def Store.openedBytes (st : Store) : List Byte :=
  match st.opened with
  | some i =>
    match tget st.directory i with
    | .opened b => byteOf i.val :: (twoOf b.count ++ twoOf (st.cursor.getD 0))
    | _ => absentOne :: (absentTwo ++ absentTwo)
  | none => absentOne :: (absentTwo ++ absentTwo)

/-- The store summary (section 11.4). -/
def Store.summaryBytes (st : Store) : List Byte :=
  twoOf st.freeTotal ++ twoOf st.largestRun ++ [byteOf st.readyEntries.length] ++ st.openedBytes

def State.storeList (s : State) (tag : Byte) (first : Nat) : State :=
  if 63 < first then s.reply tag 0x17 .badArg
  else
    let listed := (indexes 64).filter fun i => first ≤ i.val && i.val < first + 16
    s.reply tag 0x17 .ok
      (s.store.summaryBytes ++ [byteOf listed.length]
        ++ listed.flatMap fun i => entryBytes i (tget s.store.directory i))

/-- STORE_LIST (R33). -/
def execStoreList (tag first : Byte) (s : State) : Answer :=
  .next (takeRequest (.storeList tag first) (fun s => s.storeList tag first.toNat) s)

end Sys2Proof.Machine
end

