-- ==== Sys2Proof/Machine/StrikeCommands.lean ====
section
/-! DEFINITION. Commands and events of the strike unit (chapters 5 and 6). -/
namespace Sys2Proof.Machine

/-! ## STRIKE (R85) -/

/-- The fields of a strike as it stands in the queue (section 11.4). -/
def Strike.replyBytes (k : Strike) : List Byte :=
  [byteOf k.bell.val, byteOf k.velocity] ++ four k.due ++ fourOf k.flight ++ twoOf k.pulse ++ four k.fireAt
    ++ [k.flagsByte]

/-- The reply to a STRIKE by its entry result (R92, sections 11.3 and 11.4). -/
def State.replyEntry (s : State) (tag : Byte) : Entry → State
  | .guarded g => s.reply tag 0x28 .ok (2 :: four g)
  | .merged k => s.reply tag 0x28 .ok (1 :: k.replyBytes)
  | .full => s.reply tag 0x28 .full
  | .queued k => s.reply tag 0x28 .ok (0 :: k.replyBytes)

/-- The due instant of a message strike (R82). -/
def messageDue (now : Instant) (delay flight : Nat) : Instant := now + micros (max (delay * 1000) flight)

/-- The strike of a STRIKE message, from its computed values; it is never late at entry (R83). -/
def messageStrike (now : Instant) (b : BellNo) (velocity delay : Nat) (c : Computed) : Strike :=
  let due := messageDue now delay c.flight
  strikeOf b velocity .link due c (due - micros c.flight) false

def State.strikeMessage (s : State) (tag bell velocity : Byte) (delay : Half) : State :=
  match index? 32 bell.toNat with
  | none => s.reply tag 0x28 .badArg
  | some b =>
    if velocity.toNat < 1 ∨ 127 < velocity.toNat ∨ 60000 < delay.toNat then s.reply tag 0x28 .badArg
    else if s.mode = .safe then s.reply tag 0x28 .mode
    else if s.stopped then s.reply tag 0x28 .interlock
    else if (s.bell b).isDisabled then s.reply tag 0x28 .disabled
    else
      match s.strikes.compute s.cal.level (s.bell b) velocity.toNat with
      | none => s.reply tag 0x28 .ok [3]
      | some c =>
        let e := s.examineEntry (messageStrike s.now b velocity.toNat delay.toNat c)
        ((s.enterStrike .link e).replyEntry tag e).examineMerged e

/-- STRIKE (R85). -/
def execStrike (tag bell velocity : Byte) (delay : Half) (s : State) : Answer :=
  .next (takeRequest (.strike tag bell velocity delay) (fun s => s.strikeMessage tag bell velocity delay) s)

/-! ## SET_BELL, BELL_ENABLE, SET_CURVE, SET_LEVEL (R88 … R90, R104) -/

/-- The calibration fields of a SET_BELL in their ranges (R88). -/
def bellInRange (k : Long) (pmin pmax guard : Half) (window missLimit : Byte) : Bool :=
  1000 ≤ k.toNat && k.toNat ≤ 4000000 && 200 ≤ pmin.toNat && pmin.toNat ≤ 40000
    && pmin.toNat ≤ pmax.toNat && pmax.toNat ≤ 40000 && 20 ≤ guard.toNat && guard.toNat ≤ 2000
    && 2 ≤ window.toNat && window.toNat ≤ 50 && missLimit.toNat ≤ 7

/-- A bell enabled: READY from DISABLED, streak 0 (R88, R104). -/
def Bell.enabled (b : Bell) : Bell := { b with state := if b.isDisabled then .ready else b.state, streak := 0 }

/-- A bell with its calibration fields written. -/
def Bell.calibrated (b : Bell) (k : Long) (pmin pmax guard : Half) (window missLimit : Byte) : Bell :=
  { b with
    k := k.toNat, pmin := pmin.toNat, pmax := pmax.toNat, guardMs := guard.toNat, windowMs := window.toNat
    missLimit := missLimit.toNat }

def State.writeBell (s : State) (tag bell : Byte) (k : Long) (pmin pmax guard : Half) (window missLimit : Byte) :
    State :=
  match index? 32 bell.toNat with
  | none => s.reply tag 0x29 .badArg
  | some b =>
    if !bellInRange k pmin pmax guard window missLimit then s.reply tag 0x29 .badArg
    else if (s.bell b).guardMs < guard.toNat ∧ s.strikes.queue.any (·.bell == b) then s.reply tag 0x29 .busy
    else (s.setBell b ((s.bell b).calibrated k pmin pmax guard window missLimit).enabled).reply tag 0x29 .ok

/-- SET_BELL (R88). -/
def execSetBell (tag bell : Byte) (k : Long) (pmin pmax guard : Half) (window missLimit : Byte) (s : State) : Answer :=
  .next (takeRequest (.setBell tag bell k pmin pmax guard window missLimit)
    (fun s => s.writeBell tag bell k pmin pmax guard window missLimit) s)

def State.bellEnable (s : State) (tag bell on : Byte) : State :=
  match index? 32 bell.toNat, boolOf on with
  | some b, some true => (s.setBell b (s.bell b).enabled).reply tag 0x2A .ok
  | some b, some false =>
    let s := s.reply tag 0x2A .ok
    if (s.bell b).isDisabled then s
    else (s.disableBell b .host).afterDisable ((s.bell b).state == .firing)
  | _, _ => s.reply tag 0x2A .badArg

/-- BELL_ENABLE (R104). -/
def execBellEnable (tag bell on : Byte) (s : State) : Answer :=
  .next (takeRequest (.bellEnable tag bell on) (fun s => s.bellEnable tag bell on) s)

/-- The points of a curve: none above 4,096, none below the one before it (R89). -/
def curveInRange (points : List Nat) : Bool :=
  points.all (· ≤ 4096) && (points.zip points.tail).all fun p => p.1 ≤ p.2

def State.writeCurve (s : State) (tag : Byte) (points : List Nat) : State :=
  if curveInRange points then
    { s with strikes := { s.strikes with curve := Vector.ofFn fun i => points.getD i.val 0 } }.reply tag 0x2B .ok
  else s.reply tag 0x2B .badArg

/-- SET_CURVE (R89). -/
def execSetCurve (tag : Byte) (points : List Half) (s : State) : Answer :=
  .next (takeRequest (.setCurve tag points) (fun s => s.writeCurve tag (points.map BitVec.toNat)) s)

def State.writeLevel (s : State) (tag : Byte) (master emax tau : Nat) : State :=
  if 100 < master ∨ emax < 1 ∨ 8 < emax ∨ 100000 < tau then s.reply tag 0x2C .badArg
  else if emax < s.strikes.firing then s.reply tag 0x2C .busy
  else
    let raised := s.strikes.emax < emax
    let s := { s with strikes := { s.strikes with master := master, emax := emax, tau := tau } }.reply tag 0x2C .ok
    if raised then s.serve else s

/-- SET_LEVEL (R90). -/
def execSetLevel (tag master emax : Byte) (tau : Long) (s : State) : Answer :=
  .next (takeRequest (.setLevel tag master emax tau) (fun s => s.writeLevel tag master.toNat emax.toNat tau.toNat) s)

/-! ## At fire (R95) -/

/-- The first SCHEDULED strike in queue order whose queued fire instant has arrived. -/
def State.strikeDue (s : State) : Option Strike :=
  s.strikes.queue.find? fun k => k.fire == .scheduled && reached k.fireAt s.now

/-- FIRE_INSTANT_ARRIVAL (R95). -/
def execFireInstantArrival (s : State) : Answer :=
  .next (match s.strikeDue with
    | some k => s.examine k
    | none => s)

/-- The HELD_GUARD strike of an entry order, its wait instant arrived. -/
def State.guardHeld (s : State) (order : Nat) : Option Strike :=
  s.strikes.queue.find? fun k => k.order == order && k.guardWaitOver s.now

/-- HELD_GUARD_WAIT_EXPIRY (R95). -/
def execHeldGuardWaitExpiry (order : Nat) (s : State) : Answer :=
  .next (match s.guardHeld order with
    | some k => s.examine k
    | none => s)

/-! ## Bells (R94, R99 … R103) -/

/-- A running guard's instant has arrived. -/
def Bell.guardOver (b : Bell) (now : Instant) : Bool :=
  b.guardRunning && (match b.guardInstant with | some g => reached g now | none => true)

/-- GUARD_INSTANT_EXPIRY (R94). -/
def execGuardInstantExpiry (bell : BellNo) (s : State) : Answer :=
  .next (if (s.bell bell).guardOver s.now then s.setBell bell { s.bell bell with guardRunning := false } else s)

/-- The strike in flight of a FIRING bell whose pulse has ended. -/
def Bell.pulseOver (b : Bell) (now : Instant) : Option InFlight :=
  if b.state = .firing then b.inFlight.filter fun f => reached (f.firedAt + micros f.pulse) now else none

/-- A pulse ends with the window neither confirmed nor ended: to FLIGHT, and the supply is served. -/
def State.pulseToFlight (s : State) (b : BellNo) : State :=
  (s.setBell b { s.bell b with state := .flight }).serve

/-- A pulse ends with the impact confirmed or the window ended: to READY, the supply is served, then the HELD_BELL
strikes are examined. -/
def State.pulseToReady (s : State) (b : BellNo) (f : InFlight) : State :=
  (((s.setBell b ((s.bell b).finish .ready)).finished f.owner).serve).releaseHeld b

/-- A bell's pulse ends (R99). -/
def State.endPulse (s : State) (b : BellNo) (f : InFlight) : State :=
  let s := { s with strikes := s.strikes.release b }
  if f.window = .pending then s.pulseToFlight b else s.pulseToReady b f

/-- PULSE_END (R99). -/
def execPulseEnd (bell : BellNo) (s : State) : Answer :=
  .next (match (s.bell bell).pulseOver s.now with
    | some f => s.endPulse bell f
    | none => s)

/-- A strike in flight's window is open and not yet confirmed (R100). -/
def InFlight.windowOpen (f : InFlight) (now : Instant) : Bool :=
  f.window == .pending && !before now f.windowStart && !before f.windowEnd now

/-- A confirmation (R100): the streak is cleared in LIVE alone (R103). -/
def State.confirm (s : State) (b : BellNo) (f : InFlight) : State :=
  let x := s.bell b
  let x := { x with streak := if s.mode = .live then 0 else x.streak, confirmedEnd := some f.windowEnd }
  if x.state = .flight then s.flightReady b x f
  else s.setBell b { x with inFlight := some { f with window := .confirmed } }

/-- A stray edge; in LISTEN a shadow extra (R102, R103). -/
def State.stray (s : State) (b : BellNo) : State :=
  if s.mode = .listen then
    (s.latchBell b fun l => { l with shadowExtra := true }).notice (.shadowExtra b)
  else (s.latchBell b fun l => { l with stray := true }).notice (.stray b s.now)

/-- A confirmed window end is present and now is not after it (R100); never for a DISABLED bell, whose edges are stray
(R102; notes/assumptions/40.md). -/
def Bell.absorbs (b : Bell) (now : Instant) : Bool :=
  !b.isDisabled && (match b.confirmedEnd with
    | some t => !before t now
    | none => false)

/-- A rising edge on a SENSE input in a mode that reads it (R100). -/
def State.edge (s : State) (b : BellNo) : State :=
  match (s.bell b).inFlight.filter fun f => f.windowOpen s.now with
  | some f => s.confirm b f
  | none => if (s.bell b).absorbs s.now then s else s.stray b

/-- SENSE_EDGE (R100, R102, R103). -/
def execSenseEdge (bell : BellNo) (s : State) : Answer :=
  .next (if s.mode = .rehearse then s else s.edge bell)

/-- The undecided strike in flight whose window end has come, where windows are judged: LIVE and LISTEN. -/
def State.windowOver (s : State) (b : BellNo) : Option InFlight :=
  if s.mode = .live ∨ s.mode = .listen then
    (s.bell b).inFlight.filter fun f => f.window == .pending && reached f.windowEnd s.now
  else none

/-- The bell leaves its window: from FLIGHT to READY; in FIRING it waits for its pulse end (R101 step 3). -/
def State.leaveWindow (s : State) (b : BellNo) (f : InFlight) : State :=
  let x := s.bell b
  if x.state = .flight then s.flightReady b x f
  else s.setBell b { x with inFlight := some { f with window := .ended } }

/-- A bell disabled by misses (R101). -/
def State.missDisable (s : State) (b : BellNo) (streak : Nat) : State :=
  ((s.disableBell b .misses).notice (.bellDisabled b .misses streak)).afterDisable ((s.bell b).state == .firing)

/-- A miss in LIVE (R101). -/
def State.miss (s : State) (b : BellNo) (f : InFlight) : State :=
  let x := s.bell b
  let streak := min 7 (x.streak + 1)
  let s := s.setBell b { x with streak := streak }
  let s := (s.latchBell b fun l => { l with miss := true }).notice (.bellMiss b streak f.owner f.due f.impact)
  if x.missLimit ≠ 0 ∧ x.missLimit ≤ streak then s.missDisable b streak else s.leaveWindow b f

/-- A window end without confirmation in LISTEN (R103). The SHADOW notice enters before the bell leaves its window, and so
before a SHOW_ENDED that its finish causes: an order of notices that R103 does not name (notes/assumptions/53.md). -/
def State.shadowMiss (s : State) (b : BellNo) (f : InFlight) : State :=
  ((s.latchBell b fun l => { l with shadowMiss := true }).notice (.shadowMiss b)).leaveWindow b f

/-- IMPACT_WINDOW_END (R101, R103). -/
def execImpactWindowEnd (bell : BellNo) (s : State) : Answer :=
  .next (match s.windowOver bell with
    | some f => if s.mode = .live then s.miss bell f else s.shadowMiss bell f
    | none => s)

/-- A bell's confirmed window end has passed. -/
def Bell.confirmedPassed (b : Bell) (now : Instant) : Bool :=
  match b.confirmedEnd with
  | some t => before t now
  | none => false

/-- CONFIRMED_WINDOW_END_PASSES (R100). -/
def execConfirmedWindowEndPasses (bell : BellNo) (s : State) : Answer :=
  .next (if (s.bell bell).confirmedPassed s.now then s.setBell bell { s.bell bell with confirmedEnd := none } else s)

/-- The strike in flight whose expected impact has come in REHEARSE. -/
def State.impactDue (s : State) (b : BellNo) : Option InFlight :=
  if s.mode = .rehearse then
    (s.bell b).inFlight.filter fun f => f.window == .pending && reached f.impact s.now
  else none

/-- A strike deemed confirmed at I (R103). -/
def State.deem (s : State) (b : BellNo) (f : InFlight) : State :=
  let x := s.bell b
  if x.state = .flight then s.flightReady b x f
  else s.setBell b { x with inFlight := some { f with window := .confirmed } }

/-- DEEMED_IMPACT (R103). -/
def execDeemedImpact (bell : BellNo) (s : State) : Answer :=
  .next (match s.impactDue bell with
    | some f => s.deem bell f
    | none => s)

end Sys2Proof.Machine
end

