-- ==== Sys2Proof/Machine/VerifyUnit.lean ====
section
/-! DEFINITION. Commands of the tracking verifier and of the axis exercise (chapter 8). -/
namespace Sys2Proof.Machine

/-! ## SET_VERIFY (R131) -/

def State.verifyOff (s : State) : State := { s with verifier := { s.verifier with enable := false, scan := none } }
def State.verifyOn (s : State) : State := { s with verifier := { s.verifier with enable := true } }.chooseDwell

def State.setVerify (s : State) (tag on : Byte) : State :=
  match boolOf on with
  | none => s.reply tag 0x32 .badArg
  | some asked =>
    let s := s.reply tag 0x32 .ok
    if asked = s.verifier.enable then s else if asked then s.verifyOn else s.verifyOff

/-- SET_VERIFY (R131). -/
def execSetVerify (tag on : Byte) (s : State) : Answer :=
  .next (takeRequest (.setVerify tag on) (fun s => s.setVerify tag on) s)

/-! ## EXERCISE (R132, R133) -/

/-- A new exercise record. Its dwell count, which no rule gives before the first dwell, opens with 0
(notes/assumptions/56.md). -/
def Exercise.opened (a : AxisNo) (c : AxisConfig) (start : Int) : Exercise where
  axis := a
  start := start
  rate := max (c.vmax / 4) 1
  phase := .moving
  index := 0
  dwell := 0
  positions := Vector.ofFn (testPosition c.form)
  results := Vector.replicate 8 none
  verdict := none

/-- The OK reply of EXERCISE: axis, start position, test positions. -/
def Exercise.replyBytes (e : Exercise) : List Byte :=
  byteOf e.axis.val :: (signed e.start ++ e.positions.toList.flatMap signed)

/-- The exercise begins: the claim, the record, the reply, the MOVE to position 0. -/
def State.beginExercise (s : State) (tag : Byte) (e : Exercise) : State :=
  (({ s with exercise := some e }.setClaim e.axis (some .exercise)).reply tag 0x33 .ok e.replyBytes).exerciseMove e
    (tget e.positions 0)

/-- The examination of R132 from step 4 on, for a configured axis without an owner. -/
def State.exerciseFree (s : State) (tag : Byte) (a : AxisNo) (c : AxisConfig) : State :=
  let x := s.axis a
  if s.mode ≠ .live ∧ s.mode ≠ .rehearse then s.reply tag 0x33 .mode
  else if s.stopped then s.reply tag 0x33 .interlock
  else if s.exercising.isSome then s.reply tag 0x33 .busy
  else if !x.mode.enabled then s.reply tag 0x33 .disabled [x.mode.code]
  else if x.mode.moving then s.reply tag 0x33 .busy
  else s.beginExercise tag (Exercise.opened a c (x.cmd.getD 0))

def State.startExercise (s : State) (tag axis : Byte) : State :=
  match index? 12 axis.toNat with
  | none => s.reply tag 0x33 .badArg
  | some a =>
    match (s.axis a).config with
    | none => s.reply tag 0x33 .notFound
    | some c => if (s.claim a).isSome then s.reply tag 0x33 .claimed else s.exerciseFree tag a c

/-- EXERCISE (R132). -/
def execExercise (tag axis : Byte) (s : State) : Answer :=
  .next (takeRequest (.exercise tag axis) (fun s => s.startExercise tag axis) s)

/-! ## EXERCISE_ABORT (R134) -/

/-- An axis in MOVE is given STOP with its dv; one in HOLD is left there. Where v is 0 the STOP raises a settle event (R118),
which is handed to nobody: the exercise, the one that could hear it, is aborted in the same act (notes/assumptions/32.md). -/
def State.stopExercised (s : State) (a : AxisNo) : State := (s.stopAxis a (s.axis a).dv).1

def State.hostAbort (s : State) (tag : Byte) : State :=
  match s.exercising with
  | none => s.reply tag 0x34 .notFound
  | some e => ((s.reply tag 0x34 .ok).stopExercised e.axis).abortExercise .host

/-- EXERCISE_ABORT (R134). -/
def execExerciseAbort (tag : Byte) (s : State) : Answer :=
  .next (takeRequest (.exerciseAbort tag) (fun s => s.hostAbort tag) s)

end Sys2Proof.Machine
end

