-- ==== Sys2Proof/Machine/Dispatch.lean ====
section
/-! DEFINITION. Every command sent to its meaning. -/
namespace Sys2Proof.Machine

def exec (i : Instr) (s : State) : Host.Outcome State Fault Refusal :=
  match i with
  | .ping tag => Sys2Proof.Machine.execPing tag s
  | .reset tag => Sys2Proof.Machine.execReset tag s
  | .status tag => Sys2Proof.Machine.execStatus tag s
  | .noticeMask tag mask => Sys2Proof.Machine.execNoticeMask tag mask s
  | .queryLane tag lane => Sys2Proof.Machine.execQueryLane tag lane s
  | .queryQueue tag => Sys2Proof.Machine.execQueryQueue tag s
  | .queryBell tag bell => Sys2Proof.Machine.execQueryBell tag bell s
  | .queryAxis tag axis => Sys2Proof.Machine.execQueryAxis tag axis s
  | .queryCalendar tag sub index => Sys2Proof.Machine.execQueryCalendar tag sub index s
  | .queryExercise tag => Sys2Proof.Machine.execQueryExercise tag s
  | .requestBadKind tag kind payload => Sys2Proof.Machine.execRequestBadKind tag kind payload s
  | .setTime tag year month day hour minute second milli pps => Sys2Proof.Machine.execSetTime tag year month day hour minute second milli pps s
  | .getTime tag => Sys2Proof.Machine.execGetTime tag s
  | .setProgramme tag programme openLevel quietLevel quietStart quietEnd => Sys2Proof.Machine.execSetProgramme tag programme openLevel quietLevel quietStart quietEnd s
  | .setSeason tag entry startMonth startDay endMonth endDay weekdays programme priority => Sys2Proof.Machine.execSetSeason tag entry startMonth startDay endMonth endDay weekdays programme priority s
  | .clearSeason tag entry => Sys2Proof.Machine.execClearSeason tag entry s
  | .setTrigger tag entry selector hours minute weekdays showNo priority grace => Sys2Proof.Machine.execSetTrigger tag entry selector hours minute weekdays showNo priority grace s
  | .clearTrigger tag entry => Sys2Proof.Machine.execClearTrigger tag entry s
  | .showOpen tag showNo kind count claims limit => Sys2Proof.Machine.execShowOpen tag showNo kind count claims limit s
  | .showData tag showNo start records => Sys2Proof.Machine.execShowData tag showNo start records s
  | .showClose tag showNo => Sys2Proof.Machine.execShowClose tag showNo s
  | .showErase tag showNo => Sys2Proof.Machine.execShowErase tag showNo s
  | .storeCompact tag => Sys2Proof.Machine.execStoreCompact tag s
  | .storeList tag first => Sys2Proof.Machine.execStoreList tag first s
  | .play tag showNo priority grace => Sys2Proof.Machine.execPlay tag showNo priority grace s
  | .playTimed tag showNo priority grace year month day hour minute second => Sys2Proof.Machine.execPlayTimed tag showNo priority grace year month day hour minute second s
  | .cancel tag id => Sys2Proof.Machine.execCancel tag id s
  | .setFlags tag flags => Sys2Proof.Machine.execSetFlags tag flags s
  | .setKey tag key enabled showNo priority grace => Sys2Proof.Machine.execSetKey tag key enabled showNo priority grace s
  | .strike tag bell velocity delay => Sys2Proof.Machine.execStrike tag bell velocity delay s
  | .setBell tag bell k pmin pmax guard window missLimit => Sys2Proof.Machine.execSetBell tag bell k pmin pmax guard window missLimit s
  | .bellEnable tag bell on => Sys2Proof.Machine.execBellEnable tag bell on s
  | .setCurve tag points => Sys2Proof.Machine.execSetCurve tag points s
  | .setLevel tag master emax tau => Sys2Proof.Machine.execSetLevel tag master emax tau s
  | .setAxis tag axis form lower upper vmax dv stopDv tolerance => Sys2Proof.Machine.execSetAxis tag axis form lower upper vmax dv stopDv tolerance s
  | .axisCmdMove tag axis target rate direction => Sys2Proof.Machine.execAxisCmdMove tag axis target rate direction s
  | .axisCmdSpin tag axis rate => Sys2Proof.Machine.execAxisCmdSpin tag axis rate s
  | .axisCmdStop tag axis => Sys2Proof.Machine.execAxisCmdStop tag axis s
  | .axisCmdFollow tag axis leader numerator denominator offset => Sys2Proof.Machine.execAxisCmdFollow tag axis leader numerator denominator offset s
  | .axisCmdEnable tag axis => Sys2Proof.Machine.execAxisCmdEnable tag axis s
  | .axisCmdDisable tag axis => Sys2Proof.Machine.execAxisCmdDisable tag axis s
  | .axisCmdClear tag axis => Sys2Proof.Machine.execAxisCmdClear tag axis s
  | .setVerify tag on => Sys2Proof.Machine.execSetVerify tag on s
  | .exercise tag axis => Sys2Proof.Machine.execExercise tag axis s
  | .exerciseAbort tag => Sys2Proof.Machine.execExerciseAbort tag s
  | .setMode tag mode => Sys2Proof.Machine.execSetMode tag mode s
  | .frameComplete => Sys2Proof.Machine.execFrameComplete s
  | .frameGapTimeout => Sys2Proof.Machine.execFrameGapTimeout s
  | .frameByteError => Sys2Proof.Machine.execFrameByteError s
  | .transmitFrameSent => Sys2Proof.Machine.execTransmitFrameSent s
  | .softReset => Sys2Proof.Machine.execSoftReset s
  | .hardReset cause baud => Sys2Proof.Machine.execHardReset cause baud s
  | .compactionEnd => Sys2Proof.Machine.execCompactionEnd s
  | .minuteBoundary => Sys2Proof.Machine.execMinuteBoundary s
  | .timedPlayRelease => Sys2Proof.Machine.execTimedPlayRelease s
  | .ppsEdge => Sys2Proof.Machine.execPpsEdge s
  | .ppsLossDeadline => Sys2Proof.Machine.execPpsLossDeadline s
  | .keyPress key => Sys2Proof.Machine.execKeyPress key s
  | .requestExpiry id => Sys2Proof.Machine.execRequestExpiry id s
  | .laneTimerExpiry lane => Sys2Proof.Machine.execLaneTimerExpiry lane s
  | .waitDeadlineExpiry lane => Sys2Proof.Machine.execWaitDeadlineExpiry lane s
  | .runLimitExpiry lane => Sys2Proof.Machine.execRunLimitExpiry lane s
  | .fireInstantArrival => Sys2Proof.Machine.execFireInstantArrival s
  | .heldGuardWaitExpiry order => Sys2Proof.Machine.execHeldGuardWaitExpiry order s
  | .guardInstantExpiry bell => Sys2Proof.Machine.execGuardInstantExpiry bell s
  | .pulseEnd bell => Sys2Proof.Machine.execPulseEnd bell s
  | .senseEdge bell => Sys2Proof.Machine.execSenseEdge bell s
  | .impactWindowEnd bell => Sys2Proof.Machine.execImpactWindowEnd bell s
  | .confirmedWindowEndPasses bell => Sys2Proof.Machine.execConfirmedWindowEndPasses bell s
  | .deemedImpact bell => Sys2Proof.Machine.execDeemedImpact bell s
  | .axisUpdate axis => Sys2Proof.Machine.execAxisUpdate axis s
  | .axisReply bytes => Sys2Proof.Machine.execAxisReply bytes s
  | .axisReplyTimeout axis => Sys2Proof.Machine.execAxisReplyTimeout axis s
  | .axisBusDecode bytes => Sys2Proof.Machine.execAxisBusDecode bytes s
  | .atriumDebounceChange => Sys2Proof.Machine.execAtriumDebounceChange s
  | .receivedByte byte => Sys2Proof.Machine.execReceivedByte byte s
  | .atriumClearChange level => Sys2Proof.Machine.execAtriumClearChange level s
  | .keyInputChange key level => Sys2Proof.Machine.execKeyInputChange key level s

end Sys2Proof.Machine
end

