-- ==== Sys2Proof/Machine/Clock.lean ====
section
/-! DEFINITION. What the block does by itself: the events that have fallen due at the present instant, the frame the port
takes, the end of an exercise, and one microsecond of the timebase (notes/assumptions/1.md). -/
namespace Sys2Proof.Machine

/-! ## What is due now -/

/-- Something the block does by itself at the present instant. -/
inductive Due where
  /-- the port takes the oldest frame of the receive queue (R146) -/
  | takeFrame
  /-- the exercise completes, its return move having ended (R133 step 4; notes/assumptions/48.md) -/
  | completeExercise
  /-- an event of the table has fallen due -/
  | event (c : Instr)
  deriving DecidableEq, Repr

/-- One event where a condition holds. -/
def dueIf (b : Bool) (c : Instr) : List Due := if b then [.event c] else []

/-- One event for each index with a condition, ascending. -/
def dueEach {n : Nat} (p : Fin n → Bool) (c : Fin n → Instr) : List Due := ((indexes n).filter p).map fun i => .event (c i)

/-- The port may take a frame, and one waits. -/
def State.frameTakable (s : State) : Bool := s.portReady && !s.port.rx.isEmpty

def State.duePort (s : State) : List Due :=
  (if s.frameTakable then [.takeFrame] else [])
    ++ dueIf s.frameGone .transmitFrameSent
    ++ dueIf s.port.resetDue .softReset
    ++ dueIf s.compactionDue.isSome .compactionEnd
    ++ dueIf s.frameWaiting.isSome .frameComplete
    ++ dueIf s.gapPassed .frameGapTimeout

def State.dueCalendar (s : State) : List Due :=
  dueIf (s.cal.time.carryDue && s.cal.time.second == 59) .minuteBoundary
    ++ dueIf (s.cal.time.carryDue && s.cal.time.second != 59) .timedPlayRelease
    ++ dueIf s.ppsLossDue .ppsLossDeadline

def State.dueScheduler (s : State) : List Due :=
  dueEach s.keyDue .keyPress
    ++ (s.sched.queue.filter fun r => r.grace == 0).map (fun r => .event (.requestExpiry r.id))
    ++ dueEach s.timerDue .laneTimerExpiry
    ++ dueEach (fun n => (s.deadlineDue n).isSome) .waitDeadlineExpiry
    ++ dueEach s.limitDue .runLimitExpiry

def State.dueStrikes (s : State) : List Due :=
  dueIf s.strikeDue.isSome .fireInstantArrival
    ++ (s.strikes.queue.filter fun k => k.guardWaitOver s.now).map (fun k => .event (.heldGuardWaitExpiry k.order))
    ++ dueEach (fun b => (s.bell b).guardOver s.now) .guardInstantExpiry
    ++ dueEach (fun b => ((s.bell b).pulseOver s.now).isSome) .pulseEnd
    ++ dueEach (fun b => (s.windowOver b).isSome) .impactWindowEnd
    ++ dueEach (fun b => (s.bell b).confirmedPassed s.now) .confirmedWindowEndPasses
    ++ dueEach (fun b => (s.impactDue b).isSome) .deemedImpact

def State.dueMotion (s : State) : List Due :=
  dueEach s.slotDue .axisUpdate
    ++ dueEach s.replyOverdue .axisReplyTimeout
    ++ dueIf s.atriumDue .atriumDebounceChange
    ++ (if s.exerciseHome.isSome then [.completeExercise] else [])

/-- Everything that is due at the present instant. -/
def State.dueNow (s : State) : List Due :=
  s.duePort ++ s.dueCalendar ++ s.dueScheduler ++ s.dueStrikes ++ s.dueMotion

/-! ## Doing one of them -/

def State.setHanding (s : State) (on : Bool) : State := { s with port := { s.port with handing := on } }

/-- The request of a taken frame is handed over (R147): it is taken whatever frames still wait. -/
def State.handOver (s : State) (c : Instr) : Answer :=
  match exec c (s.setHanding true) with
  | .next t => .next (t.setHanding false)
  | stop => stop

/-- The port takes the oldest frame (R146, R147): the request it asks for, or its answer with a result code alone. -/
def State.takeFrame (s : State) : Answer :=
  match s.port.rx with
  | [] => .next s
  | f :: rest =>
    let s := { s with port := { s.port with rx := rest } }
    match parseRequest f with
    | .request c => s.handOver c
    | .answer r => .next (s.reply f.tag f.kind r)

def State.doDue (s : State) : Due → Answer
  | .takeFrame => s.takeFrame
  | .completeExercise => .next s.completeExercise
  | .event c => exec c s

/-! ## One microsecond -/

/-- A queued request's grace over one microsecond (R41). -/
def Request.tick (r : Request) : Request :=
  if r.graceMicro + 1 < 1000 then { r with graceMicro := r.graceMicro + 1 }
  else { r with grace := r.grace - 1, graceMicro := 0 }

/-- A lane's elapsed count over one microsecond (R47). -/
def Lane.tick (l : Lane) : Lane := { l with run := l.run.map fun r => { r with elapsed := r.elapsed.tick } }

def Calendar.tick (c : Calendar) : Calendar :=
  { c with time := c.time.tick, ppsSince := c.ppsSince.map MsCount.tick }

/-- The motion unit over one microsecond: a new cycle opens every slot again; AXB_DE falls at the end of a frame. -/
def Motion.tick (m : Motion) (newCycle : Bool) (now : Instant) : Motion :=
  { axes := if newCycle then Vector.ofFn fun a => { tget m.axes a with slotTaken := false } else m.axes
    line := m.line.filter fun f => before now f.endsAt }

/-- One microsecond of the timebase. -/
def State.tick (s : State) : State :=
  let now := s.now + 1
  let wraps := Config.updateCycle ≤ s.cycle + 1
  { s with
    now := now
    cycle := if wraps then 0 else s.cycle + 1
    cal := s.cal.tick
    sched := { s.sched with queue := s.sched.queue.map Request.tick }
    lanes := Vector.ofFn fun n => (s.lane n).tick
    motion := s.motion.tick wraps now }

/-! ## Idling -/

/-- On an empty queue of commands: one thing that is due, chosen freely among several (notes/assumptions/6.md), or one
microsecond. -/
def State.idle (s : State) : Answer :=
  match s.dueNow with
  | [] => .next s.tick
  | [d] => s.doDue d
  | d :: more => s.nextChoice.doDue ((d :: more).getD (Config.freePick s.choices % (more.length + 1)) d)

end Sys2Proof.Machine
end

