-- ==== Sys2Proof/Safety.lean ====
section
/-! DEFINITION. What counts as a safe state of the tower: the laws the manual's rules own, each as a predicate of one
state, for claims to speak of. -/
namespace Sys2Proof.Machine

/-! ## Capacities (R17, R39, R91, R146, R148) -/

/-- Every queue and list holds at most what the part has room for. -/
def State.withinCapacity (s : State) : Prop :=
  s.sched.queue.length ≤ Config.requestCapacity
    ∧ s.cal.timedPlays.length ≤ Config.timedPlayCapacity
    ∧ s.strikes.queue.length ≤ Config.strikeCapacity
    ∧ s.port.rx.length ≤ Config.receiveCapacity
    ∧ s.port.tx.length ≤ Config.transmitCapacity

/-! ## Law 9 (R39) -/

/-- A request stands before another: by priority descending, then by arrival. -/
def Request.precedes (a b : Request) : Prop :=
  b.priority < a.priority ∨ (a.priority = b.priority ∧ a.arrival < b.arrival)

/-- The request queue is in order, every arrival below the count of arrivals. -/
def Scheduler.ordered (c : Scheduler) : Prop :=
  (∀ r ∈ c.queue, r.arrival < c.arrivals) ∧ c.queue.Pairwise Request.precedes

/-! ## The mall time (R2) -/

/-- The mall time exists: a date of 2000 … 2099, an hour, minute, second and millisecond in their ranges. -/
def MallTime.inRange (t : MallTime) : Prop := t.dateTime.valid = true ∧ t.milli ≤ 999 ∧ t.micro ≤ 1000

/-! ## The show store (R21, R23 … R25, R31) -/

/-- Every block lies within the step memory and holds a step. -/
def Store.blocksInside (st : Store) : Prop :=
  ∀ i b, (tget st.directory i).block = some b → 1 ≤ b.count ∧ b.first + b.count ≤ Config.stepSlots

/-- The blocks of two entries do not overlap. -/
def Store.blocksApart (st : Store) : Prop :=
  ∀ i j b c, i ≠ j → (tget st.directory i).block = some b → (tget st.directory j).block = some c →
    b.first + b.count ≤ c.first ∨ c.first + c.count ≤ b.first

/-- While an entry is OPEN it is the only one, no compaction is in progress, and the load cursor is within its count;
the cursor is held at no other time. -/
def Store.loadLawful (st : Store) : Prop :=
  (∀ i b, tget st.directory i = .opened b →
    (∀ j c, tget st.directory j = .opened c → j = i) ∧ st.compaction = none ∧ ∃ n, st.cursor = some n ∧ n ≤ b.count)
    ∧ ((∀ i, (tget st.directory i).isOpened = false) → st.cursor = none)

/-- The store as R21 describes it, its step memory in canonical form and within its slots. -/
def Store.lawful (st : Store) : Prop :=
  st.mem.wf = true ∧ (∀ c ∈ st.mem, c.1 < 8 * Config.stepSlots)
    ∧ st.blocksInside ∧ st.blocksApart ∧ st.loadLawful

/-! ## Law 1 (R96) -/

/-- The hammers in FIRING do not exceed the energise limit. -/
def State.withinSupply (s : State) : Prop := s.strikes.firing ≤ s.strikes.emax

/-! ## Law 7 and law 8 (R98, R142) -/

/-- A HAMMER output is high. -/
def State.energised (s : State) (b : BellNo) : Bool := s.strikes.hammers.getLsbD b.val

/-- An axis mode in which a command is turning the figure: MOVE, SPIN or FOLLOW. -/
def AxisMode.commanded : AxisMode → Bool
  | .move .. => true
  | .spin _ => true
  | .follow .. => true
  | _ => false

/-- Nothing plays: every lane IDLE, the strike queue empty, no exercise, no axis in MOVE, SPIN or FOLLOW. -/
def State.still (s : State) : Prop :=
  (∀ n, (s.lane n).run = none) ∧ s.strikes.queue = [] ∧ s.exercising = none
    ∧ ∀ a, (s.axis a).mode.commanded = false

/-- Law 8, and the same in SAFE: while the tower is stopped, or the mode is SAFE, nothing plays. -/
def State.stillWhenStopped (s : State) : Prop := s.stopped = true ∨ s.mode = .safe → s.still

/-- Law 7: an output is high only for a bell in FIRING, in LIVE with the interlock closed. -/
def State.hammersGated (s : State) : Prop :=
  ∀ b, s.energised b = true → (s.bell b).state = .firing ∧ s.mode = .live ∧ s.output.isOpen = false

/-- The tower is safe for people in the atrium: laws 7 and 8 together. -/
def State.towerSafe (s : State) : Prop := s.stillWhenStopped ∧ s.hammersGated

/-! ## Law 5 (R105) -/

/-- No queued strike is for a DISABLED bell. -/
def State.noStrikeDisabled (s : State) : Prop := ∀ k ∈ s.strikes.queue, (s.bell k.bell).isDisabled = false

/-! ## Law 3 (R93) -/

/-- Queued strikes carry distinct entry orders below the count, and those for one bell have due impact instants at
least its repeat guard apart. -/
def State.strikesSpaced (s : State) : Prop :=
  (s.strikes.queue.map Strike.order).Nodup
    ∧ (∀ k ∈ s.strikes.queue, k.order < s.strikes.orderCount)
    ∧ s.strikes.queue.Pairwise fun j k =>
        j.bell = k.bell → (s.bell j.bell).guardMs * 1000 ≤ distance j.due k.due

/-! ## Law 6 (R114) -/

/-- What law 6 asks of an axis of a form: a BOUNDED axis in an enabled mode is commanded to a position within its soft
limits, and so is the target of its MOVE. -/
def Axis.withinForm (x : Axis) : AxisForm → Prop
  | .wrap => True
  | .bounded lower upper =>
    lower ≤ upper
      ∧ (x.mode.enabled = true → ∃ p, x.cmd = some p ∧ lower ≤ p ∧ p ≤ upper)
      ∧ (∀ t d r, x.mode = .move t d r → lower ≤ t ∧ t ≤ upper)

/-- Law 6 for one axis, with the ranges of its residue, turns and missed count (R110). -/
def Axis.lawful (x : Axis) : Prop :=
  ∀ c, x.config = some c →
    x.v.natAbs ≤ c.vmax ∧ x.withinForm c.form ∧ 0 ≤ x.residue ∧ x.residue ≤ 99
      ∧ -360360 ≤ x.turns ∧ x.turns ≤ 360359 ∧ x.missed ≤ 3

/-- Law 6 for every axis. -/
def State.axesLawful (s : State) : Prop := ∀ a, (s.axis a).lawful

/-! ## Law 2 (R98) -/

/-- What one act may do to a bell's spacing at now: leave its last expected impact, its guard and R; stop a guard whose
instant is not after now; or fire at an expected impact that is not before the instant of a running guard, the new guard
instant R after it. -/
def GuardAct (now : Instant) (x y : Bell) : Prop :=
  (y.guardMs = x.guardMs ∧ y.lastImpact = x.lastImpact ∧ y.guardInstant = x.guardInstant
      ∧ y.guardRunning = x.guardRunning)
    ∨ (y.guardMs = x.guardMs ∧ y.lastImpact = x.lastImpact ∧ y.guardInstant = x.guardInstant ∧ y.guardRunning = false
      ∧ ∀ g, x.guardInstant = some g → before now g = false)
    ∨ (y.guardMs = x.guardMs ∧ y.guardRunning = true
      ∧ ∃ impact, y.lastImpact = some impact ∧ y.guardInstant = some (impact + micros (x.guardMs * 1000))
        ∧ (x.guardRunning = true → ∀ g, x.guardInstant = some g → before impact g = false))

/-- Law 2 over one step: acts of `GuardAct` alone, or a change of R (SET_BELL) that leaves the spacing. -/
def GuardKept (now : Instant) (x y : Bell) : Prop :=
  Relation.ReflTransGen (GuardAct now) x y
    ∨ (y.lastImpact = x.lastImpact ∧ y.guardInstant = x.guardInstant ∧ y.guardRunning = x.guardRunning)

/-! ## Law 4 (R46) -/

/-- A lane that owns an axis is RUNNING or WAITING, the exercise owns the axis of its run and no other, and nothing else
owns one. That no axis has two owners is the form of the claim table. -/
def State.claimsLawful (s : State) : Prop :=
  (∀ a n, s.claim a = some (.lane n) → ∃ r, (s.lane n).run = some r ∧ r.phase ≠ .draining)
    ∧ (∀ a, s.claim a = some .exercise ↔ ∃ e, s.exercise = some e ∧ e.phase ≠ .done ∧ e.axis = a)
    ∧ ∀ a, s.claim a ≠ some .link

/-! ## Law 5, its first clause (R105) -/

/-- Every queued strike is owned by LINK or by a lane that is not IDLE. -/
def State.strikesOwned (s : State) : Prop :=
  ∀ k ∈ s.strikes.queue, k.owner = .link ∨ ∃ n r, k.owner = .lane n ∧ (s.lane n).run = some r

/-! ## The order of the strike queue (R91) -/

/-- Each record stands before the ones after it: by queued fire instant, then bell, then entry order. -/
def State.strikesOrdered (s : State) : Prop := s.strikes.queue.Pairwise fun j k => j.precedes k = true

/-- The instants of queued strikes lie near enough to now for the order of R1 to be an order of them. -/
def State.strikesNear (s : State) : Prop :=
  ∀ k ∈ s.strikes.queue, distance k.fireAt s.now ≤ 1000000000 ∧ distance k.due s.now ≤ 1000000000

/-! ## Law 10 (R76) -/

/-- Every step of every READY block passes validation (R25). -/
def Store.stepsValid (st : Store) : Prop :=
  ∀ i b, tget st.directory i = .ready b → ∀ j, j < b.count →
    stepFailure ⟨b.kind, b.count, j⟩ (decodeStep (st.mem.readSlot (b.first + j))) = none

/-- The run of a RUNNING or WAITING lane: its show is READY, it executes its show or a READY phrase with a return point in
the show, and its cursor lies within the executing entry (so does the step after a WAIT_AXIS it waits at). -/
def Run.inside (st : Store) (r : Run) : Prop :=
  (∃ i b, tget st.directory i = .ready b ∧ b.kind ≠ .phrase ∧ r.showNo = i.val
      ∧ r.shown = ⟨i.val, false, b.first, b.count⟩)
    ∧ ((r.executing = r.shown ∧ r.returnPoint = none)
      ∨ (∃ i b, tget st.directory i = .ready b ∧ b.kind = .phrase ∧ r.executing = ⟨i.val, true, b.first, b.count⟩)
        ∧ ∃ back, r.returnPoint = some back ∧ r.shown.first ≤ back ∧ back < r.shown.first + r.shown.count)
    ∧ r.executing.first ≤ r.cursor ∧ r.cursor < r.executing.first + r.executing.count
    ∧ (∀ set deadline, r.phase = .waiting set deadline → r.cursor + 1 < r.executing.first + r.executing.count)

/-- Law 10: every READY block is valid; the cursor of every lane in RUNNING or WAITING lies within the entry it executes; no
lane runs during a compaction. -/
def State.cursorsInside (s : State) : Prop :=
  s.store.stepsValid
    ∧ (∀ n r, (s.lane n).run = some r → r.phase ≠ .draining → r.inside s.store)
    ∧ (s.store.compaction ≠ none → ∀ n, (s.lane n).run = none)

/-! ## The axis bus (R138) -/

/-- An axis without a configuration holds no reply, and in LISTEN no frame is driven. -/
def State.busLawful (s : State) : Prop :=
  (∀ a, (s.axis a).config = none → (s.axis a).heard = none) ∧ (s.mode = .listen → s.motion.line = none)

end Sys2Proof.Machine
end

