-- ==== Sys2Proof/Certificates/Slice0/Obligations.lean ====
section
/-! DEFINITION. The statements about the model: what the numbered rules say each command does, and the laws every step
keeps. `s.reply tag kind r fields` is the reply of R147 entered by R148, and `s.notice n` the notice of R149: what they do
is said by TransmitTable and ReplyFrameForm. A request command is taken now where `s.takes` (PortTakes says when). -/
open Sys2Proof Sys2Proof.Machine

/-! ## The step and the queue of commands -/

/-- A step takes the command at the front of the queue and runs it on the state with the queue's rest. -/
def Obligations.StepRunsFrontCommand : Prop :=
  ∀ (s : State) (c : Instr) (rest : List Instr), s.pending = c :: rest → step s = exec c { s with pending := rest }

/-- One microsecond of the timebase: the mall time (R3; TimeAdvances says more of it), the time since the last accepted PPS
edge (R7), the graces (R41), the elapsed counts (R47, R75), the update cycle and its slots (R111), the bus line (R158). Two
conventions are the model's: the PPS count, each grace and each elapsed count runs from its own start with microseconds of its
own (log 15), and mall time waits at micro 1,000 of millisecond 999 for its carry (log 5). -/
def TickPasses : Prop :=
  ∀ s : State,
    let plus := fun c : MsCount => if c.us < 999 then MsCount.mk c.ms (c.us + 1) else ⟨c.ms + 1, 0⟩
    let time := s.cal.time
    let t := s.tick
    t.now = s.now + 1
      ∧ t.cycle = (if s.cycle < 9999 then s.cycle + 1 else 0)
      ∧ t.cal.time = (if time.micro < 999 then { time with micro := time.micro + 1 }
          else if time.milli < 999 then { time with milli := time.milli + 1, micro := 0 }
          else { time with micro := 1000 })
      ∧ t.cal.ppsSince = s.cal.ppsSince.map plus
      ∧ t.sched.queue = s.sched.queue.map (fun r =>
          if r.graceMicro < 999 then { r with graceMicro := r.graceMicro + 1 }
          else { r with grace := r.grace - 1, graceMicro := 0 })
      ∧ (∀ n, t.lane n = { s.lane n with
          run := (s.lane n).run.map fun r => { r with elapsed := plus r.elapsed } })
      ∧ (∀ a, t.axis a = { s.axis a with slotTaken := (s.axis a).slotTaken && decide (s.cycle < 9999) })
      ∧ (∀ f, t.motion.line = some f ↔ s.motion.line = some f ∧ before t.now f.endsAt = true)
      ∧ t = { s with
          now := t.now, cycle := t.cycle, cal := { s.cal with time := t.cal.time, ppsSince := t.cal.ppsSince }
          sched := { s.sched with queue := t.sched.queue }, lanes := t.lanes, motion := t.motion }

/-- The instant of a timed event of the table has come. The other commands come from outside and never fall due. That the gap
in a frame has passed at 2,001 µs is log 42, and that a carry is due at micro 1,000 log 5. -/
def EventDue (s : State) : Instr → Prop
  | .transmitFrameSent => ∃ t, s.port.sentAt = some t ∧ before s.now t = false
  | .softReset => s.port.resetDue = true
  | .compactionEnd => ∃ c, s.store.compaction = some c ∧ before s.now c.endsAt = false
  | .frameComplete => ∃ bytes, s.port.receiver = .inside bytes ∧ frameIsComplete bytes = true
  | .frameGapTimeout => ∃ bytes, s.port.receiver = .inside bytes ∧ frameIsComplete bytes = false
      ∧ before s.now (s.port.lastByte + 2001) = false
  | .minuteBoundary => s.cal.time.milli = 999 ∧ s.cal.time.micro = 1000 ∧ s.cal.time.second = 59
  | .timedPlayRelease => s.cal.time.milli = 999 ∧ s.cal.time.micro = 1000 ∧ s.cal.time.second ≠ 59
  | .ppsLossDeadline => s.cal.ppsState = .locked ∧ before s.now s.cal.ppsDeadline = false
  | .keyPress k => (tget s.sched.inputs k).level ≠ (tget s.sched.inputs k).debounced
      ∧ before s.now ((tget s.sched.inputs k).changedAt + 50000) = false
  | .requestExpiry id => ∃ r ∈ s.sched.queue, r.id = id ∧ r.grace = 0
  | .laneTimerExpiry n => ∃ r t, (s.lane n).run = some r ∧ r.phase = .running ∧ r.timer = some t
      ∧ before s.now t = false
  | .waitDeadlineExpiry n => ∃ r set deadline, (s.lane n).run = some r ∧ r.phase = .waiting set deadline
      ∧ before s.now deadline = false
  | .runLimitExpiry n => ∃ r, (s.lane n).run = some r ∧ r.limit * 1000 ≤ r.elapsed.ms
  | .fireInstantArrival => ∃ k ∈ s.strikes.queue, k.fire = .scheduled ∧ before s.now k.fireAt = false
  | .heldGuardWaitExpiry order => ∃ k ∈ s.strikes.queue, k.order = order
      ∧ ∃ wait, k.fire = .heldGuard wait ∧ before s.now wait = false
  | .guardInstantExpiry b => (s.bell b).guardRunning = true
      ∧ ∀ g, (s.bell b).guardInstant = some g → before s.now g = false
  | .pulseEnd b => (s.bell b).state = .firing
      ∧ ∃ f, (s.bell b).inFlight = some f ∧ before s.now (f.firedAt + micros f.pulse) = false
  | .impactWindowEnd b => (s.mode = .live ∨ s.mode = .listen)
      ∧ ∃ f, (s.bell b).inFlight = some f ∧ f.window = .pending ∧ before s.now f.windowEnd = false
  | .confirmedWindowEndPasses b => ∃ t, (s.bell b).confirmedEnd = some t ∧ before t s.now = true
  | .deemedImpact b => s.mode = .rehearse
      ∧ ∃ f, (s.bell b).inFlight = some f ∧ f.window = .pending ∧ before s.now f.impact = false
  | .axisUpdate a => (s.axis a).config ≠ none ∧ (s.axis a).slotTaken = false ∧ s.cycle = 800 * a.val
  | .axisReplyTimeout a => ∃ t, (s.axis a).awaiting = some t ∧ before s.now t = false
  | .atriumDebounceChange => s.output.atriumClear = s.output.isOpen
      ∧ before s.now (s.output.changedAt + 20000) = false
  | _ => False

/-- The return move of the exercise that runs has ended, its axis in HOLD: the completion falls at that instant (R133 step 4). -/
def ReturnEnded (s : State) (e : Exercise) : Prop :=
  s.exercise = some e ∧ e.phase = .returning ∧ (s.axis e.axis).mode = .hold

/-- What is due at the present instant: the taking of a frame where the port may take one and one waits (R146), the
completion of the exercise (R133; a thing of its own: log 48), and every event of the table whose instant has come. -/
def DueNowHolds : Prop :=
  ∀ s : State,
    (Due.takeFrame ∈ s.dueNow ↔ s.portReady = true ∧ s.port.rx ≠ [])
    ∧ (Due.completeExercise ∈ s.dueNow ↔ ∃ e, ReturnEnded s e)
    ∧ ∀ c, Due.event c ∈ s.dueNow ↔ EventDue s c

/-- On an empty queue the block does one thing that is due, or lets one microsecond pass (the model's choice, log 1, 2, 6). -/
def OneThingHappens : Prop :=
  ∀ s : State, s.pending = [] →
    (s.dueNow = [] → step s = .next s.tick)
      ∧ (∀ d, s.dueNow = [d] → step s = s.doDue d)
      ∧ (∀ d e l, s.dueNow = d :: e :: l →
          ∃ x ∈ s.dueNow, step s = { s with choices := s.choices + 1 }.doDue x)
      ∧ ∀ c, s.doDue (.event c) = exec c s

/-- The idle step (log 1, 2, 6), what is due (log 5, 42, 48), and what a microsecond does (log 5, 15). -/
def Obligations.IdleStepDoesOneThing : Prop := OneThingHappens ∧ DueNowHolds ∧ TickPasses

/-- Every command answers a next state, and leaves the queue of waiting commands as it is. -/
def Obligations.EveryCommandAnswersNext : Prop :=
  ∀ (c : Instr) (s : State), ∃ t, exec c s = .next t ∧ t.pending = s.pending

/-! ## The message port: receiving -/

/-- R144, hunting and inside a frame, for a byte that follows no complete frame and ends no gap. -/
def ReceiverCollectsBytes : Prop :=
  ∀ (s : State) (b : Byte),
    (s.port.receiver = .hunting →
      exec (.receivedByte b) s = .next { s with port := { s.port with
        lastByte := s.now, receiver := if b = 0xC5 then .inside [] else .hunting } })
    ∧ (∀ bytes, s.port.receiver = .inside bytes → frameIsComplete bytes = false →
        before s.now (s.port.lastByte + 2001) = true →
        exec (.receivedByte b) s = .next
          (if bytes = [] ∧ ¬(2 ≤ b.toNat ∧ b.toNat ≤ 240) then
            { s with port := { s.port with
              lastByte := s.now, receiver := .hunting, latches := { s.port.latches with linkFraming := true } } }
          else { s with port := { s.port with lastByte := s.now, receiver := .inside (bytes ++ [b]) } }))

/-- R144, what discards a frame: a gap of more than 2 ms, a missing stop bit; and the byte that ends a gap. -/
def ReceiverDiscardsFrames : Prop :=
  ∀ (s : State),
    (s.port.receiver = .hunting → exec .frameByteError s = .next s ∧ exec .frameGapTimeout s = .next s)
    ∧ (∀ bytes, s.port.receiver = .inside bytes → frameIsComplete bytes = false →
        exec .frameByteError s = .next { s with port := { s.port with
          receiver := .hunting, latches := { s.port.latches with linkFraming := true } } }
        ∧ (before s.now (s.port.lastByte + 2001) = true → exec .frameGapTimeout s = .next s)
        ∧ (before s.now (s.port.lastByte + 2001) = false →
            exec .frameGapTimeout s = .next { s with port := { s.port with
              receiver := .hunting, latches := { s.port.latches with linkFraming := true } } }
            ∧ ∀ b, exec (.receivedByte b) s = .next { s with port := { s.port with
                lastByte := s.now, receiver := if b = 0xC5 then .inside [] else .hunting
                latches := { s.port.latches with linkFraming := true } } }))

/-- R144: the receiver: hunting, inside a frame, a gap, a missing stop bit. The gap runs from the end of one byte to the end of
the next, and the first instant past it is 2,001 µs on (log 42, the model's choice); a byte error that follows a complete
frame not yet examined is outside this statement (log 29). -/
def Obligations.FramesReceived : Prop := ReceiverCollectsBytes ∧ ReceiverDiscardsFrames

/-- R145: the check of the bytes it covers: a register preset to all ones, each byte fed most significant bit first, the
generator x^16 + x^12 + x^5 + 1, the result not inverted. -/
def CheckComputed : Prop :=
  let feed := fun (c : Half) (bit : Bool) => if c.msb ≠ bit then (c <<< 1) ^^^ 0x1021#16 else c <<< 1
  checkOf [] = 0xFFFF
    ∧ ∀ (bytes : List Byte) (b : Byte), checkOf (bytes ++ [b]) =
        ([7, 6, 5, 4, 3, 2, 1, 0] : List Nat).foldl (fun c i => feed c (b.getLsbD i)) (checkOf bytes)

/-- R145: a complete frame is examined; where there is none nothing happens. -/
def FrameExamined : Prop :=
  (∀ (s : State) (len tag kind : Byte) (payload : List Byte) (high low : Byte),
    s.port.receiver = .inside ((len :: tag :: kind :: payload) ++ [high, low]) → len.toNat = payload.length + 2 →
      (high ++ low ≠ checkOf (len :: tag :: kind :: payload) →
        exec .frameComplete s = .next { s with port := { s.port with
          receiver := .hunting, latches := { s.port.latches with linkCheck := true } } })
      ∧ (high ++ low = checkOf (len :: tag :: kind :: payload) → 0x80 ≤ kind.toNat →
        exec .frameComplete s = .next { s with port := { s.port with
          receiver := .hunting, latches := { s.port.latches with linkFraming := true } } })
      ∧ (high ++ low = checkOf (len :: tag :: kind :: payload) → kind.toNat < 0x80 →
        exec .frameComplete s = .next { s with port :=
          { s.port with receiver := .hunting }.offer s.now ⟨tag, kind, payload⟩ }))
  ∧ (∀ s : State, (∀ bytes, s.port.receiver = .inside bytes → frameIsComplete bytes = false) →
      exec .frameComplete s = .next s)
  ∧ (∀ bytes : List Byte, frameIsComplete bytes = true ↔
      ∃ (len : Byte) (more : List Byte), bytes = len :: more ∧ more.length = len.toNat + 2)

/-- R144, R145: the check, and the examination of a complete frame. -/
def Obligations.CompleteFrameExamined : Prop := CheckComputed ∧ FrameExamined

/-- R146, R154: when the port may take a request, and when a request command is taken now: no frame waits before it, or it is
the frame just taken that is handed over (log 11). -/
def PortTakes : Prop :=
  ∀ s : State,
    (s.portReady = true ↔ s.store.compaction = none ∧ s.port.held = none ∧ s.port.resetWaiting = false)
    ∧ (s.takes = true ↔ s.portReady = true ∧ (s.port.handing = true ∨ s.port.rx = []))

/-- R146: a request that is not taken now is offered to the receive queue (for a request command at the front of the
model's own queue this is log 11), and what offering a frame does. -/
def OffersWait : Prop :=
  (∀ (c : Instr) (f : RxFrame) (s : State), requestFrame c = some f → s.takes = false →
      exec c s = .next { s with port := s.port.offer s.now f })
  ∧ (∀ (p : Port) (now : Instant) (f : RxFrame), p.rx.length < 4 → p.offer now f = { p with rx := p.rx ++ [f] })
  ∧ (∀ (p : Port) (now : Instant) (f : RxFrame), 4 ≤ p.rx.length →
      p.offer now f = { p with latches := { p.latches with receiveOverflow := true } }.enterBusy now
        ⟨.reply, f.tag, f.kind + 0x80, [0x04]⟩)

/-- R146, R147: the port takes the oldest frame: it answers it with a result code alone, or hands its request over, which
is carried out as if no frame waited behind it. The mark `handing` is the model's own and is set at no other time. -/
def OldestFrameTaken : Prop :=
  (∀ (s : State) (f : RxFrame) (rest : List RxFrame), s.port.rx = f :: rest →
    (∀ r, parseRequest f = .answer r →
      s.doDue .takeFrame = .next ({ s with port := { s.port with rx := rest } }.reply f.tag f.kind r))
    ∧ (∀ c, parseRequest f = .request c →
      ∃ t, exec c { s with port := { s.port with rx := rest, handing := true } } = .next t
        ∧ s.doDue .takeFrame = .next { t with port := { t.port with handing := false } }))
  ∧ (∀ s t : State, s.port.handing = false → step s = .next t → t.port.handing = false)

/-- R146, R147: when the port takes a request, the frame it takes, and the request that must wait. -/
def Obligations.UnreadyPortOffers : Prop := PortTakes ∧ OffersWait ∧ OldestFrameTaken

/-- R147, R156: the frame of every well-formed request reads back as that request. -/
def FramesReadBack : Prop :=
  ∀ (c : Instr) (f : RxFrame), c.wf = true → requestFrame c = some f → parseRequest f = .request c

/-- The payload lengths that section 11.4 lists for a request kind; for QUERY and AXIS_CMD, by the selector or the command
byte (R156). -/
def LengthAllowed (kind : Byte) (payload : List Byte) : Prop :=
  match kind.toNat with
  | 0x01 | 0x02 | 0x03 | 0x09 | 0x16 | 0x34 => payload.length = 0
  | 0x0C | 0x0E | 0x14 | 0x15 | 0x17 | 0x21 | 0x22 | 0x32 | 0x33 | 0x38 => payload.length = 1
  | 0x04 | 0x2A => payload.length = 2
  | 0x28 => payload.length = 4
  | 0x23 => payload.length = 5
  | 0x2C => payload.length = 6
  | 0x0A => payload.length = 7
  | 0x0B | 0x12 => payload.length = 8
  | 0x08 | 0x0D => payload.length = 10
  | 0x29 => payload.length = 13
  | 0x30 => payload.length = 20
  | 0x2B => payload.length = 34
  | 0x20 => payload.length = 3 ∨ payload.length = 10
  | 0x13 => ∃ n, 1 ≤ n ∧ n ≤ 24 ∧ payload.length = 3 + 8 * n
  | 0x05 => ∃ selector : Byte, payload[0]? = some selector ∧
      ((selector.toNat ≤ 2 ∧ payload.length = 2) ∨ (selector.toNat = 3 ∧ payload.length = 1)
        ∨ (selector.toNat = 4 ∧ payload.length = 3) ∨ (selector.toNat = 5 ∧ payload.length = 1))
  | 0x31 => ∃ command : Byte, payload[1]? = some command ∧
      ((command.toNat = 0 ∧ payload.length = 11) ∨ (command.toNat = 1 ∧ payload.length = 6)
        ∨ (command.toNat = 3 ∧ payload.length = 9)
        ∨ ((command.toNat = 2 ∨ 4 ≤ command.toNat ∧ command.toNat ≤ 6) ∧ payload.length = 2))
  | _ => False

/-- A QUERY of an unknown selector, or an AXIS_CMD of an unknown command (R156). -/
def UnknownCode (kind : Byte) (payload : List Byte) : Prop :=
  (kind = 0x05 ∧ ∃ selector : Byte, payload[0]? = some selector ∧ 5 < selector.toNat)
    ∨ (kind = 0x31 ∧ ∃ command : Byte, payload[1]? = some command ∧ 6 < command.toNat)

/-- R147, R156, R123 step 1: what a taken frame asks for: BAD_KIND, BAD_ARG for an unknown selector or command whatever the
length, BAD_LENGTH, or the one request whose frame it is. -/
def FramesParsed : Prop :=
  ∀ f : RxFrame,
    (isRequestKind f.kind = false → parseRequest f = .request (.requestBadKind f.tag f.kind f.payload))
    ∧ (UnknownCode f.kind f.payload → parseRequest f = .answer .badArg)
    ∧ (LengthAllowed f.kind f.payload → ∃ c, parseRequest f = .request c ∧ requestFrame c = some f)
    ∧ (isRequestKind f.kind = true → ¬UnknownCode f.kind f.payload → ¬LengthAllowed f.kind f.payload →
        parseRequest f = .answer .badLength)

/-- R147, R156: request frames read back, and what every frame asks for. -/
def Obligations.RequestFramesReadBack : Prop := FramesReadBack ∧ FramesParsed

/-! ## The message port: sending -/

/-- R148: a frame that joins a transmit queue; one that joins an empty queue starts at once. -/
def FrameJoined (p : Port) (now : Instant) (tx : List TxFrame) (f : TxFrame) : Port :=
  { p with tx := tx ++ [f], sentAt := if p.tx = [] then some (now + micros (frameTime p.baud f)) else p.sentAt }

/-- The table of R148: a reply, a BUSY answer and a notice, with room, with a notice to remove, and without. -/
def TransmitTable : Prop :=
  (∀ (p : Port) (now : Instant) (f : TxFrame), p.tx.length < 16 →
    p.enterReply now f = FrameJoined p now p.tx f ∧ p.enterBusy now f = p.enterReply now f)
  ∧ (∀ (p : Port) (now : Instant) (f head n : TxFrame) (older newer : List TxFrame), 16 ≤ p.tx.length →
      p.tx = head :: (older ++ n :: newer) → n.role = .notice → (∀ g ∈ older, g.role ≠ .notice) →
      p.enterReply now f = { p with
        tx := head :: (older ++ newer) ++ [f], latches := { p.latches with noticeLost := true } }
        ∧ p.enterBusy now f = p.enterReply now f)
  ∧ (∀ (p : Port) (now : Instant) (f head : TxFrame) (rest : List TxFrame), 16 ≤ p.tx.length →
      p.tx = head :: rest → (∀ g ∈ rest, g.role ≠ .notice) →
      p.enterReply now f = { p with held := some f } ∧ p.enterBusy now f = p)
  ∧ (∀ (p : Port) (now : Instant) (n : Notice),
      (p.mask.getLsbD n.number = false → p.enterNotice now n = p)
      ∧ (p.mask.getLsbD n.number = true → 16 ≤ p.tx.length →
          p.enterNotice now n = { p with latches := { p.latches with noticeLost := true } })
      ∧ (p.mask.getLsbD n.number = true → p.tx.length < 16 → p.enterNotice now n = FrameJoined p now p.tx n.frame))

/-- R144, R148: how long a frame takes on the line: START, LEN, TAG, KIND, its payload and CHECK, 10 bits a byte at the line
rate, in whole microseconds rounded up (log 10). -/
def FramesTimed : Prop :=
  ∀ (baud : BitVec 2) (f : TxFrame),
    let rate := if baud = 0 then 19200 else if baud = 1 then 57600 else if baud = 2 then 115200 else 230400
    let bits := (f.payload.length + 6) * 10
    bits * 1000000 ≤ frameTime baud f * rate ∧ frameTime baud f * rate < bits * 1000000 + rate

/-- R147: the form of a reply, and of a notice (tag 0). -/
def ReplyFrameForm : Prop :=
  (∀ (s : State) (tag kind : Byte) (r : Result) (fields : List Byte),
    s.reply tag kind r fields =
      { s with port := s.port.enterReply s.now ⟨.reply, tag, kind + 0x80, r.code :: fields⟩ })
  ∧ (∀ (s : State) (n : Notice), s.notice n = { s with port := s.port.enterNotice s.now n })
  ∧ (∀ n : Notice, n.frame.role = .notice ∧ n.frame.tag = 0)

/-- R148: the head frame leaves when its last stop bit has been sent; a held reply enters; the next frame starts. -/
def HeadFrameLeaves : Prop :=
  (∀ s : State, (∀ gone, s.port.sentAt = some gone → before s.now gone = true) →
    exec .transmitFrameSent s = .next s)
  ∧ ∀ (s : State) (head : TxFrame) (rest : List TxFrame) (gone : Instant),
    s.port.tx = head :: rest → s.port.sentAt = some gone → before s.now gone = false →
      ∃ t, exec .transmitFrameSent s = .next t
        ∧ t.port.tx = rest ++ s.port.held.toList ∧ t.port.held = none
        ∧ t.port.sentAt = (rest ++ s.port.held.toList).head?.map
            (fun f => s.now + micros (frameTime s.port.baud f))
        ∧ (t.port.resetDue = true ↔ s.port.resetDue = true ∨ head.role = .resetReply)
        ∧ t = { s with port := { s.port with
            tx := t.port.tx, held := none, sentAt := t.port.sentAt, resetDue := t.port.resetDue } }

/-- R147, R148, R149: the form of a reply and of a notice, the transmit table, a frame's time (log 10), and the head frame
leaving. -/
def Obligations.FramesSent : Prop := TransmitTable ∧ FramesTimed ∧ ReplyFrameForm ∧ HeadFrameLeaves

/-! ## The message port: identity, reset, latches -/

/-- R153: what PING answers, and the reported flag. -/
def PingReports : Prop :=
  ∀ (s : State) (tag : Byte), s.takes = true →
    ∃ t, exec (.ping tag) s = .next { t with port := { t.port with
        resetRecord := { s.port.resetRecord with reported := true } } }
      ∧ t = s.reply tag 0x01 .ok
          [0x4C, 0x01, 32, 12, 4, 64, 0x20, 0x00, 8, 8, 64, 4, 16,
            (match s.port.resetRecord.kind with | .hard => 0 | .soft => 1),
            (if s.port.resetRecord.reported then 1 else 0)]

/-- R154: RESET enters its reply and keeps the port from taking requests until the reset acts. -/
def ResetAsked : Prop :=
  ∀ (s : State) (tag : Byte), s.takes = true →
    ∃ t, exec (.reset tag) s = .next t ∧ t.portReady = false
      ∧ t = { s with port := { s.port.enterReply s.now ⟨.resetReply, tag, 0x82, [0x00]⟩ with resetWaiting := true } }

/-- R20, R36, R57, R108, R126, R127, R134, R154: what the soft reset clears and what it keeps, block by block, whenever it is
given (log 2). -/
def SoftResetLeaves : Prop :=
  ∀ s : State, ∃ t, exec .softReset s = .next t
    ∧ t = { s with
        cal := { s.cal with timedPlays := [] }
        store := { s.store with directory := t.store.directory, cursor := none, compaction := none }
        sched := { s.sched with queue := [], flags := 0, claims := t.sched.claims, inputs := t.sched.inputs }
        lanes := t.lanes
        strikes := { s.strikes with bells := t.strikes.bells, queue := [], hammers := 0 }
        motion := { s.motion with axes := t.motion.axes }
        verifier := { s.verifier with
          scan := none, last := none, dwell := 0, disturbed := false, previousSetpoint := none
          verdicts := t.verifier.verdicts, updateSeen := false }
        exercise := none
        output := { s.output with mode := .safe }
        port := { s.port with
          receiver := .hunting, rx := [], tx := [], sentAt := none, held := none, resetWaiting := false
          resetDue := false, resetRecord := ⟨.soft, false⟩, latches := levelLatches t } }
    ∧ (∀ i, tget t.store.directory i = match tget s.store.directory i with
        | .opened _ => .free
        | e => e)
    ∧ (∀ n, t.lane n = ⟨none, none⟩)
    ∧ (∀ a, t.claim a = none)
    ∧ (∀ k, tget t.sched.inputs k = { tget s.sched.inputs k with held := none })
    ∧ (∀ b, t.bell b =
        if (s.bell b).state = .firing ∨ (s.bell b).state = .flight then
          { s.bell b with state := .ready, inFlight := none, confirmedEnd := none, streak := 0 }
        else { s.bell b with confirmedEnd := none, streak := 0 })
    ∧ (∀ a, t.axis a = { s.axis a with
        mode := .off, cmd := (s.axis a).measured, v := 0, residue := 0, turns := 0, missed := 0
        lastCommand := none, previousCommand := none, lag := false })
    ∧ (∀ a, tget t.verifier.verdicts a = none)

/-- R154: RESET and the soft reset that follows, which acts whenever it is given (log 2). A frame being driven and a reply
awaited on the axis bus stand (log 36), and so do the guards of the bells (R108). -/
def Obligations.SoftResetOnRequest : Prop := ResetAsked ∧ SoftResetLeaves

/-- R20, R36, R44, R57, R108, R126, R127, R136, R141, R155: a hard reset leaves every block at its hard-reset values, with
BAUD1:0 sampled; a low level of RESET_N shorter than 10 µs is ignored. The pins the outside drives keep their levels, and
the model's own queue of commands and count of free choices stand (log 4). The spec states no reset value for four fields:
`arrivals`, `lastByte`, and, inside Calendar.reset and Motion.reset, `ppsDeadline` and each axis's `sent`; their 0 is the
model's choice (log 3). So are the instant from which the interlock's debounce counts, 0, the reset instant (log 54), and
that the interval in which RESET_N is low takes no time (log 12). -/
def Obligations.HardResetLeaves : Prop :=
  ∀ (s : State) (baud : BitVec 2),
    (∀ low, low < 10 → exec (.hardReset (.pin low) baud) s = .next s)
    ∧ ∀ cause : ResetCause, (cause = .powerUp ∨ ∃ low, cause = .pin low ∧ 10 ≤ low) →
      ∃ t, exec (.hardReset cause baud) s = .next t ∧ t.now = 0 ∧ t.cycle = 0
        ∧ t.cal = Calendar.reset ∧ t.store = Store.reset
        ∧ t.sched.queue = [] ∧ t.sched.arrivals = 0 ∧ t.sched.lastId = 0 ∧ t.sched.startSeq = 0 ∧ t.sched.flags = 0
        ∧ (∀ a, t.claim a = none) ∧ (∀ k, tget t.sched.keys k = ⟨false, 0, 0, 0⟩)
        ∧ (∀ k, tget t.sched.inputs k = ⟨(tget s.sched.inputs k).level, 0, false, none⟩)
        ∧ (∀ n, t.lane n = ⟨none, none⟩)
        ∧ t.strikes = StrikeUnit.reset ∧ t.motion = Motion.reset ∧ t.verifier = Verifier.reset ∧ t.exercise = none
        ∧ t.output = ⟨.safe, true, s.output.atriumClear, 0⟩
        ∧ t.port.receiver = .hunting ∧ t.port.lastByte = 0 ∧ t.port.baud = baud ∧ t.port.rx = [] ∧ t.port.tx = []
        ∧ t.port.sentAt = none ∧ t.port.held = none ∧ t.port.resetWaiting = false ∧ t.port.resetDue = false
        ∧ t.port.handing = false ∧ t.port.mask = 0 ∧ t.port.resetRecord = ⟨.hard, false⟩
        ∧ t.port.latches = levelLatches t
        ∧ t.outputPins = { pinsInReset with alarmN := false }
        ∧ t.choices = s.choices ∧ t.pending = s.pending

/-- R151: STATUS reports the latches, mode, interlock, pass counter, queue counts and reset record as they stand, and
clears every latch whose cause is not presented; nothing else but the reply. The latches are cleared before the reply
enters, so a NOTICE_LOST that its own entry sets stands (log 25). -/
def StatusReadsAndClears : Prop :=
  ∀ (s : State) (tag : Byte), s.takes = true →
    ∃ u : State, exec (.status tag) s = .next (u.reply tag 0x03 .ok
        (s.port.latches.bytes ++ [s.mode.code, boolByte s.output.isOpen] ++ two s.verifier.pass
          ++ [byteOf s.port.rx.length, byteOf s.port.tx.length]
          ++ ([(match s.port.resetRecord.kind with | .hard => 0 | .soft => 1),
            (if s.port.resetRecord.reported then 1 else 0)] : List Byte)))
      ∧ u = { s with port := { s.port with latches := u.port.latches } }
      ∧ (∀ b, tget u.port.latches.bells b =
          ⟨false, (tget s.port.latches.bells b).disabled && (s.bell b).isDisabled, false, false, false⟩)
      ∧ (∀ a, tget u.port.latches.axes a =
          ⟨if (s.axis a).isFault then (tget s.port.latches.axes a).fault else none,
            (tget s.port.latches.axes a).lag && (s.axis a).lag, false⟩)
      ∧ u.port.latches.interlock = (s.port.latches.interlock && s.output.isOpen)
      ∧ u.port.latches.timeInvalid = (s.port.latches.timeInvalid && !s.cal.timeValid)
      ∧ u.port.latches.ppsLost = (s.port.latches.ppsLost && s.cal.ppsState == .lost)
      ∧ u.port.latches.linkCheck = false ∧ u.port.latches.linkFraming = false
      ∧ u.port.latches.receiveOverflow = false ∧ u.port.latches.noticeLost = false
      ∧ u.port.latches.supplyDeferred = false ∧ u.port.latches.requestDropped = false

/-- R152: ALARM_N is low exactly while an alarm cause is presented. -/
def AlarmFollowsCauses : Prop :=
  ∀ s : State, s.alarmN = false ↔
    (∃ b, (s.bell b).state = .disabled .misses) ∨ (∃ a c, (s.axis a).mode = .fault c) ∨ s.cal.timeValid = false
      ∨ s.cal.ppsState = .lost ∨ (s.output.isOpen = true ∧ s.output.mode = .live)

/-- R151, R152: STATUS (log 25) and ALARM_N. -/
def Obligations.StatusAndAlarm : Prop := StatusReadsAndClears ∧ AlarmFollowsCauses

/-- R149, R147: NOTICE_MASK, and a taken frame of no request kind. -/
def MaskAndUnknownKind : Prop :=
  ∀ (s : State) (tag : Byte), s.takes = true →
    (∀ mask : Half, mask.toNat < 4096 →
      exec (.noticeMask tag mask) s = .next
        ({ s with port := { s.port with mask := mask.setWidth 12 } }.reply tag 0x04 .ok
          [(mask >>> 8).setWidth 8, mask.setWidth 8]))
    ∧ (∀ mask : Half, 4096 ≤ mask.toNat → exec (.noticeMask tag mask) s = .next (s.reply tag 0x04 .badArg))
    ∧ (∀ kind payload, exec (.requestBadKind tag kind payload) s = .next (s.reply tag kind .badKind))

/-- R147, R149, R153: PING, NOTICE_MASK and a frame of no request kind. -/
def Obligations.PingAndMask : Prop := PingReports ∧ MaskAndUnknownKind

/-- R55, R107, R125, R135, R6: QUERY of a lane, the queue, a bell, an axis and the exercise, and GET_TIME (log 9 for the
layout that chapter 11 leaves open). -/
def RecordsQueried : Prop :=
  ∀ (s : State) (tag : Byte), s.takes = true →
    (∀ lane : Byte, exec (.queryLane tag lane) s = .next
      (if h : lane.toNat < 4 then s.reply tag 0x05 .ok (s.lane ⟨lane.toNat, h⟩).bytes else s.reply tag 0x05 .badArg))
    ∧ exec (.queryQueue tag) s = .next (s.reply tag 0x05 .ok s.sched.bytes)
    ∧ (∀ bell : Byte, exec (.queryBell tag bell) s = .next
      (if h : bell.toNat < 32 then s.reply tag 0x05 .ok (s.bellBytes ⟨bell.toNat, h⟩) else s.reply tag 0x05 .badArg))
    ∧ (∀ axis : Byte, exec (.queryAxis tag axis) s = .next
      (if h : axis.toNat < 12 then s.reply tag 0x05 .ok (s.axisBytes ⟨axis.toNat, h⟩) else s.reply tag 0x05 .badArg))
    ∧ exec (.queryExercise tag) s = .next (s.reply tag 0x05 .ok s.exerciseReport)
    ∧ exec (.getTime tag) s = .next (s.reply tag 0x09 .ok
        (twoOf s.cal.time.date.year ++ [byteOf s.cal.time.date.month, byteOf s.cal.time.date.day, byteOf s.cal.time.hour,
            byteOf s.cal.time.minute, byteOf s.cal.time.second] ++ twoOf s.cal.time.milli
          ++ ([byteOf s.cal.time.date.weekday, boolByte s.cal.timeValid, boolByte s.cal.ppsEnable,
            (match s.cal.ppsState with | .none => 0 | .locked => 1 | .lost => 2)] : List Byte)))

/-- R19: QUERY of the calendar by sub-selector and index: the summary, a programme, a season, a trigger, the timed plays;
BAD_ARG for any other sub-selector and for an index beyond the table (log 9 for the layout). -/
def CalendarQueried : Prop :=
  ∀ (s : State) (tag sub index : Byte), s.takes = true →
    let answer := exec (.queryCalendar tag sub index) s
    (sub.toNat = 0 → answer = .next (s.reply tag 0x05 .ok
      [boolByte s.cal.timeValid, (match s.cal.ppsState with | .none => 0 | .locked => 1 | .lost => 2),
        byteOf s.cal.active.val, (match s.cal.winner with | some i => byteOf i.val | none => 0xFF), boolByte s.cal.quiet,
        byteOf s.cal.level, byteOf s.cal.timedPlays.length]))
    ∧ (∀ i : Fin 16, sub.toNat = 1 → index.toNat = i.val →
        answer = .next (s.reply tag 0x05 .ok (tget s.cal.programmes i).bytes))
    ∧ (∀ i : Fin 16, sub.toNat = 2 → index.toNat = i.val →
        answer = .next (s.reply tag 0x05 .ok (tget s.cal.seasons i).bytes))
    ∧ (∀ i : Fin 96, sub.toNat = 3 → index.toNat = i.val →
        answer = .next (s.reply tag 0x05 .ok (tget s.cal.triggers i).bytes))
    ∧ (sub.toNat = 4 → answer = .next (s.reply tag 0x05 .ok
        (byteOf s.cal.timedPlays.length :: s.cal.timedPlays.flatMap fun p =>
          [byteOf p.id, byteOf p.showNo, byteOf p.priority, byteOf p.grace] ++ p.start.bytes)))
    ∧ (4 < sub.toNat ∨ (sub.toNat = 1 ∧ 16 ≤ index.toNat) ∨ (sub.toNat = 2 ∧ 16 ≤ index.toNat)
        ∨ (sub.toNat = 3 ∧ 96 ≤ index.toNat) → answer = .next (s.reply tag 0x05 .badArg))

/-- R33: STORE_LIST: the summary (free total, largest free run, READY entries, the OPEN entry), the count of the entries
listed, and up to sixteen entries in ascending number from the first asked for. -/
def StoreListed : Prop :=
  ∀ (s : State) (tag first : Byte), s.takes = true →
    (63 < first.toNat → exec (.storeList tag first) s = .next (s.reply tag 0x17 .badArg))
    ∧ (first.toNat ≤ 63 →
        let listed := (List.finRange 64).filter fun i => decide (first.toNat ≤ i.val ∧ i.val < first.toNat + 16)
        exec (.storeList tag first) s = .next (s.reply tag 0x17 .ok
          (s.store.summaryBytes ++ [byteOf listed.length]
            ++ listed.flatMap fun i => entryBytes i (tget s.store.directory i))))

/-- R19, R55, R107, R125, R135, R33, R6: the queries answer with their record (log 9) and change nothing else; an index beyond
the range is refused. -/
def Obligations.QueriesChangeNothing : Prop := RecordsQueried ∧ CalendarQueried ∧ StoreListed

/-! ## The calendar -/

/-- R2, R3: the day after a date is a date, one weekday on; 31 December 2099 is followed by 1 January 2000, a Saturday. -/
def DatesAdvance : Prop :=
  (∀ d : Date, d.valid = true → d.next.valid = true
    ∧ (d ≠ ⟨2099, 12, 31⟩ → d.next.weekday = (d.weekday + 1) % 7))
  ∧ Date.next ⟨2099, 12, 31⟩ = ⟨2000, 1, 1⟩ ∧ Date.weekday ⟨2000, 1, 1⟩ = 5
  ∧ (∀ d : Date, d.valid = true ↔ 2000 ≤ d.year ∧ d.year ≤ 2099 ∧ 1 ≤ d.month ∧ d.month ≤ 12 ∧ 1 ≤ d.day
      ∧ d.day ≤ monthLength d.year d.month)
  ∧ (∀ y m, monthLength y m =
      (if m = 2 then (if y % 4 = 0 then 29 else 28) else if m = 4 ∨ m = 6 ∨ m = 9 ∨ m = 11 then 30 else 31))
  ∧ (∀ d : Date, d.next =
      (if d.day < monthLength d.year d.month then ⟨d.year, d.month, d.day + 1⟩
        else if d.month < 12 then ⟨d.year, d.month + 1, 1⟩
        else if d.year < 2099 then ⟨d.year + 1, 1, 1⟩ else ⟨2000, 1, 1⟩))

/-- R3: a carry, second by second; the time advances by one microsecond at a tick until its carry has come, for which it waits
at micro 1,000 of millisecond 999 (log 5). -/
def SecondsCarry : Prop :=
  (∀ t : MallTime, t.nextSecond =
    (if t.second < 59 then ⟨t.date, t.hour, t.minute, t.second + 1, 0, 0⟩
      else if t.minute < 59 then ⟨t.date, t.hour, t.minute + 1, 0, 0, 0⟩
      else if t.hour < 23 then ⟨t.date, t.hour + 1, 0, 0, 0, 0⟩
      else ⟨t.date.next, 0, 0, 0, 0, 0⟩))
  ∧ (∀ s : State, s.cal.time.micro < 999 → s.tick.cal.time = { s.cal.time with micro := s.cal.time.micro + 1 })
  ∧ (∀ s : State, s.cal.time.micro = 999 → s.cal.time.milli < 999 →
      s.tick.cal.time = { s.cal.time with milli := s.cal.time.milli + 1, micro := 0 })
  ∧ (∀ s : State, s.cal.time.micro = 999 → s.cal.time.milli = 999 → s.tick.cal.time.carryDue = true)

/-- R2, R3: dates, and the carries of the mall time (log 5). -/
def Obligations.TimeAdvances : Prop := DatesAdvance ∧ SecondsCarry

/-- The quiet window of R10 contains a minute of day. -/
def InWindow (p : Programme) (m : Nat) : Prop :=
  (p.quietStart < p.quietEnd ∧ p.quietStart ≤ m ∧ m < p.quietEnd)
    ∨ (p.quietEnd < p.quietStart ∧ (p.quietStart ≤ m ∨ m < p.quietEnd))

/-- The quiet state and P are as R10 evaluates them. -/
def Levelled (c : Calendar) : Prop :=
  (c.quiet = true ↔ c.timeValid = true ∧ InWindow (tget c.programmes c.active) (c.time.hour * 60 + c.time.minute))
    ∧ c.level = (if c.quiet then (tget c.programmes c.active).quietLevel else (tget c.programmes c.active).openLevel)

/-- The active programme and the recorded winner are as R12 chooses them. -/
def Chosen (c : Calendar) : Prop := c.winner = c.choice.1 ∧ c.active = c.choice.2

/-- R12: the season that wins a date, and the active programme it gives. -/
def SeasonWins : Prop :=
  ∀ c : Calendar,
    (c.timeValid = false → c.choice = (none, 0))
    ∧ (c.timeValid = true → ∀ i : Fin 16, c.choice.1 = some i ↔
        (tget c.seasons i).matchesDate c.time.date = true
          ∧ ∀ j : Fin 16, (tget c.seasons j).matchesDate c.time.date = true → j ≠ i →
              (tget c.seasons j).priority < (tget c.seasons i).priority
                ∨ ((tget c.seasons j).priority = (tget c.seasons i).priority ∧ i < j))
    ∧ (c.choice.1 = none → c.choice.2 = 0)
    ∧ (∀ i, c.choice.1 = some i → (tget c.seasons i).programme < 16 → c.choice.2.val = (tget c.seasons i).programme)
    ∧ (∀ (e : Season) (d : Date), e.matchesDate d = true ↔
        e.inUse = true ∧ e.weekdays.getLsbD d.weekday = true
          ∧ (if e.startMonth * 100 + e.startDay ≤ e.endMonth * 100 + e.endDay then
              e.startMonth * 100 + e.startDay ≤ d.month * 100 + d.day
                ∧ d.month * 100 + d.day ≤ e.endMonth * 100 + e.endDay
            else
              e.startMonth * 100 + e.startDay ≤ d.month * 100 + d.day
                ∨ d.month * 100 + d.day ≤ e.endMonth * 100 + e.endDay))

/-- R12: a re-evaluation makes the chosen programme active; where it differs, P follows and a PROGRAMME notice is sent. -/
def ProgrammeReviewed : Prop :=
  ∀ s : State, Chosen s.reviewProgramme.cal
    ∧ (s.cal.choice.2 = s.cal.active → s.reviewProgramme = { s with cal := { s.cal with winner := s.cal.choice.1 } })
    ∧ (s.cal.choice.2 ≠ s.cal.active → Levelled s.reviewProgramme.cal
        ∧ s.reviewProgramme =
            ({ s with cal := s.reviewProgramme.cal }.notice (.programme s.cal.active.val s.cal.choice.2.val))
        ∧ s.reviewProgramme.cal = { s.cal with
            winner := s.cal.choice.1, active := s.cal.choice.2
            quiet := s.reviewProgramme.cal.quiet, level := s.reviewProgramme.cal.level })

/-- R12: the season that wins and the programme it makes active. -/
def Obligations.ProgrammeChosen : Prop := SeasonWins ∧ ProgrammeReviewed

/-- A timed play leaves the list and is dropped with EXPIRED (R5, R18, R43). -/
def PlayExpired (s : State) (p : TimedPlay) : State :=
  { s with cal := { s.cal with
    timedPlays := s.cal.timedPlays.filter fun x => x.id != p.id } }.dropRequest p.id p.showNo .link .expired

/-- R5, R157: SET_TIME: BAD_ARG out of range, and for a PPS flag other than 0 and 1 (log 27); otherwise the reply, the time
loaded, the programme and the level evaluated again, and every timed play that has come dropped, in list order (log 51, the
model's choice). Where two of the model's fields stand for one millisecond (log 5), the new millisecond begins. -/
def Obligations.SetTimeLoads : Prop :=
  ∀ (s : State) (tag : Byte) (year : Half) (month day hour minute second : Byte) (milli : Half) (pps : Byte),
    s.takes = true →
    let answer := exec (.setTime tag year month day hour minute second milli pps) s
    (¬(Date.valid ⟨year.toNat, month.toNat, day.toNat⟩ = true ∧ hour.toNat ≤ 23 ∧ minute.toNat ≤ 59
        ∧ second.toNat ≤ 59 ∧ milli.toNat ≤ 999 ∧ (pps = 0 ∨ pps = 1)) → answer = .next (s.reply tag 0x08 .badArg))
    ∧ (Date.valid ⟨year.toNat, month.toNat, day.toNat⟩ = true → hour.toNat ≤ 23 → minute.toNat ≤ 59 →
        second.toNat ≤ 59 → milli.toNat ≤ 999 → (pps = 0 ∨ pps = 1) →
      let loaded := { s.reply tag 0x08 .ok with cal := { s.cal with
        time := ⟨⟨year.toNat, month.toNat, day.toNat⟩, hour.toNat, minute.toNat, second.toNat, milli.toNat, 0⟩
        timeValid := true, ppsEnable := decide (pps = 1)
        ppsState := if pps = 1 ∧ s.cal.ppsEnable = true then s.cal.ppsState else .none } }
      ∃ (u t : State), u = loaded.reviewProgramme.reviewLevel
        ∧ t = (u.cal.timedPlays.filter fun p => decide (p.start.key ≤ u.cal.time.dateTime.key)).foldl PlayExpired u
        ∧ answer = .next t
        ∧ t.cal.time = ⟨⟨year.toNat, month.toNat, day.toNat⟩, hour.toNat, minute.toNat, second.toNat, milli.toNat, 0⟩
        ∧ t.cal.timeValid = true ∧ (t.cal.ppsEnable = true ↔ pps = 1)
        ∧ t.cal.ppsState = (if pps = 1 ∧ s.cal.ppsEnable = true then s.cal.ppsState else .none)
        ∧ t.cal.ppsDeadline = s.cal.ppsDeadline ∧ t.cal.ppsSince = s.cal.ppsSince
        ∧ t.cal.programmes = s.cal.programmes ∧ t.cal.seasons = s.cal.seasons ∧ t.cal.triggers = s.cal.triggers
        ∧ Chosen t.cal ∧ Levelled t.cal
        ∧ (∀ p ∈ t.cal.timedPlays, p ∈ s.cal.timedPlays ∧ p.start.hasCome t.cal.time.dateTime = false)
        ∧ (∀ p ∈ s.cal.timedPlays, (∀ q ∈ s.cal.timedPlays, q.id = p.id →
            q.start.hasCome t.cal.time.dateTime = false) → p ∈ t.cal.timedPlays)
        ∧ t = { s with cal := t.cal, port := t.port })

/-- R9, R10: SET_PROGRAMME. -/
def ProgrammeWritten : Prop :=
  ∀ (s : State) (tag programme openLevel quietLevel : Byte) (quietStart quietEnd : Half), s.takes = true →
    (¬(programme.toNat ≤ 15 ∧ openLevel.toNat ≤ 100 ∧ quietLevel.toNat ≤ 100 ∧ quietStart.toNat ≤ 1439
        ∧ quietEnd.toNat ≤ 1439) →
      exec (.setProgramme tag programme openLevel quietLevel quietStart quietEnd) s =
        .next (s.reply tag 0x0A .badArg))
    ∧ (∀ i : Fin 16, programme.toNat = i.val → openLevel.toNat ≤ 100 → quietLevel.toNat ≤ 100 →
        quietStart.toNat ≤ 1439 → quietEnd.toNat ≤ 1439 →
      ∃ c, exec (.setProgramme tag programme openLevel quietLevel quietStart quietEnd) s =
          .next ({ s with cal := c }.reply tag 0x0A .ok)
        ∧ c = { s.cal with
            programmes := tset s.cal.programmes i ⟨openLevel.toNat, quietLevel.toNat, quietStart.toNat, quietEnd.toNat⟩
            quiet := c.quiet, level := c.level }
        ∧ Levelled c)

/-- R9: the programme table after a hard and a soft reset; programme 0 is in force while time is invalid or no season
matches. -/
def ProgrammesReset : Prop :=
  (∀ (s : State) (baud : BitVec 2) (i : Fin 16), tget (s.hardReset baud).cal.programmes i = ⟨100, 100, 0, 0⟩)
  ∧ (∀ s : State, s.softReset.cal.programmes = s.cal.programmes)
  ∧ (∀ c : Calendar, (c.timeValid = false ∨ ∀ i, (tget c.seasons i).matchesDate c.time.date = false) →
      c.choice = (none, 0))

/-- R9, R10: the programme table. -/
def Obligations.SetProgrammeWrites : Prop := ProgrammeWritten ∧ ProgrammesReset

/-- R11, R12: SET_SEASON and CLEAR_SEASON: the reply, the entry written, the programme evaluated again (ProgrammeReviewed).
Bit 7 of the weekday mask is refused by R157. -/
def SeasonTableWritten : Prop :=
  ∀ (s : State) (tag entry : Byte), s.takes = true →
    (∀ startMonth startDay endMonth endDay weekdays programme priority : Byte,
      let good := 1 ≤ startMonth.toNat ∧ startMonth.toNat ≤ 12 ∧ 1 ≤ startDay.toNat
        ∧ startDay.toNat ≤ monthLength 2000 startMonth.toNat
        ∧ 1 ≤ endMonth.toNat ∧ endMonth.toNat ≤ 12 ∧ 1 ≤ endDay.toNat ∧ endDay.toNat ≤ monthLength 2000 endMonth.toNat
        ∧ 1 ≤ programme.toNat ∧ programme.toNat ≤ 15 ∧ priority.toNat ≤ 15 ∧ weekdays.toNat < 128
      (¬(entry.toNat ≤ 15 ∧ good) →
        exec (.setSeason tag entry startMonth startDay endMonth endDay weekdays programme priority) s =
          .next (s.reply tag 0x0B .badArg))
      ∧ (∀ i : Fin 16, entry.toNat = i.val → good →
        ∃ t, exec (.setSeason tag entry startMonth startDay endMonth endDay weekdays programme priority) s = .next t
          ∧ t = ({ s.reply tag 0x0B .ok with cal := { s.cal with
              seasons := (tset s.cal.seasons i ⟨true, startMonth.toNat, startDay.toNat, endMonth.toNat, endDay.toNat,
                weekdays.setWidth 7, programme.toNat, priority.toNat⟩) } } : State).reviewProgramme
          ∧ t.cal.seasons = tset s.cal.seasons i ⟨true, startMonth.toNat, startDay.toNat, endMonth.toNat, endDay.toNat,
              weekdays.setWidth 7, programme.toNat, priority.toNat⟩
          ∧ Chosen t.cal ∧ (t.cal.active ≠ s.cal.active → Levelled t.cal)
          ∧ t = { s with port := t.port, cal := { s.cal with
              seasons := t.cal.seasons, winner := t.cal.winner, active := t.cal.active, quiet := t.cal.quiet
              level := t.cal.level } }))
    ∧ (15 < entry.toNat → exec (.clearSeason tag entry) s = .next (s.reply tag 0x0C .badArg))
    ∧ (∀ i : Fin 16, entry.toNat = i.val →
        ∃ t, exec (.clearSeason tag entry) s = .next t
          ∧ t = ({ s.reply tag 0x0C .ok with cal := { s.cal with
              seasons := (tset s.cal.seasons i { tget s.cal.seasons i with inUse := false }) } } : State).reviewProgramme
          ∧ t.cal.seasons = tset s.cal.seasons i { tget s.cal.seasons i with inUse := false }
          ∧ Chosen t.cal ∧ (t.cal.active ≠ s.cal.active → Levelled t.cal)
          ∧ t = { s with port := t.port, cal := { s.cal with
              seasons := t.cal.seasons, winner := t.cal.winner, active := t.cal.active, quiet := t.cal.quiet
              level := t.cal.level } })

/-- R13: SET_TRIGGER and CLEAR_TRIGGER; selector 0xFF is ANY. Bit 7 of the weekday mask is refused by R157. -/
def TriggerTableWritten : Prop :=
  ∀ (s : State) (tag entry : Byte), s.takes = true →
    (∀ (selector : Byte) (hours : BitVec 24) (minute weekdays showNo priority grace : Byte),
      let good := (selector = 0xFF ∨ selector.toNat ≤ 15) ∧ minute.toNat ≤ 59 ∧ showNo.toNat ≤ 63
        ∧ priority.toNat ≤ 15 ∧ weekdays.toNat < 128
      (¬(entry.toNat ≤ 95 ∧ good) →
        exec (.setTrigger tag entry selector hours minute weekdays showNo priority grace) s =
          .next (s.reply tag 0x0D .badArg))
      ∧ (∀ i : Fin 96, entry.toNat = i.val → good →
        exec (.setTrigger tag entry selector hours minute weekdays showNo priority grace) s =
          .next (({ s with cal := { s.cal with triggers := (tset s.cal.triggers i
            ⟨true, if selector = 0xFF then none else some selector.toNat, hours, minute.toNat, weekdays.setWidth 7,
              showNo.toNat, priority.toNat, grace.toNat, none⟩) } } : State).reply tag 0x0D .ok)))
    ∧ (95 < entry.toNat → exec (.clearTrigger tag entry) s = .next (s.reply tag 0x0E .badArg))
    ∧ (∀ i : Fin 96, entry.toNat = i.val →
        exec (.clearTrigger tag entry) s =
          .next ({ s with cal := { s.cal with
            triggers := (tset s.cal.triggers i { tget s.cal.triggers i with inUse := false }) } }.reply tag 0x0E .ok))

/-- R11, R13: the season and the trigger tables. -/
def Obligations.TablesWritten : Prop := SeasonTableWritten ∧ TriggerTableWritten

/-- R15: when an entry qualifies. -/
def TriggersQualify : Prop :=
  ∀ (t : Trigger) (c : Calendar), t.firesAt c = true ↔
    t.inUse = true ∧ (t.selector = none ∨ t.selector = some c.active.val) ∧ t.hours.getLsbD c.time.hour = true
      ∧ t.minute = c.time.minute ∧ t.weekdays.getLsbD c.time.date.weekday = true
      ∧ (t.lastFired = none ∨ ∃ d, t.lastFired = some d ∧ d.key < c.time.dateMinute.key)

/-- R14 step 3, R16: the test of one entry: one that qualifies records the present date-minute, and its request goes to the
scheduler with a new id; and the test of all 96 in ascending order while time is valid. -/
def TriggersFire : Prop :=
  (∀ (s : State) (i : Fin 96),
    let e := tget s.cal.triggers i
    let u := { s with cal := { s.cal with
      triggers := tset s.cal.triggers i { e with lastFired := some s.cal.time.dateMinute } } }
    (e.firesAt s.cal = false → s.testTrigger i = s)
    ∧ (e.firesAt s.cal = true →
        s.testTrigger i = { u with sched := { u.sched with lastId := u.nextId } }.enterWish
            ⟨u.nextId, e.showNo, e.priority, e.grace, .trigger i⟩
          ∧ (s.testTrigger i).cal = u.cal
          ∧ (tget (s.testTrigger i).cal.triggers i).firesAt (s.testTrigger i).cal = false))
  ∧ (∀ s : State, (s.cal.timeValid = false → s.fireTriggers = s)
      ∧ (s.cal.timeValid = true → s.fireTriggers = (List.finRange 96).foldl State.testTrigger s))

/-- R14, R15, R16, law 12: an entry that fires records the present date-minute, and so does not qualify again in it. -/
def Obligations.TriggerFiresOnceAMinute : Prop := TriggersQualify ∧ TriggersFire

/-- R3, R4, R14, R18: what the carry into a new second by running does, act by act. The plays that have come go to the
scheduler in list order with their own ids; TIME_VALID's loss drops every timed play, in list order (log 51, the model's
choice). The carry is due at micro 1,000 of millisecond 999 (log 5). -/
def CarryActs : Prop :=
  (∀ s : State,
    ((s.cal.time.milli = 999 ∧ s.cal.time.micro = 1000 ∧ s.cal.time.second = 59) → exec .minuteBoundary s = .next s.carry)
    ∧ (¬(s.cal.time.milli = 999 ∧ s.cal.time.micro = 1000 ∧ s.cal.time.second = 59) → exec .minuteBoundary s = .next s)
    ∧ ((s.cal.time.milli = 999 ∧ s.cal.time.micro = 1000 ∧ s.cal.time.second ≠ 59) →
        exec .timedPlayRelease s = .next s.carry)
    ∧ (¬(s.cal.time.milli = 999 ∧ s.cal.time.micro = 1000 ∧ s.cal.time.second ≠ 59) →
        exec .timedPlayRelease s = .next s))
  ∧ (∀ s : State,
      let u := { s with cal := { s.cal with time := s.cal.time.nextSecond } }
      (s.cal.time.second ≠ 59 → s.carry = u.releasePlays)
      ∧ (s.cal.time.second = 59 → s.carry = (u.minuteBoundary s.cal.time).releasePlays))
  ∧ (∀ (s : State) (old : MallTime),
      (s.cal.time.date.year < old.date.year → s.minuteBoundary old = s.invalidateTime.reviewLevel.fireTriggers)
      ∧ (¬s.cal.time.date.year < old.date.year → old.date ≠ s.cal.time.date →
          s.minuteBoundary old = s.reviewProgramme.reviewLevel.fireTriggers)
      ∧ (old.date = s.cal.time.date → s.minuteBoundary old = s.reviewLevel.fireTriggers))
  ∧ (∀ s : State,
      let u := { s with cal := { s.cal with timeValid := false, ppsState := .none } }.reviewProgramme.reviewLevel
      let v := { u with port := { u.port with latches := { u.port.latches with timeInvalid := true } } }
      s.invalidateTime = v.cal.timedPlays.foldl PlayExpired v)
  ∧ (∀ s : State, Levelled s.reviewLevel.cal
      ∧ s.reviewLevel = { s with cal := { s.cal with quiet := s.reviewLevel.cal.quiet, level := s.reviewLevel.cal.level } })
  ∧ (∀ s : State, s.releasePlays =
      (s.cal.timedPlays.filter fun p => decide (p.start.key ≤ s.cal.time.dateTime.key)).foldl
        (fun u p => { u with cal := { u.cal with
          timedPlays := u.cal.timedPlays.filter fun x => x.id != p.id } }.enterWish
            ⟨p.id, p.showNo, p.priority, p.grace, .link⟩) s)

/-- R3, R4, R14, R18: what a carry leaves. The time is the next second; at a minute boundary the level is evaluated again, and
at a date change the programme; the year carry clears TIME_VALID; no timed play that has come stays, and every other does. -/
def CarryLeaves : Prop :=
  ∀ (s : State) (c : Instr), s.cal.time.inRange → s.cal.time.milli = 999 → s.cal.time.micro = 1000 →
    c = (if s.cal.time.second = 59 then .minuteBoundary else .timedPlayRelease) →
    ∃ t, exec c s = .next t
      ∧ t.cal.time = s.cal.time.nextSecond
      ∧ (t.cal.time.date.year < s.cal.time.date.year → t.cal.timeValid = false ∧ t.cal.ppsState = .none
          ∧ t.cal.active = 0 ∧ t.cal.timedPlays = [] ∧ t.port.latches.timeInvalid = true)
      ∧ (¬t.cal.time.date.year < s.cal.time.date.year →
          t.cal.timeValid = s.cal.timeValid ∧ t.cal.ppsState = s.cal.ppsState)
      ∧ (t.cal.time.date ≠ s.cal.time.date → Chosen t.cal)
      ∧ (t.cal.time.date = s.cal.time.date → t.cal.active = s.cal.active ∧ t.cal.winner = s.cal.winner)
      ∧ (s.cal.time.second = 59 → Levelled t.cal)
      ∧ (s.cal.time.second ≠ 59 → t.cal.quiet = s.cal.quiet ∧ t.cal.level = s.cal.level
          ∧ t.cal.triggers = s.cal.triggers)
      ∧ (∀ p ∈ t.cal.timedPlays, p ∈ s.cal.timedPlays ∧ p.start.hasCome t.cal.time.dateTime = false)
      ∧ (¬t.cal.time.date.year < s.cal.time.date.year → ∀ p ∈ s.cal.timedPlays,
          (∀ q ∈ s.cal.timedPlays, q.id = p.id → q.start.hasCome t.cal.time.dateTime = false) → p ∈ t.cal.timedPlays)
      ∧ t.cal.programmes = s.cal.programmes ∧ t.cal.seasons = s.cal.seasons ∧ t.cal.ppsEnable = s.cal.ppsEnable
      ∧ t.store = s.store ∧ t.output = s.output

/-- R3, R4, R14, R18: the carry into a new second by running (log 5, 51). -/
def Obligations.CarryByRunning : Prop := CarryActs ∧ CarryLeaves

/-- R7, R8: a PPS edge: ignored, or accepted and the time aligned, back to its second or, from 500 ms on, forward by a carry
(CarryByRunning); a LOST state is left with a TIME notice. The millisecond begins at micro 0 (log 5). A carry out of 2099
leaves the PPS state NONE, without the notice (log 28). -/
def PpsEdgeAligns : Prop :=
  ∀ s : State, s.cal.time.inRange →
    ((s.cal.ppsEnable = false ∨ s.cal.timeValid = false ∨ ∃ e, s.cal.ppsSince = some e ∧ e.ms < 500) →
      exec .ppsEdge s = .next s)
    ∧ (s.cal.ppsEnable = true → s.cal.timeValid = true →
        (s.cal.ppsSince = none ∨ ∃ e, s.cal.ppsSince = some e ∧ 500 ≤ e.ms) →
        (s.cal.time.milli < 500 →
          exec .ppsEdge s = .next
            (let t := { s with cal := { s.cal with
              time := { s.cal.time with milli := 0, micro := 0 }, ppsSince := some ⟨0, 0⟩
              ppsDeadline := s.now + 2500000, ppsState := .locked } }
            if s.cal.ppsState = .lost then t.notice (.time true) else t))
        ∧ (500 ≤ s.cal.time.milli → ∃ t, exec .ppsEdge s = .next t
            ∧ t = (let u := s.carry
              let v := { u with cal := { u.cal with
                ppsSince := some ⟨0, 0⟩, ppsDeadline := s.now + 2500000
                ppsState := if u.cal.timeValid = true then .locked else .none } }
              if s.cal.ppsState = .lost ∧ u.cal.timeValid = true then v.notice (.time true) else v)
            ∧ t.cal.time = s.cal.time.nextSecond ∧ t.cal.ppsSince = some ⟨0, 0⟩
            ∧ t.cal.ppsDeadline = s.now + 2500000
            ∧ (t.cal.timeValid = true → t.cal.ppsState = .locked)
            ∧ (t.cal.timeValid = false ↔ s.cal.time.nextSecond.date.year < s.cal.time.date.year)))

/-- R8: the loss deadline expires in LOCKED; before it, or in another state, nothing happens. -/
def PpsLossReported : Prop :=
  ∀ s : State,
    (s.cal.ppsState ≠ .locked ∨ before s.now s.cal.ppsDeadline = true → exec .ppsLossDeadline s = .next s)
    ∧ (s.cal.ppsState = .locked → before s.now s.cal.ppsDeadline = false →
        exec .ppsLossDeadline s = .next
          ({ s with cal := { s.cal with ppsState := .lost }
                    port := { s.port with latches := { s.port.latches with ppsLost := true } } }.notice (.time false)))

/-- R7, R8: the PPS edge and its loss (log 5, 28). -/
def Obligations.PpsFollowed : Prop := PpsEdgeAligns ∧ PpsLossReported

/-! ## The show store -/

/-- A step slot lies in no block. -/
def SlotFree (st : Store) (x : Nat) : Prop :=
  x < 8192 ∧ ∀ i b, (tget st.directory i).block = some b → ¬(b.first ≤ x ∧ x < b.first + b.count)

/-- R22: the free runs are the maximal ranges of free slots in ascending order; first fit takes the lowest place where so
many slots are free; the largest free run is the longest of them. -/
def Obligations.FirstFitAllocates : Prop :=
  ∀ st : Store, st.lawful →
    (∀ x, (∃ r ∈ st.freeRuns, r.1 ≤ x ∧ x < r.1 + r.2) ↔ SlotFree st x)
    ∧ (∀ r ∈ st.freeRuns, 1 ≤ r.2) ∧ st.freeRuns.Pairwise (fun p q => p.1 + p.2 < q.1)
    ∧ (∀ n first, 1 ≤ n → (st.firstFit n = some first ↔
        (∀ x, first ≤ x → x < first + n → SlotFree st x)
          ∧ ∀ lower, lower < first → ∃ x, lower ≤ x ∧ x < lower + n ∧ ¬SlotFree st x))
    ∧ (∀ r ∈ st.freeRuns, r.2 ≤ st.largestRun) ∧ (st.largestRun = 0 ∨ ∃ r ∈ st.freeRuns, r.2 = st.largestRun)

/-- R23: SHOW_OPEN, in the order it is examined. -/
def Obligations.ShowOpened : Prop :=
  ∀ (s : State) (tag showNo kind : Byte) (count claims limit : Half), s.takes = true →
    let good := 1 ≤ count.toNat ∧ count.toNat ≤ 8192
      ∧ ((kind = 0 ∧ claims.toNat < 4096 ∧ 1 ≤ limit.toNat ∧ limit.toNat ≤ 3600) ∨ kind = 1)
    (63 < showNo.toNat → exec (.showOpen tag showNo kind count claims limit) s = .next (s.reply tag 0x12 .badArg))
    ∧ ∀ i : Fin 64, showNo.toNat = i.val →
        let other := ∃ j, j ≠ i ∧ (tget s.store.directory j).isOpened = true
        (other → exec (.showOpen tag showNo kind count claims limit) s = .next (s.reply tag 0x12 .busy))
        ∧ (¬other → tget s.store.directory i ≠ .free →
            exec (.showOpen tag showNo kind count claims limit) s = .next (s.reply tag 0x12 .inUse))
        ∧ (¬other → tget s.store.directory i = .free →
            (¬good → exec (.showOpen tag showNo kind count claims limit) s = .next (s.reply tag 0x12 .badArg))
            ∧ (good → s.store.firstFit count.toNat = none →
                exec (.showOpen tag showNo kind count claims limit) s =
                  .next (s.reply tag 0x12 .full (twoOf s.store.largestRun)))
            ∧ (∀ first, good → s.store.firstFit count.toNat = some first →
                exec (.showOpen tag showNo kind count claims limit) s =
                  .next (({ s with store := { s.store with
                    directory := (tset s.store.directory i (.opened
                      ⟨if kind = 0 then .playable (claims.setWidth 12) limit.toNat else .phrase, first, count.toNat⟩))
                    cursor := some 0 } } : State).reply tag 0x12 .ok (twoOf first))))

/-- R24: SHOW_DATA. The records go to the slots from first slot + start index on; no other byte changes. That slot i is the
bytes 8 i to 8 i + 7 of step memory, the record's first byte lowest, is log 7. -/
def Obligations.ShowDataWritten : Prop :=
  ∀ (s : State) (tag showNo : Byte) (start : Half) (records : List StepWord), s.takes = true →
    (63 < showNo.toNat → exec (.showData tag showNo start records) s = .next (s.reply tag 0x13 .badArg))
    ∧ ∀ i : Fin 64, showNo.toNat = i.val →
      ((tget s.store.directory i).isOpened = false →
        exec (.showData tag showNo start records) s = .next (s.reply tag 0x13 .notFound))
      ∧ ∀ b cursor, tget s.store.directory i = .opened b → s.store.cursor = some cursor →
        (start.toNat ≠ cursor →
          exec (.showData tag showNo start records) s = .next (s.reply tag 0x13 .sequence (twoOf cursor)))
        ∧ (start.toNat = cursor → b.count < cursor + records.length →
          exec (.showData tag showNo start records) s = .next (s.reply tag 0x13 .badArg))
        ∧ (start.toNat = cursor → cursor + records.length ≤ b.count → s.store.mem.wf = true →
          ∃ mem : Memory,
            exec (.showData tag showNo start records) s =
              .next ({ s with store := { s.store with mem := mem, cursor := some (cursor + records.length) } }.reply
                tag 0x13 .ok (twoOf (cursor + records.length)))
            ∧ (∀ j w, records[j]? = some w → mem.readSlot (b.first + cursor + j) = w
                ∧ ∀ k < 8, mem.readByte (8 * (b.first + cursor + j) + k) = stepByte w k)
            ∧ (∀ a, a < 8 * (b.first + cursor) ∨ 8 * (b.first + cursor + records.length) ≤ a →
                mem.readByte a = s.store.mem.readByte a)
            ∧ mem.wf = true)

/-- An axis is claimed by an entry, where it is a SHOW. -/
def ClaimedBy (kind : EntryKind) (axis : Nat) : Prop := ∀ m l, kind = .playable m l → m.getLsbD axis = true

/-- The checks of R26 but LAST, by step kind. -/
def StepPasses (kind : EntryKind) (count : Nat) : Step → Prop
  | .strike bell velocity => bell ≤ 31 ∧ 1 ≤ velocity ∧ velocity ≤ 127
  | .move axis wrap _ target rate => axis ≤ 11 ∧ ClaimedBy kind axis
      ∧ (if wrap then 0 ≤ target ∧ target ≤ 359999 else -180000 ≤ target ∧ target ≤ 180000)
      ∧ 1 ≤ rate ∧ rate ≤ 360000
  | .spin axis rate => axis ≤ 11 ∧ ClaimedBy kind axis ∧ rate ≠ 0 ∧ rate.natAbs ≤ 360000
  | .stop axis => axis ≤ 11 ∧ ClaimedBy kind axis
  | .follow axis leader numerator denominator offset => axis ≤ 11 ∧ ClaimedBy kind axis ∧ leader ≤ 11 ∧ leader ≠ axis
      ∧ numerator ≠ 0 ∧ numerator.natAbs ≤ 16 ∧ 1 ≤ denominator ∧ denominator ≤ 16 ∧ offset.natAbs ≤ 359999
  | .waitAxis mask timeout => mask.toNat < 4096 ∧ timeout ≠ 0
  | .setFlag flag value => flag ≤ 7 ∧ value ≤ 1
  | .countSet source _ => source ≤ 3
  | .branch sense condition argument target => sense ≤ 1 ∧ condition ≤ 9 ∧ target < count
      ∧ (condition = 0 → argument.toNat ≤ 7) ∧ (condition = 1 → argument.toNat ≤ 15)
      ∧ (condition = 3 → argument.toNat < 4096) ∧ (condition = 4 → argument.toNat ≤ 11)
      ∧ (condition = 5 → argument.toNat ≤ 31) ∧ (condition = 8 → argument.toNat ≤ 23)
  | .call entry => entry ≤ 63 ∧ kind ≠ .phrase
  | .returnStep => kind = .phrase
  | .endStep => kind ≠ .phrase
  | .unknown => False

/-- A step fails the check of R26 that has this reason code. -/
def FailsCheck (c : StepContext) (st : Step) : Nat → Prop
  | 1 => st = .unknown
  | 2 => (∃ bell velocity, st = .strike bell velocity ∧ 31 < bell)
      ∨ ∃ sense argument target, st = .branch sense 5 argument target ∧ 31 < argument.toNat
  | 3 => ∃ bell velocity, st = .strike bell velocity ∧ ¬(1 ≤ velocity ∧ velocity ≤ 127)
  | 4 => (∃ axis, st.commandAxis = some axis ∧ 11 < axis)
      ∨ (∃ mask timeout, st = .waitAxis mask timeout ∧ 4096 ≤ mask.toNat)
      ∨ (∃ sense argument target, st = .branch sense 3 argument target ∧ 4096 ≤ argument.toNat)
      ∨ ∃ sense argument target, st = .branch sense 4 argument target ∧ 11 < argument.toNat
  | 5 => ∃ axis, st.commandAxis = some axis ∧ ¬ClaimedBy c.kind axis
  | 6 => ∃ axis wrap direction target rate, st = .move axis wrap direction target rate
      ∧ ¬(if wrap then 0 ≤ target ∧ target ≤ 359999 else -180000 ≤ target ∧ target ≤ 180000)
  | 7 => (∃ axis wrap direction target rate, st = .move axis wrap direction target rate
        ∧ ¬(1 ≤ rate ∧ rate ≤ 360000))
      ∨ ∃ axis rate, st = .spin axis rate ∧ ¬(rate ≠ 0 ∧ rate.natAbs ≤ 360000)
  | 8 => ∃ axis leader numerator denominator offset, st = .follow axis leader numerator denominator offset
      ∧ ¬(leader ≤ 11 ∧ leader ≠ axis ∧ numerator ≠ 0 ∧ numerator.natAbs ≤ 16 ∧ 1 ≤ denominator ∧ denominator ≤ 16
        ∧ offset.natAbs ≤ 359999)
  | 9 => ∃ mask, st = .waitAxis mask 0
  | 10 => (∃ flag value, st = .setFlag flag value ∧ ¬(flag ≤ 7 ∧ value ≤ 1))
      ∨ ∃ sense argument target, st = .branch sense 0 argument target ∧ 7 < argument.toNat
  | 11 => ∃ source value, st = .countSet source value ∧ 3 < source
  | 12 => ∃ sense condition argument target, st = .branch sense condition argument target
      ∧ (1 < sense ∨ 9 < condition ∨ (condition = 1 ∧ 15 < argument.toNat) ∨ (condition = 8 ∧ 23 < argument.toNat))
  | 13 => ∃ sense condition argument target, st = .branch sense condition argument target ∧ c.count ≤ target
  | 14 => ∃ entry, st = .call entry ∧ 63 < entry
  | 15 => (c.kind = .phrase ∧ (st = .endStep ∨ ∃ entry, st = .call entry)) ∨ (c.kind ≠ .phrase ∧ st = .returnStep)
  | 16 => c.index + 1 = c.count ∧ st ≠ if c.kind = .phrase then .returnStep else .endStep
  | _ => False

/-- R26, R27: which steps pass, and the reason code of one that does not: that of the first check it fails, in the order of
the codes. That UNCLAIMED (5) stands in this order before TARGET, RATE and FOLLOW (6 to 8) is log 44. -/
def StepsChecked : Prop :=
  (∀ (c : StepContext) (st : Step), stepFailure c st = none ↔
    StepPasses c.kind c.count st
      ∧ (c.index + 1 = c.count → st = if c.kind = .phrase then .returnStep else .endStep))
  ∧ (∀ (c : StepContext) (st : Step) (n : Nat), stepFailure c st = some n ↔
      FailsCheck c st n ∧ ∀ m, m < n → ¬FailsCheck c st m)

/-- R25: SHOW_CLOSE. -/
def ShowClosed : Prop :=
  ∀ (s : State) (tag showNo : Byte), s.takes = true →
    (63 < showNo.toNat → exec (.showClose tag showNo) s = .next (s.reply tag 0x14 .badArg))
    ∧ ∀ i : Fin 64, showNo.toNat = i.val →
      ((tget s.store.directory i).isOpened = false →
        exec (.showClose tag showNo) s = .next (s.reply tag 0x14 .notFound))
      ∧ ∀ b cursor, tget s.store.directory i = .opened b → s.store.cursor = some cursor →
        let failure := fun j => stepFailure ⟨b.kind, b.count, j⟩ (decodeStep (s.store.mem.readSlot (b.first + j)))
        (cursor < b.count →
          exec (.showClose tag showNo) s = .next (s.reply tag 0x14 .incomplete (twoOf cursor)))
        ∧ (∀ j reason, b.count ≤ cursor → j < b.count → failure j = some reason → (∀ m, m < j → failure m = none) →
          exec (.showClose tag showNo) s = .next (s.reply tag 0x14 .invalidStep (twoOf j ++ [byteOf reason])))
        ∧ (b.count ≤ cursor → (∀ j, j < b.count → failure j = none) →
          exec (.showClose tag showNo) s = .next (({ s with store := { s.store with
            directory := (tset s.store.directory i (.ready b)), cursor := none } } : State).reply tag 0x14 .ok))

/-- R25, R26, R27: SHOW_CLOSE and the checks of the steps. -/
def Obligations.ShowsClosed : Prop := StepsChecked ∧ ShowClosed

/-- A READY entry is in use (R29). -/
def InUse (s : State) (i : Nat) : Prop :=
  ∃ n r, (s.lane n).run = some r ∧ (r.showNo = i
    ∨ (r.phase ≠ .draining ∧ r.executing.phrase = true ∧ r.executing.number = i))

/-- R28, R29, R30: SHOW_ERASE; the requests that name an erased SHOW are dropped with NO_SHOW (RequestsAdmitted and
IdsAndDrops say what a drop does), their ids and keys released; that they are dropped in queue order is log 47. -/
def Obligations.ShowErased : Prop :=
  ∀ (s : State) (tag showNo : Byte), s.takes = true →
    (63 < showNo.toNat → exec (.showErase tag showNo) s = .next (s.reply tag 0x15 .badArg))
    ∧ ∀ i : Fin 64, showNo.toNat = i.val →
      (tget s.store.directory i = .free → exec (.showErase tag showNo) s = .next (s.reply tag 0x15 .notFound))
      ∧ (∀ b, tget s.store.directory i = .opened b →
          exec (.showErase tag showNo) s = .next (({ s with store := { s.store with
            directory := (tset s.store.directory i .free), cursor := none } } : State).reply tag 0x15 .ok))
      ∧ (∀ b, tget s.store.directory i = .ready b → InUse s i.val →
          exec (.showErase tag showNo) s = .next (s.reply tag 0x15 .inUse))
      ∧ (∀ b, tget s.store.directory i = .ready b → ¬InUse s i.val →
          let st := { s.store with directory := tset s.store.directory i .free }
          (b.kind = .phrase → exec (.showErase tag showNo) s = .next ({ s with store := st }.reply tag 0x15 .ok))
          ∧ (b.kind ≠ .phrase → ∃ t, exec (.showErase tag showNo) s = .next t
              ∧ t = (s.sched.queue.filter fun r => r.showNo == i.val).foldl (fun u r => u.dropQueued r .noShow)
                  ({ s with store := st }.reply tag 0x15 .ok)
              ∧ t.sched.queue = s.sched.queue.filter (fun r =>
                  !(s.sched.queue.any fun q => q.showNo == i.val && q.id == r.id))
              ∧ (∀ k, tget t.sched.inputs k =
                  if ∃ q ∈ s.sched.queue, q.showNo = i.val ∧ q.source = .key k
                      ∧ (tget s.sched.inputs k).held = some q.id then
                    { tget s.sched.inputs k with held := none }
                  else tget s.sched.inputs k)
              ∧ (t.port.latches.requestDropped = true ↔
                  s.port.latches.requestDropped = true ∨ ∃ q ∈ s.sched.queue, q.showNo = i.val)
              ∧ t = { s with
                  store := st, port := t.port
                  sched := { s.sched with queue := t.sched.queue, inputs := t.sched.inputs } }))

/-- Slots of the blocks that a compaction moves. -/
def movedSlots (st : Store) : Nat :=
  ((indexes 64).map fun i => match tget st.directory i, tget st.compacted.directory i with
    | .ready b, .ready c => if b.first = c.first then 0 else b.count
    | _, _ => 0).sum

/-- R31, R32: STORE_COMPACT, the end of a compaction, and what a compaction makes of the store. R32 moves the blocks one after
another; that an accepted compaction changes no slot and no entry until COMPACTION_END, which moves every block at once, and
that one with nothing to move ends inside STORE_COMPACT, is log 7 (the model's choice). -/
def Obligations.StoreCompacted : Prop :=
  (∀ (s : State) (tag : Byte), s.takes = true →
    let busy := (∃ n, (s.lane n).run ≠ none) ∨ (∃ i, (tget s.store.directory i).isOpened = true)
      ∨ ∃ e, s.exercise = some e ∧ e.phase ≠ .done
    (busy → exec (.storeCompact tag) s = .next (s.reply tag 0x16 .busy))
    ∧ (¬busy → s.store.lawful → movedSlots s.store = 0 →
        exec (.storeCompact tag) s = .next (({ s with store := { s.store.compacted with compaction := none } }.reply
          tag 0x16 .ok (twoOf s.store.compacted.largestRun)).walk))
    ∧ (¬busy → s.store.lawful → movedSlots s.store ≠ 0 →
        exec (.storeCompact tag) s = .next { s with store := { s.store with
          compaction := some ⟨tag, s.now + micros (5 * movedSlots s.store)⟩ } }))
  ∧ (∀ s : State, s.store.compaction = none → exec .compactionEnd s = .next s)
  ∧ (∀ (s : State) (c : Compaction), s.store.compaction = some c →
      (before s.now c.endsAt = true → exec .compactionEnd s = .next s)
      ∧ (before s.now c.endsAt = false →
          exec .compactionEnd s = .next (({ s with store := { s.store.compacted with compaction := none } }.reply
            c.tag 0x16 .ok (twoOf s.store.compacted.largestRun)).walk)))
  ∧ (∀ st : Store, st.lawful → (∀ i, (tget st.directory i).isOpened = false) →
      (∀ i, tget st.directory i = .free → tget st.compacted.directory i = .free)
      ∧ (∀ i b, tget st.directory i = .ready b → ∃ first, first ≤ b.first
          ∧ tget st.compacted.directory i = .ready ⟨b.kind, first, b.count⟩
          ∧ ∀ j, j < b.count → st.compacted.mem.readSlot (first + j) = st.mem.readSlot (b.first + j))
      ∧ (∀ i j b c b' c', tget st.directory i = .ready b → tget st.directory j = .ready c → b.first < c.first →
          tget st.compacted.directory i = .ready b' → tget st.compacted.directory j = .ready c' →
          b'.first < c'.first)
      ∧ (∀ r ∈ st.compacted.freeRuns, r = (8192 - st.compacted.freeTotal, st.compacted.freeTotal)))

/-! ## The show scheduler -/

/-- R38, R43: the id assigned is the first after the counter that is not held; what dropping a request does. -/
def Obligations.IdsAndDrops : Prop :=
  (∀ (s : State) (id : Nat), s.heldId id = true ↔ (∃ r ∈ s.sched.queue, r.id = id)
    ∨ (∃ p ∈ s.cal.timedPlays, p.id = id) ∨ ∃ n r, (s.lane n).run = some r ∧ r.id = id)
  ∧ (advanceId 255 = 1 ∧ ∀ id, id < 255 → advanceId id = id + 1)
  ∧ (∀ s : State, s.withinCapacity →
      1 ≤ s.nextId ∧ s.nextId ≤ 255 ∧ s.heldId s.nextId = false
        ∧ ∃ k, 1 ≤ k ∧ k ≤ 21 ∧ s.nextId = Nat.iterate advanceId k s.sched.lastId
          ∧ ∀ j, 1 ≤ j → j < k → s.heldId (Nat.iterate advanceId j s.sched.lastId) = true)
  ∧ (∀ (s : State) (id showNo : Nat) (source : Source) (reason : DropReason),
      let t := s.dropRequest id showNo source reason
      let told := s.notice (.requestDropped id showNo source reason)
      t.port = { told.port with latches := { told.port.latches with requestDropped := true } }
        ∧ (∀ k, tget t.sched.inputs k =
            if source = .key k ∧ (tget s.sched.inputs k).held = some id then
              { tget s.sched.inputs k with held := none }
            else tget s.sched.inputs k)
        ∧ t = { s with port := t.port, sched := { s.sched with inputs := t.sched.inputs } })

/-- What a request entering the queue does, its place once found (R39, R41, R44); one of grace 0 that the walk does not start
is dropped at once (log 16). -/
def Entered (s : State) (w : Wish) : State :=
  let queued := insertRequest ⟨w.id, w.showNo, w.priority, w.source, s.sched.arrivals, w.grace * 1000, 0⟩ s.sched.queue
  (({ s with sched := { s.sched with queue := queued, arrivals := s.sched.arrivals + 1 } }.holdKey
    w.source w.id).walk).expireUnstarted w.id

/-- The request that a full queue gives up: the newest of the lowest priority (R39 step 3). -/
def Weakest (s : State) (x : Request) : Prop :=
  x ∈ s.sched.queue ∧ ∀ r ∈ s.sched.queue, r ≠ x → x.priority < r.priority
    ∨ (x.priority = r.priority ∧ r.arrival < x.arrival)

/-- R39, R40, R41: admission to the request queue, PLAY, and the expiry of a queued request. FULL carries no id (log 45); a
request of grace 0 that its walk does not start is dropped inside the same command (log 16). -/
def Obligations.RequestsAdmitted : Prop :=
  (∀ (s : State) (w : Wish),
    (s.store.playable w.showNo = none → s.enterWish w = s.dropRequest w.id w.showNo w.source .noShow)
    ∧ (s.store.playable w.showNo ≠ none →
        (s.sched.queue.length < 8 → s.enterWish w = Entered s w)
        ∧ (∀ x, 8 ≤ s.sched.queue.length → Weakest s x → x.priority < w.priority →
            s.enterWish w = Entered (s.dropQueued x .evicted) w)
        ∧ (8 ≤ s.sched.queue.length → (∀ r ∈ s.sched.queue, w.priority ≤ r.priority) →
            s.enterWish w = s.dropRequest w.id w.showNo w.source .full)))
  ∧ (∀ (s : State) (tag showNo priority grace : Byte), s.takes = true →
      (63 < showNo.toNat ∨ 15 < priority.toNat →
        exec (.play tag showNo priority grace) s = .next (s.reply tag 0x20 .badArg))
      ∧ (showNo.toNat ≤ 63 → priority.toNat ≤ 15 → s.store.playable showNo.toNat = none →
        exec (.play tag showNo priority grace) s = .next (s.reply tag 0x20 .notFound))
      ∧ (showNo.toNat ≤ 63 → priority.toNat ≤ 15 → s.store.playable showNo.toNat ≠ none →
        let u := { s with sched := { s.sched with lastId := s.nextId } }
        let w : Wish := ⟨s.nextId, showNo.toNat, priority.toNat, grace.toNat, .link⟩
        (s.sched.queue.length < 8 →
          exec (.play tag showNo priority grace) s = .next (Entered (u.reply tag 0x20 .ok [byteOf s.nextId]) w))
        ∧ (∀ x, 8 ≤ s.sched.queue.length → Weakest s x → x.priority < priority.toNat →
          exec (.play tag showNo priority grace) s =
            .next (Entered ((u.reply tag 0x20 .ok [byteOf s.nextId]).dropQueued x .evicted) w))
        ∧ (8 ≤ s.sched.queue.length → (∀ r ∈ s.sched.queue, priority.toNat ≤ r.priority) →
          exec (.play tag showNo priority grace) s = .next (u.reply tag 0x20 .full))))
  ∧ (∀ (s : State) (r : Request) (reason : DropReason), s.dropQueued r reason =
      { s with sched := { s.sched with queue := s.sched.queue.filter fun x => x.id != r.id } }.dropRequest
        r.id r.showNo r.source reason)
  ∧ (∀ (s : State) (id : Nat),
      (s.sched.queue.find? (fun r => r.id == id) = none → exec (.requestExpiry id) s = .next s)
      ∧ (∀ r, s.sched.queue.find? (fun r => r.id == id) = some r →
          (r.grace ≠ 0 → exec (.requestExpiry id) s = .next s)
          ∧ (r.grace = 0 → exec (.requestExpiry id) s = .next (s.dropQueued r .expired))))

/-- R17: PLAY with a start time, in the order it is examined. -/
def TimedPlaysListed : Prop :=
  ∀ (s : State) (tag showNo priority grace : Byte) (year : Half) (month day hour minute second : Byte),
    s.takes = true →
    let start : DateTime := ⟨⟨year.toNat, month.toNat, day.toNat⟩, hour.toNat, minute.toNat, second.toNat⟩
    let good := showNo.toNat ≤ 63 ∧ priority.toNat ≤ 15 ∧ start.date.valid = true ∧ start.hour ≤ 23
      ∧ start.minute ≤ 59 ∧ start.second ≤ 59
    let answer := exec (.playTimed tag showNo priority grace year month day hour minute second) s
    (¬good → answer = .next (s.reply tag 0x20 .badArg))
    ∧ (good → s.cal.timeValid = false → answer = .next (s.reply tag 0x20 .noTime))
    ∧ (good → s.cal.timeValid = true → s.store.playable showNo.toNat = none →
        answer = .next (s.reply tag 0x20 .notFound))
    ∧ (good → s.cal.timeValid = true → s.store.playable showNo.toNat ≠ none →
        (start.key ≤ s.cal.time.dateTime.key → answer = exec (.play tag showNo priority grace) s)
        ∧ (s.cal.time.dateTime.key < start.key → 8 ≤ s.cal.timedPlays.length →
            answer = .next (s.reply tag 0x20 .full))
        ∧ (s.cal.time.dateTime.key < start.key → s.cal.timedPlays.length < 8 →
            answer = .next (({ s with
              sched := { s.sched with lastId := s.nextId }
              cal := { s.cal with timedPlays := s.cal.timedPlays
                ++ [⟨s.nextId, showNo.toNat, priority.toNat, grace.toNat, start⟩] } } : State).reply
                  tag 0x20 .ok [byteOf s.nextId])))

/-- R42: CANCEL, by where the id is. -/
def CancelFindsId : Prop :=
  ∀ (s : State) (tag id : Byte), s.takes = true →
    (id = 0 → exec (.cancel tag id) s = .next (s.reply tag 0x21 .badArg))
    ∧ (∀ r, id ≠ 0 → s.sched.queue.find? (fun r => r.id == id.toNat) = some r →
        exec (.cancel tag id) s = .next (({ s.reply tag 0x21 .ok with sched := { s.sched with
          queue := s.sched.queue.filter fun x => x.id != r.id } }).dropRequest r.id r.showNo r.source .cancelled))
    ∧ (id ≠ 0 → (∀ r ∈ s.sched.queue, r.id ≠ id.toNat) →
        (∀ p, s.cal.timedPlays.find? (fun p => p.id == id.toNat) = some p →
          exec (.cancel tag id) s = .next (({ s.reply tag 0x21 .ok with cal := { s.cal with
            timedPlays := s.cal.timedPlays.filter fun x => x.id != p.id } }).dropRequest p.id p.showNo .link .cancelled))
        ∧ ((∀ p ∈ s.cal.timedPlays, p.id ≠ id.toNat) →
          (∀ n r, (s.lane n).run = some r → r.id = id.toNat →
              (∀ m x, m < n → (s.lane m).run = some x → x.id ≠ id.toNat) →
            exec (.cancel tag id) s = .next ((s.reply tag 0x21 .ok).endRun n .cancelled).walk)
          ∧ ((∀ n r, (s.lane n).run = some r → r.id ≠ id.toNat) →
            exec (.cancel tag id) s = .next (s.reply tag 0x21 .notFound))))

/-- R17, R42: PLAY with a start time, and CANCEL. -/
def Obligations.TimedAndCancelled : Prop := TimedPlaysListed ∧ CancelFindsId

/-- R45, R157: the key table, its resets, SET_KEY, and a press for a show that is not playable. That an enabled byte other
than 0 and 1 is refused is log 27. -/
def Obligations.SetKeyWrites : Prop :=
  (∀ (s : State) (baud : BitVec 2) (k : KeyNo), tget (s.hardReset baud).sched.keys k = ⟨false, 0, 0, 0⟩)
  ∧ (∀ s : State, s.softReset.sched.keys = s.sched.keys)
  ∧ (∀ (s : State) (tag key enabled showNo priority grace : Byte), s.takes = true →
      let good := key.toNat ≤ 3 ∧ (enabled = 0 ∨ enabled = 1) ∧ showNo.toNat ≤ 63 ∧ priority.toNat ≤ 15
      (¬good → exec (.setKey tag key enabled showNo priority grace) s = .next (s.reply tag 0x23 .badArg))
      ∧ (∀ k : KeyNo, key.toNat = k.val → good →
          exec (.setKey tag key enabled showNo priority grace) s =
            .next (({ s with sched := { s.sched with keys := (tset s.sched.keys k
              ⟨decide (enabled = 1), showNo.toNat, priority.toNat, grace.toNat⟩) } } : State).reply tag 0x23 .ok)))
  ∧ (∀ (s : State) (k : KeyNo), (tget s.sched.keys k).enabled = true → (tget s.sched.inputs k).held = none →
      s.store.playable (tget s.sched.keys k).showNo = none →
      s.press k = { s with sched := { s.sched with lastId := s.nextId } }.dropRequest
        s.nextId (tget s.sched.keys k).showNo (.key k) .noShow)

/-- R44: a level change restarts the debounce count; after 50 ms the debounced level follows; a change to high is a press,
ignored for a key that is not enabled or has a held request. -/
def Obligations.KeysPressed : Prop :=
  (∀ (s : State) (k : KeyNo) (level : Bool),
    ((tget s.sched.inputs k).level = level → exec (.keyInputChange k level) s = .next s)
    ∧ ((tget s.sched.inputs k).level ≠ level → exec (.keyInputChange k level) s = .next { s with sched := { s.sched with
        inputs := tset s.sched.inputs k { tget s.sched.inputs k with level := level, changedAt := s.now } } }))
  ∧ (∀ (s : State) (k : KeyNo),
      let x := tget s.sched.inputs k
      let e := tget s.sched.keys k
      let u := { s with sched := { s.sched with inputs := tset s.sched.inputs k { x with debounced := x.level } } }
      (x.level = x.debounced ∨ before s.now (x.changedAt + 50000) = true → exec (.keyPress k) s = .next s)
      ∧ (x.level ≠ x.debounced → before s.now (x.changedAt + 50000) = false →
          (x.level = false ∨ e.enabled = false ∨ x.held ≠ none → exec (.keyPress k) s = .next u)
          ∧ (x.level = true → e.enabled = true → x.held = none →
              exec (.keyPress k) s = .next ({ u with sched := { u.sched with lastId := s.nextId } }.enterWish
                ⟨s.nextId, e.showNo, e.priority, e.grace, .key k⟩))))

/-- Lane n is the lowest-numbered IDLE lane. -/
def LowestIdle (s : State) (n : LaneNo) : Prop := (s.lane n).run = none ∧ ∀ m, m < n → (s.lane m).run ≠ none

/-- Lane n is RUNNING or WAITING with a run. -/
def Active (s : State) (n : LaneNo) (r : Run) : Prop := (s.lane n).run = some r ∧ r.phase ≠ .draining

/-- No lane is IDLE, and lane n is the victim of R49 step 3. -/
def IsVictim (s : State) (n : LaneNo) : Prop :=
  (∀ m, (s.lane m).run ≠ none) ∧ ∃ r, Active s n r ∧ ∀ m x, m ≠ n → Active s m x →
    r.priority < x.priority ∨ (r.priority = x.priority ∧ x.startSeq < r.startSeq)

/-- Lane n is in the blocking set of R49 step 3. -/
def Blocks (s : State) (mask : BitVec 12) (n : LaneNo) : Prop :=
  (∃ r, Active s n r) ∧ (∃ a : AxisNo, mask.getLsbD a.val = true ∧ s.claim a = some (.lane n)) ∨ IsVictim s n

/-- The walk starts nothing (R48). -/
def WalkHeld (s : State) : Prop :=
  s.mode = .safe ∨ s.store.compaction ≠ none ∨ (s.mode = .live ∧ s.output.isOpen = true)

/-- R48, R49: the walk, and the test of one request in it. The runs of RUNNING and WAITING lanes have distinct start
sequences, as R47 gives them. -/
def Obligations.WalkStartsRequests : Prop :=
  (∀ s : State, WalkHeld s → s.walk = s)
  ∧ (∀ s : State, ¬WalkHeld s → s.walk = s.sched.queue.foldl State.tryStart s)
  ∧ (∀ (s : State) (r : Request) (b : Block) (mask : BitVec 12) (limit : Nat),
      s.store.playable r.showNo = some (b, mask, limit) →
      (∀ m n x y, m ≠ n → Active s m x → Active s n y → x.startSeq ≠ y.startSeq) →
      let free := ∀ a : AxisNo, mask.getLsbD a.val = true → s.claim a = none
      (∀ n, LowestIdle s n → free → s.tryStart r = s.startRun n r b mask limit)
      ∧ ((∃ a : AxisNo, mask.getLsbD a.val = true ∧ s.claim a = some .exercise) → s.tryStart r = s)
      ∧ ((∀ n, ∃ x, (s.lane n).run = some x ∧ x.phase = .draining) → s.tryStart r = s)
      ∧ (∀ n x, (∀ m, LowestIdle s m → ¬free) → Blocks s mask n → (s.lane n).run = some x → r.priority ≤ x.priority →
          s.tryStart r = s)
      ∧ ((∀ m, LowestIdle s m → ¬free) → (∀ a : AxisNo, mask.getLsbD a.val = true → s.claim a ≠ some .exercise) →
          (∃ n, Blocks s mask n) → (∀ n x, Blocks s mask n → (s.lane n).run = some x → x.priority < r.priority) →
          ∃ (blocking : List LaneNo) (t : State) (n : LaneNo), (∀ n, n ∈ blocking ↔ Blocks s mask n)
            ∧ blocking.Pairwise (· < ·) ∧ t = blocking.foldl (fun u m => u.endRun m .preempted) s
            ∧ LowestIdle t n ∧ s.tryStart r = t.startRun n r b mask limit))

/-- R50: a request starts on a lane. -/
def RunStarts : Prop :=
  ∀ (s : State) (n : LaneNo) (r : Request) (b : Block) (mask : BitVec 12) (limit : Nat),
    let word := s.store.mem.readSlot b.first
    let due := s.now + micros ((word.extractLsb' 40 16).toNat * 1000)
    ∃ (t : State) (run : Run), s.startRun n r b mask limit =
        t.notice (.showStarted n r.id r.showNo r.priority r.source s.cal.time.dateTime)
      ∧ t = { s with
          lanes := tset s.lanes n { s.lane n with run := some run }
          sched := { s.sched with
            queue := s.sched.queue.filter fun x => x.id != r.id
            startSeq := s.sched.startSeq + 1
            claims := t.sched.claims } }
      ∧ (∀ a : AxisNo, t.claim a = if mask.getLsbD a.val = true then some (.lane n) else s.claim a)
      ∧ run.id = r.id ∧ run.showNo = r.showNo ∧ run.priority = r.priority ∧ run.source = r.source
      ∧ run.startSeq = s.sched.startSeq ∧ run.cursor = b.first ∧ run.returnPoint = none ∧ run.due = due
      ∧ run.counter = 0 ∧ run.lastWait = .ok ∧ run.elapsed = ⟨0, 0⟩ ∧ run.limit = limit
      ∧ run.record = ⟨r.showNo, r.id, r.source, s.cal.time.dateTime, s.cal.timeValid, none,
          0, 0, 0, 0, 0, 0, 0, 0, 0, 0, 0, 0, 0⟩
      ∧ run.phase = .running ∧ run.executing = ⟨r.showNo, false, b.first, b.count⟩ ∧ run.base = s.now
      ∧ run.timer = some (if word.extractLsb' 60 4 = 1 then due - 250000 else due) ∧ run.zeroCount = 0

/-- R51, R52, R53, R75: a run ends with an outcome, drains to COMPLETE, or reaches its run limit. The settle events of the
stops an end makes reach nobody (log 32), and a lane owns a strike in flight by its number, whichever run gave it (log 14). -/
def RunsEnd : Prop :=
  (∀ (s : State) (n : LaneNo) (r : Run) (outcome : RunOutcome), (s.lane n).run = some r →
    let record := { r.record with outcome := some outcome }
    let t := s.endRun n outcome
    t.lane n = ⟨none, some record⟩ ∧ (∀ m, m ≠ n → t.lane m = s.lane m)
      ∧ t.strikes = { s.strikes with queue := s.strikes.queue.filter fun k => k.owner != .lane n }
      ∧ (∀ a, t.claim a = if s.claim a = some (.lane n) then none else s.claim a)
      ∧ (∀ a, t.axis a = if s.claim a = some (.lane n) ∧ (s.axis a).mode.commanded = true
            ∧ outcome ≠ .interlock ∧ outcome ≠ .mode then ((s.axis a).stop (s.axis a).dv).1 else s.axis a)
      ∧ (∀ k, tget t.sched.inputs k =
          if r.source = .key k ∧ (tget s.sched.inputs k).held = some r.id then
            { tget s.sched.inputs k with held := none }
          else tget s.sched.inputs k)
      ∧ t.port = (s.notice (.showEnded n record)).port
      ∧ t = { s with
          lanes := t.lanes, strikes := t.strikes, port := t.port
          motion := { s.motion with axes := t.motion.axes }
          verifier := { s.verifier with disturbed := t.verifier.disturbed }
          sched := { s.sched with claims := t.sched.claims, inputs := t.sched.inputs } })
  ∧ (∀ (s : State) (n : LaneNo) (r : Run), (s.lane n).run = some r →
      let owns := (∃ k ∈ s.strikes.queue, k.owner = .lane n) ∨ ∃ b f, (s.bell b).inFlight = some f ∧ f.owner = .lane n
      (r.phase ≠ .draining ∨ owns → s.drainCheck n = s)
      ∧ (r.phase = .draining → ¬owns → s.drainCheck n =
          ((({ s with lanes := tset s.lanes n ⟨none, some { r.record with outcome := some .complete }⟩ }.notice
            (.showEnded n { r.record with outcome := some .complete })).releaseKey r.source r.id).walk)))
  ∧ (∀ (s : State) (n : LaneNo),
      ((∀ r, (s.lane n).run = some r → r.elapsed.ms < r.limit * 1000) → exec (.runLimitExpiry n) s = .next s)
      ∧ (∀ r, (s.lane n).run = some r → r.limit * 1000 ≤ r.elapsed.ms →
          exec (.runLimitExpiry n) s = .next (s.endRun n .runLimit).walk))

/-- R50 … R53, R75: a run starts, and a run ends (log 14, 32). -/
def Obligations.RunsStartAndEnd : Prop := RunStarts ∧ RunsEnd

/-! ## The lanes -/

/-- The step at a run's cursor, its delta in ms, its due instant and its ready instant (R59, R60). -/
def NextStep (s : State) (r : Run) : Step := decodeStep (s.store.mem.readSlot r.cursor)
def NextDelta (s : State) (r : Run) : Nat := ((s.store.mem.readSlot r.cursor).extractLsb' 40 16).toNat
def NextDue (s : State) (r : Run) : Instant := r.base + micros (NextDelta s r * 1000)
def NextReady (s : State) (r : Run) : Instant :=
  if (s.store.mem.readSlot r.cursor).extractLsb' 60 4 = 1 then NextDue s r - 250000 else NextDue s r

/-- R60, R73: a lane's timer expiry. A step that is not ready sets the timer; the 64th step of delta 0 in a row ends the
run; any other ready step is taken, and the lane goes on where the step lets it. The count of 32,768 steps at one instant is
the model's own bound, its choice (log 37). -/
def LaneTimers : Prop :=
  (∀ (s : State) (n : LaneNo),
    ((∀ r t, (s.lane n).run = some r → r.phase = .running → r.timer = some t → before s.now t = true) →
      exec (.laneTimerExpiry n) s = .next s)
    ∧ (∀ r t, (s.lane n).run = some r → r.phase = .running → r.timer = some t → before s.now t = false →
      exec (.laneTimerExpiry n) s = .next (s.runSteps n)))
  ∧ (∀ (s : State) (n : LaneNo), s.runSteps n = s.stepTimes n 32768)
  ∧ (∀ (s : State) (n : LaneNo) (r : Run) (more : Nat), (s.lane n).run = some r → r.phase = .running →
      (before s.now (NextReady s r) = true → s.stepTimes n (more + 1) =
        s.setRun n { r with due := NextDue s r, timer := some (NextReady s r) })
      ∧ (before s.now (NextReady s r) = false → NextDelta s r = 0 → 63 ≤ r.zeroCount →
          s.stepTimes n (more + 1) = (s.endRun n .badStep).walk)
      ∧ (before s.now (NextReady s r) = false → ¬(NextDelta s r = 0 ∧ 63 ≤ r.zeroCount) →
          let r' := { r with
            due := NextDue s r, base := NextDue s r
            zeroCount := if NextDelta s r = 0 then r.zeroCount + 1 else 0 }
          let t := s.takeStep n r' (NextStep s r) (NextDue s r)
          s.stepTimes n (more + 1) = if t.2 = true then t.1.stepTimes n more else t.1))

/-- R64, R65: the wait deadline, and a settle event or fault reaching a waiting lane. -/
def LaneWaits : Prop :=
  (∀ (s : State) (n : LaneNo),
    ((∀ r set deadline, (s.lane n).run = some r → r.phase = .waiting set deadline → before s.now deadline = true) →
      exec (.waitDeadlineExpiry n) s = .next s)
    ∧ (∀ r set deadline, (s.lane n).run = some r → r.phase = .waiting set deadline → before s.now deadline = false →
      exec (.waitDeadlineExpiry n) s = .next ((s.setRun n { r with
        lastWait := .timeout, base := s.now, phase := .running, cursor := r.cursor + 1, timer := some s.now
        record := { r.record with waitsTimedOut := satInc r.record.waitsTimedOut } }).runSteps n)))
  ∧ (∀ n, n < 65535 → satInc n = n + 1) ∧ satInc 65535 = 65535
  ∧ (∀ (s : State) (n : LaneNo) (a : AxisNo) (r : Run) (set : BitVec 12) (deadline : Instant),
      (s.lane n).run = some r → r.phase = .waiting set deadline →
      let rested := ∀ x : AxisNo, set.getLsbD x.val = true → (s.axis x).mode.moving = false
      (set.getLsbD a.val = false ∨ ¬rested → s.waitReview a n = s)
      ∧ (set.getLsbD a.val = true → rested → ∃ result,
          (result = .faulted ↔ ∃ x c, set.getLsbD (x : AxisNo).val = true ∧ (s.axis x).mode = .fault c)
          ∧ (result ≠ .faulted → result = .ok)
          ∧ s.waitReview a n = (s.setRun n { r with
              lastWait := result, base := s.now, phase := .running, cursor := r.cursor + 1
              timer := some s.now }).runSteps n))

/-- R60, R64, R65, R73: what takes a lane on (log 37). -/
def Obligations.LanesStep : Prop := LaneTimers ∧ LaneWaits

/-- A BRANCH condition holds (R69), the counter being already decremented. -/
def Holds (s : State) (r : Run) (counter : Nat) (argument : Half) : Condition → Prop
  | .flag => s.sched.flags.getLsbD argument.toNat = true
  | .programme => s.cal.active.val = argument.toNat
  | .quiet => s.cal.quiet = true
  | .settled => ∀ a : AxisNo, argument.getLsbD a.val = true → (s.axis a).mode = .hold
  | .axisFault => ∃ (a : AxisNo) (c : AxisFaultCause), a.val = argument.toNat ∧ (s.axis a).mode = .fault c
  | .bellOk => ∃ b : BellNo, b.val = argument.toNat ∧ ∀ c, (s.bell b).state ≠ .disabled c
  | .waitTimeout => r.lastWait = .timeout
  | .rehearsal => s.mode = .rehearse
  | .hour => s.cal.time.hour = argument.toNat
  | .count => counter ≠ 0

/-- R61 … R72, R56: what a lane does when it takes each kind of step; and SET_FLAGS. At an END that completes at once the
queue is walked one single time, after the release of the claims and IDLE (log 13). -/
def Obligations.StepsTaken : Prop :=
  (∀ (s : State) (n : LaneNo) (r : Run) (due : Instant),
    (∀ (b : BellNo) velocity, s.takeStep n r (.strike b.val velocity) due =
      ((s.setRun n { r with cursor := r.cursor + 1, record := { r.record with taken := satInc r.record.taken } }).laneStrike
        n b velocity due, true))
    ∧ (∀ axis form m step, axisStep step = some (axis.val, form, some m) → s.claim axis = some (.lane n) →
        (s.axis axis).mode.enabled = true → (s.axis axis).fitsForm form = true →
        (∀ t limited settled, s.commandAxis axis m = some (t, limited, settled) →
          s.takeStep n r step due = (t.setRun n { r with
            cursor := r.cursor + 1
            record := if limited then { r.record with targetsLimited := satInc r.record.targetsLimited }
              else r.record }, true)))
    ∧ (∀ axis form m step, axisStep step = some (axis.val, form, m) →
        (s.claim axis ≠ some (.lane n) ∨ (s.axis axis).mode.enabled = false ∨ (s.axis axis).fitsForm form = false
          ∨ m = none ∨ ∃ c, m = some c ∧ s.commandAxis axis c = none) →
        s.takeStep n r step due = (s.setRun n { r with
          cursor := r.cursor + 1, record := { r.record with axisSkipped := satInc r.record.axisSkipped } }, true))
    ∧ (∀ mask timeout, ∃ set : BitVec 12,
        (∀ a : AxisNo, set.getLsbD a.val = true ↔ mask.getLsbD a.val = true ∧ s.claim a = some (.lane n))
        ∧ ((∃ a : AxisNo, set.getLsbD a.val = true ∧ (s.axis a).mode.moving = true) →
            s.takeStep n r (.waitAxis mask timeout) due = (s.setRun n { r with
              phase := .waiting set (due + micros (timeout * 1000)), timer := none, zeroCount := 0 }, false))
        ∧ ((∀ a : AxisNo, set.getLsbD a.val = true → (s.axis a).mode.moving = false) →
            ((∃ (a : AxisNo) (c : AxisFaultCause), set.getLsbD a.val = true ∧ (s.axis a).mode = .fault c) →
              s.takeStep n r (.waitAxis mask timeout) due = (s.setRun n { r with
                lastWait := .faulted, base := due, phase := .running, cursor := r.cursor + 1 }, true))
            ∧ ((∀ (a : AxisNo) (c : AxisFaultCause), set.getLsbD a.val = true → (s.axis a).mode ≠ .fault c) →
              s.takeStep n r (.waitAxis mask timeout) due = (s.setRun n { r with
                lastWait := .ok, base := due, phase := .running, cursor := r.cursor + 1 }, true))))
    ∧ (∀ (flag : Fin 8) value, ∃ flags : BitVec 8,
        s.takeStep n r (.setFlag flag.val value) due =
          ({ s.setRun n { r with cursor := r.cursor + 1 } with sched := { s.sched with flags := flags } }, true)
        ∧ ∀ i : Fin 8, flags.getLsbD i.val = if i = flag then decide (value ≠ 0) else s.sched.flags.getLsbD i.val)
    ∧ (∀ source value counter,
        (source = 0 ∧ counter = value) ∨ (source = 2 ∧ counter = s.cal.time.hour)
          ∨ (source = 3 ∧ counter = s.cal.time.minute)
          ∨ (source = 1 ∧ counter = if s.cal.time.hour % 12 = 0 then 12 else s.cal.time.hour % 12) →
        s.takeStep n r (.countSet source value) due =
          (s.setRun n { r with cursor := r.cursor + 1, counter := counter }, true))
    ∧ (∀ sense code condition argument target, conditionOf code = some condition →
        let counter := if condition = .count then r.counter - 1 else r.counter
        let goes := (sense = 0 ∧ Holds s r counter argument condition) ∨ (sense ≠ 0 ∧ ¬Holds s r counter argument condition)
        (goes → s.takeStep n r (.branch sense code argument target) due =
          (s.setRun n { r with counter := counter, cursor := r.executing.first + target }, true))
        ∧ (¬goes → s.takeStep n r (.branch sense code argument target) due =
          (s.setRun n { r with counter := counter, cursor := r.cursor + 1 }, true)))
    ∧ (∀ entry, (∀ b, s.store.phrase entry = some b → s.takeStep n r (.call entry) due =
          (s.setRun n { r with
            returnPoint := some (r.cursor + 1), executing := ⟨entry, true, b.first, b.count⟩, cursor := b.first }, true))
        ∧ (s.store.phrase entry = none → s.takeStep n r (.call entry) due =
          (((s.setRun n r).endRun n .noPhrase).walk, false)))
    ∧ (∀ back, r.returnPoint = some back → s.takeStep n r .returnStep due =
        (s.setRun n { r with cursor := back, executing := r.shown, returnPoint := none }, true))
    ∧ s.takeStep n r .endStep due =
        (let u := (s.releaseClaims (.lane n)).setRun n { r with phase := .draining, timer := none }
         (if u.ownsStrike n then u else u.finalise n { r with phase := .draining, timer := none } .complete).walk, false))
  ∧ (∀ (s : State) (o : Owner) (a : AxisNo), (s.releaseClaims o).claim a = if s.claim a = some o then none else s.claim a)
  ∧ (∀ (s : State) (tag flags : Byte), s.takes = true →
      exec (.setFlags tag flags) s =
        .next ({ s with sched := { s.sched with flags := flags } }.reply tag 0x22 .ok))

/-! ## Strikes -/

/-- R77 … R81: effective velocity, suppression, loudness, pulse width and flight time, and their ranges. -/
def Obligations.StrikeValues : Prop :=
  ∀ (u : StrikeUnit) (level : Nat) (b : Bell) (v : Nat),
    let ve := (v * (level * u.master) * 16 + 5000) / 10000
    (ve < 16 → u.compute level b v = none)
    ∧ (16 ≤ ve → ∃ c, u.compute level b v = some c
        ∧ (∀ i j : Fin 17, i.val = ve / 128 → j.val = i.val + 1 →
            c.pulse = b.pmin + ((b.pmax - b.pmin)
              * (tget u.curve i + ((tget u.curve j - tget u.curve i) * (ve % 128) + 64) / 128) + 2048) / 4096)
        ∧ c.flight = max 1000 (min 100000 (b.k * 16 / ve))
        ∧ (c.clipped = true ↔ b.k * 16 / ve < 1000 ∨ 100000 < b.k * 16 / ve)
        ∧ 1000 ≤ c.flight ∧ c.flight ≤ 100000
        ∧ (ve < 2048 → b.pmin ≤ b.pmax → (∀ i, tget u.curve i ≤ 4096) →
            (∀ i j, i ≤ j → tget u.curve i ≤ tget u.curve j) → b.pmin ≤ c.pulse ∧ c.pulse ≤ b.pmax))
    ∧ (level ≤ 100 → u.master ≤ 100 → v ≤ 127 → ve ≤ 2032)

/-- The entry guard of a bell holds a due instant back (R92 step 1). -/
def Guards (b : Bell) (due g : Instant) : Prop :=
  b.guardRunning = true ∧ b.guardInstant = some g ∧ before due g = true

/-- What follows a merge at once: an absorbing strike that is HELD_GUARD with a wait instant not after now is examined
(R93). The wait is the one formed with the T it now holds (StrikesMerge). -/
def MergeSettled (m : Strike) (u : State) : State :=
  match m.fire with
  | .heldGuard wait => if before u.now wait = true then u else u.examine m
  | _ => u

/-- R85, R82, R92, R93: STRIKE, in the order it is examined, and the entry of its strike. The reply of a merge shows the
absorbing strike as merged, before it is examined again (log 17). -/
def StrikeRequested : Prop :=
  ∀ (s : State) (tag bell velocity : Byte) (delay : Half), s.takes = true →
    let good := bell.toNat ≤ 31 ∧ 1 ≤ velocity.toNat ∧ velocity.toNat ≤ 127 ∧ delay.toNat ≤ 60000
    let answer := exec (.strike tag bell velocity delay) s
    (¬good → answer = .next (s.reply tag 0x28 .badArg))
    ∧ (good → s.mode = .safe → answer = .next (s.reply tag 0x28 .mode))
    ∧ (good → s.mode = .live → s.output.isOpen = true → answer = .next (s.reply tag 0x28 .interlock))
    ∧ ∀ b : BellNo, bell.toNat = b.val → good → s.mode ≠ .safe → ¬(s.mode = .live ∧ s.output.isOpen = true) →
      ((s.bell b).isDisabled = true → answer = .next (s.reply tag 0x28 .disabled))
      ∧ ((s.bell b).isDisabled = false →
        (s.strikes.compute s.cal.level (s.bell b) velocity.toNat = none → answer = .next (s.reply tag 0x28 .ok [3]))
        ∧ ∀ c, s.strikes.compute s.cal.level (s.bell b) velocity.toNat = some c →
          let due := s.now + micros (max (delay.toNat * 1000) c.flight)
          let k : Strike := ⟨b, velocity.toNat, .link, due, c.flight, c.pulse, due - micros c.flight, false, c.clipped,
            false, .scheduled, s.strikes.orderCount⟩
          (∀ g, Guards (s.bell b) due g → answer = .next (s.reply tag 0x28 .ok (2 :: four g)))
          ∧ ((∀ g, ¬Guards (s.bell b) due g) →
            (∀ x, s.strikes.absorber b due = some x →
              let m := mergedWith s.strikes s.cal.level s.now x velocity.toNat
              answer = .next (MergeSettled m (((s.setQueue (replaceStrike m s.strikes.queue)).countIfLate m.owner
                (m.late && !(s.strikes.queue.any fun y => y.order == m.order && y.late))).reply
                  tag 0x28 .ok (1 :: m.replyBytes))))
            ∧ (s.strikes.absorber b due = none → 64 ≤ s.strikes.queue.length →
                answer = .next (s.reply tag 0x28 .full))
            ∧ (s.strikes.absorber b due = none → s.strikes.queue.length < 64 →
                answer = .next ({ s with strikes := { s.strikes with
                  queue := insertStrike k s.strikes.queue, orderCount := s.strikes.orderCount + 1 } }.reply
                    tag 0x28 .ok (0 :: k.replyBytes)))))

/-- R86, R92, R93: which queued strike absorbs (of two at one distance the one with the earlier D), and what it becomes: the
candidate applied or not, its fire state (SCHEDULED again where its new F is after now), the wait of a HELD_GUARD one. -/
def StrikesMerge : Prop :=
  (∀ (u : StrikeUnit) (b : BellNo) (due : Instant),
    (u.absorber b due = none ↔
      ∀ x ∈ u.queue, x.bell = b → (tget u.bells b).guardMs * 1000 ≤ distance x.due due)
    ∧ (∀ x, u.absorber b due = some x →
        x ∈ u.queue ∧ x.bell = b ∧ distance x.due due < (tget u.bells b).guardMs * 1000
          ∧ (∀ y ∈ u.queue, y.bell = b → distance x.due due ≤ distance y.due due)
          ∧ ∀ y ∈ u.queue, y.bell = b → distance y.due due = distance x.due due → before y.due x.due = false))
  ∧ (∀ (u : StrikeUnit) (level : Nat) (now : Instant) (k : Strike) (v : Nat),
      let b := tget u.bells k.bell
      let m := mergedWith u level now k v
      let regarded := fun f : FireState => match f, b.guardInstant with
        | .heldGuard _, some g => .heldGuard (g - micros m.flight)
        | _, _ => f
      m.merged = true ∧ m.bell = k.bell ∧ m.owner = k.owner ∧ m.due = k.due ∧ m.order = k.order
        ∧ (v ≤ k.velocity ∨ u.compute level b v = none →
            m.velocity = k.velocity ∧ m.flight = k.flight ∧ m.pulse = k.pulse ∧ m.clipped = k.clipped
              ∧ m.fireAt = k.fireAt ∧ m.late = k.late ∧ m.fire = regarded k.fire)
        ∧ (∀ c, k.velocity < v → u.compute level b v = some c →
            let f := k.due - micros c.flight
            let late := if before f now = true then (now - f).toNat else 0
            (u.tau < late → m.velocity = k.velocity ∧ m.flight = k.flight ∧ m.pulse = k.pulse
              ∧ m.clipped = k.clipped ∧ m.fireAt = k.fireAt ∧ m.late = k.late ∧ m.fire = regarded k.fire)
            ∧ (late ≤ u.tau → m.velocity = v ∧ m.flight = c.flight ∧ m.pulse = c.pulse ∧ m.clipped = c.clipped
              ∧ (late = 0 → m.fireAt = f ∧ m.late = k.late)
              ∧ (0 < late → m.fireAt = now ∧ m.late = true)
              ∧ m.fire = if before now m.fireAt = true then .scheduled else regarded k.fire)))

/-- R84: a strike from a lane, by what becomes of it. -/
def LaneStrikes : Prop :=
  ∀ (s : State) (n : LaneNo) (b : BellNo) (v : Nat) (due : Instant) (r : Run), (s.lane n).run = some r →
    ((s.bell b).isDisabled = true → s.laneStrike n b v due =
      s.setRun n { r with record := { r.record with droppedDisabled := satInc r.record.droppedDisabled } })
    ∧ ((s.bell b).isDisabled = false → s.strikes.compute s.cal.level (s.bell b) v = none → s.laneStrike n b v due =
      s.setRun n { r with record := { r.record with suppressed := satInc r.record.suppressed } })
    ∧ (∀ c, (s.bell b).isDisabled = false → s.strikes.compute s.cal.level (s.bell b) v = some c →
      let f := due - micros c.flight
      let late := if before f s.now = true then (s.now - f).toNat else 0
      (s.strikes.tau < late → s.laneStrike n b v due =
        s.setRun n { r with record := { r.record with droppedLate := satInc r.record.droppedLate } })
      ∧ (late ≤ s.strikes.tau → ∀ g, Guards (s.bell b) due g → s.laneStrike n b v due =
        s.setRun n { r with record := { r.record with droppedGuard := satInc r.record.droppedGuard } })
      ∧ (∀ x, late ≤ s.strikes.tau → (∀ g, ¬Guards (s.bell b) due g) → s.strikes.absorber b due = some x →
        let m := mergedWith s.strikes s.cal.level s.now x v
        s.laneStrike n b v due = MergeSettled m (((s.setQueue (replaceStrike m s.strikes.queue)).countIfLate m.owner
          (m.late && !(s.strikes.queue.any fun y => y.order == m.order && y.late))).countFor (.lane n)
            fun r => { r with merged := satInc r.merged }))
      ∧ (late ≤ s.strikes.tau → (∀ g, ¬Guards (s.bell b) due g) → s.strikes.absorber b due = none →
        (64 ≤ s.strikes.queue.length → s.laneStrike n b v due =
          s.setRun n { r with record := { r.record with droppedFull := satInc r.record.droppedFull } })
        ∧ (s.strikes.queue.length < 64 → late = 0 → s.laneStrike n b v due =
          { s with strikes := { s.strikes with
            orderCount := s.strikes.orderCount + 1
            queue := insertStrike ⟨b, v, .lane n, due, c.flight, c.pulse, f, false, c.clipped, false, .scheduled,
              s.strikes.orderCount⟩ s.strikes.queue } })
        ∧ (s.strikes.queue.length < 64 → 0 < late → s.laneStrike n b v due =
          { s with strikes := { s.strikes with
            orderCount := s.strikes.orderCount + 1
            queue := insertStrike ⟨b, v, .lane n, due, c.flight, c.pulse, s.now, true, c.clipped, false, .scheduled,
              s.strikes.orderCount⟩ s.strikes.queue } }.setRun n
                { r with record := { r.record with late := satInc r.record.late } })))

/-- R54: a count for the owner of a strike is kept in the record of that lane's run; for LINK, and for a lane without a run,
there is none. -/
def OwnersCounted : Prop :=
  ∀ (s : State) (o : Owner) (f : RunRecord → RunRecord),
    (∀ n r, o = .lane n → (s.lane n).run = some r → s.countFor o f = s.setRun n { r with record := f r.record })
    ∧ ((∀ n r, o = .lane n → (s.lane n).run ≠ some r) → s.countFor o f = s)

/-- R54, R82 … R86, R92, R93: strikes from messages and lanes enter the queue, merge or are dropped (log 17). -/
def Obligations.StrikesEnterQueue : Prop := StrikeRequested ∧ StrikesMerge ∧ LaneStrikes ∧ OwnersCounted

/-- R95 … R98: a strike examined at fire is held for its bell, its guard or the supply, dropped as late, or fires; when a
strike fires, its bell is FIRING, its output high in LIVE alone. -/
def StrikesFire : Prop :=
  (∀ (s : State) (k : Strike),
    let b := s.bell k.bell
    let hold := fun f => s.setQueue (updateStrike { k with fire := f } s.strikes.queue)
    (b.state ≠ .ready → s.examine k = hold .heldBell)
    ∧ (∀ g, b.state = .ready → Guards b (s.now + micros k.flight) g →
        s.examine k = hold (.heldGuard (g - micros k.flight)))
    ∧ (b.state = .ready → (∀ g, ¬Guards b (s.now + micros k.flight) g) →
        let late := if before (k.due - micros k.flight) s.now = true
          then (s.now - (k.due - micros k.flight)).toNat else 0
        (s.strikes.emax ≤ s.strikes.firing →
          s.examine k = (hold .heldSupply).latch fun l => { l with supplyDeferred := true })
        ∧ (s.strikes.firing < s.strikes.emax → s.strikes.tau < late →
          s.examine k = ((s.setQueue (s.strikes.queue.filter fun x => x.order != k.order)).countFor k.owner
            fun r => { r with droppedLate := satInc r.droppedLate }).finished k.owner)
        ∧ (s.strikes.firing < s.strikes.emax → late ≤ s.strikes.tau →
          s.examine k = (s.fire k).countIfLate k.owner (decide (0 < late) && !k.late))))
  ∧ (∀ (s : State) (k : Strike),
      let impact := s.now + micros k.flight
      let x := s.bell k.bell
      let t := s.fire k
      t.strikes.queue = s.strikes.queue.filter (fun x => x.order != k.order)
        ∧ t.bell k.bell = { x with
            state := .firing
            inFlight := some ⟨k.owner, k.velocity, k.due, k.flight, k.pulse, s.now, impact,
              s.now + micros (k.flight / 2), impact + micros (x.windowMs * 1000), .pending⟩
            confirmedEnd := none, lastImpact := some impact
            guardInstant := some (impact + micros (x.guardMs * 1000)), guardRunning := true }
        ∧ (∀ c, c ≠ k.bell → t.bell c = s.bell c)
        ∧ (∀ c : BellNo, t.energised c = if c = k.bell then s.energised c || s.mode == .live else s.energised c)
        ∧ (∀ n r, k.owner = .lane n → (s.lane n).run = some r →
            (t.lane n).run = some { r with record := { r.record with fired := satInc r.record.fired } })
        ∧ t = { s with
            lanes := t.lanes
            strikes := { s.strikes with bells := t.strikes.bells, queue := t.strikes.queue, hammers := t.strikes.hammers } })
  ∧ (∀ s : State,
      ((∀ k ∈ s.strikes.queue, k.fire = .scheduled → before s.now k.fireAt = true) →
        exec .fireInstantArrival s = .next s)
      ∧ (∀ front k back, s.strikes.queue = front ++ k :: back → k.fire = .scheduled → before s.now k.fireAt = false →
          (∀ j ∈ front, j.fire = .scheduled → before s.now j.fireAt = true) →
          exec .fireInstantArrival s = .next (s.examine k)))
  ∧ (∀ (s : State) (order : Nat),
      ((∀ k ∈ s.strikes.queue, k.order = order → ∀ w, k.fire = .heldGuard w → before s.now w = true) →
        exec (.heldGuardWaitExpiry order) s = .next s)
      ∧ (∀ front k back w, s.strikes.queue = front ++ k :: back → k.order = order → k.fire = .heldGuard w →
          before s.now w = false → (∀ j ∈ front, j.order ≠ order) →
          exec (.heldGuardWaitExpiry order) s = .next (s.examine k)))

/-- R96: the supply arbiter serves its waiting set, earliest original fire instant first, while a place is free. Of a set
whose original fire instants lie within 70 s of each other (R1) the first is served before every other. -/
def SupplyServed : Prop :=
  (∀ s : State, s.serve = s.serveTimes s.strikes.queue.length)
  ∧ (∀ (s : State) (times : Nat), s.strikes.emax ≤ s.strikes.firing → s.serveTimes times = s)
  ∧ (∀ (s : State) (times : Nat), (∀ k ∈ s.strikes.queue, k.fire ≠ .heldSupply) → s.serveTimes times = s)
  ∧ (∀ (s : State) (times : Nat) (k : Strike), s.strikes.firing < s.strikes.emax → s.strikes.firstWaiting = some k →
      s.serveTimes (times + 1) = (s.examine k).serveTimes times)
  ∧ (∀ (u : StrikeUnit) (k : Strike), u.firstWaiting = some k →
      k ∈ u.queue ∧ k.fire = .heldSupply)
  ∧ (∀ u : StrikeUnit, (∃ k ∈ u.queue, k.fire = .heldSupply) → u.firstWaiting ≠ none)
  ∧ (∀ (u : StrikeUnit) (j k : Strike), u.queue.filter (fun x => x.fire == .heldSupply) = [j, k] →
      u.firstWaiting = if k.servedBefore j then some k else some j)
  ∧ (∀ (u : StrikeUnit) (k : Strike), u.firstWaiting = some k →
      (∀ x ∈ u.queue, ∀ y ∈ u.queue, x.fire = .heldSupply → y.fire = .heldSupply →
        distance (x.due - micros x.flight) (y.due - micros y.flight) ≤ 70000000) →
      ∀ j ∈ u.queue, j.fire = .heldSupply → j.servedBefore k = false)
  ∧ (∀ a b : Strike, a.servedBefore b = true ↔ before (a.due - micros a.flight) (b.due - micros b.flight) = true
      ∨ (a.due - micros a.flight = b.due - micros b.flight
        ∧ (a.bell < b.bell ∨ (a.bell = b.bell ∧ a.order < b.order))))

/-- R95 … R98: strikes at fire, and the supply arbiter. -/
def Obligations.StrikesFired : Prop := StrikesFire ∧ SupplyServed

/-- A bell becomes READY with its strike in flight finished: the finish is reported, its HELD_BELL strikes examined. -/
def BecomesReady (s : State) (b : BellNo) (x : Bell) (f : InFlight) : State :=
  ((s.setBell b { x with state := .ready, inFlight := none }).finished f.owner).releaseHeld b

/-- R94, R99: the guard's end and the pulse's end. -/
def GuardAndPulseEnd : Prop :=
  (∀ (s : State) (b : BellNo),
    ((s.bell b).guardRunning = false ∨ (∃ g, (s.bell b).guardInstant = some g ∧ before s.now g = true) →
      exec (.guardInstantExpiry b) s = .next s)
    ∧ (∀ g, (s.bell b).guardRunning = true → (s.bell b).guardInstant = some g → before s.now g = false →
      exec (.guardInstantExpiry b) s = .next (s.setBell b { s.bell b with guardRunning := false })))
  ∧ (∀ (s : State) (b : BellNo),
      ((s.bell b).state ≠ .firing → exec (.pulseEnd b) s = .next s)
      ∧ (∀ f, (s.bell b).state = .firing → (s.bell b).inFlight = some f →
          let low := { s with strikes := { s.strikes with hammers := s.strikes.hammers &&& ~~~(1#32 <<< b.val) } }
          (before s.now (f.firedAt + micros f.pulse) = true → exec (.pulseEnd b) s = .next s)
          ∧ (before s.now (f.firedAt + micros f.pulse) = false → f.window = .pending →
              exec (.pulseEnd b) s = .next (low.setBell b { s.bell b with state := .flight }).serve)
          ∧ (before s.now (f.firedAt + micros f.pulse) = false → f.window ≠ .pending →
              exec (.pulseEnd b) s = .next ((((low.setBell b { s.bell b with
                state := .ready, inFlight := none }).finished f.owner).serve).releaseHeld b))))

/-- An open window of a strike in flight (R100). -/
def WindowOpen (s : State) (f : InFlight) : Prop :=
  f.window = .pending ∧ before s.now f.windowStart = false ∧ before f.windowEnd s.now = false

/-- R100, R102, R103: a rising edge on a SENSE input. A confirmed window end absorbs no edge on a DISABLED bell (R102); it
stands while the bell is DISABLED (log 40). -/
def SenseEdges : Prop :=
  ∀ (s : State) (b : BellNo),
    (s.mode = .rehearse → exec (.senseEdge b) s = .next s)
    ∧ (∀ f, s.mode ≠ .rehearse → (s.bell b).inFlight = some f → WindowOpen s f →
        let x := { s.bell b with
          streak := if s.mode = .live then 0 else (s.bell b).streak, confirmedEnd := some f.windowEnd }
        (x.state = .flight → exec (.senseEdge b) s = .next (BecomesReady s b x f))
        ∧ (x.state ≠ .flight → exec (.senseEdge b) s =
            .next (s.setBell b { x with inFlight := some { f with window := .confirmed } })))
    ∧ (s.mode ≠ .rehearse → (∀ f, (s.bell b).inFlight = some f → ¬WindowOpen s f) →
        ((s.bell b).isDisabled = false → (∃ t, (s.bell b).confirmedEnd = some t ∧ before t s.now = false) →
          exec (.senseEdge b) s = .next s)
        ∧ ((s.bell b).isDisabled = true ∨ (∀ t, (s.bell b).confirmedEnd = some t → before t s.now = true) →
            (s.mode = .listen → exec (.senseEdge b) s =
              .next ((s.latchBell b fun l => { l with shadowExtra := true }).notice (.shadowExtra b)))
            ∧ (s.mode ≠ .listen → exec (.senseEdge b) s =
              .next ((s.latchBell b fun l => { l with stray := true }).notice (.stray b s.now)))))

/-- R101, R103: a window end without confirmation, in LIVE and in LISTEN. The order of what a disabling by misses does is
log 33, with the lanes it ends in the order of log 52, and the bell READY before its finish is reported log 34. That the
SHADOW notice of LISTEN enters before the bell leaves its window is log 53. -/
def WindowsEnd : Prop :=
  ∀ (s : State) (b : BellNo) (f : InFlight), (s.bell b).inFlight = some f →
    let ended := fun (u : State) (x : Bell) => if x.state = .flight then BecomesReady u b x f
      else u.setBell b { x with inFlight := some { f with window := .ended } }
    let x := s.bell b
    (f.window ≠ .pending ∨ before s.now f.windowEnd = true ∨ s.mode = .safe ∨ s.mode = .rehearse →
      exec (.impactWindowEnd b) s = .next s)
    ∧ (f.window = .pending → before s.now f.windowEnd = false → s.mode = .listen →
        exec (.impactWindowEnd b) s = .next
          (ended ((s.latchBell b fun l => { l with shadowMiss := true }).notice (.shadowMiss b)) x))
    ∧ (f.window = .pending → before s.now f.windowEnd = false → s.mode = .live →
        let streak := min 7 (x.streak + 1)
        let y := { x with streak := streak }
        let told := ((s.setBell b y).latchBell b fun l => { l with miss := true }).notice
          (.bellMiss b streak f.owner f.due f.impact)
        (x.missLimit = 0 ∨ streak < x.missLimit → exec (.impactWindowEnd b) s = .next (ended told y))
        ∧ (x.missLimit ≠ 0 → x.missLimit ≤ streak → exec (.impactWindowEnd b) s = .next
            (((told.disableBell b .misses).notice (.bellDisabled b .misses streak)).afterDisable (x.state == .firing))))

/-- R100, R103: a confirmed window end passes; in REHEARSE a strike is deemed confirmed at its expected impact. -/
def WindowsPass : Prop :=
  (∀ (s : State) (b : BellNo),
    ((∀ t, (s.bell b).confirmedEnd = some t → before t s.now = false) →
      exec (.confirmedWindowEndPasses b) s = .next s)
    ∧ (∀ t, (s.bell b).confirmedEnd = some t → before t s.now = true →
      exec (.confirmedWindowEndPasses b) s = .next (s.setBell b { s.bell b with confirmedEnd := none })))
  ∧ (∀ (s : State) (b : BellNo),
      (s.mode ≠ .rehearse → exec (.deemedImpact b) s = .next s)
      ∧ (∀ f, s.mode = .rehearse → (s.bell b).inFlight = some f →
          (f.window ≠ .pending ∨ before s.now f.impact = true → exec (.deemedImpact b) s = .next s)
          ∧ (f.window = .pending → before s.now f.impact = false →
              ((s.bell b).state = .flight → exec (.deemedImpact b) s = .next (BecomesReady s b (s.bell b) f))
              ∧ ((s.bell b).state ≠ .flight → exec (.deemedImpact b) s = .next (s.setBell b { s.bell b with
                  inFlight := some { f with window := .confirmed } })))))

/-- R94, R99 … R103: the events of a bell from its pulse to its guard instant (log 33, 34, 40, 52,
53). -/
def Obligations.BellsAfterFiring : Prop := GuardAndPulseEnd ∧ SenseEdges ∧ WindowsEnd ∧ WindowsPass

/-- R88, R104, R105: SET_BELL and BELL_ENABLE; what disabling a bell does. That an on byte other than 0 and 1 is refused is
log 27 (R157), the order of what follows a disabling log 33, the ascending order of the lanes that end by it log 52, and that
a confirmed window end stands through the disabling log 40. -/
def Obligations.BellsConfigured : Prop :=
  (∀ (s : State) (tag bell : Byte) (k : Long) (pmin pmax guard : Half) (window missLimit : Byte), s.takes = true →
    let good := 1000 ≤ k.toNat ∧ k.toNat ≤ 4000000 ∧ 200 ≤ pmin.toNat ∧ pmin.toNat ≤ pmax.toNat ∧ pmax.toNat ≤ 40000
      ∧ 20 ≤ guard.toNat ∧ guard.toNat ≤ 2000 ∧ 2 ≤ window.toNat ∧ window.toNat ≤ 50 ∧ missLimit.toNat ≤ 7
    let answer := exec (.setBell tag bell k pmin pmax guard window missLimit) s
    (¬(bell.toNat ≤ 31 ∧ good) → answer = .next (s.reply tag 0x29 .badArg))
    ∧ ∀ b : BellNo, bell.toNat = b.val → good →
      let raised := (s.bell b).guardMs < guard.toNat ∧ ∃ x ∈ s.strikes.queue, x.bell = b
      (raised → answer = .next (s.reply tag 0x29 .busy))
      ∧ (¬raised → answer = .next ((s.setBell b { s.bell b with
          k := k.toNat, pmin := pmin.toNat, pmax := pmax.toNat, guardMs := guard.toNat, windowMs := window.toNat
          missLimit := missLimit.toNat, streak := 0
          state := if (s.bell b).isDisabled then .ready else (s.bell b).state }).reply tag 0x29 .ok)))
  ∧ (∀ (s : State) (tag bell on : Byte), s.takes = true →
      (¬(bell.toNat ≤ 31 ∧ (on = 0 ∨ on = 1)) → exec (.bellEnable tag bell on) s = .next (s.reply tag 0x2A .badArg))
      ∧ ∀ b : BellNo, bell.toNat = b.val →
        exec (.bellEnable tag bell 1) s = .next ((s.setBell b { s.bell b with
          state := if (s.bell b).isDisabled then .ready else (s.bell b).state, streak := 0 }).reply tag 0x2A .ok)
        ∧ ((s.bell b).isDisabled = true → exec (.bellEnable tag bell 0) s = .next (s.reply tag 0x2A .ok))
        ∧ ((s.bell b).isDisabled = false → exec (.bellEnable tag bell 0) s =
            .next (((s.reply tag 0x2A .ok).disableBell b .host).afterDisable ((s.bell b).state == .firing))))
  ∧ (∀ (s : State) (b : BellNo) (cause : DisableCause),
      let t := s.disableBell b cause
      t.strikes.queue = s.strikes.queue.filter (fun k => k.bell != b)
        ∧ t.bell b = { s.bell b with state := .disabled cause, inFlight := none }
        ∧ (∀ c, c ≠ b → t.bell c = s.bell c)
        ∧ t.strikes.hammers = s.strikes.hammers &&& ~~~(1#32 <<< b.val)
        ∧ (tget t.port.latches.bells b).disabled = true
        ∧ t = { s with
            lanes := t.lanes
            strikes := { s.strikes with bells := t.strikes.bells, queue := t.strikes.queue, hammers := t.strikes.hammers }
            port := { s.port with latches := { s.port.latches with bells := t.port.latches.bells } } })
  ∧ (∀ s : State, s.afterDisable true = s.finishedAll.serve ∧ s.afterDisable false = s.finishedAll
      ∧ s.finishedAll = (((s.drainCheck 0).drainCheck 1).drainCheck 2).drainCheck 3)

/-- R89: the loudness curve, its resets, and SET_CURVE. -/
def Obligations.CurveWritten : Prop :=
  (∀ (s : State) (baud : BitVec 2) (i : Fin 17), tget (s.hardReset baud).strikes.curve i = 256 * i.val)
  ∧ (∀ s : State, s.softReset.strikes.curve = s.strikes.curve)
  ∧ (∀ (s : State) (tag : Byte) (points : List Half), s.takes = true → points.length = 17 →
      let good := (∀ p ∈ points, p.toNat ≤ 4096)
        ∧ ∀ (i : Nat) (p q : Half), points[i]? = some p → points[i + 1]? = some q → p.toNat ≤ q.toNat
      (¬good → exec (.setCurve tag points) s = .next (s.reply tag 0x2B .badArg))
      ∧ (good → ∃ curve : Vector Nat 17,
          exec (.setCurve tag points) s = .next ({ s with strikes := { s.strikes with curve := curve } }.reply tag 0x2B .ok)
          ∧ ∀ (i : Fin 17) (p : Half), points[i.val]? = some p → tget curve i = p.toNat))

/-- R90: SET_LEVEL writes the three settings together; a raised Emax serves the strikes waiting for supply at once. -/
def Obligations.LevelWritten : Prop :=
  (∀ (s : State) (baud : BitVec 2), (s.hardReset baud).strikes.master = 100 ∧ (s.hardReset baud).strikes.emax = 6
    ∧ (s.hardReset baud).strikes.tau = 20000)
  ∧ (∀ s : State, s.softReset.strikes.master = s.strikes.master ∧ s.softReset.strikes.emax = s.strikes.emax
      ∧ s.softReset.strikes.tau = s.strikes.tau)
  ∧ (∀ (s : State) (tag master emax : Byte) (tau : Long), s.takes = true →
      let good := master.toNat ≤ 100 ∧ 1 ≤ emax.toNat ∧ emax.toNat ≤ 8 ∧ tau.toNat ≤ 100000
      let firing := ((indexes 32).filter fun b => (s.bell b).state == .firing).length
      let written := { s with strikes := { s.strikes with
        master := master.toNat, emax := emax.toNat, tau := tau.toNat } }.reply tag 0x2C .ok
      (¬good → exec (.setLevel tag master emax tau) s = .next (s.reply tag 0x2C .badArg))
      ∧ (good → emax.toNat < firing → exec (.setLevel tag master emax tau) s = .next (s.reply tag 0x2C .busy))
      ∧ (good → firing ≤ emax.toNat → s.strikes.emax < emax.toNat →
          exec (.setLevel tag master emax tau) s = .next written.serve)
      ∧ (good → firing ≤ emax.toNat → emax.toNat ≤ s.strikes.emax →
          exec (.setLevel tag master emax tau) s = .next written))

/-! ## Figure axes -/

/-- The rules of SET_AXIS on its fields (R109). -/
def AxisFieldsGood (form : Byte) (lower upper vmax : Long) (dv stopDv tolerance : Half) : Prop :=
  (form = 0 ∨ (form = 1 ∧ -180000 ≤ lower.toInt ∧ lower.toInt ≤ 179999 ∧ lower.toInt < upper.toInt
      ∧ upper.toInt ≤ 180000))
    ∧ 1 ≤ vmax.toInt ∧ vmax.toInt ≤ 360000 ∧ 1 ≤ dv.toNat ∧ dv.toNat ≤ stopDv.toNat ∧ stopDv.toNat ≤ 20000
    ∧ 50 ≤ tolerance.toNat ∧ tolerance.toNat ≤ 20000

/-- R109: SET_AXIS: refused out of range or for a configured axis not OFF; else written, its run state as after a soft
reset and its measured position absent. A reply awaited stands (log 55). -/
def Obligations.AxisConfigured : Prop :=
  ∀ (s : State) (tag axis form : Byte) (lower upper vmax : Long) (dv stopDv tolerance : Half), s.takes = true →
    let good := AxisFieldsGood form lower upper vmax dv stopDv tolerance
    let answer := exec (.setAxis tag axis form lower upper vmax dv stopDv tolerance) s
    (¬(axis.toNat ≤ 11 ∧ good) → answer = .next (s.reply tag 0x30 .badArg))
    ∧ ∀ a : AxisNo, axis.toNat = a.val → good →
      ((s.axis a).config ≠ none → (s.axis a).mode ≠ .off → answer = .next (s.reply tag 0x30 .busy))
      ∧ ((s.axis a).config = none ∨ (s.axis a).mode = .off →
        answer = .next ((s.setAxis a { s.axis a with
          config := some ⟨if form = 0 then .wrap else .bounded lower.toInt upper.toInt, vmax.toNat, dv.toNat,
            stopDv.toNat, tolerance.toNat⟩
          measured := none, cmd := none, mode := .off, v := 0, residue := 0, turns := 0, missed := 0, lag := false
          lastCommand := none, previousCommand := none }).reply tag 0x30 .ok))

/-- The AXIS_CMD requests by name, with their arguments. -/
inductive AxisRequest where
  | move (target rate : Long) (direction : Byte)
  | spin (rate : Long)
  | stop
  | follow (leader numerator denominator : Byte) (offset : Long)
  | enable
  | disable
  | clear

/-- The command of an AXIS_CMD. -/
def AxisRequest.instr (tag axis : Byte) : AxisRequest → Instr
  | .move target rate direction => .axisCmdMove tag axis target rate direction
  | .spin rate => .axisCmdSpin tag axis rate
  | .stop => .axisCmdStop tag axis
  | .follow leader numerator denominator offset => .axisCmdFollow tag axis leader numerator denominator offset
  | .enable => .axisCmdEnable tag axis
  | .disable => .axisCmdDisable tag axis
  | .clear => .axisCmdClear tag axis

/-- It is one of the motion commands MOVE, SPIN, STOP and FOLLOW. -/
def AxisRequest.motion : AxisRequest → Prop
  | .enable | .disable | .clear => False
  | _ => True

/-- R123, steps 1 to 5: what refuses an AXIS_CMD before its arguments are examined. -/
def AxisRequestsRefused : Prop :=
  ∀ (s : State) (tag axis : Byte) (q : AxisRequest), s.takes = true →
    (11 < axis.toNat → exec (q.instr tag axis) s = .next (s.reply tag 0x31 .badArg))
    ∧ ∀ a : AxisNo, axis.toNat = a.val →
      ((s.axis a).config = none → exec (q.instr tag axis) s = .next (s.reply tag 0x31 .notFound))
      ∧ ((s.axis a).config ≠ none →
        (s.claim a ≠ none → exec (q.instr tag axis) s = .next (s.reply tag 0x31 .claimed))
        ∧ (s.claim a = none → s.mode = .safe → exec (q.instr tag axis) s = .next (s.reply tag 0x31 .mode))
        ∧ (s.claim a = none → q.motion → s.mode = .live → s.output.isOpen = true →
          exec (q.instr tag axis) s = .next (s.reply tag 0x31 .interlock)))

/-- The motion command of a request whose arguments R123 step 6 accepts on an axis. -/
def AxisRequest.accepted (s : State) (a : AxisNo) (c : AxisConfig) : AxisRequest → MotionCommand → Prop
  | .move target rate direction, .move t d r =>
    t = target.toInt ∧ (r : Int) = rate.toInt ∧ c.form.inRange t = true ∧ 1 ≤ r ∧ r ≤ 360000
      ∧ ((direction = 0 ∧ d = .short) ∨ (direction = 1 ∧ d = .cw) ∨ (direction = 2 ∧ d = .ccw))
  | .spin rate, .spin r => r = rate.toInt ∧ c.form = .wrap ∧ r ≠ 0 ∧ r.natAbs ≤ 360000
  | .stop, .stop => True
  | .follow leader numerator denominator offset, .follow l n d o =>
    l.val = leader.toNat ∧ n = numerator.toInt ∧ d = denominator.toNat ∧ o = offset.toInt ∧ l ≠ a
      ∧ n ≠ 0 ∧ n.natAbs ≤ 16 ∧ 1 ≤ d ∧ d ≤ 16 ∧ o.natAbs ≤ 359999 ∧ followRefused s.leaders a l = false
  | _, _ => False

/-- The axis a carried-out motion command makes, and whether its target was limited and a settle event raised. -/
def Commanded (x : Axis) (c : AxisConfig) : MotionCommand → Axis × Bool × Bool
  | .move t d r => match c.form with
    | .wrap => ({ x with mode := .move t d r }, false, false)
    | .bounded lower upper => ({ x with mode := .move (max lower (min upper t)) d r }, decide (t < lower ∨ upper < t), false)
  | .spin r => ({ x with mode := .spin r }, false, false)
  | .stop => if x.mode = .hold then (x, false, false)
    else if x.v = 0 then ({ x with mode := .hold, v := 0, residue := 0 }, false, true)
    else ({ x with mode := .stopping c.dv }, false, false)
  | .follow l n d o => ({ x with mode := .follow l n d o, lag := false }, false, false)

/-- An axis given a command: a dwell on it is disturbed (R119, R129). -/
def GivenTo (s : State) (a : AxisNo) (x : Axis) : State :=
  { s.setAxis a x with verifier := { s.verifier with
    disturbed := s.verifier.disturbed || decide (s.verifier.scan = some a) } }

/-- R117 … R120, R123: the motion commands of the host. The lag stands when FOLLOW is left (log 21). -/
def MotionRequestsCarriedOut : Prop :=
  ∀ (s : State) (tag axis : Byte) (q : AxisRequest) (a : AxisNo) (c : AxisConfig), s.takes = true →
    axis.toNat = a.val → (s.axis a).config = some c → s.claim a = none → s.mode ≠ .safe →
    ¬(s.mode = .live ∧ s.output.isOpen = true) → q.motion →
      ((∀ m, ¬q.accepted s a c m) → exec (q.instr tag axis) s = .next (s.reply tag 0x31 .badArg))
      ∧ ∀ m, q.accepted s a c m →
        ((s.axis a).mode.enabled = false →
          exec (q.instr tag axis) s = .next (s.reply tag 0x31 .disabled [(s.axis a).mode.code]))
        ∧ ((s.axis a).mode.enabled = true →
          let done := Commanded (s.axis a) c m
          let t := (GivenTo s a done.1).reply tag 0x31 .ok [done.1.mode.code, boolByte done.2.1]
          exec (q.instr tag axis) s = .next (if done.2.2 = true then t.settle a else t))

/-- R124: ENABLE, DISABLE and CLEAR of the host. An axis put in OFF stops its followers, in the order of log 46, before its
dwell ends (log 30), and keeps its measured position, the looped-back one in REHEARSE (log 50). -/
def AxisSwitched : Prop :=
  ∀ (s : State) (tag axis : Byte) (a : AxisNo) (c : AxisConfig), s.takes = true →
    axis.toNat = a.val → (s.axis a).config = some c → s.claim a = none → s.mode ≠ .safe →
      let x := s.axis a
      let off := ((s.reply tag 0x31 .ok [0, 0]).setAxis a { x with mode := .off, v := 0, residue := 0 })
      (∀ f, x.mode = .fault f → exec (.axisCmdEnable tag axis) s = .next (s.reply tag 0x31 .disabled [6])
          ∧ exec (.axisCmdClear tag axis) s = .next ((off.stopFollowers a).skipDwell a))
      ∧ ((∀ f, x.mode ≠ .fault f) → exec (.axisCmdClear tag axis) s = .next (s.reply tag 0x31 .ok [x.mode.code, 0]))
      ∧ (x.mode.enabled = true → exec (.axisCmdEnable tag axis) s = .next (s.reply tag 0x31 .ok [x.mode.code, 0]))
      ∧ (x.mode = .off →
          (3 ≤ x.missed ∨ x.measured = none ∨ (∃ m l u, x.measured = some m ∧ c.form = .bounded l u ∧ (m < l ∨ u < m)) →
            exec (.axisCmdEnable tag axis) s = .next (s.reply tag 0x31 .busy))
          ∧ (∀ m, x.missed < 3 → x.measured = some m → (∀ l u, c.form = .bounded l u → l ≤ m ∧ m ≤ u) →
            exec (.axisCmdEnable tag axis) s = .next ((s.setAxis a { x with
              mode := .hold, cmd := some m, v := 0, residue := 0, turns := 0 }).reviewScan.reply tag 0x31 .ok [1, 0])))
      ∧ exec (.axisCmdDisable tag axis) s = .next ((off.stopFollowers a).skipDwell a)

/-- Passing k times from an axis in FOLLOW to its leader, from an axis l on (R120). -/
def FollowChain (leaders : AxisNo → Axis) (l : AxisNo) : Nat → Option AxisNo
  | 0 => some l
  | k + 1 => (FollowChain leaders l k).bind fun a => match (leaders a).mode with
    | .follow next _ _ _ => some next
    | _ => none

/-- R120: what refuses a FOLLOW of an axis with a leader: the leader is the axis itself, unconfigured, OFF or in FAULT, or
its chain, through at most all twelve axes, leads back to the axis. -/
def FollowsRefused : Prop :=
  ∀ (leaders : AxisNo → Axis) (follower l : AxisNo), followRefused leaders follower l = true ↔
    l = follower ∨ (leaders l).config = none ∨ (leaders l).mode = .off ∨ (∃ c, (leaders l).mode = .fault c)
      ∨ ∃ k, k < 12 ∧ FollowChain leaders l k = some follower

/-- R117 … R120, R123, R124: AXIS_CMD (log 21, 30, 46, 50). -/
def Obligations.AxisRequestsAnswered : Prop :=
  AxisRequestsRefused ∧ MotionRequestsCarriedOut ∧ AxisSwitched ∧ FollowsRefused

/-- The position an advance comes to and the residue it leaves, before turns and limits (R114). -/
def Advanced (x : Axis) (v : Int) : Int × Int := (x.cmd.getD 0 + (v + x.residue) / 100, (v + x.residue) % 100)

/-- R114: the position advance of a WRAP and of a BOUNDED axis. -/
def PositionsAdvance : Prop :=
  ∀ (x : Axis) (v : Int),
    let p := (Advanced x v).1
    let e := (Advanced x v).2
    (360000 ≤ p → advance .wrap x v = ({ x with
      cmd := some (p - 360000), v := v, residue := e
      turns := if 360359 ≤ x.turns then -360360 else x.turns + 1 }, false))
    ∧ (p < 0 → advance .wrap x v = ({ x with
      cmd := some (p + 360000), v := v, residue := e
      turns := if x.turns ≤ -360360 then 360359 else x.turns - 1 }, false))
    ∧ (0 ≤ p → p < 360000 → advance .wrap x v = ({ x with cmd := some p, v := v, residue := e }, false))
    ∧ (∀ l u, l ≤ u →
      (p < l → advance (.bounded l u) x v = ({ x with cmd := some l, v := 0, residue := 0 }, true))
      ∧ (u < p → advance (.bounded l u) x v = ({ x with cmd := some u, v := 0, residue := 0 }, true))
      ∧ (l ≤ p → p ≤ u → advance (.bounded l u) x v = ({ x with cmd := some p, v := v, residue := e }, false)))

/-- A WRAP position with its turns, after a travel that may have crossed 0 (R114). -/
def Wrapped (turns position : Int) : Int × Int :=
  if 360000 ≤ position then (position - 360000, if 360359 ≤ turns then -360360 else turns + 1)
  else if position < 0 then (position + 360000, if turns ≤ -360360 then 360359 else turns - 1)
  else (position, turns)

/-- R115, R116: the velocity of a MOVE and its arrival. An update whose travel covers the distance, at a soft limit too,
arrives; the turns at an arrival are those of the distance (log 21); any other update is the advance of R114. -/
def MovesRun : Prop :=
  (∀ (c : AxisConfig) (rate : Nat) (v d : Int), d ≠ 0 →
    let cap := min rate c.vmax
    let speed := v.natAbs
    (0 < v → d < 0 → moveVelocity c rate v d = max (v - c.dv) 0)
    ∧ (v < 0 → 0 < d → moveVelocity c rate v d = min (v + c.dv) 0)
    ∧ (v = 0 ∨ (0 < v ∧ 0 < d) ∨ (v < 0 ∧ d < 0) →
      moveVelocity c rate v d = d.sign *
        ((if d.natAbs ≤ speed * speed / (200 * c.dv) then max (speed - c.dv) (min c.dv cap)
          else if cap < speed then max (speed - c.dv) cap else min (speed + c.dv) cap : Nat) : Int)))
  ∧ (∀ (target cmd l u : Int), moveDistance (.bounded l u) .short target cmd = target - cmd
      ∧ moveDistance (.bounded l u) .cw target cmd = target - cmd
      ∧ moveDistance (.bounded l u) .ccw target cmd = target - cmd)
  ∧ (∀ target cmd : Int, 0 ≤ target → target < 360000 → 0 ≤ cmd → cmd < 360000 →
      let way := moveDistance .wrap .short target cmd
      (-180000 ≤ way ∧ way < 180000 ∧ (way - (target - cmd)) % 360000 = 0)
      ∧ moveDistance .wrap .cw target cmd = (if cmd ≤ target then target - cmd else target - cmd + 360000)
      ∧ moveDistance .wrap .ccw target cmd = (if target ≤ cmd then target - cmd else target - cmd - 360000))
  ∧ (∀ (c : AxisConfig) (x : Axis) (target : Int) (direction : Direction) (rate : Nat),
      let d := moveDistance c.form direction target (x.cmd.getD 0)
      let v := moveVelocity c rate x.v d
      let y := advance c.form x v
      let travel := if y.2 = true then y.1.cmd.getD 0 - x.cmd.getD 0 else (v + x.residue) / 100
      let covered := (0 < d ∧ d ≤ travel) ∨ (d < 0 ∧ travel ≤ d)
      let turns := match c.form with
        | .wrap => (Wrapped x.turns (x.cmd.getD 0 + d)).2
        | .bounded _ _ => x.turns
      let arrived := ({ x with mode := .hold, v := 0, residue := 0, cmd := some target, turns := turns }, true)
      (d = 0 ∨ covered → moveUpdate c x target direction rate = arrived)
        ∧ (d ≠ 0 → ¬covered → moveUpdate c x target direction rate = (y.1, false))
        ∧ (d = 0 → 0 ≤ x.cmd.getD 0 ∨ c.form ≠ .wrap → x.cmd.getD 0 < 360000 ∨ c.form ≠ .wrap → turns = x.turns))

/-- R117, R118, R121: SPIN, STOPPING and FOLLOW: the quotient q, the distance e (the shortest way for a WRAP follower), the
travel limited to Vmax in an update with LAG, cmd, turns, v and residue. -/
def SpinsStopsFollows : Prop :=
  (∀ (x : Axis) (dv : Nat), x.stop dv =
    if x.mode.moving = false then (x, false)
    else if x.v = 0 then ({ x with mode := .hold, v := 0, residue := 0 }, true)
    else ({ x with mode := .stopping dv }, false))
  ∧ (∀ (c : AxisConfig) (x : Axis) (rate : Int),
    let goal := max (-(c.vmax : Int)) (min c.vmax rate)
    spinUpdate c x rate = (advance c.form x
      (if x.v < goal then min (x.v + c.dv) goal else max (x.v - c.dv) goal)).1)
  ∧ (∀ (c : AxisConfig) (x : Axis) (dv : Nat),
      let v := if 0 < x.v then max (x.v - dv) 0 else min (x.v + dv) 0
      let y := advance c.form x v
      stopUpdate c x dv = if v = 0 ∨ y.2 = true then ({ y.1 with mode := .hold, v := 0, residue := 0 }, true)
        else (y.1, false))
  ∧ (∀ (c : AxisConfig) (x leader : Axis) (numerator : Int) (denominator : Nat) (offset : Int),
      let q := (leader.turns * 360000 + leader.cmd.getD 0) * numerator / (denominator : Int)
      let cmd := x.cmd.getD 0
      let most : Int := ((c.vmax / 100 : Nat) : Int)
      let travel := fun e : Int => if most < e.natAbs then e.sign * most else e
      (∀ l u, c.form = .bounded l u →
        let e := max l (min u (q + offset)) - cmd
        followUpdate c x leader numerator denominator offset =
          { x with cmd := some (cmd + travel e), v := travel e * 100, residue := 0, lag := decide (most < e.natAbs) })
      ∧ (c.form = .wrap → ∃ e : Int, -180000 ≤ e ∧ e < 180000 ∧ (cmd + e - (q + offset)) % 360000 = 0
          ∧ followUpdate c x leader numerator denominator offset =
            { x with
              cmd := some (Wrapped x.turns (cmd + travel e)).1, turns := (Wrapped x.turns (cmd + travel e)).2
              v := travel e * 100, residue := 0, lag := decide (most < e.natAbs) }))

/-- R111 step 1, R114 … R118, R121: the profile of one update in each mode. -/
def AxisProfilesComputed : Prop :=
  PositionsAdvance ∧ MovesRun ∧ SpinsStopsFollows
    ∧ (∀ (leaders : AxisNo → Axis) (c : AxisConfig) (x : Axis),
      (∀ t d r, x.mode = .move t d r → profile leaders c x = moveUpdate c x t d r)
      ∧ (∀ r, x.mode = .spin r → profile leaders c x = (spinUpdate c x r, false))
      ∧ (∀ dv, x.mode = .stopping dv → profile leaders c x = stopUpdate c x dv)
      ∧ (∀ l n d o, x.mode = .follow l n d o → profile leaders c x = (followUpdate c x (leaders l) n d o, false))
      ∧ (x.mode = .hold → profile leaders c x = ({ x with v := 0 }, false))
      ∧ (x.mode.enabled = false → profile leaders c x = (x, false)))

/-- R111, R136, R137, R138, R158: an axis's update in its slot: the profile, then in every mode but LISTEN a setpoint
frame with its command and setpoint (free while the axis holds no cmd, log 8); in LISTEN the reply heard since the last slot
is taken (log 19). -/
def AxisUpdated : Prop :=
  (∀ (s : State) (a : AxisNo),
    ((s.axis a).config = none ∨ (s.axis a).slotTaken = true ∨ s.cycle ≠ 800 * a.val →
      exec (.axisUpdate a) s = .next s)
    ∧ (∀ c, (s.axis a).config = some c → (s.axis a).slotTaken = false → s.cycle = 800 * a.val →
      let x := s.axis a
      let y := (profile s.axis c x).1
      let command := if y.mode.enabled = false then FrameCommand.disable
        else if s.mode = .rehearse then .hold else .enable
      let z := { y with
        previousCommand := x.lastCommand, lastCommand := some command, slotTaken := true, sent := y.cmd.getD x.sent
        slotCmd := x.cmd, awaiting := if s.mode = .listen then none else some (s.now + 290), heard := none }
      ∃ setpoint : Long, (∀ p, y.cmd = some p → setpoint = BitVec.ofInt 32 p)
        ∧ (let u := { s.setAxis a z with
            verifier := { s.verifier with updateSeen := s.verifier.updateSeen || decide (s.verifier.scan = some a) }
            choices := if y.cmd = none ∧ s.mode ≠ .listen then s.choices + 1 else s.choices
            motion := { (s.setAxis a z).motion with
              line := if s.mode = .listen then s.motion.line
                else some ⟨setpointBytes a command setpoint, s.now + 90⟩ } }
          let u := if y.lag = true then u.latchAxis a fun l => { l with lag := true } else u
          let u := if (profile s.axis c x).2 = true then u.settle a else u
          exec (.axisUpdate a) s = .next (if s.mode = .listen then u.takeReply a x.heard else u))))
  ∧ (∀ (a : AxisNo) (command : FrameCommand) (p : Long),
      let body := BitVec.ofNat 8 (a.val + 1) :: command.code :: four p
      setpointBytes a command p = 0xA3 :: (body ++ two (checkOf body)))
  ∧ (FrameCommand.code .enable = 1 ∧ FrameCommand.code .hold = 2 ∧ FrameCommand.code .disable = 3)

/-- R111, R114 … R118, R121, R136 … R138, R158: the update of an axis. -/
def Obligations.AxisUpdates : Prop := AxisProfilesComputed ∧ AxisUpdated

/-- The bytes are a valid reply of an amplifier at an address (R158). -/
def IsReply (bytes : List Byte) (address : Byte) (r : AmpReply) : Prop :=
  ∃ (status m3 m2 m1 m0 c1 c0 : Byte), bytes = [0x3A, address, status, m3, m2, m1, m0, c1, c0]
    ∧ checkOf [address, status, m3, m2, m1, m0] = c1 ++ c0
    ∧ ((status = 0 ∧ r.status = .ready) ∨ (status = 1 ∧ r.status = .notReady) ∨ (status = 2 ∧ r.status = .fault))
    ∧ r.measured = (m3 ++ m2 ++ m1 ++ m0 : Long).toInt

/-- The reply allowance of an axis has begun and has not passed (R158); within it a reply may end (log 18). -/
def InAllowance (s : State) (a : AxisNo) : Prop :=
  ∃ t, (s.axis a).awaiting = some t ∧ before s.now (t - 200) = false ∧ before t s.now = false

/-- R112, R138, R158: what the bus delivers, and the end of the reply allowance. A reply decoded in LISTEN is kept for a
configured axis alone, whose form it must fit (log 19). -/
def RepliesReachAxes : Prop :=
  (∀ (s : State) (bytes : List Byte),
    (s.awaited = none → exec (.axisReply bytes) s = .next s)
    ∧ (∀ a, s.awaited = some a →
      (∀ r c, IsReply bytes (BitVec.ofNat 8 (a.val + 1)) r → (s.axis a).config = some c →
        c.form.inRange r.measured = true → exec (.axisReply bytes) s = .next (s.takeReply a (some r)))
      ∧ ((∀ r c, IsReply bytes (BitVec.ofNat 8 (a.val + 1)) r → (s.axis a).config = some c →
          c.form.inRange r.measured = false) → exec (.axisReply bytes) s = .next s)))
  ∧ (∀ (s : State) (a : AxisNo), s.awaited = some a → InAllowance s a)
  ∧ (∀ (s : State) (a : AxisNo), InAllowance s a → (∀ b, b ≠ a → ¬InAllowance s b) → s.awaited = some a)
  ∧ (∀ (s : State) (a : AxisNo),
      ((∀ t, (s.axis a).awaiting = some t → before s.now t = true) → exec (.axisReplyTimeout a) s = .next s)
      ∧ (∀ t, (s.axis a).awaiting = some t → before s.now t = false →
          exec (.axisReplyTimeout a) s = .next (s.takeReply a none)))
  ∧ (∀ (s : State) (bytes : List Byte),
      (s.mode ≠ .listen → exec (.axisBusDecode bytes) s = .next s)
      ∧ (∀ (a : AxisNo) r c, s.mode = .listen → IsReply bytes (BitVec.ofNat 8 (a.val + 1)) r →
          (s.axis a).config = some c →
          exec (.axisBusDecode bytes) s = .next
            (if c.form.inRange r.measured then s.setAxis a { s.axis a with heard := some r } else s))
      ∧ (∀ (a : AxisNo) r, IsReply bytes (BitVec.ofNat 8 (a.val + 1)) r → (s.axis a).config = none →
          exec (.axisBusDecode bytes) s = .next s)
      ∧ (∀ (address : Byte) r, IsReply bytes address r → (∀ a : AxisNo, address.toNat ≠ a.val + 1) →
          exec (.axisBusDecode bytes) s = .next s)
      ∧ ((∀ address r, ¬IsReply bytes address r) → exec (.axisBusDecode bytes) s = .next s))

/-- R112, R128, R129: an update whose reply, or its absence, has found a fault: the axis faults, the verifier counts the update,
then the exercise does (log 22). Where the count ends the dwell, the fault and the dwell's end come in either order, by the
free choice, whose counter advances (log 49). -/
def FaultCounted (s : State) (a : AxisNo) (valid : Bool) (cause : AxisFaultCause) (t : State) : Prop :=
  let v := s.verifier
  let chosen := { s with choices := s.choices + 1 }
  let ends := v.scan = some a ∧ v.updateSeen = true ∧ 20 ≤ v.dwell + 1
  (¬ends → t = ((s.enterFault a cause).verifierUpdate a valid).exerciseUpdate a)
  ∧ (ends → t = ((chosen.enterFault a cause).verifierUpdate a valid).exerciseUpdate a
      ∨ t = ((chosen.verifierUpdate a valid).enterFault a cause).exerciseUpdate a)

/-- R112, R137: a reply taken, or missing; the verifier counts the update before the exercise does (log 22). -/
def RepliesTaken : Prop :=
  ∀ (s : State) (a : AxisNo) (c : AxisConfig), (s.axis a).config = some c →
    let x := s.axis a
    let rehearsed := s.mode = .rehearse ∧ x.mode.enabled = true
    (∀ r, c.form.inRange r.measured = true →
      let m := if rehearsed then x.slotCmd.getD r.measured else r.measured
      let y := { x with
        awaiting := none, missed := 0, measured := some m, cmd := if x.mode = .off then some m else x.cmd }
      let u := s.setAxis a y
      let after := fun w : State => (w.verifierUpdate a true).exerciseUpdate a
      let enable := x.lastCommand = some .enable
      let failed := enable ∧ (r.status = .fault ∨ (r.status = .notReady ∧ x.previousCommand = some .enable))
      let beyond := ∃ l u, c.form = .bounded l u ∧ (m < l - c.tolerance ∨ u + c.tolerance < m)
      (failed → FaultCounted u a true .ampFault (s.takeReply a (some r)))
      ∧ (¬failed → beyond → FaultCounted u a true .overtravel (s.takeReply a (some r)))
      ∧ (¬failed → ¬beyond → s.takeReply a (some r) = after u))
    ∧ (let missed := min 3 (x.missed + 1)
       let m := if rehearsed ∧ x.slotCmd ≠ none then x.slotCmd else x.measured
       let u := s.setAxis a { x with awaiting := none, missed := missed, measured := m }
       let after := fun w : State => (w.verifierUpdate a false).exerciseUpdate a
       (missed < 3 → s.takeReply a none = after u)
       ∧ (missed = 3 → FaultCounted u a false .axisLink (s.takeReply a none)))

/-- R113: an axis in an enabled mode enters FAULT, in the order the rule gives; in any other mode nothing happens. R113 gives
the end of a dwell no place; that it comes after those steps and the notice is log 30. -/
def AxesFault : Prop :=
  ∀ (s : State) (a : AxisNo) (cause : AxisFaultCause),
    let x := s.axis a
    (x.mode.enabled = false → s.enterFault a cause = s)
    ∧ (x.mode.enabled = true →
      let u := ((s.setAxis a { x with
        mode := .fault cause, cmd := if x.measured = none then x.cmd else x.measured
        v := 0, residue := 0 }).stopFollowers a).tellLanes a
      let w := (u.exerciseFault a).latchAxis a fun l => { l with fault := some cause }
      s.enterFault a cause = (w.notice (.axisFault a cause x.cmd x.measured)).skipDwell a)

/-- A running exercise aborts with a cause: its record is done with the verdict ABORTED, EXERCISE_DONE is sent, its claim is
released (R134), without the walk that follows. -/
def ExerciseAbortedBy (cause : AbortCause) (s : State) : State :=
  match s.exercise with
  | some e =>
    if e.phase = .done then s
    else
      let done := { e with phase := .done, verdict := some (.aborted cause) }
      ({ s with exercise := some done }.notice (.exerciseDone done)).setClaim e.axis none
  | none => s

/-- R116, R122, R134: what a fault or a DISABLE of a leader does to its followers (in ascending axis number, log 46), what a
settle event reaches, and the exercise of an axis that enters FAULT. -/
def FaultsSpread : Prop :=
  (∀ (s : State) (leader : AxisNo), s.stopFollowers leader = (List.finRange 12).foldl (State.stopFollower leader) s)
  ∧ (∀ (s : State) (leader f : AxisNo),
      ((∀ n d o, (s.axis f).mode ≠ .follow leader n d o) → s.stopFollower leader f = s)
      ∧ (∀ n d o, (s.axis f).mode = .follow leader n d o →
          let x := s.axis f
          (x.v = 0 → s.stopFollower leader f = (GivenTo s f { x with mode := .hold, v := 0, residue := 0 }).settle f)
          ∧ (∀ c, x.v ≠ 0 → x.config = some c →
              s.stopFollower leader f = GivenTo s f { x with mode := .stopping c.dv })))
  ∧ (∀ (s : State) (a : AxisNo), s.settle a = (s.tellLanes a).exerciseSettle a
      ∧ s.tellLanes a = (List.finRange 4).foldl (fun u n => u.waitReview a n) s)
  ∧ (∀ (s : State) (a : AxisNo),
      ((∀ e, s.exercise = some e → e.axis = a → e.phase = .done) → s.exerciseFault a = s)
      ∧ (∀ e, s.exercise = some e → e.axis = a → e.phase ≠ .done →
          s.exerciseFault a = (ExerciseAbortedBy .fault s).walk))

/-- R112, R113, R116, R122, R129, R137, R138, R158: replies and faults (log 18, 19, 20, 22, 30, 46, 49). -/
def Obligations.AxisRepliesTaken : Prop := RepliesReachAxes ∧ RepliesTaken ∧ AxesFault ∧ FaultsSpread

/-! ## The tracking verifier and the axis exercise -/

/-- The next dwell axis is chosen by R128: the first eligible axis after the last axis, in cyclic order. -/
def DwellChosen (s t : State) : Prop :=
  let offset := fun a : AxisNo => match s.verifier.last with
    | some l => (a.val + 11 - l.val) % 12
    | none => a.val
  let eligible := fun a : AxisNo => (s.axis a).config ≠ none ∧ (s.axis a).mode.enabled = true
  ((∀ a, ¬eligible a) → t = { s with verifier := { s.verifier with scan := none } })
    ∧ (∀ a, eligible a → (∀ b, eligible b → offset a ≤ offset b) → t = { s with verifier := { s.verifier with
        scan := some a, last := some a, dwell := 0, disturbed := false, previousSetpoint := none, updateSeen := false } })

/-- R131: SET_VERIFY. That the dwell count, the disturbed flag and the previous setpoint stand when a dwell is abandoned is
log 41. -/
def Obligations.VerifySwitched : Prop :=
  ∀ (s : State) (tag on : Byte), s.takes = true →
    (on ≠ 0 ∧ on ≠ 1 → exec (.setVerify tag on) s = .next (s.reply tag 0x32 .badArg))
    ∧ (s.verifier.enable = true →
        exec (.setVerify tag 0) s = .next ({ s with verifier := { s.verifier with
          enable := false, scan := none } }.reply tag 0x32 .ok)
        ∧ exec (.setVerify tag 1) s = .next (s.reply tag 0x32 .ok))
    ∧ (s.verifier.enable = false →
        exec (.setVerify tag 0) s = .next (s.reply tag 0x32 .ok)
        ∧ ∃ t, exec (.setVerify tag 1) s = .next t
          ∧ DwellChosen ({ s with verifier := { s.verifier with enable := true } }.reply tag 0x32 .ok) t)

/-- R128, R129, R130: the scan, the count of a dwell, its verdict and what follows it. An update made before the dwell began
is not counted (log 22); what the record holds after the dwell is log 41. -/
def Obligations.DwellsJudged : Prop :=
  (∀ s : State, (s.verifier.enable = true → DwellChosen s s.chooseDwell)
    ∧ (s.verifier.enable = false → s.chooseDwell = s))
  ∧ (∀ (s : State) (a : AxisNo) (valid : Bool),
      let v := s.verifier
      (v.scan ≠ some a ∨ v.updateSeen = false → s.verifierUpdate a valid = s)
      ∧ (v.scan = some a → v.updateSeen = true → v.dwell + 1 < 20 →
          s.verifierUpdate a valid = { s with verifier := { v with
            dwell := v.dwell + 1, updateSeen := false, previousSetpoint := some (s.axis a).sent } })
      ∧ (∀ (c : AxisConfig) (m p : Int), v.scan = some a → v.updateSeen = true → 20 ≤ v.dwell + 1 →
          (s.axis a).config = some c → (s.axis a).measured = some m → v.previousSetpoint = some p →
          let error : Nat := match c.form with
            | .wrap => ((m - p + 180000) % 360000 - 180000).natAbs
            | .bounded _ _ => (m - p).natAbs
          let allowance := c.tolerance + (s.axis a).v.natAbs / 100
          let record : VerdictRecord := if v.disturbed = true ∨ valid = false then ⟨.skipped, none, none⟩
            else ⟨if allowance < error then .fail else .pass, some error, some allowance⟩
          let t := { s with verifier := { v with
            dwell := v.dwell + 1, updateSeen := false, scan := none
            verdicts := tset v.verdicts a (some record), pass := v.pass + 1 } }
          (record.verdict ≠ .fail → s.verifierUpdate a valid = t.chooseDwell)
          ∧ (record.verdict = .fail → (s.mode = .live ∨ s.mode = .rehearse) →
              s.verifierUpdate a valid = (t.enterFault a .tracking).chooseDwell)
          ∧ (record.verdict = .fail → s.mode = .listen → s.verifierUpdate a valid =
              ((t.latchAxis a fun l => { l with mismatch := true }).notice (.shadowMismatch a)).chooseDwell)))
  ∧ (∀ (s : State) (a : AxisNo),
      (s.verifier.scan ≠ some a → s.skipDwell a = s)
      ∧ (s.verifier.scan = some a → s.skipDwell a = { s with verifier := { s.verifier with
          scan := none, pass := s.verifier.pass + 1
          verdicts := tset s.verifier.verdicts a (some ⟨.skipped, none, none⟩) } }.chooseDwell))

/-- An axis claimed for the exercise, and its record opened (R132), with dwell count 0 (log 56, the model's choice). -/
def ExerciseOpened (s : State) (a : AxisNo) (c : AxisConfig) (start : Int) : Exercise → Prop := fun e =>
  e.axis = a ∧ e.start = start ∧ (s.axis a).cmd = some start ∧ e.rate = max (c.vmax / 4) 1 ∧ e.phase = .moving
    ∧ e.index = 0 ∧ e.dwell = 0 ∧ e.verdict = none ∧ (∀ k, tget e.results k = none)
    ∧ ∀ k : Fin 8, tget e.positions k = match c.form with
      | .wrap => (k.val : Int) * 45000
      | .bounded lower upper => lower + (k.val : Int) * (upper - lower) / 7

/-- R132: EXERCISE, in the order it is examined. -/
def ExerciseAsked : Prop :=
  ∀ (s : State) (tag axis : Byte), s.takes = true →
    let answer := exec (.exercise tag axis) s
    (11 < axis.toNat → answer = .next (s.reply tag 0x33 .badArg))
    ∧ ∀ a : AxisNo, axis.toNat = a.val →
      ((s.axis a).config = none → answer = .next (s.reply tag 0x33 .notFound))
      ∧ ∀ c, (s.axis a).config = some c →
        let m := (s.axis a).mode
        let running := ∃ e, s.exercise = some e ∧ e.phase ≠ .done
        (s.claim a ≠ none → answer = .next (s.reply tag 0x33 .claimed))
        ∧ (s.claim a = none →
          (s.mode = .safe ∨ s.mode = .listen → answer = .next (s.reply tag 0x33 .mode))
          ∧ (s.mode = .live → s.output.isOpen = true → answer = .next (s.reply tag 0x33 .interlock))
          ∧ (s.mode = .rehearse ∨ (s.mode = .live ∧ s.output.isOpen = false) →
            (running → answer = .next (s.reply tag 0x33 .busy))
            ∧ (¬running → m.enabled = false → answer = .next (s.reply tag 0x33 .disabled [m.code]))
            ∧ (¬running → m.moving = true → answer = .next (s.reply tag 0x33 .busy))
            ∧ (∀ start, ¬running → m = .hold → (s.axis a).cmd = some start →
              ∃ e, ExerciseOpened s a c start e
                ∧ answer = .next (((({ s with exercise := some e }.setClaim a (some .exercise)).reply tag 0x33 .ok
                  (byteOf a.val :: (signed start ++ e.positions.toList.flatMap signed))).exerciseMove e
                    (tget e.positions 0))))))

/-- R133: the moves of an exercise, its measurements, and its end: at the settle event of the return move the axis is in HOLD,
and the completion is done at that instant (log 48). Every update whose reply is taken while it dwells counts, the one at
which the axis arrived too (log 22). After a measurement the dwell count stands at 20 until the next dwell (log 56). -/
def ExerciseProceeds : Prop :=
  ∀ (s : State) (e : Exercise), s.exercise = some e → e.phase ≠ .done →
    (∀ (c : AxisConfig) (target : Int), (s.axis e.axis).config = some c → (s.axis e.axis).mode.enabled = true →
      s.exerciseMove e target = GivenTo s e.axis (Commanded (s.axis e.axis) c (.move target .short e.rate)).1)
    ∧ (∀ a, a ≠ e.axis → s.exerciseSettle a = s ∧ s.exerciseUpdate a = s)
    ∧ (e.phase = .moving → s.exerciseSettle e.axis = { s with exercise := some { e with phase := .dwelling, dwell := 0 } })
    ∧ (e.phase ≠ .moving → s.exerciseSettle e.axis = s)
    ∧ (ReturnEnded s e → s.doDue .completeExercise = .next (s.endExercise e
        (if ∀ k : Fin 8, ∃ r, tget e.results k = some r ∧ r.passed = true then .pass else .fail)))
    ∧ (¬ReturnEnded s e → s.doDue .completeExercise = .next s)
    ∧ (e.phase ≠ .dwelling → s.exerciseUpdate e.axis = s)
    ∧ (e.phase = .dwelling → e.dwell + 1 < 20 →
        s.exerciseUpdate e.axis = { s with exercise := some { e with dwell := e.dwell + 1 } })
    ∧ (∀ (c : AxisConfig) (m : Int), e.phase = .dwelling → 20 ≤ e.dwell + 1 → (s.axis e.axis).config = some c →
        (s.axis e.axis).measured = some m →
        let d := m - tget e.positions e.index
        let error : Nat := match c.form with
          | .wrap => ((d + 180000) % 360000 - 180000).natAbs
          | .bounded _ _ => d.natAbs
        let measured := { e with
          dwell := e.dwell + 1
          results := tset e.results e.index (some ⟨error, decide (error ≤ c.tolerance)⟩) }
        (∀ k : Fin 8, k.val = e.index.val + 1 →
          let next := { measured with index := k, phase := .moving }
          s.exerciseUpdate e.axis = { s with exercise := some next }.exerciseMove next (tget e.positions k))
        ∧ (e.index.val = 7 →
          let next := { measured with phase := .returning }
          s.exerciseUpdate e.axis = { s with exercise := some next }.exerciseMove next e.start))
    ∧ (∀ verdict, s.endExercise e verdict =
        ((({ s with exercise := some { e with phase := .done, verdict := some verdict } }.notice
          (.exerciseDone { e with phase := .done, verdict := some verdict })).setClaim e.axis none).walk))

/-- R134: EXERCISE_ABORT, and the abort that a cause makes. An abort taken before the completion of the same instant finds the
axis in HOLD at the start position, and leaves it there. The settle event of a STOP given to an axis of v 0 reaches nobody
(log 32). -/
def ExerciseAborted : Prop :=
  ∀ (s : State) (tag : Byte), s.takes = true →
    ((∀ e, s.exercise = some e → e.phase = .done) → exec (.exerciseAbort tag) s = .next (s.reply tag 0x34 .notFound)
      ∧ ∀ cause, s.abortExercise cause = s)
    ∧ (∀ e, s.exercise = some e → e.phase ≠ .done →
        ((s.axis e.axis).mode.moving = false →
          exec (.exerciseAbort tag) s = .next ((s.reply tag 0x34 .ok).endExercise e (.aborted .host)))
        ∧ ((s.axis e.axis).mode.moving = true → exec (.exerciseAbort tag) s = .next
            ((GivenTo (s.reply tag 0x34 .ok) e.axis ((s.axis e.axis).stop (s.axis e.axis).dv).1).endExercise e
              (.aborted .host)))
        ∧ ∀ cause, s.abortExercise cause = s.endExercise e (.aborted cause))

/-- R132, R133, R134: the axis exercise (log 22, 32, 48, 56). -/
def Obligations.ExerciseRuns : Prop := ExerciseAsked ∧ ExerciseProceeds ∧ ExerciseAborted

/-! ## Output modes and the atrium interlock -/

/-- The bits of the failing conditions of a quiet tower (R139, section 11.4). -/
def Unquiet (s : State) : Byte :=
  (if (∃ n, (s.lane n).run ≠ none) then 1 else 0) + (if s.strikes.queue = [] then 0 else 2)
    + (if (∃ b, (s.bell b).state = .firing ∨ (s.bell b).state = .flight) then 4 else 0)
    + (if (∃ a, (s.axis a).mode.moving = true) then 8 else 0)
    + (if (∃ e, s.exercise = some e ∧ e.phase ≠ .done) then 16 else 0)

/-- Every run ends with an outcome, in ascending lane number (RunsEnd says what an end does). -/
def RunsEnded (outcome : RunOutcome) (s : State) : State :=
  (List.finRange 4).foldl (fun u n => u.endRun n outcome) s

/-- The hammer stop of R106: every output low, every bell in FIRING or FLIGHT READY, every window cancelled. -/
def HammersStopped (u : StrikeUnit) : StrikeUnit :=
  { u with
    hammers := 0
    bells := Vector.ofFn fun b =>
      let x := tget u.bells b
      if x.state = .firing ∨ x.state = .flight then { x with state := .ready, inFlight := none, confirmedEnd := none }
      else { x with confirmedEnd := none } }

/-- An axis put in OFF by the steps of DISABLE (R124). -/
def PutOff (x : Axis) : Axis := { x with mode := .off, v := 0, residue := 0 }

/-- The verifier where axes leave the enabled modes and none is left to dwell on: a dwell on one of them ends SKIPPED
(R129); exactly one ends and no next one is chosen (log 31), and the fields of the dwell stand (log 41). -/
def DwellSkipped (s : State) (leaves : AxisNo → Bool) : Verifier :=
  match s.verifier.scan with
  | some a =>
    if leaves a = true then
      { s.verifier with
        scan := none, pass := s.verifier.pass + 1
        verdicts := tset s.verifier.verdicts a (some ⟨.skipped, none, none⟩) }
    else s.verifier
  | none => s.verifier

/-- The tower after the change to SAFE (R139): runs ended, strikes gone, hammers stopped, axes OFF, the exercise aborted. -/
def MadeSafe (s : State) : State :=
  let v := RunsEnded .mode { s with output := { s.output with mode := .safe } }
  ExerciseAbortedBy .mode { v with
    strikes := { HammersStopped v.strikes with queue := [] }
    motion := { v.motion with
      axes := Vector.ofFn fun a => if (v.axis a).mode = .off then v.axis a else PutOff (v.axis a) }
    verifier := DwellSkipped v fun a => decide ((v.axis a).mode ≠ .off) }

/-- R139, R140: SET_MODE; the change to SAFE stops everything; the changes out of SAFE and between running modes. A change to
LISTEN cuts a frame being driven, any other lets it end; a reply awaited stands in every change (log 43). The axes go to OFF at
one instant: one dwell ends SKIPPED, no next one is chosen and no follower is stopped (log 31), the fields of that dwell stand
(log 41), and so does the measured position, the looped-back one after REHEARSE (log 50). The mode is set first (log 24), one
walk follows the ends of the runs (log 13), and the guards of the bells go on (log 35). -/
def Obligations.ModeSet : Prop :=
  (∀ (s : State) (tag mode : Byte), s.takes = true → 3 < mode.toNat →
    exec (.setMode tag mode) s = .next (s.reply tag 0x38 .badArg))
  ∧ (∀ (s : State) (tag mode : Byte) (m : OutputMode), s.takes = true → mode = m.code →
      let ok := s.reply tag 0x38 .ok [mode]
      let answer := exec (.setMode tag mode) s
      let line := if m = .listen then none else s.motion.line
      (m = s.mode → answer = .next ok)
      ∧ (m ≠ s.mode → m ≠ .safe → s.mode = .safe →
          answer = .next ({ ok with
            output := { s.output with mode := m }, motion := { s.motion with line := line } } : State).walk)
      ∧ (m ≠ s.mode → m ≠ .safe → s.mode ≠ .safe → Unquiet s ≠ 0 →
          answer = .next (s.reply tag 0x38 .busy [s.mode.code, Unquiet s]))
      ∧ (m ≠ s.mode → m ≠ .safe → s.mode ≠ .safe → Unquiet s = 0 →
          answer = .next ({ ok with
            output := { s.output with mode := m }
            motion := ⟨Vector.ofFn fun a => if (s.axis a).mode = .hold then PutOff (s.axis a) else s.axis a, line⟩
            verifier := DwellSkipped s fun a => decide ((s.axis a).mode = .hold) } : State).walk)
      ∧ (m = .safe → s.mode ≠ .safe →
          ∃ t, answer = .next t ∧ t = MadeSafe ok ∧ t.mode = .safe
            ∧ (∀ n, (t.lane n).run = none
                ∧ (∀ r, (s.lane n).run = some r →
                    (t.lane n).last = some { r.record with outcome := some .mode })
                ∧ ((s.lane n).run = none → t.lane n = s.lane n))
            ∧ t.strikes.queue = [] ∧ t.strikes.hammers = 0
            ∧ (∀ b, (t.bell b).state ≠ .firing ∧ (t.bell b).state ≠ .flight
                ∧ ((s.bell b).isDisabled = true → (t.bell b).state = (s.bell b).state))
            ∧ (∀ a, t.axis a = if (s.axis a).mode = .off then s.axis a
                else { s.axis a with mode := .off, v := 0, residue := 0 })
            ∧ (∀ e, s.exercise = some e → e.phase ≠ .done →
                t.exercise = some { e with phase := .done, verdict := some (.aborted .mode) })
            ∧ t.sched.queue = s.sched.queue ∧ t.cal = s.cal ∧ t.store = s.store
            ∧ t.output = { s.output with mode := .safe } ∧ t.now = s.now))

/-- Every queued strike is removed, each counted dropped-inhibited for its owner (R105). -/
def Inhibited (s : State) : State :=
  s.strikes.queue.foldl
    (fun u k => u.countFor k.owner fun r => { r with droppedInhibited := satInc r.droppedInhibited })
    { s with strikes := { s.strikes with queue := [] } }

/-- The tower after an opening in LIVE (R142), the strikes and the runs gone: hammers stopped, the fast stop to every moving
axis with its dwell disturbed, the exercise aborted. -/
def StoppedFast (v : State) : State :=
  ExerciseAbortedBy .interlock { v with
    strikes := HammersStopped v.strikes
    motion := { v.motion with
      axes := Vector.ofFn fun a =>
        if (v.axis a).mode.moving = true then ((v.axis a).stop (v.axis a).stopDv).1 else v.axis a }
    verifier := { v.verifier with
      disturbed := v.verifier.disturbed || (match v.verifier.scan with
        | some a => (v.axis a).mode.moving
        | none => false) } }

/-- The debounced interlock OPEN with its latch (R141), and the model's own count of free choices. -/
def Opened (s : State) : State :=
  { s with
    output := { s.output with isOpen := true }
    port := { s.port with latches := { s.port.latches with interlock := true } }
    choices := s.choices + 1 }

/-- What an opening in LIVE leaves (R142): the strikes are dropped before the runs end or after, a free choice (R54, log 6). -/
def TowerStopped (s t : State) : Prop :=
  (t = StoppedFast (RunsEnded .interlock (Inhibited (Opened s)))
      ∨ t = StoppedFast (Inhibited (RunsEnded .interlock (Opened s))))
    ∧ (∀ n, (t.lane n).run = none)
    ∧ (∀ n r, (s.lane n).run = some r →
        ∃ record, (t.lane n).last = some record ∧ record.outcome = some .interlock ∧ record.id = r.record.id)
    ∧ t.strikes.queue = [] ∧ t.strikes.hammers = 0
    ∧ (∀ b, (t.bell b).state ≠ .firing ∧ (t.bell b).state ≠ .flight
        ∧ ((s.bell b).state = .ready ∨ (s.bell b).isDisabled = true → (t.bell b).state = (s.bell b).state)
        ∧ (t.bell b).lastImpact = (s.bell b).lastImpact ∧ (t.bell b).guardInstant = (s.bell b).guardInstant
        ∧ (t.bell b).guardRunning = (s.bell b).guardRunning)
    ∧ (∀ a, t.axis a = if (s.axis a).mode.moving = true then ((s.axis a).stop (s.axis a).stopDv).1 else s.axis a)
    ∧ (∀ a,
      let ended := (∃ n, s.claim a = some (.lane n) ∧ (s.lane n).run ≠ none)
        ∨ ∃ e, s.exercise = some e ∧ e.phase ≠ .done ∧ e.axis = a
      (ended → t.claim a = none) ∧ (¬ended → t.claim a = s.claim a))
    ∧ (∀ e, s.exercise = some e → e.phase ≠ .done →
        t.exercise = some { e with phase := .done, verdict := some (.aborted .interlock) })
    ∧ t.sched.queue = s.sched.queue ∧ t.cal = s.cal ∧ t.store = s.store

/-- R141, R142, R143: the input's changes restart the count; after 20 ms the debounced state follows, with the latch, the
stop of the tower at an opening in LIVE (in an order that is free, log 6), the notice and the walk. The state is OPEN before
the runs end (log 24), one walk follows their ends (log 13), the settle events of the fast stop reach nobody (log 32), and the
guards of the bells go on (log 35). -/
def Obligations.InterlockDebounced : Prop :=
  (∀ (s : State) (level : Bool),
    (s.output.atriumClear = level → exec (.atriumClearChange level) s = .next s)
    ∧ (s.output.atriumClear ≠ level → exec (.atriumClearChange level) s =
        .next { s with output := { s.output with atriumClear := level, changedAt := s.now } }))
  ∧ (∀ s : State,
      (s.output.atriumClear ≠ s.output.isOpen ∨ before s.now (s.output.changedAt + 20000) = true →
        exec .atriumDebounceChange s = .next s)
      ∧ (before s.now (s.output.changedAt + 20000) = false →
        (s.output.atriumClear = true → s.output.isOpen = true →
          exec .atriumDebounceChange s = .next
            ({ s with output := { s.output with isOpen := false } }.notice (.interlock false s.mode)).walk)
        ∧ (s.output.atriumClear = false → s.output.isOpen = false → s.mode ≠ .live →
          exec .atriumDebounceChange s = .next (({ s with
            output := { s.output with isOpen := true }
            port := { s.port with latches := { s.port.latches with interlock := true } } }.notice
              (.interlock true s.mode)).walk))
        ∧ (s.output.atriumClear = false → s.output.isOpen = false → s.mode = .live →
          ∃ t, exec .atriumDebounceChange s = .next (t.notice (.interlock true .live))
            ∧ t.output = { s.output with isOpen := true } ∧ t.port.latches.interlock = true ∧ TowerStopped s t)))

/-! ## What every step keeps -/

/-- Every queue and list holds at most what the part has room for, and the request queue is in order (laws of R17, R39,
R91, R146, R148; law 9). -/
def Obligations.QueuesKept : Prop :=
  ∀ s t : State, s.withinCapacity → s.sched.ordered → step s = .next t → t.withinCapacity ∧ t.sched.ordered

/-- The mall time exists (R2), every step keeps it so. -/
def Obligations.TimeKept : Prop := ∀ s t : State, s.cal.time.inRange → step s = .next t → t.cal.time.inRange

/-- The store is as R21 describes it, and step memory in its canonical form; every step keeps it so. -/
def StoreLawKept : Prop := ∀ s t : State, s.store.lawful → step s = .next t → t.store.lawful

/-- Law 10 (R76): in a lawful store every READY block stays valid, the cursor of every lane in RUNNING or WAITING stays within
the entry it executes, and no lane runs during a compaction. -/
def CursorsKept : Prop :=
  ∀ s t : State, s.store.lawful → s.cursorsInside → step s = .next t → t.cursorsInside

/-- R21, law 10: the store and the cursors in it. -/
def Obligations.StoreKept : Prop := StoreLawKept ∧ CursorsKept

/-- Law 1 (R96): the hammers in FIRING never exceed the energise limit. -/
def FiringKept : Prop := ∀ s t : State, s.withinSupply → step s = .next t → t.withinSupply

/-- Law 2 (R98): whatever happens in a step but a hard reset, each strike that fires on a bell has an expected impact not
before the instant of the guard that still runs, and runs the guard R after it; a guard stops only at its instant. -/
def ImpactsApart : Prop :=
  ∀ s t : State, (∀ cause baud rest, s.pending = .hardReset cause baud :: rest → resetActs cause = false) →
    step s = .next t → ∀ b, GuardKept s.now (s.bell b) (t.bell b)

/-- Laws 1 and 2: the supply and the repeat guard. -/
def Obligations.SupplyKept : Prop := FiringKept ∧ ImpactsApart

/-- Law 3 (R93): queued strikes for one bell stay its repeat guard apart. -/
def SpacingKept : Prop := ∀ s t : State, s.strikesSpaced → step s = .next t → t.strikesSpaced

/-- Law 5 (R105), its second clause: no queued strike is for a DISABLED bell. -/
def NoStrikeForDisabledKept : Prop :=
  ∀ s t : State, s.noStrikeDisabled → step s = .next t → t.noStrikeDisabled

/-- Law 5 (R105), its first clause: every queued strike is owned by LINK or by a lane that is not IDLE. -/
def StrikesOwnedKept : Prop := ∀ s t : State, s.strikesOwned → step s = .next t → t.strikesOwned

/-- R91: the strike queue stays in the order of queued fire instant, bell and entry order. The order of R1 is an order of
instants near each other, so the queued instants are supposed near now. -/
def QueueOrderKept : Prop :=
  ∀ s t : State, s.strikesSpaced → s.strikesNear → s.strikesOrdered → step s = .next t → t.strikesOrdered

/-- Laws 3 and 5, R91: the strike queue. -/
def Obligations.StrikeQueueKept : Prop :=
  SpacingKept ∧ NoStrikeForDisabledKept ∧ StrikesOwnedKept ∧ QueueOrderKept

/-- Law 6 (R114): soft limits and Vmax, with the ranges of an axis's run state (R110). -/
def AxisLawKept : Prop := ∀ s t : State, s.axesLawful → step s = .next t → t.axesLawful

/-- Law 4 (R46): an axis is owned by nobody, by one lane in RUNNING or WAITING, or by the exercise that runs on it. -/
def ClaimsKept : Prop := ∀ s t : State, s.claimsLawful → step s = .next t → t.claimsLawful

/-- R138: in LISTEN no frame is driven; an axis without a configuration holds no reply (log 19). -/
def BusKept : Prop := ∀ s t : State, s.busLawful → step s = .next t → t.busLawful

/-- Laws 4 and 6, R138: the axes, their claims and their bus. -/
def Obligations.AxesKept : Prop := AxisLawKept ∧ ClaimsKept ∧ BusKept

/-- Laws 7 and 8: in every step, whatever command comes and whatever falls due, an output is high only in LIVE with the
interlock closed, and nothing plays while the tower is stopped or in SAFE. -/
def Obligations.TowerKeptSafe : Prop := ∀ s t : State, s.towerSafe → step s = .next t → t.towerSafe

/-- The state after reset has every property that the steps keep, and what those statements suppose. -/
def Obligations.ResetIsLawful : Prop :=
  State.reset.withinCapacity ∧ State.reset.sched.ordered ∧ State.reset.cal.time.inRange ∧ State.reset.store.lawful
    ∧ State.reset.withinSupply ∧ State.reset.strikesSpaced ∧ State.reset.noStrikeDisabled ∧ State.reset.axesLawful
    ∧ State.reset.towerSafe ∧ State.reset.cursorsInside ∧ State.reset.strikesOwned ∧ State.reset.strikesNear
    ∧ State.reset.strikesOrdered ∧ State.reset.claimsLawful ∧ State.reset.busLawful
end

