-- ==== Sys2Proof/Laws/Calendar.lean ====
section
/-! SUPPORT. The mall time stays one that exists (R2, R3): the day after a date, the next second, one microsecond. -/
namespace Sys2Proof.Machine

theorem monthLength_ge (y m : Nat) : 28 ≤ monthLength y m := by
  unfold monthLength
  split
  · split <;> omega
  · split <;> omega

theorem Date.valid_iff (d : Date) : d.valid = true ↔ 2000 ≤ d.year ∧ d.year ≤ 2099 ∧ 1 ≤ d.month ∧ d.month ≤ 12
    ∧ 1 ≤ d.day ∧ d.day ≤ monthLength d.year d.month := by
  simp only [Date.valid, Bool.and_eq_true, decide_eq_true_eq, and_assoc]

theorem Date.next_valid {d : Date} (h : d.valid = true) : d.next.valid = true := by
  rw [Date.valid_iff] at h
  rw [Date.valid_iff]
  unfold Date.next
  split
  · dsimp only
    omega
  · split
    · have := monthLength_ge d.year (d.month + 1)
      dsimp only
      omega
    · split
      · have := monthLength_ge (d.year + 1) 1
        dsimp only
        omega
      · have := monthLength_ge 2000 1
        dsimp only
        omega

theorem DateTime.valid_iff (t : DateTime) :
    t.valid = true ↔ t.date.valid = true ∧ t.hour ≤ 23 ∧ t.minute ≤ 59 ∧ t.second ≤ 59 := by
  simp only [DateTime.valid, Bool.and_eq_true, decide_eq_true_eq, and_assoc]

theorem MallTime.inRange_iff (t : MallTime) : t.inRange ↔
    t.date.valid = true ∧ t.hour ≤ 23 ∧ t.minute ≤ 59 ∧ t.second ≤ 59 ∧ t.milli ≤ 999 ∧ t.micro ≤ 1000 := by
  unfold MallTime.inRange
  rw [DateTime.valid_iff]
  simp only [MallTime.dateTime, and_assoc]

theorem MallTime.nextSecond_inRange {t : MallTime} (h : t.inRange) : t.nextSecond.inRange := by
  rw [MallTime.inRange_iff] at h
  rw [MallTime.inRange_iff]
  obtain ⟨hd, h⟩ := h
  unfold MallTime.nextSecond
  dsimp only
  split
  · exact ⟨hd, by dsimp only; omega⟩
  · split
    · exact ⟨hd, by dsimp only; omega⟩
    · split
      · exact ⟨hd, by dsimp only; omega⟩
      · exact ⟨Date.next_valid hd, by dsimp only; omega⟩

theorem MallTime.tick_inRange {t : MallTime} (h : t.inRange) : t.tick.inRange := by
  rw [MallTime.inRange_iff] at h
  rw [MallTime.inRange_iff]
  obtain ⟨hd, h⟩ := h
  unfold MallTime.tick
  split
  · exact ⟨hd, by dsimp only; omega⟩
  · split
    · exact ⟨hd, by dsimp only; omega⟩
    · exact ⟨hd, by dsimp only; omega⟩

theorem MallTime.aligned_inRange {t : MallTime} (h : t.inRange) :
    MallTime.inRange { t with milli := 0, micro := 0 } :=
  ⟨h.1, Nat.zero_le _, Nat.zero_le _⟩

end Sys2Proof.Machine
end

