-- ==== Sys2Proof/Laws/Requests.lean ====
section
/-! SUPPORT. The request queue stays in order of priority descending and then of arrival (R39, law 9). -/
namespace Sys2Proof.Machine

theorem Scheduler.ordered_congr {c d : Scheduler} (hq : d.queue = c.queue) (ha : d.arrivals = c.arrivals)
    (h : c.ordered) : d.ordered := by
  unfold Scheduler.ordered at *
  rw [hq, ha]
  exact h

theorem Scheduler.ordered_sublist {c d : Scheduler} (hq : d.queue.Sublist c.queue) (ha : d.arrivals = c.arrivals)
    (h : c.ordered) : d.ordered :=
  ⟨fun r hr => ha ▸ h.1 r (hq.subset hr), h.2.sublist hq⟩

theorem Scheduler.ordered_empty {c : Scheduler} (h : c.queue = []) : c.ordered := by
  unfold Scheduler.ordered
  rw [h]
  exact ⟨fun r hr => absurd hr List.not_mem_nil, List.Pairwise.nil⟩

theorem mem_insertRequest {r x : Request} : ∀ {q : List Request}, x ∈ insertRequest r q ↔ x = r ∨ x ∈ q
  | [] => by simp [insertRequest]
  | y :: rest => by
    unfold insertRequest
    split
    · simp
    · rw [List.mem_cons, mem_insertRequest, List.mem_cons]
      constructor
      · rintro (h | h | h)
        · exact .inr (.inl h)
        · exact .inl h
        · exact .inr (.inr h)
      · rintro (h | h | h)
        · exact .inr (.inl h)
        · exact .inl h
        · exact .inr (.inr h)

theorem insertRequest_ordered {r : Request} : ∀ {q : List Request}, (∀ x ∈ q, x.arrival < r.arrival) →
    q.Pairwise Request.precedes → (insertRequest r q).Pairwise Request.precedes
  | [], _, _ => List.pairwise_singleton _ _
  | x :: rest, ha, h => by
    rw [List.pairwise_cons] at h
    unfold insertRequest
    split
    · rename_i hp
      refine List.pairwise_cons.mpr ⟨fun y hy => ?_, List.pairwise_cons.mpr h⟩
      rcases List.mem_cons.mp hy with rfl | hy
      · exact .inl hp
      · rcases h.1 y hy with hx | hx
        · exact .inl (Nat.lt_trans hx hp)
        · exact .inl (hx.1 ▸ hp)
    · rename_i hp
      refine List.pairwise_cons.mpr ⟨fun y hy => ?_,
        insertRequest_ordered (fun z hz => ha z (List.mem_cons_of_mem _ hz)) h.2⟩
      rcases mem_insertRequest.mp hy with rfl | hy
      · have := ha x (List.mem_cons_self ..)
        rcases Nat.lt_or_eq_of_le (Nat.not_lt.mp hp) with hlt | heq
        · exact .inl hlt
        · exact .inr ⟨heq.symm, this⟩
      · exact h.1 y hy

/-- A request that arrives now takes its place. -/
theorem Scheduler.ordered_insert {c d : Scheduler} {r : Request} (hr : r.arrival = c.arrivals)
    (hq : d.queue = insertRequest r c.queue) (ha : d.arrivals = c.arrivals + 1) (h : c.ordered) : d.ordered := by
  refine ⟨fun x hx => ?_, hq ▸ insertRequest_ordered (fun x hx => hr ▸ h.1 x hx) h.2⟩
  rw [hq, mem_insertRequest] at hx
  rw [ha]
  rcases hx with rfl | hx
  · omega
  · have := h.1 x hx
    omega

/-- One microsecond of grace moves no request. -/
theorem Scheduler.ordered_map {c d : Scheduler} {f : Request → Request}
    (hf : ∀ r, (f r).priority = r.priority ∧ (f r).arrival = r.arrival) (hq : d.queue = c.queue.map f)
    (ha : d.arrivals = c.arrivals) (h : c.ordered) : d.ordered := by
  refine ⟨fun r hr => ?_, ?_⟩
  · rw [hq] at hr
    obtain ⟨x, hx, rfl⟩ := List.mem_map.mp hr
    rw [(hf x).2, ha]
    exact h.1 x hx
  · rw [hq, List.pairwise_map]
    refine h.2.imp fun {x y} hxy => ?_
    unfold Request.precedes
    rw [(hf x).1, (hf y).1, (hf x).2, (hf y).2]
    exact hxy

end Sys2Proof.Machine
end

