-- ==== Sys2Proof/Laws/State.lean ====
section
/-! SUPPORT. One lemma for each field of State under each named update of State. -/
namespace Sys2Proof.Machine

section Updates

variable (s : State)

@[simp] theorem State.setBell_now (b : BellNo) (x : Bell) : (s.setBell b x).now = s.now := rfl
@[simp] theorem State.setBell_cycle (b : BellNo) (x : Bell) : (s.setBell b x).cycle = s.cycle := rfl
@[simp] theorem State.setBell_cal (b : BellNo) (x : Bell) : (s.setBell b x).cal = s.cal := rfl
@[simp] theorem State.setBell_store (b : BellNo) (x : Bell) : (s.setBell b x).store = s.store := rfl
@[simp] theorem State.setBell_sched (b : BellNo) (x : Bell) : (s.setBell b x).sched = s.sched := rfl
@[simp] theorem State.setBell_lanes (b : BellNo) (x : Bell) : (s.setBell b x).lanes = s.lanes := rfl
@[simp] theorem State.setBell_strikes (b : BellNo) (x : Bell) : (s.setBell b x).strikes = { s.strikes with bells := tset s.strikes.bells b x } := rfl
@[simp] theorem State.setBell_motion (b : BellNo) (x : Bell) : (s.setBell b x).motion = s.motion := rfl
@[simp] theorem State.setBell_verifier (b : BellNo) (x : Bell) : (s.setBell b x).verifier = s.verifier := rfl
@[simp] theorem State.setBell_exercise (b : BellNo) (x : Bell) : (s.setBell b x).exercise = s.exercise := rfl
@[simp] theorem State.setBell_output (b : BellNo) (x : Bell) : (s.setBell b x).output = s.output := rfl
@[simp] theorem State.setBell_port (b : BellNo) (x : Bell) : (s.setBell b x).port = s.port := rfl
@[simp] theorem State.setBell_choices (b : BellNo) (x : Bell) : (s.setBell b x).choices = s.choices := rfl
@[simp] theorem State.setBell_pending (b : BellNo) (x : Bell) : (s.setBell b x).pending = s.pending := rfl

@[simp] theorem State.setAxis_now (a : AxisNo) (x : Axis) : (s.setAxis a x).now = s.now := rfl
@[simp] theorem State.setAxis_cycle (a : AxisNo) (x : Axis) : (s.setAxis a x).cycle = s.cycle := rfl
@[simp] theorem State.setAxis_cal (a : AxisNo) (x : Axis) : (s.setAxis a x).cal = s.cal := rfl
@[simp] theorem State.setAxis_store (a : AxisNo) (x : Axis) : (s.setAxis a x).store = s.store := rfl
@[simp] theorem State.setAxis_sched (a : AxisNo) (x : Axis) : (s.setAxis a x).sched = s.sched := rfl
@[simp] theorem State.setAxis_lanes (a : AxisNo) (x : Axis) : (s.setAxis a x).lanes = s.lanes := rfl
@[simp] theorem State.setAxis_strikes (a : AxisNo) (x : Axis) : (s.setAxis a x).strikes = s.strikes := rfl
@[simp] theorem State.setAxis_motion (a : AxisNo) (x : Axis) : (s.setAxis a x).motion = { s.motion with axes := tset s.motion.axes a x } := rfl
@[simp] theorem State.setAxis_verifier (a : AxisNo) (x : Axis) : (s.setAxis a x).verifier = s.verifier := rfl
@[simp] theorem State.setAxis_exercise (a : AxisNo) (x : Axis) : (s.setAxis a x).exercise = s.exercise := rfl
@[simp] theorem State.setAxis_output (a : AxisNo) (x : Axis) : (s.setAxis a x).output = s.output := rfl
@[simp] theorem State.setAxis_port (a : AxisNo) (x : Axis) : (s.setAxis a x).port = s.port := rfl
@[simp] theorem State.setAxis_choices (a : AxisNo) (x : Axis) : (s.setAxis a x).choices = s.choices := rfl
@[simp] theorem State.setAxis_pending (a : AxisNo) (x : Axis) : (s.setAxis a x).pending = s.pending := rfl

@[simp] theorem State.setLane_now (n : LaneNo) (x : Lane) : (s.setLane n x).now = s.now := rfl
@[simp] theorem State.setLane_cycle (n : LaneNo) (x : Lane) : (s.setLane n x).cycle = s.cycle := rfl
@[simp] theorem State.setLane_cal (n : LaneNo) (x : Lane) : (s.setLane n x).cal = s.cal := rfl
@[simp] theorem State.setLane_store (n : LaneNo) (x : Lane) : (s.setLane n x).store = s.store := rfl
@[simp] theorem State.setLane_sched (n : LaneNo) (x : Lane) : (s.setLane n x).sched = s.sched := rfl
@[simp] theorem State.setLane_lanes (n : LaneNo) (x : Lane) : (s.setLane n x).lanes = tset s.lanes n x := rfl
@[simp] theorem State.setLane_strikes (n : LaneNo) (x : Lane) : (s.setLane n x).strikes = s.strikes := rfl
@[simp] theorem State.setLane_motion (n : LaneNo) (x : Lane) : (s.setLane n x).motion = s.motion := rfl
@[simp] theorem State.setLane_verifier (n : LaneNo) (x : Lane) : (s.setLane n x).verifier = s.verifier := rfl
@[simp] theorem State.setLane_exercise (n : LaneNo) (x : Lane) : (s.setLane n x).exercise = s.exercise := rfl
@[simp] theorem State.setLane_output (n : LaneNo) (x : Lane) : (s.setLane n x).output = s.output := rfl
@[simp] theorem State.setLane_port (n : LaneNo) (x : Lane) : (s.setLane n x).port = s.port := rfl
@[simp] theorem State.setLane_choices (n : LaneNo) (x : Lane) : (s.setLane n x).choices = s.choices := rfl
@[simp] theorem State.setLane_pending (n : LaneNo) (x : Lane) : (s.setLane n x).pending = s.pending := rfl

@[simp] theorem State.setRun_now (n : LaneNo) (r : Run) : (s.setRun n r).now = s.now := rfl
@[simp] theorem State.setRun_cycle (n : LaneNo) (r : Run) : (s.setRun n r).cycle = s.cycle := rfl
@[simp] theorem State.setRun_cal (n : LaneNo) (r : Run) : (s.setRun n r).cal = s.cal := rfl
@[simp] theorem State.setRun_store (n : LaneNo) (r : Run) : (s.setRun n r).store = s.store := rfl
@[simp] theorem State.setRun_sched (n : LaneNo) (r : Run) : (s.setRun n r).sched = s.sched := rfl
@[simp] theorem State.setRun_lanes (n : LaneNo) (r : Run) : (s.setRun n r).lanes = tset s.lanes n { s.lane n with run := some r } := rfl
@[simp] theorem State.setRun_strikes (n : LaneNo) (r : Run) : (s.setRun n r).strikes = s.strikes := rfl
@[simp] theorem State.setRun_motion (n : LaneNo) (r : Run) : (s.setRun n r).motion = s.motion := rfl
@[simp] theorem State.setRun_verifier (n : LaneNo) (r : Run) : (s.setRun n r).verifier = s.verifier := rfl
@[simp] theorem State.setRun_exercise (n : LaneNo) (r : Run) : (s.setRun n r).exercise = s.exercise := rfl
@[simp] theorem State.setRun_output (n : LaneNo) (r : Run) : (s.setRun n r).output = s.output := rfl
@[simp] theorem State.setRun_port (n : LaneNo) (r : Run) : (s.setRun n r).port = s.port := rfl
@[simp] theorem State.setRun_choices (n : LaneNo) (r : Run) : (s.setRun n r).choices = s.choices := rfl
@[simp] theorem State.setRun_pending (n : LaneNo) (r : Run) : (s.setRun n r).pending = s.pending := rfl

@[simp] theorem State.setClaim_now (a : AxisNo) (o : Option Owner) : (s.setClaim a o).now = s.now := rfl
@[simp] theorem State.setClaim_cycle (a : AxisNo) (o : Option Owner) : (s.setClaim a o).cycle = s.cycle := rfl
@[simp] theorem State.setClaim_cal (a : AxisNo) (o : Option Owner) : (s.setClaim a o).cal = s.cal := rfl
@[simp] theorem State.setClaim_store (a : AxisNo) (o : Option Owner) : (s.setClaim a o).store = s.store := rfl
@[simp] theorem State.setClaim_sched (a : AxisNo) (o : Option Owner) : (s.setClaim a o).sched = { s.sched with claims := tset s.sched.claims a o } := rfl
@[simp] theorem State.setClaim_lanes (a : AxisNo) (o : Option Owner) : (s.setClaim a o).lanes = s.lanes := rfl
@[simp] theorem State.setClaim_strikes (a : AxisNo) (o : Option Owner) : (s.setClaim a o).strikes = s.strikes := rfl
@[simp] theorem State.setClaim_motion (a : AxisNo) (o : Option Owner) : (s.setClaim a o).motion = s.motion := rfl
@[simp] theorem State.setClaim_verifier (a : AxisNo) (o : Option Owner) : (s.setClaim a o).verifier = s.verifier := rfl
@[simp] theorem State.setClaim_exercise (a : AxisNo) (o : Option Owner) : (s.setClaim a o).exercise = s.exercise := rfl
@[simp] theorem State.setClaim_output (a : AxisNo) (o : Option Owner) : (s.setClaim a o).output = s.output := rfl
@[simp] theorem State.setClaim_port (a : AxisNo) (o : Option Owner) : (s.setClaim a o).port = s.port := rfl
@[simp] theorem State.setClaim_choices (a : AxisNo) (o : Option Owner) : (s.setClaim a o).choices = s.choices := rfl
@[simp] theorem State.setClaim_pending (a : AxisNo) (o : Option Owner) : (s.setClaim a o).pending = s.pending := rfl

@[simp] theorem State.setQueue_now (q : List Strike) : (s.setQueue q).now = s.now := rfl
@[simp] theorem State.setQueue_cycle (q : List Strike) : (s.setQueue q).cycle = s.cycle := rfl
@[simp] theorem State.setQueue_cal (q : List Strike) : (s.setQueue q).cal = s.cal := rfl
@[simp] theorem State.setQueue_store (q : List Strike) : (s.setQueue q).store = s.store := rfl
@[simp] theorem State.setQueue_sched (q : List Strike) : (s.setQueue q).sched = s.sched := rfl
@[simp] theorem State.setQueue_lanes (q : List Strike) : (s.setQueue q).lanes = s.lanes := rfl
@[simp] theorem State.setQueue_strikes (q : List Strike) : (s.setQueue q).strikes = { s.strikes with queue := q } := rfl
@[simp] theorem State.setQueue_motion (q : List Strike) : (s.setQueue q).motion = s.motion := rfl
@[simp] theorem State.setQueue_verifier (q : List Strike) : (s.setQueue q).verifier = s.verifier := rfl
@[simp] theorem State.setQueue_exercise (q : List Strike) : (s.setQueue q).exercise = s.exercise := rfl
@[simp] theorem State.setQueue_output (q : List Strike) : (s.setQueue q).output = s.output := rfl
@[simp] theorem State.setQueue_port (q : List Strike) : (s.setQueue q).port = s.port := rfl
@[simp] theorem State.setQueue_choices (q : List Strike) : (s.setQueue q).choices = s.choices := rfl
@[simp] theorem State.setQueue_pending (q : List Strike) : (s.setQueue q).pending = s.pending := rfl

@[simp] theorem State.setRequests_now (q : List Request) : (s.setRequests q).now = s.now := rfl
@[simp] theorem State.setRequests_cycle (q : List Request) : (s.setRequests q).cycle = s.cycle := rfl
@[simp] theorem State.setRequests_cal (q : List Request) : (s.setRequests q).cal = s.cal := rfl
@[simp] theorem State.setRequests_store (q : List Request) : (s.setRequests q).store = s.store := rfl
@[simp] theorem State.setRequests_sched (q : List Request) : (s.setRequests q).sched = { s.sched with queue := q } := rfl
@[simp] theorem State.setRequests_lanes (q : List Request) : (s.setRequests q).lanes = s.lanes := rfl
@[simp] theorem State.setRequests_strikes (q : List Request) : (s.setRequests q).strikes = s.strikes := rfl
@[simp] theorem State.setRequests_motion (q : List Request) : (s.setRequests q).motion = s.motion := rfl
@[simp] theorem State.setRequests_verifier (q : List Request) : (s.setRequests q).verifier = s.verifier := rfl
@[simp] theorem State.setRequests_exercise (q : List Request) : (s.setRequests q).exercise = s.exercise := rfl
@[simp] theorem State.setRequests_output (q : List Request) : (s.setRequests q).output = s.output := rfl
@[simp] theorem State.setRequests_port (q : List Request) : (s.setRequests q).port = s.port := rfl
@[simp] theorem State.setRequests_choices (q : List Request) : (s.setRequests q).choices = s.choices := rfl
@[simp] theorem State.setRequests_pending (q : List Request) : (s.setRequests q).pending = s.pending := rfl

@[simp] theorem State.setStore_now (st : Store) : (s.setStore st).now = s.now := rfl
@[simp] theorem State.setStore_cycle (st : Store) : (s.setStore st).cycle = s.cycle := rfl
@[simp] theorem State.setStore_cal (st : Store) : (s.setStore st).cal = s.cal := rfl
@[simp] theorem State.setStore_store (st : Store) : (s.setStore st).store = st := rfl
@[simp] theorem State.setStore_sched (st : Store) : (s.setStore st).sched = s.sched := rfl
@[simp] theorem State.setStore_lanes (st : Store) : (s.setStore st).lanes = s.lanes := rfl
@[simp] theorem State.setStore_strikes (st : Store) : (s.setStore st).strikes = s.strikes := rfl
@[simp] theorem State.setStore_motion (st : Store) : (s.setStore st).motion = s.motion := rfl
@[simp] theorem State.setStore_verifier (st : Store) : (s.setStore st).verifier = s.verifier := rfl
@[simp] theorem State.setStore_exercise (st : Store) : (s.setStore st).exercise = s.exercise := rfl
@[simp] theorem State.setStore_output (st : Store) : (s.setStore st).output = s.output := rfl
@[simp] theorem State.setStore_port (st : Store) : (s.setStore st).port = s.port := rfl
@[simp] theorem State.setStore_choices (st : Store) : (s.setStore st).choices = s.choices := rfl
@[simp] theorem State.setStore_pending (st : Store) : (s.setStore st).pending = s.pending := rfl

@[simp] theorem State.latch_now (f : Latches → Latches) : (s.latch f).now = s.now := rfl
@[simp] theorem State.latch_cycle (f : Latches → Latches) : (s.latch f).cycle = s.cycle := rfl
@[simp] theorem State.latch_cal (f : Latches → Latches) : (s.latch f).cal = s.cal := rfl
@[simp] theorem State.latch_store (f : Latches → Latches) : (s.latch f).store = s.store := rfl
@[simp] theorem State.latch_sched (f : Latches → Latches) : (s.latch f).sched = s.sched := rfl
@[simp] theorem State.latch_lanes (f : Latches → Latches) : (s.latch f).lanes = s.lanes := rfl
@[simp] theorem State.latch_strikes (f : Latches → Latches) : (s.latch f).strikes = s.strikes := rfl
@[simp] theorem State.latch_motion (f : Latches → Latches) : (s.latch f).motion = s.motion := rfl
@[simp] theorem State.latch_verifier (f : Latches → Latches) : (s.latch f).verifier = s.verifier := rfl
@[simp] theorem State.latch_exercise (f : Latches → Latches) : (s.latch f).exercise = s.exercise := rfl
@[simp] theorem State.latch_output (f : Latches → Latches) : (s.latch f).output = s.output := rfl
@[simp] theorem State.latch_port (f : Latches → Latches) : (s.latch f).port = { s.port with latches := f s.port.latches } := rfl
@[simp] theorem State.latch_choices (f : Latches → Latches) : (s.latch f).choices = s.choices := rfl
@[simp] theorem State.latch_pending (f : Latches → Latches) : (s.latch f).pending = s.pending := rfl

@[simp] theorem State.notice_now (n : Notice) : (s.notice n).now = s.now := rfl
@[simp] theorem State.notice_cycle (n : Notice) : (s.notice n).cycle = s.cycle := rfl
@[simp] theorem State.notice_cal (n : Notice) : (s.notice n).cal = s.cal := rfl
@[simp] theorem State.notice_store (n : Notice) : (s.notice n).store = s.store := rfl
@[simp] theorem State.notice_sched (n : Notice) : (s.notice n).sched = s.sched := rfl
@[simp] theorem State.notice_lanes (n : Notice) : (s.notice n).lanes = s.lanes := rfl
@[simp] theorem State.notice_strikes (n : Notice) : (s.notice n).strikes = s.strikes := rfl
@[simp] theorem State.notice_motion (n : Notice) : (s.notice n).motion = s.motion := rfl
@[simp] theorem State.notice_verifier (n : Notice) : (s.notice n).verifier = s.verifier := rfl
@[simp] theorem State.notice_exercise (n : Notice) : (s.notice n).exercise = s.exercise := rfl
@[simp] theorem State.notice_output (n : Notice) : (s.notice n).output = s.output := rfl
@[simp] theorem State.notice_port (n : Notice) : (s.notice n).port = s.port.enterNotice s.now n := rfl
@[simp] theorem State.notice_choices (n : Notice) : (s.notice n).choices = s.choices := rfl
@[simp] theorem State.notice_pending (n : Notice) : (s.notice n).pending = s.pending := rfl

@[simp] theorem State.reply_now (tag kind : Byte) (r : Result) (fields : List Byte) : (s.reply tag kind r fields).now = s.now := rfl
@[simp] theorem State.reply_cycle (tag kind : Byte) (r : Result) (fields : List Byte) : (s.reply tag kind r fields).cycle = s.cycle := rfl
@[simp] theorem State.reply_cal (tag kind : Byte) (r : Result) (fields : List Byte) : (s.reply tag kind r fields).cal = s.cal := rfl
@[simp] theorem State.reply_store (tag kind : Byte) (r : Result) (fields : List Byte) : (s.reply tag kind r fields).store = s.store := rfl
@[simp] theorem State.reply_sched (tag kind : Byte) (r : Result) (fields : List Byte) : (s.reply tag kind r fields).sched = s.sched := rfl
@[simp] theorem State.reply_lanes (tag kind : Byte) (r : Result) (fields : List Byte) : (s.reply tag kind r fields).lanes = s.lanes := rfl
@[simp] theorem State.reply_strikes (tag kind : Byte) (r : Result) (fields : List Byte) : (s.reply tag kind r fields).strikes = s.strikes := rfl
@[simp] theorem State.reply_motion (tag kind : Byte) (r : Result) (fields : List Byte) : (s.reply tag kind r fields).motion = s.motion := rfl
@[simp] theorem State.reply_verifier (tag kind : Byte) (r : Result) (fields : List Byte) : (s.reply tag kind r fields).verifier = s.verifier := rfl
@[simp] theorem State.reply_exercise (tag kind : Byte) (r : Result) (fields : List Byte) : (s.reply tag kind r fields).exercise = s.exercise := rfl
@[simp] theorem State.reply_output (tag kind : Byte) (r : Result) (fields : List Byte) : (s.reply tag kind r fields).output = s.output := rfl
@[simp] theorem State.reply_port (tag kind : Byte) (r : Result) (fields : List Byte) : (s.reply tag kind r fields).port = s.port.enterReply s.now (replyFrame tag kind r fields) := rfl
@[simp] theorem State.reply_choices (tag kind : Byte) (r : Result) (fields : List Byte) : (s.reply tag kind r fields).choices = s.choices := rfl
@[simp] theorem State.reply_pending (tag kind : Byte) (r : Result) (fields : List Byte) : (s.reply tag kind r fields).pending = s.pending := rfl

@[simp] theorem State.offer_now (f : RxFrame) : (s.offer f).now = s.now := rfl
@[simp] theorem State.offer_cycle (f : RxFrame) : (s.offer f).cycle = s.cycle := rfl
@[simp] theorem State.offer_cal (f : RxFrame) : (s.offer f).cal = s.cal := rfl
@[simp] theorem State.offer_store (f : RxFrame) : (s.offer f).store = s.store := rfl
@[simp] theorem State.offer_sched (f : RxFrame) : (s.offer f).sched = s.sched := rfl
@[simp] theorem State.offer_lanes (f : RxFrame) : (s.offer f).lanes = s.lanes := rfl
@[simp] theorem State.offer_strikes (f : RxFrame) : (s.offer f).strikes = s.strikes := rfl
@[simp] theorem State.offer_motion (f : RxFrame) : (s.offer f).motion = s.motion := rfl
@[simp] theorem State.offer_verifier (f : RxFrame) : (s.offer f).verifier = s.verifier := rfl
@[simp] theorem State.offer_exercise (f : RxFrame) : (s.offer f).exercise = s.exercise := rfl
@[simp] theorem State.offer_output (f : RxFrame) : (s.offer f).output = s.output := rfl
@[simp] theorem State.offer_port (f : RxFrame) : (s.offer f).port = s.port.offer s.now f := rfl
@[simp] theorem State.offer_choices (f : RxFrame) : (s.offer f).choices = s.choices := rfl
@[simp] theorem State.offer_pending (f : RxFrame) : (s.offer f).pending = s.pending := rfl

@[simp] theorem State.nextChoice_now : (s.nextChoice).now = s.now := rfl
@[simp] theorem State.nextChoice_cycle : (s.nextChoice).cycle = s.cycle := rfl
@[simp] theorem State.nextChoice_cal : (s.nextChoice).cal = s.cal := rfl
@[simp] theorem State.nextChoice_store : (s.nextChoice).store = s.store := rfl
@[simp] theorem State.nextChoice_sched : (s.nextChoice).sched = s.sched := rfl
@[simp] theorem State.nextChoice_lanes : (s.nextChoice).lanes = s.lanes := rfl
@[simp] theorem State.nextChoice_strikes : (s.nextChoice).strikes = s.strikes := rfl
@[simp] theorem State.nextChoice_motion : (s.nextChoice).motion = s.motion := rfl
@[simp] theorem State.nextChoice_verifier : (s.nextChoice).verifier = s.verifier := rfl
@[simp] theorem State.nextChoice_exercise : (s.nextChoice).exercise = s.exercise := rfl
@[simp] theorem State.nextChoice_output : (s.nextChoice).output = s.output := rfl
@[simp] theorem State.nextChoice_port : (s.nextChoice).port = s.port := rfl
@[simp] theorem State.nextChoice_choices : (s.nextChoice).choices = s.choices + 1 := rfl
@[simp] theorem State.nextChoice_pending : (s.nextChoice).pending = s.pending := rfl

end Updates

end Sys2Proof.Machine
end

