-- ==== Sys2Proof/Laws/Tables.lean ====
section
/-! SUPPORT. Reading a table after an entry has been written, and the accessors of State after the named updates. -/
namespace Sys2Proof.Machine

theorem tget_tset {α : Type} {n : Nat} (t : Vector α n) (i j : Fin n) (x : α) :
    tget (tset t i x) j = if i = j then x else tget t j := by
  unfold tget tset
  rw [Vector.getElem_set]
  simp [Fin.ext_iff]

@[simp] theorem tget_tset_self {α : Type} {n : Nat} (t : Vector α n) (i : Fin n) (x : α) :
    tget (tset t i x) i = x := by rw [tget_tset]; simp

theorem tget_tset_of_ne {α : Type} {n : Nat} (t : Vector α n) {i j : Fin n} (x : α) (h : i ≠ j) :
    tget (tset t i x) j = tget t j := by rw [tget_tset]; simp [h]

@[simp] theorem tget_ofFn {α : Type} {n : Nat} (f : Fin n → α) (i : Fin n) : tget (Vector.ofFn f) i = f i := by
  simp [tget]

@[simp] theorem tget_replicate {α : Type} {n : Nat} (x : α) (i : Fin n) : tget (Vector.replicate n x) i = x := by
  simp [tget]

@[simp] theorem mem_indexes {n : Nat} (i : Fin n) : i ∈ indexes n := List.mem_finRange i

section Accessors

variable (s : State)

theorem State.setBell_bell (b c : BellNo) (x : Bell) : (s.setBell b x).bell c = if b = c then x else s.bell c :=
  tget_tset _ _ _ _

@[simp] theorem State.setBell_bell_self (b : BellNo) (x : Bell) : (s.setBell b x).bell b = x := tget_tset_self _ _ _

theorem State.setAxis_axis (a c : AxisNo) (x : Axis) : (s.setAxis a x).axis c = if a = c then x else s.axis c :=
  tget_tset _ _ _ _

@[simp] theorem State.setAxis_axis_self (a : AxisNo) (x : Axis) : (s.setAxis a x).axis a = x := tget_tset_self _ _ _

theorem State.setLane_lane (n m : LaneNo) (x : Lane) : (s.setLane n x).lane m = if n = m then x else s.lane m :=
  tget_tset _ _ _ _

@[simp] theorem State.setLane_lane_self (n : LaneNo) (x : Lane) : (s.setLane n x).lane n = x := tget_tset_self _ _ _

@[simp] theorem State.setRun_run_self (n : LaneNo) (r : Run) : ((s.setRun n r).lane n).run = some r := by
  simp [State.setRun]

theorem State.setClaim_claim (a c : AxisNo) (o : Option Owner) :
    (s.setClaim a o).claim c = if a = c then o else s.claim c :=
  tget_tset _ _ _ _

end Accessors

/-! ## Folds -/

/-- A relation that holds along every step of a fold, and is reflexive and transitive, holds of the whole fold. -/
theorem foldl_rel {α β : Type} (R : α → α → Prop) (refl : ∀ a, R a a) (trans : ∀ {a b c}, R a b → R b c → R a c)
    (f : α → β → α) (h : ∀ a b, R a (f a b)) (l : List β) : ∀ a, R a (l.foldl f a) := by
  induction l with
  | nil => exact fun a => refl a
  | cons b rest ih => exact fun a => trans (h a b) (ih (f a b))

end Sys2Proof.Machine
end

