-- ==== Sys2Proof/Laws/Memory.lean ====
section
/-! SUPPORT. Step memory: every operation keeps the canonical form, and what a byte reads as after a write. -/
namespace Sys2Proof.Machine

namespace Memory

theorem wfFrom_mono {lo hi : Nat} (h : lo ≤ hi) : ∀ {m : Memory}, wfFrom hi m = true → wfFrom lo m = true
  | [], _ => rfl
  | (k, v) :: rest, hm => by
    simp only [wfFrom, Bool.and_eq_true, decide_eq_true_eq] at hm ⊢
    exact ⟨⟨Nat.le_trans h hm.1.1, hm.1.2⟩, hm.2⟩

theorem writeByte_wfFrom (a : Nat) (b : Byte) :
    ∀ {lo : Nat} {m : Memory}, lo ≤ a → wfFrom lo m = true → wfFrom lo (m.writeByte a b) = true
  | lo, [], hlo, _ => by
    unfold writeByte
    split
    · rfl
    · next hb => simp [wfFrom, hlo, hb]
  | lo, (k, v) :: rest, hlo, hm => by
    simp only [wfFrom, Bool.and_eq_true, decide_eq_true_eq] at hm
    obtain ⟨⟨hk, hv⟩, hr⟩ := hm
    unfold writeByte
    split
    · next hak =>
      split
      · simp [wfFrom, hk, hr]; simpa using hv
      · next hb =>
        simp only [wfFrom, Bool.and_eq_true, decide_eq_true_eq, bne_iff_ne]
        exact ⟨⟨hlo, hb⟩, ⟨by omega, by simpa using hv⟩, hr⟩
    · next hak =>
      split
      · next heq =>
        split
        · exact wfFrom_mono (by omega) hr
        · next hb =>
          simp only [wfFrom, Bool.and_eq_true, decide_eq_true_eq, bne_iff_ne]
          exact ⟨⟨hlo, hb⟩, heq ▸ hr⟩
      · next hne =>
        simp only [wfFrom, Bool.and_eq_true, decide_eq_true_eq]
        exact ⟨⟨hk, hv⟩, writeByte_wfFrom a b (by omega) hr⟩

/-- Writing a byte keeps the canonical form. -/
theorem writeByte_wf {m : Memory} (a : Nat) (b : Byte) (h : m.wf = true) : (m.writeByte a b).wf = true :=
  writeByte_wfFrom a b (Nat.zero_le a) h

/-- A byte at another address reads as before. -/
theorem readByte_writeByte_of_ne {a c : Nat} (b : Byte) (h : c ≠ a) :
    ∀ m : Memory, (m.writeByte a b).readByte c = m.readByte c
  | [] => by
    unfold writeByte
    split <;> simp [readByte, h]
  | (k, v) :: rest => by
    have ih := readByte_writeByte_of_ne b h rest
    unfold writeByte
    by_cases h1 : a < k
    · by_cases hb : b = unlistedByte <;> simp [h1, hb, readByte, h]
    · by_cases h2 : a = k
      · subst h2
        by_cases hb : b = unlistedByte <;> simp [hb, readByte, h]
      · simp [h1, h2, readByte, ih]

theorem readByte_below : ∀ {lo a : Nat} {m : Memory}, wfFrom lo m = true → a < lo → m.readByte a = unlistedByte
  | _, _, [], _, _ => rfl
  | lo, a, (k, v) :: rest, hm, ha => by
    simp only [wfFrom, Bool.and_eq_true, decide_eq_true_eq] at hm
    have : a ≠ k := by omega
    simp [readByte, this, readByte_below hm.2 (by omega : a < k + 1)]

theorem readByte_writeByte_from (a : Nat) (b : Byte) :
    ∀ {lo : Nat} {m : Memory}, wfFrom lo m = true → (m.writeByte a b).readByte a = b
  | lo, [], _ => by
    unfold writeByte
    split
    · next hb => simp [readByte, hb]
    · simp [readByte]
  | lo, (k, v) :: rest, hm => by
    simp only [wfFrom, Bool.and_eq_true, decide_eq_true_eq] at hm
    have ih := readByte_writeByte_from a b hm.2
    unfold writeByte
    by_cases h1 : a < k
    · by_cases hb : b = unlistedByte
      · have : a ≠ k := by omega
        simp [h1, hb, readByte, this, readByte_below hm.2 (by omega : a < k + 1)]
      · simp [h1, hb, readByte]
    · by_cases h2 : a = k
      · subst h2
        by_cases hb : b = unlistedByte
        · simp [hb, readByte_below hm.2 (by omega : a < a + 1)]
        · simp [hb, readByte]
      · simp [h1, h2, readByte, ih]

/-- A byte written reads as written. -/
theorem readByte_writeByte_self {m : Memory} (a : Nat) (b : Byte) (h : m.wf = true) :
    (m.writeByte a b).readByte a = b :=
  readByte_writeByte_from a b h


/-! ## Slots -/

theorem writeSlot_wf {m : Memory} (slot : Nat) (w : StepWord) (h : m.wf = true) : (m.writeSlot slot w).wf = true := by
  unfold writeSlot
  generalize List.range 8 = l
  induction l generalizing m with
  | nil => exact h
  | cons i rest ih => exact ih (writeByte_wf _ _ h)

/-- A byte outside a slot reads as before the slot was written. -/
theorem readByte_writeSlot_of_outside (m : Memory) (slot a : Nat) (w : StepWord) (h : a < 8 * slot ∨ 8 * slot + 8 ≤ a) :
    (m.writeSlot slot w).readByte a = m.readByte a := by
  unfold writeSlot
  have hl : ∀ i ∈ List.range 8, a ≠ 8 * slot + i := by
    intro i hi
    have := List.mem_range.mp hi
    omega
  revert hl
  generalize List.range 8 = l
  intro hl
  induction l generalizing m with
  | nil => rfl
  | cons i rest ih =>
    rw [List.foldl_cons, ih _ fun j hj => hl j (List.mem_cons_of_mem _ hj)]
    exact readByte_writeByte_of_ne _ (hl i List.mem_cons_self) m

theorem writeSlots_wf : ∀ (ws : List StepWord) {m : Memory} (slot : Nat), m.wf = true → (m.writeSlots slot ws).wf = true
  | [], _, _, h => h
  | w :: rest, _, slot, h => writeSlots_wf rest (slot + 1) (writeSlot_wf slot w h)

/-- A byte outside the slots written reads as before. -/
theorem readByte_writeSlots_of_outside (a : Nat) : ∀ (ws : List StepWord) (m : Memory) (slot : Nat),
    (a < 8 * slot ∨ 8 * (slot + ws.length) ≤ a) → (m.writeSlots slot ws).readByte a = m.readByte a
  | [], _, _, _ => rfl
  | w :: rest, m, slot, h => by
    simp only [List.length_cons] at h
    rw [writeSlots, readByte_writeSlots_of_outside a rest _ _ (by omega)]
    exact readByte_writeSlot_of_outside m slot a w (by omega)

theorem moveSlots_wf {m : Memory} (src dst : Nat) (h : m.wf = true) : ∀ n, (m.moveSlots src dst n).wf = true
  | 0 => h
  | n + 1 => writeSlot_wf _ _ (moveSlots_wf src dst h n)

theorem reset_wf : State.reset.store.mem.wf = true := rfl

end Memory

/-- A compaction keeps the canonical form of step memory. -/
theorem compactFrom_wf : ∀ (l : List (Fin 64 × Block)) (pos : Nat) (st : Store), st.mem.wf = true →
    (compactFrom pos l st).mem.wf = true
  | [], _, _, h => h
  | (i, b) :: rest, pos, st, h => by
    unfold compactFrom
    apply compactFrom_wf rest
    split
    · exact h
    · exact Memory.moveSlots_wf _ _ h _

theorem Store.compacted_wf (st : Store) (h : st.mem.wf = true) : st.compacted.mem.wf = true :=
  compactFrom_wf _ _ _ h

end Sys2Proof.Machine
end

