-- ==== Sys2Proof/Laws/Store.lean ====
section
/-! SUPPORT. The show store stays lawful (R21): free runs lie outside every block, first fit allocates a free run, and a
compaction moves blocks down without overlap. -/
namespace Sys2Proof.Machine

/-! ## Addresses of step memory -/

theorem Memory.mem_writeByte {c : Host.Cell} {a : Nat} {b : Byte} :
    ∀ {m : Memory}, c ∈ m.writeByte a b → c ∈ m ∨ c.1 = a
  | [], h => by
    unfold Memory.writeByte at h
    split at h
    · exact absurd h List.not_mem_nil
    · rw [List.mem_singleton] at h
      exact .inr (by rw [h])
  | (k, v) :: rest, h => by
    unfold Memory.writeByte at h
    split at h
    · split at h
      · exact .inl h
      · rcases List.mem_cons.mp h with rfl | h
        · exact .inr rfl
        · exact .inl h
    · split at h
      · split at h
        · exact .inl (List.mem_cons_of_mem _ h)
        · rcases List.mem_cons.mp h with rfl | h
          · exact .inr rfl
          · exact .inl (List.mem_cons_of_mem _ h)
      · rcases List.mem_cons.mp h with rfl | h
        · exact .inl (List.mem_cons_self ..)
        · rcases Memory.mem_writeByte h with h | h
          · exact .inl (List.mem_cons_of_mem _ h)
          · exact .inr h

/-- Every listed address is below a bound. -/
def Memory.below (m : Memory) (n : Nat) : Prop := ∀ c ∈ m, c.1 < n

theorem Memory.below_writeSlot {m : Memory} {n : Nat} (slot : Nat) (w : StepWord) (hs : 8 * slot + 8 ≤ n)
    (h : m.below n) : (m.writeSlot slot w).below n := by
  unfold Memory.writeSlot
  have hl : ∀ i ∈ List.range 8, i < 8 := fun i hi => List.mem_range.mp hi
  generalize List.range 8 = l at hl
  induction l generalizing m with
  | nil => exact h
  | cons i rest ih =>
    refine ih ?_ fun j hj => hl j (List.mem_cons_of_mem _ hj)
    intro c hc
    rcases Memory.mem_writeByte hc with hc | hc
    · exact h c hc
    · have := hl i (List.mem_cons_self ..)
      omega

theorem Memory.below_writeSlots {n : Nat} : ∀ (ws : List StepWord) {m : Memory} (slot : Nat),
    8 * (slot + ws.length) ≤ n → m.below n → (m.writeSlots slot ws).below n
  | [], _, _, _, h => h
  | w :: rest, m, slot, hs, h => by
    simp only [List.length_cons] at hs
    exact Memory.below_writeSlots rest (slot + 1) (by omega) (Memory.below_writeSlot slot w (by omega) h)

theorem Memory.below_moveSlots {m : Memory} {n : Nat} (src dst : Nat) (h : m.below n) :
    ∀ k, 8 * (dst + k) ≤ n → (m.moveSlots src dst k).below n
  | 0, _ => h
  | k + 1, hs => Memory.below_writeSlot _ _ (by omega) (Memory.below_moveSlots src dst h k (by omega))

/-! ## Blocks in order -/

/-- Two blocks do not overlap. -/
def Block.apart (b c : Block) : Prop := b.first + b.count ≤ c.first ∨ c.first + c.count ≤ b.first

theorem Block.apart_symm {b c : Block} (h : b.apart c) : c.apart b := Or.symm h

theorem insertBlock_perm (b : Block) : ∀ l, (insertBlock b l).Perm (b :: l)
  | [] => .refl _
  | c :: rest => by
    unfold insertBlock
    split
    · exact .refl _
    · exact ((insertBlock_perm b rest).cons c).trans (.swap b c rest)

theorem insertBlock_sorted (b : Block) :
    ∀ l, l.Pairwise (fun x y => x.first ≤ y.first) → (insertBlock b l).Pairwise fun x y => x.first ≤ y.first
  | [], _ => List.pairwise_singleton _ _
  | c :: rest, h => by
    unfold insertBlock
    rw [List.pairwise_cons] at h
    split
    · rename_i hb
      refine List.pairwise_cons.mpr ⟨fun y hy => ?_, List.pairwise_cons.mpr h⟩
      rcases List.mem_cons.mp hy with rfl | hy
      · exact hb
      · exact Nat.le_trans hb (h.1 y hy)
    · rename_i hb
      refine List.pairwise_cons.mpr ⟨fun y hy => ?_, insertBlock_sorted b rest h.2⟩
      rcases List.mem_cons.mp ((insertBlock_perm b rest).mem_iff.mp hy) with rfl | hy
      · omega
      · exact h.1 y hy

theorem foldr_insertBlock_perm : ∀ l : List Block, (l.foldr insertBlock []).Perm l
  | [] => .refl _
  | b :: rest => (insertBlock_perm b _).trans ((foldr_insertBlock_perm rest).cons b)

theorem foldr_insertBlock_sorted : ∀ l : List Block, (l.foldr insertBlock []).Pairwise fun x y => x.first ≤ y.first
  | [] => List.Pairwise.nil
  | b :: rest => insertBlock_sorted b _ (foldr_insertBlock_sorted rest)

/-- Ascending blocks, each within the step memory, each ending before the next begins. -/
def Chained (l : List Block) : Prop :=
  (∀ b ∈ l, 1 ≤ b.count ∧ b.first + b.count ≤ Config.stepSlots) ∧ l.Pairwise fun b c => b.first + b.count ≤ c.first

theorem chained_of_sorted {l : List Block} (hi : ∀ b ∈ l, 1 ≤ b.count ∧ b.first + b.count ≤ Config.stepSlots)
    (hs : l.Pairwise fun x y => x.first ≤ y.first) (ha : l.Pairwise Block.apart) : Chained l := by
  refine ⟨hi, (hs.and ha).imp_of_mem fun {b c} hb hc h => ?_⟩
  have := (hi b hb).1
  have := (hi c hc).1
  rcases h with ⟨h1, h2 | h2⟩
  · exact h2
  · omega

theorem mem_toList_tget {α : Type} {n : Nat} (t : Vector α n) (x : α) : x ∈ t.toList ↔ ∃ i, tget t i = x := by
  rw [Vector.mem_toList_iff, Vector.mem_iff_getElem]
  exact ⟨fun ⟨i, hi, h⟩ => ⟨⟨i, hi⟩, h⟩, fun ⟨i, h⟩ => ⟨i.val, i.isLt, h⟩⟩

theorem Store.mem_blocks (st : Store) (b : Block) :
    b ∈ st.blocks ↔ ∃ i, (tget st.directory i).block = some b := by
  unfold Store.blocks
  rw [(foldr_insertBlock_perm _).mem_iff, List.mem_filterMap]
  constructor
  · rintro ⟨e, he, hb⟩
    obtain ⟨i, rfl⟩ := (mem_toList_tget _ _).mp he
    exact ⟨i, hb⟩
  · rintro ⟨i, hb⟩
    exact ⟨_, (mem_toList_tget _ _).mpr ⟨i, rfl⟩, hb⟩

theorem Store.blocks_chained {st : Store} (hi : st.blocksInside) (ha : st.blocksApart) : Chained st.blocks := by
  refine chained_of_sorted ?_ (foldr_insertBlock_sorted _) ?_
  · intro b hb
    obtain ⟨i, h⟩ := (st.mem_blocks b).mp hb
    exact hi i b h
  · unfold Store.blocks
    refine (foldr_insertBlock_perm _).symm.pairwise ?_ Block.apart_symm
    rw [List.pairwise_filterMap, List.pairwise_iff_getElem]
    intro i j h1 h2 hij b hb c hc
    have h1' : i < 64 := by simpa using h1
    have h2' : j < 64 := by simpa using h2
    exact ha ⟨i, h1'⟩ ⟨j, h2'⟩ b c (by simp; omega) (by simpa [tget] using hb) (by simpa [tget] using hc)

/-! ## Free runs (R22) -/

/-- A gap lies above `pos`, ends within the step memory, and meets no block. -/
theorem gapsFrom_spec : ∀ (l : List Block) (pos : Nat), Chained l → (∀ b ∈ l, pos ≤ b.first) → ∀ r ∈ gapsFrom pos l,
    pos ≤ r.1 ∧ r.1 + r.2 ≤ Config.stepSlots ∧ ∀ b ∈ l, b.first + b.count ≤ r.1 ∨ r.1 + r.2 ≤ b.first
  | [], pos, _, _, r, hr => by
    unfold gapsFrom at hr
    split at hr
    · rw [List.mem_singleton] at hr
      subst hr
      refine ⟨Nat.le_refl _, ?_, fun b hb => absurd hb List.not_mem_nil⟩
      show pos + (Config.stepSlots - pos) ≤ Config.stepSlots
      omega
    · exact absurd hr List.not_mem_nil
  | b :: rest, pos, hc, hp, r, hr => by
    obtain ⟨hin, hpw⟩ := hc
    rw [List.pairwise_cons] at hpw
    have hb := hin b (List.mem_cons_self ..)
    have hpb := hp b (List.mem_cons_self ..)
    unfold gapsFrom at hr
    rcases List.mem_append.mp hr with hr | hr
    · split at hr
      · rw [List.mem_singleton] at hr
        subst hr
        refine ⟨Nat.le_refl _, ?_, fun c hc' => .inr ?_⟩
        · show pos + (b.first - pos) ≤ _
          omega
        · show pos + (b.first - pos) ≤ c.first
          rcases List.mem_cons.mp hc' with rfl | hc'
          · omega
          · have := hpw.1 c hc'
            omega
      · exact absurd hr List.not_mem_nil
    · obtain ⟨h1, h2, h3⟩ := gapsFrom_spec rest (b.first + b.count)
        ⟨fun c hc' => hin c (List.mem_cons_of_mem _ hc'), hpw.2⟩ hpw.1 r hr
      refine ⟨by omega, h2, fun c hc' => ?_⟩
      rcases List.mem_cons.mp hc' with rfl | hc'
      · exact .inl h1
      · exact h3 c hc'

/-- What first fit allocates meets no block and lies within the step memory (R22). -/
theorem Store.firstFit_spec {st : Store} (hi : st.blocksInside) (ha : st.blocksApart) {n first : Nat}
    (h : st.firstFit n = some first) :
    first + n ≤ Config.stepSlots
      ∧ ∀ i b, (tget st.directory i).block = some b → b.first + b.count ≤ first ∨ first + n ≤ b.first := by
  unfold Store.firstFit at h
  rw [Option.map_eq_some_iff] at h
  obtain ⟨r, hr, rfl⟩ := h
  have hm := List.mem_of_find?_eq_some hr
  have hn : n ≤ r.2 := by simpa using List.find?_some hr
  obtain ⟨_, h2, h3⟩ := gapsFrom_spec st.blocks 0 (Store.blocks_chained hi ha) (fun _ _ => Nat.zero_le _) r hm
  refine ⟨by omega, fun i b hb => ?_⟩
  rcases h3 b ((st.mem_blocks b).mpr ⟨i, hb⟩) with h | h
  · exact .inl h
  · exact .inr (by omega)

/-! ## Writing an entry -/

theorem DirEntry.block_opened {e : DirEntry} {b : Block} (h : e = .opened b) : e.block = some b := by rw [h]; rfl
theorem DirEntry.block_ready {e : DirEntry} {b : Block} (h : e = .ready b) : e.block = some b := by rw [h]; rfl

theorem DirEntry.isOpened_iff (e : DirEntry) : e.isOpened = true ↔ ∃ b, e = .opened b := by
  cases e <;> simp [DirEntry.isOpened]

theorem DirEntry.not_opened {e : DirEntry} (h : e.isOpened = false) (b : Block) : e ≠ .opened b := by
  rintro rfl
  cases h

theorem Store.setEntry_get (st : Store) (i j : Fin 64) (e : DirEntry) :
    tget (st.setEntry i e).directory j = if i = j then e else tget st.directory j := tget_tset _ _ _ _

/-- A SHOW_OPEN that is accepted leaves the store lawful (R23). -/
theorem Store.lawful_open {st : Store} {i : Fin 64} {k : EntryKind} {first n : Nat} (h : st.lawful)
    (ho : st.otherOpened i = false) (hf : tget st.directory i = .free) (hn : 1 ≤ n) (hfit : st.firstFit n = some first)
    (hc : st.compaction = none) :
    Store.lawful { st.setEntry i (.opened ⟨k, first, n⟩) with cursor := some 0 } := by
  obtain ⟨hm, hb, hi, ha, hl⟩ := h
  have hfit := Store.firstFit_spec hi ha hfit
  have ho' : ∀ j, (tget st.directory j).isOpened = false := by
    intro j
    by_cases hj : j = i
    · rw [hj, hf]
      rfl
    · unfold Store.otherOpened at ho
      have := List.any_eq_false.mp ho j (mem_indexes j)
      simpa [hj] using this
  refine ⟨hm, hb, ?_, ?_, ?_⟩
  · intro j b hj
    have hj : (tget (st.setEntry i (.opened ⟨k, first, n⟩)).directory j).block = some b := hj
    rw [Store.setEntry_get] at hj
    split at hj
    · cases hj
      exact ⟨hn, hfit.1⟩
    · exact hi j b hj
  · intro j j' b c hjj hj hj'
    have hj : (tget (st.setEntry i (.opened ⟨k, first, n⟩)).directory j).block = some b := hj
    have hj' : (tget (st.setEntry i (.opened ⟨k, first, n⟩)).directory j').block = some c := hj'
    rw [Store.setEntry_get] at hj hj'
    split at hj
    · rename_i e
      split at hj'
      · rename_i e'
        exact absurd (e.symm.trans e') hjj
      · cases hj
        exact (hfit.2 j' c hj').symm
    · split at hj'
      · cases hj'
        exact hfit.2 j b hj
      · exact ha j j' b c hjj hj hj'
  · refine ⟨?_, ?_⟩
    · intro j b hj
      have hj : tget (st.setEntry i (.opened ⟨k, first, n⟩)).directory j = .opened b := hj
      rw [Store.setEntry_get] at hj
      split at hj
      · rename_i e
        refine ⟨?_, hc, 0, rfl, Nat.zero_le _⟩
        intro j' c hj'
        have hj' : tget (st.setEntry i (.opened ⟨k, first, n⟩)).directory j' = .opened c := hj'
        rw [Store.setEntry_get] at hj'
        split at hj'
        · rename_i e'
          exact e'.symm.trans e
        · exact absurd hj' (DirEntry.not_opened (ho' j') c)
      · exact absurd hj (DirEntry.not_opened (ho' j) b)
    · intro hall
      have := hall i
      have this : (tget (st.setEntry i (.opened ⟨k, first, n⟩)).directory i).isOpened = false := this
      rw [Store.setEntry_get, if_pos rfl] at this
      cases this

/-- A SHOW_DATA that is accepted leaves the store lawful (R24). -/
theorem Store.lawful_data {st : Store} {i : Fin 64} {b : Block} {start : Nat} (ws : List StepWord) (h : st.lawful)
    (ho : tget st.directory i = .opened b) (hc : start = st.cursor.getD 0) (hle : start + ws.length ≤ b.count) :
    Store.lawful { st with mem := st.mem.writeSlots (b.first + start) ws, cursor := some (st.cursor.getD 0 + ws.length) } := by
  obtain ⟨hm, hb, hi, ha, hl⟩ := h
  have hin := hi i b (DirEntry.block_opened ho)
  refine ⟨Memory.writeSlots_wf _ _ hm, Memory.below_writeSlots _ _ (by omega) hb, hi, ha, ?_, ?_⟩
  · intro j c hj
    obtain ⟨h1, h2, n, h3, h4⟩ := hl.1 j c hj
    refine ⟨h1, h2, _, rfl, ?_⟩
    have hji : i = j := h1 i b ho
    subst hji
    rw [ho] at hj
    cases hj
    omega
  · intro hall
    exact absurd ho (DirEntry.not_opened (hall i) b)

/-- The OPEN entry becomes READY or FREE, with its block or none (R25, R28). -/
theorem Store.lawful_close {st : Store} {i : Fin 64} {b : Block} {e : DirEntry} (h : st.lawful)
    (ho : tget st.directory i = .opened b) (he : e.isOpened = false) (hb : ∀ c, e.block = some c → c = b) :
    Store.lawful { st.setEntry i e with cursor := none } := by
  obtain ⟨hm, hbl, hi, ha, hl⟩ := h
  refine ⟨hm, hbl, ?_, ?_, ?_⟩
  · intro j c hj
    have hj : (tget (st.setEntry i e).directory j).block = some c := hj
    rw [Store.setEntry_get] at hj
    split at hj
    · rw [hb c hj]
      exact hi i b (DirEntry.block_opened ho)
    · exact hi j c hj
  · intro j j' c c' hjj hj hj'
    have hj : (tget (st.setEntry i e).directory j).block = some c := hj
    have hj' : (tget (st.setEntry i e).directory j').block = some c' := hj'
    rw [Store.setEntry_get] at hj hj'
    split at hj
    · rename_i e1
      split at hj'
      · rename_i e2
        exact absurd (e1.symm.trans e2) hjj
      · rw [hb c hj]
        exact ha i j' b c' (e1 ▸ hjj) (DirEntry.block_opened ho) hj'
    · split at hj'
      · rename_i e2
        rw [hb c' hj']
        exact ha j i c b (e2.symm ▸ hjj) hj (DirEntry.block_opened ho)
      · exact ha j j' c c' hjj hj hj'
  · refine ⟨?_, fun _ => rfl⟩
    intro j c hj
    have hj : tget (st.setEntry i e).directory j = .opened c := hj
    rw [Store.setEntry_get] at hj
    split at hj
    · exact absurd hj (DirEntry.not_opened he c)
    · rename_i e1
      exact absurd ((hl.1 i b ho).1 j c hj).symm e1

/-- A READY entry becomes FREE (R28). -/
theorem Store.lawful_erase {st : Store} {i : Fin 64} {b : Block} (h : st.lawful) (hr : tget st.directory i = .ready b) :
    (st.setEntry i .free).lawful := by
  obtain ⟨hm, hbl, hi, ha, hl⟩ := h
  refine ⟨hm, hbl, ?_, ?_, ?_, ?_⟩
  · intro j c hj
    rw [Store.setEntry_get] at hj
    split at hj
    · cases hj
    · exact hi j c hj
  · intro j j' c c' hjj hj hj'
    rw [Store.setEntry_get] at hj hj'
    split at hj
    · cases hj
    · split at hj'
      · cases hj'
      · exact ha j j' c c' hjj hj hj'
  · intro j c hj
    rw [Store.setEntry_get] at hj
    split at hj
    · cases hj
    · obtain ⟨h1, h2⟩ := hl.1 j c hj
      refine ⟨fun j' c' hj' => ?_, h2⟩
      rw [Store.setEntry_get] at hj'
      split at hj'
      · cases hj'
      · exact h1 j' c' hj'
  · intro hall
    refine hl.2 fun j => ?_
    have := hall j
    rw [Store.setEntry_get] at this
    split at this
    · rename_i e
      rw [← e, hr]
      rfl
    · exact this

@[simp] theorem Store.softReset_mem (st : Store) : st.softReset.mem = st.mem := by simp only [Store.softReset]
@[simp] theorem Store.softReset_cursor (st : Store) : st.softReset.cursor = none := by simp only [Store.softReset]
@[simp] theorem Store.softReset_compaction (st : Store) : st.softReset.compaction = none := by
  simp only [Store.softReset]
@[simp] theorem Store.softReset_directory (st : Store) (i : Fin 64) :
    tget st.softReset.directory i = if (tget st.directory i).isOpened then .free else tget st.directory i := by
  simp only [Store.softReset, tget_ofFn]

/-- A soft reset frees an OPEN entry and keeps the READY ones (R36). -/
theorem Store.lawful_softReset {st : Store} (h : st.lawful) : st.softReset.lawful := by
  obtain ⟨hm, hbl, hi, ha, hl⟩ := h
  have hget := st.softReset_directory
  have hmem := st.softReset_mem
  have hcur := st.softReset_cursor
  generalize st.softReset = u at hget hmem hcur ⊢
  have hblock : ∀ i b, (tget u.directory i).block = some b → (tget st.directory i).block = some b := by
    intro i b h
    rw [hget] at h
    split at h
    · cases h
    · exact h
  have hopen : ∀ i, (tget u.directory i).isOpened = false := by
    intro i
    rw [hget]
    split
    · rfl
    · rename_i h
      simpa using h
  refine ⟨hmem ▸ hm, hmem ▸ hbl, fun i b h => hi i b (hblock i b h),
    fun i j b c hij h h' => ha i j b c hij (hblock i b h) (hblock j c h'),
    fun i b h => absurd h (DirEntry.not_opened (hopen i) b), fun _ => hcur⟩

/-! ## Compaction (R31, R32) -/

theorem insertEntry_perm (e : Fin 64 × Block) : ∀ l, (insertEntry e l).Perm (e :: l)
  | [] => .refl _
  | c :: rest => by
    unfold insertEntry
    split
    · exact .refl _
    · exact ((insertEntry_perm e rest).cons c).trans (.swap e c rest)

theorem insertEntry_sorted (e : Fin 64 × Block) :
    ∀ l, l.Pairwise (fun x y => x.2.first ≤ y.2.first) → (insertEntry e l).Pairwise fun x y => x.2.first ≤ y.2.first
  | [], _ => List.pairwise_singleton _ _
  | c :: rest, h => by
    unfold insertEntry
    rw [List.pairwise_cons] at h
    split
    · rename_i hb
      refine List.pairwise_cons.mpr ⟨fun y hy => ?_, List.pairwise_cons.mpr h⟩
      rcases List.mem_cons.mp hy with rfl | hy
      · exact hb
      · exact Nat.le_trans hb (h.1 y hy)
    · rename_i hb
      refine List.pairwise_cons.mpr ⟨fun y hy => ?_, insertEntry_sorted e rest h.2⟩
      rcases List.mem_cons.mp ((insertEntry_perm e rest).mem_iff.mp hy) with rfl | hy
      · omega
      · exact h.1 y hy

theorem foldr_insertEntry_perm : ∀ l : List (Fin 64 × Block), (l.foldr insertEntry []).Perm l
  | [] => .refl _
  | b :: rest => (insertEntry_perm b _).trans ((foldr_insertEntry_perm rest).cons b)

theorem foldr_insertEntry_sorted : ∀ l : List (Fin 64 × Block), (l.foldr insertEntry []).Pairwise fun x y => x.2.first ≤ y.2.first
  | [] => List.Pairwise.nil
  | b :: rest => insertEntry_sorted b _ (foldr_insertEntry_sorted rest)

theorem Store.mem_readyEntries (st : Store) (i : Fin 64) (b : Block) :
    (i, b) ∈ st.readyEntries ↔ tget st.directory i = .ready b := by
  unfold Store.readyEntries
  rw [(foldr_insertEntry_perm _).mem_iff, List.mem_filterMap]
  constructor
  · rintro ⟨j, _, h⟩
    split at h
    · rename_i b' hb
      cases h
      exact hb
    · cases h
  · intro h
    exact ⟨i, mem_indexes i, by rw [h]⟩

/-- READY entries in ascending order, each ending before the next begins, no entry twice. -/
def ChainedEntries (l : List (Fin 64 × Block)) : Prop :=
  (∀ e ∈ l, 1 ≤ e.2.count ∧ e.2.first + e.2.count ≤ Config.stepSlots)
    ∧ l.Pairwise fun e f => e.1 ≠ f.1 ∧ e.2.first + e.2.count ≤ f.2.first

theorem Store.readyEntries_chained {st : Store} (hi : st.blocksInside) (ha : st.blocksApart) :
    ChainedEntries st.readyEntries := by
  have hin : ∀ e ∈ st.readyEntries, 1 ≤ e.2.count ∧ e.2.first + e.2.count ≤ Config.stepSlots := fun e he =>
    hi e.1 e.2 (DirEntry.block_ready ((st.mem_readyEntries e.1 e.2).mp he))
  have hne : st.readyEntries.Pairwise fun e f => e.1 ≠ f.1 := by
    unfold Store.readyEntries
    refine (foldr_insertEntry_perm _).symm.pairwise ?_ fun h => h.symm
    rw [List.pairwise_filterMap]
    refine (List.nodup_finRange 64).imp fun {i j} hij e he f hf => ?_
    split at he
    · split at hf
      · cases he
        cases hf
        exact hij
      · cases hf
    · cases he
  refine ⟨hin, (hne.and (foldr_insertEntry_sorted _)).imp_of_mem fun {e f} he hf h => ⟨h.1, ?_⟩⟩
  have hs : e.2.first ≤ f.2.first := h.2
  have h1 := (hin e he).1
  have h2 := (hin f hf).1
  rcases ha e.1 f.1 e.2 f.2 h.1 (DirEntry.block_ready ((st.mem_readyEntries _ _).mp he))
    (DirEntry.block_ready ((st.mem_readyEntries _ _).mp hf)) with h3 | h3
  · exact h3
  · omega

theorem pairwise_mem {α : Type} {R : α → α → Prop} (hs : ∀ {x y}, R x y → R y x) {l : List α} (h : l.Pairwise R)
    {x y : α} (hx : x ∈ l) (hy : y ∈ l) (hne : x ≠ y) : R x y := by
  induction l with
  | nil => exact absurd hx List.not_mem_nil
  | cons z rest ih =>
    rw [List.pairwise_cons] at h
    rcases List.mem_cons.mp hx with hxz | hx'
    · rcases List.mem_cons.mp hy with hyz | hy'
      · exact absurd (hxz.trans hyz.symm) hne
      · exact hxz ▸ h.1 y hy'
    · rcases List.mem_cons.mp hy with hyz | hy'
      · exact hyz ▸ hs (h.1 x hx')
      · exact ih h.2 hx' hy'

/-- What compacting a list of READY entries from slot `pos` leaves: each block at a place between `pos` and its old one,
apart from the others, every other entry as it was. -/
theorem compactFrom_spec : ∀ (l : List (Fin 64 × Block)) (pos : Nat) (st : Store), ChainedEntries l →
    (∀ e ∈ l, pos ≤ e.2.first) → (∀ e ∈ l, tget st.directory e.1 = .ready e.2) →
    (∀ i, (∀ e ∈ l, e.1 ≠ i) → tget (compactFrom pos l st).directory i = tget st.directory i)
      ∧ ∃ place : Fin 64 → Nat,
        (∀ e ∈ l, tget (compactFrom pos l st).directory e.1 = .ready { e.2 with first := place e.1 }
          ∧ pos ≤ place e.1 ∧ place e.1 ≤ e.2.first)
        ∧ l.Pairwise fun e f => place e.1 + e.2.count ≤ place f.1
  | [], _, _, _, _, _ => ⟨fun _ _ => rfl, fun _ => 0, fun _ h => absurd h List.not_mem_nil, List.Pairwise.nil⟩
  | (i, b) :: rest, pos, st, hc, hp, hr => by
    obtain ⟨hin, hpw⟩ := hc
    rw [List.pairwise_cons] at hpw
    have hpb := hp (i, b) (List.mem_cons_self ..)
    have hri := hr (i, b) (List.mem_cons_self ..)
    unfold compactFrom
    dsimp only
    generalize hst : (if b.first = pos then st
      else { st.setEntry i (.ready { b with first := pos }) with mem := st.mem.moveSlots b.first pos b.count }) = st'
    have hget : ∀ j, tget st'.directory j = if i = j then .ready { b with first := pos } else tget st.directory j := by
      intro j
      subst hst
      split
      · rename_i hbp
        split
        · rename_i hij
          subst hij
          rw [hri, ← hbp]
        · rfl
      · exact Store.setEntry_get _ _ _ _
    obtain ⟨h1, place, h2, h3⟩ := compactFrom_spec rest (pos + b.count) st'
      ⟨fun e he => hin e (List.mem_cons_of_mem _ he), hpw.2⟩
      (fun e he => by
        have := (hpw.1 e he).2
        have hpb : pos ≤ b.first := hpb
        show pos + b.count ≤ e.2.first
        have this : b.first + b.count ≤ e.2.first := this
        omega)
      (fun e he => by
        rw [hget, if_neg (hpw.1 e he).1]
        exact hr e (List.mem_cons_of_mem _ he))
    have hfresh : ∀ e ∈ rest, e.1 ≠ i := fun e he => ((hpw.1 e he).1).symm
    refine ⟨?_, fun j => if j = i then pos else place j, ?_, ?_⟩
    · intro j hj
      rw [h1 j fun e he => hj e (List.mem_cons_of_mem _ he), hget, if_neg (hj (i, b) (List.mem_cons_self ..))]
    · intro e he
      rcases List.mem_cons.mp he with rfl | he
      · refine ⟨?_, ?_, ?_⟩
        · dsimp only
          rw [h1 i hfresh, hget, if_pos rfl, if_pos rfl]
        · simp
        · simpa using hpb
      · have hei := hfresh e he
        obtain ⟨g1, g2, g3⟩ := h2 e he
        refine ⟨?_, ?_, ?_⟩
        · dsimp only
          rw [if_neg hei]
          exact g1
        · dsimp only
          rw [if_neg hei]
          omega
        · dsimp only
          rw [if_neg hei]
          exact g3
    · refine List.pairwise_cons.mpr ⟨fun e he => ?_, h3.imp_of_mem fun {e f} he hf h => ?_⟩
      · dsimp only
        rw [if_pos rfl, if_neg (hfresh e he)]
        exact (h2 e he).2.1
      · dsimp only
        rw [if_neg (hfresh e he), if_neg (hfresh f hf)]
        exact h

theorem compactFrom_rest : ∀ (l : List (Fin 64 × Block)) (pos : Nat) (st : Store),
    (compactFrom pos l st).cursor = st.cursor ∧ (compactFrom pos l st).compaction = st.compaction
  | [], _, _ => ⟨rfl, rfl⟩
  | (i, b) :: rest, pos, st => by
    unfold compactFrom
    dsimp only
    obtain ⟨h1, h2⟩ := compactFrom_rest rest (pos + b.count) (if b.first = pos then st
      else { st.setEntry i (.ready { b with first := pos }) with mem := st.mem.moveSlots b.first pos b.count })
    refine ⟨h1.trans ?_, h2.trans ?_⟩
    · split <;> rfl
    · split <;> rfl

theorem compactFrom_below : ∀ (l : List (Fin 64 × Block)) (pos : Nat) (st : Store), ChainedEntries l →
    (∀ e ∈ l, pos ≤ e.2.first) → st.mem.below (8 * Config.stepSlots) →
    (compactFrom pos l st).mem.below (8 * Config.stepSlots)
  | [], _, _, _, _, h => h
  | (i, b) :: rest, pos, st, hc, hp, h => by
    obtain ⟨hin, hpw⟩ := hc
    rw [List.pairwise_cons] at hpw
    have hpb : pos ≤ b.first := hp (i, b) (List.mem_cons_self ..)
    have hb : b.first + b.count ≤ Config.stepSlots := (hin (i, b) (List.mem_cons_self ..)).2
    unfold compactFrom
    dsimp only
    refine compactFrom_below rest _ _ ⟨fun e he => hin e (List.mem_cons_of_mem _ he), hpw.2⟩ (fun e he => ?_) ?_
    · have h2 : b.first + b.count ≤ e.2.first := (hpw.1 e he).2
      omega
    · split
      · exact h
      · exact Memory.below_moveSlots _ _ h _ (by omega)

/-- A compaction of a store with no OPEN entry leaves it lawful (R32). -/
theorem Store.lawful_compacted {st : Store} (h : st.lawful) (ho : ∀ i, (tget st.directory i).isOpened = false) :
    Store.lawful { st.compacted with compaction := none } := by
  obtain ⟨hm, hb, hi, ha, hl⟩ := h
  have hch := Store.readyEntries_chained hi ha
  obtain ⟨h1, place, h2, h3⟩ := compactFrom_spec st.readyEntries 0 st hch (fun _ _ => Nat.zero_le _)
    fun e he => (st.mem_readyEntries e.1 e.2).mp he
  have hrest := compactFrom_rest st.readyEntries 0 st
  have hdir : ∀ i, tget st.compacted.directory i = tget (compactFrom 0 st.readyEntries st).directory i := fun _ => rfl
  have hentry : ∀ i, (∃ b, tget st.directory i = .ready b
        ∧ tget st.compacted.directory i = .ready { b with first := place i } ∧ place i ≤ b.first)
      ∨ (tget st.directory i = .free ∧ tget st.compacted.directory i = .free) := by
    intro i
    cases he : tget st.directory i with
    | free =>
      refine .inr ⟨rfl, ?_⟩
      rw [hdir, h1 i ?_, he]
      rintro e hel rfl
      have := (st.mem_readyEntries e.1 e.2).mp hel
      rw [he] at this
      cases this
    | opened b => exact absurd he (DirEntry.not_opened (ho i) b)
    | ready b =>
      have := h2 (i, b) ((st.mem_readyEntries i b).mpr he)
      exact .inl ⟨b, rfl, this.1, this.2.2⟩
  have hopen : ∀ i, (tget st.compacted.directory i).isOpened = false := by
    intro i
    rcases hentry i with ⟨b, _, h, _⟩ | ⟨_, h⟩ <;> rw [h] <;> rfl
  refine ⟨Store.compacted_wf st hm, compactFrom_below _ _ _ hch (fun _ _ => Nat.zero_le _) hb, ?_, ?_, ?_⟩
  · intro i b hib
    have hib : (tget st.compacted.directory i).block = some b := hib
    rcases hentry i with ⟨c, hc, h, hle⟩ | ⟨_, h⟩
    · rw [h] at hib
      cases hib
      have := hi i c (DirEntry.block_ready hc)
      refine ⟨this.1, ?_⟩
      show place i + c.count ≤ _
      omega
    · rw [h] at hib
      cases hib
  · intro i j b c hij hib hjc
    have hib : (tget st.compacted.directory i).block = some b := hib
    have hjc : (tget st.compacted.directory j).block = some c := hjc
    rcases hentry i with ⟨b', hb', hi', _⟩ | ⟨_, hi'⟩
    · rcases hentry j with ⟨c', hc', hj', _⟩ | ⟨_, hj'⟩
      · rw [hi'] at hib
        rw [hj'] at hjc
        cases hib
        cases hjc
        show place i + b'.count ≤ place j ∨ place j + c'.count ≤ place i
        have m1 := (st.mem_readyEntries i b').mpr hb'
        have m2 := (st.mem_readyEntries j c').mpr hc'
        have hsym : st.readyEntries.Pairwise fun e f =>
            place e.1 + e.2.count ≤ place f.1 ∨ place f.1 + f.2.count ≤ place e.1 := h3.imp fun h => .inl h
        exact pairwise_mem (fun h => h.symm) hsym m1 m2 (by
            intro h
            cases h
            exact hij rfl)
      · rw [hj'] at hjc
        cases hjc
    · rw [hi'] at hib
      cases hib
  · refine ⟨fun i b h => absurd h (DirEntry.not_opened (hopen i) b), fun _ => ?_⟩
    show st.compacted.cursor = none
    exact hrest.1.trans (hl.2 ho)

/-- A compaction that begins (R31). -/
theorem Store.lawful_begin {st : Store} (c : Compaction) (h : st.lawful)
    (ho : ∀ i, (tget st.directory i).isOpened = false) : Store.lawful { st with compaction := some c } := by
  obtain ⟨hm, hb, hi, ha, hl⟩ := h
  exact ⟨hm, hb, hi, ha, fun i b h => absurd h (DirEntry.not_opened (ho i) b), hl.2⟩

theorem Store.lawful_none_opened {st : Store} (h : st.lawful) {c : Compaction} (hc : st.compaction = some c) (i : Fin 64) :
    (tget st.directory i).isOpened = false := by
  cases he : (tget st.directory i).isOpened with
  | false => rfl
  | true =>
    obtain ⟨b, hb⟩ := (DirEntry.isOpened_iff _).mp he
    have := (h.2.2.2.2.1 i b hb).2.1
    rw [hc] at this
    cases this

theorem Store.none_opened_of_opened {st : Store} (h : st.opened.isSome = false) (i : Fin 64) :
    (tget st.directory i).isOpened = false := by
  unfold Store.opened at h
  rw [Option.isSome_eq_false_iff, Option.isNone_iff_eq_none, List.find?_eq_none] at h
  simpa using h i (mem_indexes i)

end Sys2Proof.Machine
end

