-- ==== Sys2Proof/Laws/Trace.lean ====
section
/-! SUPPORT. The small moves a command is made of, each with what guards it, and chains of them. One lemma for each
operation (the files Laws/Trace*.lean) says that the operation is a chain of these moves: it says once which fields the
operation may change and under what conditions. -/
namespace Sys2Proof.Machine

/-! ## When something may begin -/

/-- The tower is stopped or the mode is SAFE: nothing may play. -/
def State.mustRest (s : State) : Prop := s.stopped = true ∨ s.mode = .safe

/-- Something may begin: the tower need not rest, or it does not rest as it is. -/
def State.mayPlay (s : State) : Prop := s.mustRest → ¬s.still

theorem State.mayPlay_of_free {s : State} (h : ¬s.mustRest) : s.mayPlay := fun h' => absurd h' h

theorem State.mayPlay_of_run {s : State} {n : LaneNo} (h : (s.lane n).run ≠ none) : s.mayPlay :=
  fun _ hs => h (hs.1 n)

theorem State.mayPlay_of_strike {s : State} {k : Strike} (h : k ∈ s.strikes.queue) : s.mayPlay :=
  fun _ hs => by rw [hs.2.1] at h; exact List.not_mem_nil h

theorem State.mayPlay_of_exercise {s : State} {e : Exercise} (h : s.exercising = some e) : s.mayPlay :=
  fun _ hs => by simp [hs.2.2.1] at h

theorem State.mayPlay_of_axis {s : State} {a : AxisNo} (h : (s.axis a).mode.commanded = true) : s.mayPlay :=
  fun _ hs => by simp [hs.2.2.2 a] at h

/-- An exercise that is done, or none. -/
def exerciseOver : Option Exercise → Prop
  | some e => e.phase = .done
  | none => True

/-! ## What a move keeps, where its form alone does not say it -/

/-- Law 4 is kept. -/
def KeepsClaims (s t : State) : Prop := s.claimsLawful → t.claimsLawful

/-- The first clause of law 5 is kept. -/
def KeepsOwners (s t : State) : Prop := s.strikesOwned → t.strikesOwned

/-- Law 10 is kept, in a lawful store. -/
def KeepsCursors (s t : State) : Prop := s.store.lawful → s.cursorsInside → t.cursorsInside

/-- What the bus holds in LISTEN, and an axis without a configuration, is kept (R138). -/
def KeepsBus (s t : State) : Prop := s.busLawful → t.busLawful

/-- A lane's run, or its absence, written: laws 4, 5 and 10 are kept. -/
def KeepsRuns (s t : State) : Prop := KeepsClaims s t ∧ KeepsOwners s t ∧ KeepsCursors s t

/-- A queued strike near enough to now: its queued fire instant, and every fire instant ahead that a flight time up to
the longest gives it. -/
def Strike.nearby (k : Strike) (now : Instant) : Prop :=
  distance k.fireAt now ≤ 1000000000
    ∧ ∀ flight, flight ≤ 100000 → before (k.due - micros flight) now = false →
        distance (k.due - micros flight) now ≤ 1000000000

/-- The calibration of a bell: its repeat guard is written, and the spacing of its impacts stands. -/
def Calibrated (x y : Bell) : Prop :=
  y.lastImpact = x.lastImpact ∧ y.guardInstant = x.guardInstant ∧ y.guardRunning = x.guardRunning

/-! ## Moves -/

/-- One move. The first index is true for moves that leave output control alone, the second for moves that calibrate no
bell. No move changes the present instant. -/
inductive Move : Bool → Bool → State → State → Prop
  | choices {b g} (s : State) (n : Nat) : Move b g s { s with choices := n }
  | cal {b g} (s : State) (c : Calendar)
      (h : s.cal.timedPlays.length ≤ Config.timedPlayCapacity → c.timedPlays.length ≤ Config.timedPlayCapacity)
      (ht : s.cal.time.inRange → c.time.inRange) : Move b g s { s with cal := c }
  | store {b g} (s : State) (st : Store) (h : s.store.lawful → st.lawful) (hk : KeepsCursors s { s with store := st }) :
      Move b g s { s with store := st }
  | sched {b g} (s : State) (c : Scheduler)
      (h : s.sched.queue.length ≤ Config.requestCapacity → c.queue.length ≤ Config.requestCapacity)
      (ho : s.sched.ordered → c.ordered) (hk : KeepsClaims s { s with sched := c }) : Move b g s { s with sched := c }
  | lane {b g} (s : State) (n : LaneNo) (x : Lane) (h : x.run = none ∨ s.mayPlay) (hk : KeepsRuns s (s.setLane n x)) :
      Move b g s (s.setLane n x)
  | lanes {b g} (s : State) (v : Vector Lane 4) (h : ∀ n, (s.lane n).run = none → (tget v n).run = none)
      (hk : KeepsRuns s { s with lanes := v }) : Move b g s { s with lanes := v }
  | drop {b g} (s : State) (q : List Strike) (h : q.Sublist s.strikes.queue) : Move b g s (s.setQueue q)
  | change {b g} (s : State) (k x : Strike) (hx : x ∈ s.strikes.queue) (ho : k.order = x.order) (hb : k.bell = x.bell)
      (hd : k.due = x.due) (hw : k.owner = x.owner) (hf : k.fireAt = x.fireAt) :
      Move b g s (s.setQueue (updateStrike k s.strikes.queue))
  | replace {b g} (s : State) (k x : Strike) (hx : x ∈ s.strikes.queue) (ho : k.order = x.order) (hb : k.bell = x.bell)
      (hd : k.due = x.due) (hw : k.owner = x.owner) (hn : x.nearby s.now → k.nearby s.now) :
      Move b g s (s.setQueue (replaceStrike k s.strikes.queue))
  | enter {b g} (s : State) (k : Strike) (hp : s.mayPlay) (hl : s.strikes.queue.length < Config.strikeCapacity)
      (hd : (s.bell k.bell).isDisabled = false) (ho : k.order = s.strikes.orderCount)
      (hs : ∀ x ∈ s.strikes.queue, x.bell = k.bell → (s.bell k.bell).guardMs * 1000 ≤ distance x.due k.due)
      (hw : k.owner = .link ∨ ∃ n r, k.owner = .lane n ∧ (s.lane n).run = some r) (hn : k.nearby s.now) :
      Move b g s { s with strikes := { s.strikes with
        queue := insertStrike k s.strikes.queue, orderCount := s.strikes.orderCount + 1 } }
  | bell {b g} (s : State) (n : BellNo) (x : Bell)
      (hf : x.state = .firing → (s.bell n).state = .firing)
      (hh : (s.bell n).state = .firing → x.state = .firing ∨ s.energised n = false)
      (hd : x.isDisabled = true → (s.bell n).isDisabled = true ∨ ∀ k ∈ s.strikes.queue, k.bell ≠ n)
      (hg : x.guardMs ≤ (s.bell n).guardMs ∨ ∀ k ∈ s.strikes.queue, k.bell ≠ n)
      (hk : GuardAct s.now (s.bell n) x ∨ g = false ∧ Calibrated (s.bell n) x) : Move b g s (s.setBell n x)
  | fire {b g} (s : State) (k : Strike) (hk : k ∈ s.strikes.queue) (hr : (s.bell k.bell).state = .ready)
      (he : s.strikes.firing < s.strikes.emax) (hg : guardWait (s.bell k.bell) s.now k.flight = none) :
      Move b g s
        ((if s.mode = .live then
            { s.setQueue (withoutOrder k.order s.strikes.queue) with
              strikes := (s.setQueue (withoutOrder k.order s.strikes.queue)).strikes.drive k.bell }
          else s.setQueue (withoutOrder k.order s.strikes.queue)).setBell k.bell ((s.bell k.bell).firedWith k s.now))
  | release {b g} (s : State) (n : BellNo) : Move b g s { s with strikes := s.strikes.release n }
  | hammerStop {b g} (s : State) : Move b g s { s with strikes := s.strikes.hammerStop }
  | streaks {b g} (s : State) :
      Move b g s { s with strikes := { s.strikes with
        bells := Vector.ofFn fun n => { s.bell n with streak := 0 } } }
  | settings {b g} (s : State) (curve : Vector Nat 17) (master emax tau : Nat)
      (h : s.strikes.firing ≤ s.strikes.emax → s.strikes.firing ≤ emax) :
      Move b g s { s with strikes := { s.strikes with curve := curve, master := master, emax := emax, tau := tau } }
  | axis {b g} (s : State) (a : AxisNo) (x : Axis) (hl : (s.axis a).lawful → x.lawful)
      (hc : x.mode.commanded = false ∨ s.mayPlay)
      (hb : ((s.axis a).config = none → (s.axis a).heard = none) → x.config = none → x.heard = none) :
      Move b g s (s.setAxis a x)
  | motion {b g} (s : State) (m : Motion) (hl : ∀ a, (s.axis a).lawful → (tget m.axes a).lawful)
      (hc : ∀ a, (tget m.axes a).mode.commanded = true → (s.axis a).mode.commanded = true)
      (hb : KeepsBus s { s with motion := m }) : Move b g s { s with motion := m }
  | verifier {b g} (s : State) (v : Verifier) : Move b g s { s with verifier := v }
  | exercise {b g} (s : State) (e : Option Exercise) (claims : Vector (Option Owner) 12) (h : exerciseOver e ∨ s.mayPlay)
      (hk : KeepsClaims s { s with exercise := e, sched := { s.sched with claims := claims } }) :
      Move b g s { s with exercise := e, sched := { s.sched with claims := claims } }
  | port {b g} (s : State) (p : Port)
      (hr : s.port.rx.length ≤ Config.receiveCapacity → p.rx.length ≤ Config.receiveCapacity)
      (ht : s.port.tx.length ≤ Config.transmitCapacity → p.tx.length ≤ Config.transmitCapacity) :
      Move b g s { s with port := p }
  | output {b g} (s : State) (o : OutputControl) (line : Option BusFrame) (h : b = false)
      (hb : (s.mode = .listen → s.motion.line = none) → o.mode = .listen → line = none) :
      Move b g s { s with output := o, motion := { s.motion with line := line } }

/-! ## Chains -/

/-- A chain of moves. -/
inductive Chain (b g : Bool) : State → State → Prop
  | refl (s : State) : Chain b g s s
  | tail {s t u : State} : Chain b g s t → Move b g t u → Chain b g s u

/-- A chain that leaves output control alone and calibrates no bell. -/
abbrev Calm : State → State → Prop := Chain true true

/-- A chain that calibrates no bell. -/
abbrev Trace : State → State → Prop := Chain false true

variable {b g : Bool}

theorem Move.chain {s t : State} (h : Move b g s t) : Chain b g s t := .tail (.refl s) h

theorem Chain.trans {s t u : State} (h : Chain b g s t) (h' : Chain b g t u) : Chain b g s u := by
  induction h' with
  | refl => exact h
  | tail _ hm ih => exact .tail ih hm

theorem Move.weaken {b' g' : Bool} (hb : b' = true → b = true) (hg : g' = true → g = true) {s t : State}
    (h : Move b g s t) : Move b' g' s t := by
  cases h
  case choices n => exact .choices s n
  case cal c h ht => exact .cal s c h ht
  case store st h hk => exact .store s st h hk
  case sched c h ho hk => exact .sched s c h ho hk
  case lane n x h hk => exact .lane s n x h hk
  case lanes v h hk => exact .lanes s v h hk
  case drop q h => exact .drop s q h
  case change k x hx ho hb hd hw hf => exact .change s k x hx ho hb hd hw hf
  case replace k x hx ho hb hd hw hn => exact .replace s k x hx ho hb hd hw hn
  case enter k hp hl hd ho hs hw hn => exact .enter s k hp hl hd ho hs hw hn
  case bell n x hf hh hd hg' hk =>
    refine .bell s n x hf hh hd hg' (hk.imp id fun h => ⟨?_, h.2⟩)
    have hne := h.1
    cases g' with
    | false => rfl
    | true => rw [hg rfl] at hne; cases hne
  case fire k hk hr he hg => exact .fire s k hk hr he hg
  case release n => exact .release s n
  case hammerStop => exact .hammerStop s
  case streaks => exact .streaks s
  case settings c m e u h => exact .settings s c m e u h
  case axis a x hl hc hb => exact .axis s a x hl hc hb
  case motion m hl hc hb => exact .motion s m hl hc hb
  case verifier v => exact .verifier s v
  case exercise e c h hk => exact .exercise s e c h hk
  case port p hr ht => exact .port s p hr ht
  case output o line h hb' =>
    refine .output s o line ?_ hb'
    cases b' with
    | false => rfl
    | true => rw [hb rfl] at h; cases h

theorem Chain.weaken {b' g' : Bool} (hb : b' = true → b = true) (hg : g' = true → g = true) {s t : State}
    (h : Chain b g s t) : Chain b' g' s t := by
  induction h with
  | refl => exact .refl _
  | tail _ hm ih => exact .tail ih (hm.weaken hb hg)

/-- A calm chain is a chain of every kind. -/
theorem Chain.widen {s t : State} (h : Calm s t) : Chain b g s t := h.weaken (fun _ => rfl) (fun _ => rfl)

/-- A calm chain is a chain. -/
theorem Chain.loosen {s t : State} (h : Calm s t) : Trace s t := h.widen

theorem Move.output_eq {s t : State} (h : Move true g s t) : t.output = s.output := by
  cases h <;> first | rfl | (split <;> rfl) | contradiction

/-- A chain of moves that leave output control alone. -/
theorem Chain.output_eq {s t : State} (h : Chain true g s t) : t.output = s.output := by
  induction h with
  | refl => rfl
  | tail _ hm ih => rw [hm.output_eq, ih]

theorem Move.pending_eq {s t : State} (h : Move b g s t) : t.pending = s.pending := by
  cases h <;> first | rfl | (split <;> rfl)

/-- No chain touches the queue of waiting commands. -/
theorem Chain.pending_eq {s t : State} (h : Chain b g s t) : t.pending = s.pending := by
  induction h with
  | refl => rfl
  | tail _ hm ih => rw [hm.pending_eq, ih]

theorem Move.now_eq {s t : State} (h : Move b g s t) : t.now = s.now := by
  cases h <;> first | rfl | (split <;> rfl)

/-- No chain changes the present instant. -/
theorem Chain.now_eq {s t : State} (h : Chain b g s t) : t.now = s.now := by
  induction h with
  | refl => rfl
  | tail _ hm ih => rw [hm.now_eq, ih]

theorem State.mustRest_congr {s t : State} (h : t.output = s.output) : t.mustRest ↔ s.mustRest := by
  simp [State.mustRest, State.stopped, State.mode, h]

theorem Chain.mustRest_iff {s t : State} (h : Chain true g s t) : t.mustRest ↔ s.mustRest := State.mustRest_congr h.output_eq

/-- A fold of operations each of which is a chain is a chain. -/
theorem Chain.foldl {β : Type} (f : State → β → State) (l : List β) (h : ∀ s x, Chain b g s (f s x)) :
    ∀ s, Chain b g s (l.foldl f s) :=
  foldl_rel (Chain b g) .refl .trans f h l

/-- The same where the operations need that the tower need not rest, and something that they keep. -/
theorem Chain.foldl_free {β : Type} (P : State → Prop) (f : State → β → State)
    (h : ∀ s x, ¬s.mustRest → P s → Calm s (f s x) ∧ P (f s x)) (l : List β) :
    ∀ s, ¬s.mustRest → P s → Calm s (l.foldl f s) := by
  induction l with
  | nil => exact fun s _ _ => .refl s
  | cons x rest ih =>
    intro s hs hp
    have hx := h s x hs hp
    exact hx.1.trans (ih _ (fun hm => hs (hx.1.mustRest_iff.mp hm)) hx.2)

end Sys2Proof.Machine
end

