-- ==== Sys2Proof/Laws/Kept.lean ====
section
/-! SUPPORT. What keeps laws 4, 5 (its first clause) and 10: writing a lane's run or taking it away, the cursor of each
step a lane takes, and changes of the claims. -/
namespace Sys2Proof.Machine

/-! ## Claims -/

/-- Law 4 rests on the claims, on which lanes are RUNNING or WAITING, and on the exercise. -/
theorem State.claimsLawful_congr {s t : State} (hc : t.sched.claims = s.sched.claims)
    (hl : ∀ n r, (s.lane n).run = some r → r.phase ≠ .draining → ∃ x, (t.lane n).run = some x ∧ x.phase ≠ .draining)
    (he : t.exercise = s.exercise) (hs : s.claimsLawful) : t.claimsLawful := by
  have hcl : ∀ a, t.claim a = s.claim a := fun a => by unfold State.claim; rw [hc]
  obtain ⟨h1, h2, h3⟩ := hs
  refine ⟨fun a n h => ?_, fun a => ?_, fun a => by rw [hcl]; exact h3 a⟩
  · rw [hcl] at h
    obtain ⟨r, hr, hp⟩ := h1 a n h
    exact hl n r hr hp
  · rw [hcl, he]
    exact h2 a

theorem KeepsClaims.of_eq {s t : State} (hc : t.sched.claims = s.sched.claims) (hl : t.lanes = s.lanes)
    (he : t.exercise = s.exercise) : KeepsClaims s t :=
  State.claimsLawful_congr hc (fun n r hr hp => ⟨r, by unfold State.lane at hr ⊢; rw [hl]; exact hr, hp⟩) he

/-- Claims released, but for those of the exercise. -/
theorem KeepsClaims.release {s t : State} (hc : ∀ a, t.claim a = s.claim a ∨ t.claim a = none ∧ s.claim a ≠ some .exercise)
    (hl : t.lanes = s.lanes) (he : t.exercise = s.exercise) : KeepsClaims s t := by
  rintro ⟨h1, h2, h3⟩
  refine ⟨fun a n h => ?_, fun a => ?_, fun a => ?_⟩
  · rcases hc a with h' | h'
    · obtain ⟨r, hr⟩ := h1 a n (h' ▸ h)
      exact ⟨r, by unfold State.lane at hr ⊢; rw [hl]; exact hr⟩
    · rw [h'.1] at h; cases h
  · rw [he, ← h2 a]
    rcases hc a with h' | h'
    · rw [h']
    · rw [h'.1]
      exact ⟨fun h => (by cases h), fun h => absurd h h'.2⟩
  · rcases hc a with h' | h'
    · rw [h']; exact h3 a
    · rw [h'.1]; simp

/-- Axes claimed for a lane that is RUNNING or WAITING, none of them the exercise's. -/
theorem KeepsClaims.claimFor (s : State) (n : LaneNo) (m : BitVec 12)
    (hr : ∃ r, (s.lane n).run = some r ∧ r.phase ≠ .draining)
    (he : ∀ a, inMask m a = true → s.claim a ≠ some .exercise) : KeepsClaims s (s.claimFor n m) := by
  have hc : ∀ a, (s.claimFor n m).claim a = if inMask m a then some (.lane n) else s.claim a := fun a => by
    unfold State.claim State.claimFor
    rw [tget_ofFn]
    rfl
  rintro ⟨h1, h2, h3⟩
  refine ⟨fun a k h => ?_, fun a => ?_, fun a => ?_⟩
  · rw [hc] at h
    split at h
    · cases h; exact hr
    · exact h1 a k h
  · rw [hc]
    refine Iff.trans ?_ (h2 a)
    split
    · next hm => exact ⟨fun h => (by cases h), fun h => absurd h (he a hm)⟩
    · exact Iff.rfl
  · rw [hc]
    split
    · simp
    · exact h3 a

/-- The exercise begins, its axis claimed by no one before. -/
theorem KeepsClaims.begin {s t : State} {e : Exercise} (ho : exerciseOver s.exercise) (he : t.exercise = some e)
    (hp : e.phase ≠ .done)
    (hc : ∀ a, t.claim a = if e.axis = a then some .exercise else s.claim a) (hl : t.lanes = s.lanes) :
    KeepsClaims s t := by
  rintro ⟨h1, h2, h3⟩
  have hx : ∀ a, s.claim a ≠ some .exercise := fun a h => by
    obtain ⟨x, hx, hxp, _⟩ := (h2 a).mp h
    rw [hx] at ho
    exact hxp ho
  refine ⟨fun a n h => ?_, fun a => ?_, fun a => ?_⟩
  · rw [hc] at h
    split at h
    · cases h
    · obtain ⟨r, hr⟩ := h1 a n h
      exact ⟨r, by unfold State.lane at hr ⊢; rw [hl]; exact hr⟩
  · rw [hc, he]
    split
    · next hea => exact ⟨fun _ => ⟨e, rfl, hp, hea⟩, fun _ => rfl⟩
    · next hea =>
      refine ⟨fun h => absurd h (hx a), ?_⟩
      rintro ⟨x, hxe, _, hxa⟩
      cases hxe
      exact absurd hxa hea
  · rw [hc]
    split
    · simp
    · exact h3 a

/-- The exercise goes on, on its axis. -/
theorem KeepsClaims.proceed {s t : State} {e x : Exercise} (hs : s.exercise = some e) (hp : e.phase ≠ .done)
    (ht : t.exercise = some x) (hx : x.phase ≠ .done) (ha : x.axis = e.axis) (hc : t.sched.claims = s.sched.claims)
    (hl : t.lanes = s.lanes) : KeepsClaims s t := by
  have hcl : ∀ a, t.claim a = s.claim a := fun a => by unfold State.claim; rw [hc]
  rintro ⟨h1, h2, h3⟩
  refine ⟨fun a n h => ?_, fun a => ?_, fun a => by rw [hcl]; exact h3 a⟩
  · rw [hcl] at h
    obtain ⟨r, hr⟩ := h1 a n h
    exact ⟨r, by unfold State.lane at hr ⊢; rw [hl]; exact hr⟩
  · rw [hcl, h2 a, ht, hs]
    constructor
    · rintro ⟨y, hy, _, hya⟩
      cases hy
      exact ⟨x, rfl, hx, ha.trans hya⟩
    · rintro ⟨y, hy, _, hya⟩
      cases hy
      exact ⟨e, rfl, hp, ha ▸ hya⟩

/-- The exercise ends, and its claim with it. -/
theorem KeepsClaims.finish {s t : State} {e x : Exercise} (hs : s.exercise = some e)
    (ht : t.exercise = some x) (hx : x.phase = .done) (hc : ∀ a, t.claim a = if e.axis = a then none else s.claim a)
    (hl : t.lanes = s.lanes) : KeepsClaims s t := by
  rintro ⟨h1, h2, h3⟩
  refine ⟨fun a n h => ?_, fun a => ?_, fun a => ?_⟩
  · rw [hc] at h
    split at h
    · cases h
    · obtain ⟨r, hr⟩ := h1 a n h
      exact ⟨r, by unfold State.lane at hr ⊢; rw [hl]; exact hr⟩
  · rw [hc, ht]
    constructor
    · intro h
      split at h
      · cases h
      · next hne =>
        obtain ⟨y, hy, _, hya⟩ := (h2 a).mp h
        rw [hs] at hy
        cases hy
        exact absurd hya hne
    · rintro ⟨y, hy, hyp, _⟩
      cases hy
      exact absurd hx hyp
  · rw [hc]
    split
    · simp
    · exact h3 a

/-- No claims and no exercise. -/
theorem KeepsClaims.none {s t : State} (hc : ∀ a, t.claim a = none) (he : t.exercise = none) : KeepsClaims s t := by
  intro _
  refine ⟨fun a n h => ?_, fun a => ?_, fun a => ?_⟩
  · rw [hc] at h; cases h
  · rw [hc, he]
    exact ⟨fun h => (by cases h), fun ⟨_, h, _⟩ => (by cases h)⟩
  · rw [hc]; simp

/-! ## Runs -/

/-- A run keeps its place where only its record, its times and its counts are written. -/
theorem Run.inside_congr {st : Store} {r x : Run} (h : r.inside st) (h1 : x.showNo = r.showNo) (h2 : x.shown = r.shown)
    (h3 : x.executing = r.executing) (h4 : x.returnPoint = r.returnPoint) (h5 : x.cursor = r.cursor)
    (h6 : ∀ set deadline, x.phase = .waiting set deadline → ∃ y d, r.phase = .waiting y d) : x.inside st := by
  unfold Run.inside at h ⊢
  rw [h1, h2, h3, h4, h5]
  refine ⟨h.1, h.2.1, h.2.2.1, h.2.2.2.1, fun set deadline hp => ?_⟩
  obtain ⟨y, d, hy⟩ := h6 set deadline hp
  exact h.2.2.2.2 y d hy

theorem State.cursorsInside_congr {s t : State} (hst : t.store = s.store) (hl : t.lanes = s.lanes) (hs : s.cursorsInside) :
    t.cursorsInside := by
  unfold State.cursorsInside State.lane at hs ⊢
  rw [hst, hl]
  exact hs

/-- A run written on a lane that has one, or while no compaction is in progress. -/
theorem KeepsRuns.setRun {s : State} {n : LaneNo} {r : Run}
    (hp : r.phase ≠ .draining ∨ (s.claimsLawful → ∀ a, s.claim a ≠ some (.lane n)))
    (hi : s.store.lawful → s.cursorsInside → r.phase ≠ .draining → r.inside s.store)
    (hc : s.store.compaction = none ∨ (s.lane n).run ≠ none) : KeepsRuns s (s.setRun n r) := by
  have hrun : ∀ m, ((s.setRun n r).lane m).run = if n = m then some r else (s.lane m).run := fun m => by
    rw [State.setRun, State.setLane_lane]
    split <;> rfl
  refine ⟨fun hs => ?_, fun hs k hk => ?_, fun hl hs => ⟨hs.1, fun m x hx hxp => ?_, fun hcmp => ?_⟩⟩
  · refine ⟨fun a m h => ?_, hs.2.1, hs.2.2⟩
    rw [hrun]
    split
    · next he =>
      subst he
      rcases hp with hp | hp
      · exact ⟨r, rfl, hp⟩
      · exact absurd h (hp hs a)
    · exact hs.1 a m h
  · rcases hs k hk with h | ⟨m, x, ho, hx⟩
    · exact .inl h
    · refine .inr ⟨m, if n = m then r else x, ho, ?_⟩
      rw [hrun, hx]
      split <;> rfl
  · rw [hrun] at hx
    split at hx
    · cases hx
      exact hi hl hs hxp
    · exact hs.2.1 m x hx hxp
  · rcases hc with hc | hc
    · exact absurd hc hcmp
    · exact absurd (hs.2.2 hcmp n) hc

/-- A run whose record, times or counts are written. -/
theorem KeepsRuns.setRun_same {s : State} {n : LaneNo} {r x : Run} (h : (s.lane n).run = some r) (h0 : x.phase = r.phase)
    (h1 : x.showNo = r.showNo) (h2 : x.shown = r.shown) (h3 : x.executing = r.executing)
    (h4 : x.returnPoint = r.returnPoint) (h5 : x.cursor = r.cursor) : KeepsRuns s (s.setRun n x) := by
  refine KeepsRuns.setRun ?_ (fun hl hs hp => ?_) (.inr (by simp [h]))
  · by_cases hp : x.phase = .draining
    · refine .inr fun hs a ha => ?_
      obtain ⟨y, hy, hyp⟩ := hs.1 a n ha
      rw [h] at hy
      cases hy
      exact hyp (h0 ▸ hp)
    · exact .inl hp
  · exact Run.inside_congr (hs.2.1 n r h (h0 ▸ hp)) h1 h2 h3 h4 h5 fun set d hw => ⟨set, d, h0 ▸ hw⟩

/-- A run taken from a lane that owns no axis and no queued strike. -/
theorem KeepsRuns.idle {s : State} {n : LaneNo} {x : Lane} (hx : x.run = none)
    (hc : s.claimsLawful → ∀ a, s.claim a ≠ some (.lane n)) (hq : ∀ k ∈ s.strikes.queue, k.owner ≠ .lane n) :
    KeepsRuns s (s.setLane n x) := by
  have hrun : ∀ m, ((s.setLane n x).lane m).run = if n = m then none else (s.lane m).run := fun m => by
    rw [State.setLane_lane]
    split
    · exact hx
    · rfl
  refine ⟨fun hs => ?_, fun hs k hk => ?_, fun hl hs => ⟨hs.1, fun m y hy hyp => ?_, fun hcmp m => ?_⟩⟩
  · refine ⟨fun a m h => ?_, hs.2.1, hs.2.2⟩
    rw [hrun]
    split
    · next he => subst he; exact absurd h (hc hs a)
    · exact hs.1 a m h
  · rcases hs k hk with h | ⟨m, y, ho, hy⟩
    · exact .inl h
    · refine .inr ⟨m, y, ho, ?_⟩
      rw [hrun]
      split
      · next he => subst he; exact absurd ho (hq k hk)
      · exact hy
  · rw [hrun] at hy
    split at hy
    · cases hy
    · exact hs.2.1 m y hy hyp
  · rw [hrun]
    split
    · rfl
    · exact hs.2.2 hcmp m

/-- Every run taken away, with no queued strike and no claim. -/
theorem KeepsRuns.allIdle {s : State} {v : Vector Lane 4} (hv : ∀ n, (tget v n).run = none)
    (hq : s.strikes.queue = []) (hc : ∀ a, s.claim a = none) : KeepsRuns s { s with lanes := v } := by
  refine ⟨fun hs => ⟨fun a n h => ?_, hs.2.1, hs.2.2⟩, fun _ k hk => ?_,
    fun _ hs => ⟨hs.1, fun n r hr _ => ?_, fun _ n => hv n⟩⟩
  · have h' : s.claim a = some (.lane n) := h
    rw [hc] at h'; cases h'
  · have hk' : k ∈ s.strikes.queue := hk
    rw [hq] at hk'; cases hk'
  · have hr' : (tget v n).run = some r := hr
    rw [hv] at hr'; cases hr'

/-- Every run with its counts written. -/
theorem KeepsRuns.lanes_same {s : State} {v : Vector Lane 4} (f : Run → Run)
    (hv : ∀ n, (tget v n).run = (s.lane n).run.map f) (h0 : ∀ r, (f r).phase = r.phase)
    (h1 : ∀ r, (f r).showNo = r.showNo) (h2 : ∀ r, (f r).shown = r.shown) (h3 : ∀ r, (f r).executing = r.executing)
    (h4 : ∀ r, (f r).returnPoint = r.returnPoint) (h5 : ∀ r, (f r).cursor = r.cursor) :
    KeepsRuns s { s with lanes := v } := by
  refine ⟨fun hs => ⟨fun a n h => ?_, hs.2.1, hs.2.2⟩, fun hs k hk => ?_,
    fun _ hs => ⟨hs.1, fun n r hr hp => ?_, fun hc n => ?_⟩⟩
  · obtain ⟨r, hr, hp⟩ := hs.1 a n h
    refine ⟨f r, ?_, by rw [h0]; exact hp⟩
    show (tget v n).run = _
    rw [hv, hr]
    rfl
  · rcases hs k hk with h | ⟨n, r, ho, hr⟩
    · exact .inl h
    · refine .inr ⟨n, f r, ho, ?_⟩
      show (tget v n).run = _
      rw [hv, hr]
      rfl
  · have hr' : (tget v n).run = some r := hr
    rw [hv] at hr'
    obtain ⟨x, hx, rfl⟩ := Option.map_eq_some_iff.mp hr'
    rw [h0] at hp
    exact Run.inside_congr (hs.2.1 n x hx hp) (h1 x) (h2 x) (h3 x) (h4 x) (h5 x) fun set d hw => ⟨set, d, by rw [← h0]; exact hw⟩
  · show (tget v n).run = none
    rw [hv, hs.2.2 hc n]
    rfl

/-! ## The cursor -/

/-- What a step that passes validation says of the place it stands at. -/
theorem stepFailure_none {c : StepContext} {st : Step} (h : stepFailure c st = none) :
    (c.index + 1 = c.count → st = .endStep ∨ st = .returnStep)
      ∧ (∀ sense condition argument target, st = .branch sense condition argument target → target < c.count)
      ∧ (∀ entry, st = .call entry → c.kind ≠ .phrase) := by
  unfold stepFailure at h
  rw [Option.map_eq_none_iff, List.find?_eq_none] at h
  have hat : ∀ p ∈ stepChecks c st, p.2 = false := fun p hp => by simpa using h p hp
  have h13 := hat (13, failsBranchTarget c st) (by simp [stepChecks])
  have h15 := hat (15, failsPlacement c st) (by simp [stepChecks])
  have h16 := hat (16, failsLast c st) (by simp [stepChecks])
  refine ⟨fun hi => ?_, ?_, ?_⟩
  · simp only [failsLast, Bool.and_eq_false_iff, beq_eq_false_iff_ne] at h16
    rcases h16 with h16 | h16
    · exact absurd hi h16
    · split at h16
      · left; simpa using h16
      · right; simpa using h16
  · rintro sense condition argument target rfl
    simp only [failsBranchTarget, decide_eq_false_iff_not] at h13
    omega
  · rintro entry rfl hk
    simp [failsPlacement, hk] at h15

/-- The step at the cursor of a run inside the store: its block, its validity there, and the run's return point. -/
theorem Run.inside_step {st : Store} {r : Run} (hv : st.stepsValid) (h : r.inside st) :
    ∃ b : Block, r.executing.first = b.first ∧ r.executing.count = b.count
      ∧ stepFailure ⟨b.kind, b.count, r.cursor - b.first⟩ (decodeStep (st.mem.readSlot r.cursor)) = none
      ∧ (b.kind ≠ .phrase → r.executing = r.shown) := by
  obtain ⟨⟨i, b, hb, hk, hn, hsh⟩, he, hlo, hhi, _⟩ := h
  have key : ∀ (j : Fin 64) (c : Block), tget st.directory j = .ready c → r.executing.first = c.first →
      r.executing.count = c.count →
      stepFailure ⟨c.kind, c.count, r.cursor - c.first⟩ (decodeStep (st.mem.readSlot r.cursor)) = none := by
    intro j c hj h1 h2
    have := hv j c hj (r.cursor - c.first) (by omega)
    rw [show c.first + (r.cursor - c.first) = r.cursor by omega] at this
    exact this
  rcases he with ⟨hex, _⟩ | ⟨⟨j, c, hj, hkc, hex⟩, _⟩
  · have h1 : r.executing.first = b.first := by rw [hex, hsh]
    have h2 : r.executing.count = b.count := by rw [hex, hsh]
    exact ⟨b, h1, h2, key i b hb h1 h2, fun _ => hex⟩
  · have h1 : r.executing.first = c.first := by rw [hex]
    have h2 : r.executing.count = c.count := by rw [hex]
    exact ⟨c, h1, h2, key j c hj h1 h2, fun hne => absurd hkc hne⟩

/-- A run moved to another slot of the entry it executes, RUNNING. -/
theorem Run.inside_move {st : Store} {r x : Run} (h : r.inside st) (h1 : x.showNo = r.showNo) (h2 : x.shown = r.shown)
    (h3 : x.executing = r.executing) (h4 : x.returnPoint = r.returnPoint) (h5 : r.executing.first ≤ x.cursor)
    (h6 : x.cursor < r.executing.first + r.executing.count)
    (h7 : ∀ set deadline, x.phase = .waiting set deadline → x.cursor + 1 < r.executing.first + r.executing.count) :
    x.inside st := by
  unfold Run.inside at h ⊢
  rw [h1, h2, h3, h4]
  exact ⟨h.1, h.2.1, h5, h6, h7⟩

/-- A step other than END and RETURN is followed by another of its entry. -/
theorem Run.inside_room {st : Store} {r : Run} (hv : st.stepsValid) (h : r.inside st)
    (he : decodeStep (st.mem.readSlot r.cursor) ≠ .endStep) (hr : decodeStep (st.mem.readSlot r.cursor) ≠ .returnStep) :
    r.cursor + 1 < r.executing.first + r.executing.count := by
  obtain ⟨b, h1, h2, hf, _⟩ := Run.inside_step hv h
  have hlo := h.2.2.1
  have hhi := h.2.2.2.1
  by_contra hge
  have := (stepFailure_none hf).1 (by dsimp only; omega)
  rcases this with h' | h'
  · exact he h'
  · exact hr h'

/-- The place of a BRANCH's target. -/
theorem Run.inside_branch {st : Store} {r : Run} (hv : st.stepsValid) (h : r.inside st) {sense condition target : Nat}
    {argument : Half} (hb : decodeStep (st.mem.readSlot r.cursor) = .branch sense condition argument target) :
    target < r.executing.count := by
  obtain ⟨b, h1, h2, hf, _⟩ := Run.inside_step hv h
  have := (stepFailure_none hf).2.1 _ _ _ _ hb
  dsimp only at this
  omega

/-- A CALL stands in the run's own show. -/
theorem Run.inside_call {st : Store} {r : Run} (hv : st.stepsValid) (h : r.inside st) {entry : Nat}
    (hb : decodeStep (st.mem.readSlot r.cursor) = .call entry) : r.executing = r.shown := by
  obtain ⟨b, h1, h2, hf, hs⟩ := Run.inside_step hv h
  exact hs ((stepFailure_none hf).2.2 _ hb)

theorem Store.phrase_spec {st : Store} {n : Nat} {b : Block} (h : st.phrase n = some b) :
    ∃ i : Fin 64, n = i.val ∧ tget st.directory i = .ready b ∧ b.kind = .phrase := by
  unfold Store.phrase Store.entry at h
  cases hi : index? 64 n with
  | none => rw [hi] at h; cases h
  | some i =>
    rw [hi] at h
    dsimp only at h
    have hn : n = i.val := by
      unfold index? at hi
      split at hi
      · cases hi; rfl
      · cases hi
    split at h
    · next c hc =>
      split at h
      · cases h
      · next hk => cases h; exact ⟨i, hn, hc, hk⟩
    · cases h

theorem Store.playable_spec {st : Store} {n : Nat} {b : Block} {m : BitVec 12} {l : Nat} (h : st.playable n = some (b, m, l)) :
    ∃ i : Fin 64, n = i.val ∧ tget st.directory i = .ready b ∧ b.kind ≠ .phrase := by
  unfold Store.playable Store.entry at h
  cases hi : index? 64 n with
  | none => rw [hi] at h; cases h
  | some i =>
    rw [hi] at h
    dsimp only at h
    have hn : n = i.val := by
      unfold index? at hi
      split at hi
      · cases hi; rfl
      · cases hi
    split at h
    · next c hc =>
      split at h
      · next hk =>
        cases h
        exact ⟨i, hn, hc, by rw [hk]; simp⟩
      · cases h
    · cases h

/-- A new run stands at the first slot of its show. -/
theorem State.newRun_inside {s : State} {r : Request} {b : Block} {m : BitVec 12} {limit : Nat}
    (h : s.store.playable r.showNo = some (b, m, limit)) (hl : s.store.lawful) : (s.newRun r b limit).inside s.store := by
  obtain ⟨i, hn, hb, hk⟩ := Store.playable_spec h
  have hcount := (hl.2.2.1 i b (DirEntry.block_ready hb)).1
  have hsh : (s.newRun r b limit).shown = ⟨r.showNo, false, b.first, b.count⟩ := rfl
  have hex : (s.newRun r b limit).executing = ⟨r.showNo, false, b.first, b.count⟩ := rfl
  have hcur : (s.newRun r b limit).cursor = b.first := rfl
  have hph : (s.newRun r b limit).phase = .running := rfl
  refine ⟨⟨i, b, hb, hk, hn, by rw [hsh, hn]⟩, .inl ⟨by rw [hex, hsh], rfl⟩, ?_, ?_, ?_⟩
  · rw [hex, hcur]
  · rw [hex, hcur]; show b.first < b.first + b.count; omega
  · intro set d hw; rw [hph] at hw; cases hw

/-- A wait ends: the step after the WAIT_AXIS is one of the entry. -/
theorem Run.inside_waitEnded {st : Store} {r : Run} (h : r.inside st) {set : BitVec 12} {deadline : Instant}
    (hp : r.phase = .waiting set deadline) (w : WaitResult) (now : Instant) (t : Option Instant) :
    ({ r.waitEnded w now with timer := t } : Run).inside st := by
  refine Run.inside_move h rfl rfl rfl rfl ?_ (h.2.2.2.2 set deadline hp) ?_
  · exact Nat.le_succ_of_le h.2.2.1
  · intro y d hw; cases hw

end Sys2Proof.Machine
end

