-- ==== Sys2Proof/Laws/StrikeQueue.lean ====
section
/-! SUPPORT. The strike queue: what inserting, replacing, updating and absorbing do to its records. -/
namespace Sys2Proof.Machine

/-- A record inserted is the queue with it, in some order. -/
theorem insertStrike_perm (k : Strike) (q : List Strike) : (insertStrike k q).Perm (k :: q) := by
  induction q with
  | nil => exact List.Perm.refl _
  | cons x rest ih =>
    unfold insertStrike
    split
    · exact List.Perm.refl _
    · exact (List.Perm.cons x ih).trans (List.Perm.swap k x rest)

@[simp] theorem mem_insertStrike {k x : Strike} {q : List Strike} : x ∈ insertStrike k q ↔ x = k ∨ x ∈ q := by
  rw [(insertStrike_perm k q).mem_iff, List.mem_cons]

theorem insertStrike_length (k : Strike) (q : List Strike) : (insertStrike k q).length = q.length + 1 := by
  rw [(insertStrike_perm k q).length_eq, List.length_cons]

theorem mem_withoutOrder {n : Nat} {x : Strike} {q : List Strike} : x ∈ withoutOrder n q ↔ x ∈ q ∧ x.order ≠ n := by
  simp [withoutOrder]

theorem mem_replaceStrike {k x : Strike} {q : List Strike} :
    x ∈ replaceStrike k q ↔ x = k ∨ (x ∈ q ∧ x.order ≠ k.order) := by
  simp [replaceStrike, mem_withoutOrder]

theorem withoutOrder_length_lt {x : Strike} {q : List Strike} (h : x ∈ q) : (withoutOrder x.order q).length < q.length := by
  unfold withoutOrder
  rw [List.length_filter_lt_length_iff_exists]
  exact ⟨x, h, by simp⟩

/-- Replacing a record of the queue does not lengthen it. -/
theorem replaceStrike_length {k x : Strike} {q : List Strike} (h : x ∈ q) (ho : k.order = x.order) :
    (replaceStrike k q).length ≤ q.length := by
  unfold replaceStrike
  rw [insertStrike_length, ho]
  exact withoutOrder_length_lt h

@[simp] theorem updateStrike_length (k : Strike) (q : List Strike) : (updateStrike k q).length = q.length :=
  List.length_map _

theorem mem_of_updateStrike {k x : Strike} {q : List Strike} (h : x ∈ updateStrike k q) : x = k ∨ x ∈ q := by
  unfold updateStrike at h
  obtain ⟨y, hy, rfl⟩ := List.mem_map.mp h
  split
  · exact .inl rfl
  · exact .inr hy

/-! ## Absorbing -/

theorem mem_foldl_nearer (due : Instant) : ∀ (l : List Strike) (k : Strike), l.foldl (nearer due) k = k ∨ l.foldl (nearer due) k ∈ l
  | [], _ => .inl rfl
  | x :: rest, k => by
    rw [List.foldl_cons]
    rcases mem_foldl_nearer due rest (nearer due k x) with h | h
    · rw [h]
      unfold nearer
      split
      · exact .inr List.mem_cons_self
      · exact .inl rfl
    · exact .inr (List.mem_cons_of_mem _ h)

/-- The absorbing strike stands in the queue, is for the same bell, and lies within its repeat guard. -/
theorem StrikeUnit.absorber_spec {u : StrikeUnit} {b : BellNo} {due : Instant} {k : Strike}
    (h : u.absorber b due = some k) :
    k ∈ u.queue ∧ k.bell = b ∧ distance k.due due < (tget u.bells b).guardMs * 1000 := by
  unfold StrikeUnit.absorber at h
  have hk : k ∈ u.within b due := by
    split at h
    · cases h
    · next x rest hw =>
      rw [hw]
      cases h
      rcases mem_foldl_nearer due rest x with h | h
      · rw [h]
        exact List.mem_cons_self
      · exact List.mem_cons_of_mem _ h
  simpa [StrikeUnit.within] using hk

/-- Where nothing absorbs, every queued strike for the bell is a repeat guard away. -/
theorem StrikeUnit.absorber_none {u : StrikeUnit} {b : BellNo} {due : Instant} (h : u.absorber b due = none) :
    ∀ x ∈ u.queue, x.bell = b → (tget u.bells b).guardMs * 1000 ≤ distance x.due due := by
  intro x hx hb
  unfold StrikeUnit.absorber at h
  split at h
  · next hw =>
    refine Nat.not_lt.mp fun hlt => ?_
    have hm : x ∈ u.within b due := by
      unfold StrikeUnit.within
      rw [List.mem_filter]
      exact ⟨hx, by simp [hb, hlt]⟩
    rw [hw] at hm
    exact List.not_mem_nil hm
  · cases h

theorem raisedBy_spec {u : StrikeUnit} {level : Nat} {now : Instant} {k r : Strike} {v : Nat}
    (h : raisedBy u level now k v = some r) :
    r.order = k.order ∧ r.bell = k.bell ∧ r.due = k.due ∧ r.owner = k.owner := by
  unfold raisedBy at h
  split at h
  · cases h
  · obtain ⟨p, _, hp⟩ := Option.map_eq_some_iff.mp h
    rw [← hp]
    exact ⟨rfl, rfl, rfl, rfl⟩

theorem regard_spec (b : Bell) (k : Strike) :
    (regard b k).order = k.order ∧ (regard b k).bell = k.bell ∧ (regard b k).due = k.due
      ∧ (regard b k).owner = k.owner := by
  unfold regard
  split <;> exact ⟨rfl, rfl, rfl, rfl⟩

/-- A merge keeps the absorbing strike's entry order, bell, D and owner (R86, R93). -/
theorem mergedWith_spec (u : StrikeUnit) (level : Nat) (now : Instant) (k : Strike) (v : Nat) :
    (mergedWith u level now k v).order = k.order ∧ (mergedWith u level now k v).bell = k.bell
      ∧ (mergedWith u level now k v).due = k.due ∧ (mergedWith u level now k v).owner = k.owner := by
  unfold mergedWith
  dsimp only
  have h := regard_spec (tget u.bells k.bell)
    { (if k.velocity < v then (raisedBy u level now k v).getD k else k) with merged := true }
  obtain ⟨h1, h2, h3, h4⟩ := h
  rw [h1, h2, h3, h4]
  dsimp only
  split
  · rcases hr : raisedBy u level now k v with _ | r
    · exact ⟨rfl, rfl, rfl, rfl⟩
    · exact raisedBy_spec hr
  · exact ⟨rfl, rfl, rfl, rfl⟩

/-! ## The supply -/

/-- The strike the arbiter takes first stands in the queue, HELD_SUPPLY. -/
theorem StrikeUnit.firstWaiting_spec {u : StrikeUnit} {k : Strike} (h : u.firstWaiting = some k) :
    k ∈ u.queue ∧ k.fire = .heldSupply := by
  have hk : k ∈ u.waiting := by
    unfold StrikeUnit.firstWaiting at h
    split at h
    · cases h
    · next x rest hw =>
      rw [hw]
      cases h
      have key : ∀ (l : List Strike) (b : Strike),
          l.foldl (fun best x => if x.servedBefore best then x else best) b = b
            ∨ l.foldl (fun best x => if x.servedBefore best then x else best) b ∈ l := by
        intro l
        induction l with
        | nil => exact fun b => .inl rfl
        | cons y ys ih =>
          intro b
          rw [List.foldl_cons]
          rcases ih (if y.servedBefore b then y else b) with h | h
          · rw [h]
            split
            · exact .inr List.mem_cons_self
            · exact .inl rfl
          · exact .inr (List.mem_cons_of_mem _ h)
      rcases key rest x with h | h
      · rw [h]
        exact List.mem_cons_self
      · exact List.mem_cons_of_mem _ h
  simpa [StrikeUnit.waiting] using hk

/-! ## HAMMER outputs -/

/-- An output driven low is low. -/
theorem StrikeUnit.release_hammers (u : StrikeUnit) (b : BellNo) : (u.release b).hammers.getLsbD b.val = false := by
  unfold StrikeUnit.release hammerBit
  simp

/-- The other outputs stand. -/
theorem StrikeUnit.release_hammers_of_ne (u : StrikeUnit) {b c : BellNo} (h : c ≠ b) :
    (u.release b).hammers.getLsbD c.val = u.hammers.getLsbD c.val := by
  unfold StrikeUnit.release hammerBit
  have hne : c.val ≠ b.val := fun e => h (Fin.ext e)
  have hc : c.val < 32 := c.isLt
  by_cases hlt : c.val < b.val
  · simp [hlt]
  · have : c.val - b.val ≠ 0 := by omega
    simp [hlt, hc, this]

/-- An output driven high is high, and the others stand. -/
theorem StrikeUnit.drive_hammers (u : StrikeUnit) (b c : BellNo) :
    (u.drive b).hammers.getLsbD c.val = (u.hammers.getLsbD c.val || decide (b = c)) := by
  unfold StrikeUnit.drive hammerBit
  have hb : b.val < 32 := b.isLt
  have hc : c.val < 32 := c.isLt
  by_cases h : b = c
  · subst h
    simp [hb]
  · have hne : c.val ≠ b.val := fun e => h (Fin.ext e.symm)
    by_cases hlt : c.val < b.val
    · simp [hlt, h]
    · have : c.val - b.val ≠ 0 := by omega
      simp [hlt, this, h, hc]

end Sys2Proof.Machine
end

