-- ==== Sys2Proof/Laws/Near.lean ====
section
/-! SUPPORT. Instants near each other: the order of R1 among them, and that the strikes entering the queue, and those a
merge changes, have their fire instants near now. -/
namespace Sys2Proof.Machine

theorem before_iff (a b : Instant) : before a b = true ↔ 1 ≤ (b - a).toNat ∧ (b - a).toNat ≤ 2147483647 := by
  simp [before]

theorem distance_self (a : Instant) : distance a a = 0 := by simp [distance, before]

theorem toNat_micros {n : Nat} (h : n < 4294967296) : (micros n).toNat = n := by
  unfold micros
  rw [BitVec.toNat_ofNat]
  omega

/-- An instant that a strike's flight may lead to: ahead of now it is near. -/
def Instant.nearby (due now : Instant) : Prop :=
  ∀ flight, flight ≤ 100000 → before (due - micros flight) now = false → distance (due - micros flight) now ≤ 1000000000

theorem Strike.nearby_iff (k : Strike) (now : Instant) :
    k.nearby now ↔ distance k.fireAt now ≤ 1000000000 ∧ Instant.nearby k.due now := Iff.rfl

/-- An instant within 1,000 seconds of now. -/
theorem Instant.nearby_of_distance {due now : Instant} (h : distance due now ≤ 1000000000) : Instant.nearby due now := by
  intro flight hf hb
  have ht := toNat_micros (n := flight) (by omega)
  have hd := due.isLt
  have hn := now.isLt
  unfold distance at h ⊢
  rw [if_neg (by rw [hb]; simp)]
  rw [Bool.eq_false_iff, Ne, before_iff] at hb
  simp only [BitVec.toNat_sub, ht] at hb ⊢
  split at h
  · next hdb =>
    rw [before_iff] at hdb
    simp only [BitVec.toNat_sub] at hdb h
    omega
  · next hdb =>
    rw [before_iff] at hdb
    simp only [BitVec.toNat_sub] at hdb h
    omega

/-- An instant whose lookahead has come. -/
theorem Instant.nearby_of_ready {due now : Instant} (h : reached (due - micros 250000) now = true) :
    Instant.nearby due now := by
  intro flight hf hb
  have ht := toNat_micros (n := flight) (by omega)
  have h25 := toNat_micros (n := 250000) (by omega)
  have hd := due.isLt
  have hn := now.isLt
  unfold distance
  rw [if_neg (by rw [hb]; simp)]
  unfold reached at h
  rw [Bool.not_eq_true', Bool.eq_false_iff, Ne, before_iff] at h
  rw [Bool.eq_false_iff, Ne, before_iff] at hb
  simp only [BitVec.toNat_sub, ht, h25] at h hb ⊢
  omega

/-- An instant within 60 seconds after now. -/
theorem Instant.nearby_of_delay (now : Instant) {m : Nat} (h : m ≤ 60000000) : Instant.nearby (now + micros m) now := by
  apply Instant.nearby_of_distance
  have ht := toNat_micros (n := m) (by omega)
  have hn := now.isLt
  unfold distance
  split
  · next hb =>
    rw [before_iff] at hb
    simp only [BitVec.toNat_sub, BitVec.toNat_add, ht] at hb ⊢
    omega
  · simp only [BitVec.toNat_sub, BitVec.toNat_add, ht]
    omega

/-- Flight times lie within R81's bounds. -/
theorem StrikeUnit.compute_flight {u : StrikeUnit} {level : Nat} {b : Bell} {v : Nat} {c : Computed}
    (h : u.compute level b v = some c) : 1000 ≤ c.flight ∧ c.flight ≤ 100000 := by
  unfold StrikeUnit.compute at h
  dsimp only at h
  split at h
  · cases h
  · cases h
    dsimp only
    unfold flightTime
    dsimp only
    split
    · omega
    · split <;> omega

theorem lateness_zero {t now : Instant} (h : lateness t now = 0) : before t now = false := by
  unfold lateness at h
  split at h
  · next hb =>
    rw [before_iff] at hb
    omega
  · next hb => simpa using hb

/-- What entry makes of a fire instant is near now, where the due instant is nearby. -/
theorem entryFire_near {now due fireAt : Instant} {flight tau : Nat} {late : Bool}
    (h : entryFire now (due - micros flight) tau = some (fireAt, late)) (hf : flight ≤ 100000)
    (hd : Instant.nearby due now) : distance fireAt now ≤ 1000000000 := by
  unfold entryFire at h
  dsimp only at h
  split at h
  · next hl =>
    cases h
    exact hd flight hf (lateness_zero hl)
  · split at h
    · cases h
      rw [distance_self]
      exact Nat.zero_le _
    · cases h

theorem mergedWith_nearby {u : StrikeUnit} {level : Nat} {now : Instant} {k : Strike} {v : Nat} (h : k.nearby now) :
    (mergedWith u level now k v).nearby now := by
  rw [Strike.nearby_iff] at h ⊢
  rw [(mergedWith_spec u level now k v).2.2.1]
  refine ⟨?_, h.2⟩
  have hr : ∀ x : Strike, (regard (tget u.bells k.bell) x).fireAt = x.fireAt := fun x => by
    unfold regard
    split <;> rfl
  unfold mergedWith
  dsimp only
  rw [hr]
  dsimp only
  split
  · rcases hx : raisedBy u level now k v with _ | r
    · exact h.1
    · show distance r.fireAt now ≤ _
      unfold raisedBy at hx
      split at hx
      · cases hx
      · next c hc =>
        obtain ⟨⟨f, late⟩, hp, hr⟩ := Option.map_eq_some_iff.mp hx
        rw [← hr]
        exact entryFire_near hp (StrikeUnit.compute_flight hc).2 h.2
  · exact h.1

/-- A strike of a message is near. -/
theorem messageStrike_nearby (now : Instant) (b : BellNo) (v delay : Nat) {c : Computed} (hc : c.flight ≤ 100000)
    (hd : delay ≤ 60000) : (messageStrike now b v delay c).nearby now := by
  rw [Strike.nearby_iff]
  have hm : max (delay * 1000) c.flight ≤ 60000000 := by omega
  have hn := Instant.nearby_of_delay now hm
  refine ⟨?_, hn⟩
  refine hn c.flight hc ?_
  have ht := toNat_micros (n := c.flight) (by omega)
  have ht2 := toNat_micros (n := max (delay * 1000) c.flight) (by omega)
  have hnl := now.isLt
  rw [Bool.eq_false_iff, Ne, before_iff]
  simp only [BitVec.toNat_sub, BitVec.toNat_add, ht, ht2]
  omega

/-- A strike of a lane whose step is ready is near. -/
theorem laneStrike_nearby {now due fireAt : Instant} {c : Computed} {tau : Nat} {late : Bool} (b : BellNo) (v : Nat)
    (o : Owner) (hr : reached (due - micros 250000) now = true) (hc : c.flight ≤ 100000)
    (h : entryFire now (due - micros c.flight) tau = some (fireAt, late)) :
    (strikeOf b v o due c fireAt late).nearby now := by
  rw [Strike.nearby_iff]
  exact ⟨entryFire_near h hc (Instant.nearby_of_ready hr), Instant.nearby_of_ready hr⟩

end Sys2Proof.Machine
end

