-- ==== Sys2Proof/Laws/TracePort.lean ====
section
/-! SUPPORT. Chains of the port's operations, of latches, and of the lanes' counters. -/
namespace Sys2Proof.Machine

/-! ## Lengths of the port's queues -/

@[simp] theorem Port.append_rx (p : Port) (now : Instant) (f : TxFrame) : (p.append now f).rx = p.rx := rfl
@[simp] theorem Port.append_tx (p : Port) (now : Instant) (f : TxFrame) : (p.append now f).tx = p.tx ++ [f] := rfl

theorem dropNotice_length : ∀ {l l' : List TxFrame}, dropNotice l = some l' → l'.length + 1 = l.length
  | [], _, h => by simp [dropNotice] at h
  | f :: rest, l', h => by
    unfold dropNotice at h
    split at h
    · simp_all
    · obtain ⟨r, hr, rfl⟩ := Option.map_eq_some_iff.mp h
      simp [dropNotice_length hr]

/-- Making room changes the transmit queue and the latches alone, and leaves room. -/
theorem Port.makeRoom_spec {p q : Port} (h : p.makeRoom = some q) :
    q.rx = p.rx ∧ q.tx.length ≤ p.tx.length ∧ (p.tx.length ≤ Config.transmitCapacity → q.tx.length < Config.transmitCapacity) := by
  unfold Port.makeRoom at h
  split at h
  · next hl =>
    cases h
    exact ⟨rfl, Nat.le_refl _, fun _ => hl⟩
  · split at h
    · cases h
    · next head rest htx =>
      obtain ⟨r, hr, rfl⟩ := Option.map_eq_some_iff.mp h
      have := dropNotice_length hr
      rw [htx]
      refine ⟨rfl, ?_, ?_⟩ <;> simp <;> omega

theorem Port.enterReply_spec (p : Port) (now : Instant) (f : TxFrame) :
    (p.enterReply now f).rx = p.rx
      ∧ (p.tx.length ≤ Config.transmitCapacity → (p.enterReply now f).tx.length ≤ Config.transmitCapacity) := by
  unfold Port.enterReply
  split
  · next q hq =>
    obtain ⟨hr, _, ht⟩ := Port.makeRoom_spec hq
    refine ⟨by simp [hr], fun h => ?_⟩
    have := ht h
    simp
    omega
  · exact ⟨rfl, id⟩

theorem Port.enterBusy_spec (p : Port) (now : Instant) (f : TxFrame) :
    (p.enterBusy now f).rx = p.rx
      ∧ (p.tx.length ≤ Config.transmitCapacity → (p.enterBusy now f).tx.length ≤ Config.transmitCapacity) := by
  unfold Port.enterBusy
  split
  · next q hq =>
    obtain ⟨hr, _, ht⟩ := Port.makeRoom_spec hq
    refine ⟨by simp [hr], fun h => ?_⟩
    have := ht h
    simp
    omega
  · exact ⟨rfl, id⟩

theorem Port.enterNotice_spec (p : Port) (now : Instant) (n : Notice) :
    (p.enterNotice now n).rx = p.rx
      ∧ (p.tx.length ≤ Config.transmitCapacity → (p.enterNotice now n).tx.length ≤ Config.transmitCapacity) := by
  unfold Port.enterNotice
  split
  · split
    · next hl => exact ⟨rfl, fun _ => by simp; omega⟩
    · exact ⟨rfl, id⟩
  · exact ⟨rfl, id⟩

theorem Port.offer_spec (p : Port) (now : Instant) (f : RxFrame) :
    (p.rx.length ≤ Config.receiveCapacity → (p.offer now f).rx.length ≤ Config.receiveCapacity)
      ∧ (p.tx.length ≤ Config.transmitCapacity → (p.offer now f).tx.length ≤ Config.transmitCapacity) := by
  unfold Port.offer
  split
  · next hl => exact ⟨fun _ => by simp; omega, id⟩
  · obtain ⟨hr, ht⟩ := Port.enterBusy_spec { p with latches := { p.latches with receiveOverflow := true } } now
      ⟨.reply, f.tag, f.kind + 0x80, [Result.busy.code]⟩
    exact ⟨fun h => by rw [hr]; exact h, ht⟩

theorem Port.frameSent_spec (p : Port) (now : Instant) :
    (p.frameSent now).rx = p.rx
      ∧ (p.tx.length ≤ Config.transmitCapacity → (p.frameSent now).tx.length ≤ Config.transmitCapacity) := by
  unfold Port.frameSent
  split
  · exact ⟨rfl, id⟩
  · next sent rest htx =>
    refine ⟨rfl, fun h => ?_⟩
    rw [htx] at h
    simp only [List.length_cons] at h
    cases p.held <;> simp <;> omega

/-! ## At the state -/

variable {s : State}

theorem Chain.reply (s : State) (tag kind : Byte) (r : Result) (fields : List Byte) : Calm s (s.reply tag kind r fields) :=
  have h := Port.enterReply_spec s.port s.now (replyFrame tag kind r fields)
  (Move.port s _ (fun hl => by rw [h.1]; exact hl) h.2).chain

theorem Chain.notice (s : State) (n : Notice) : Calm s (s.notice n) :=
  have h := Port.enterNotice_spec s.port s.now n
  (Move.port s _ (fun hl => by rw [h.1]; exact hl) h.2).chain

theorem Chain.offer (s : State) (f : RxFrame) : Calm s (s.offer f) :=
  have h := Port.offer_spec s.port s.now f
  (Move.port s _ h.1 h.2).chain

/-- A change of the port that leaves its two queues is a move. -/
theorem Chain.port (s : State) (p : Port) (hr : p.rx = s.port.rx) (ht : p.tx = s.port.tx) :
    Calm s { s with port := p } :=
  (Move.port s p (fun h => by rw [hr]; exact h) (fun h => by rw [ht]; exact h)).chain

theorem Chain.latch (s : State) (f : Latches → Latches) : Calm s (s.latch f) := Chain.port s _ rfl rfl
theorem Chain.latchBell (s : State) (b : BellNo) (f : BellLatches → BellLatches) : Calm s (s.latchBell b f) :=
  Chain.latch s _
theorem Chain.latchAxis (s : State) (a : AxisNo) (f : AxisLatches → AxisLatches) : Calm s (s.latchAxis a f) :=
  Chain.latch s _

/-- A change of the calendar that leaves the timed plays, and the time one that exists, is a move. -/
theorem Chain.cal (s : State) (c : Calendar) (h : c.timedPlays = s.cal.timedPlays)
    (ht : s.cal.time.inRange → c.time.inRange := by exact fun h => h) : Calm s { s with cal := c } :=
  (Move.cal s c (fun hl => by rw [h]; exact hl) ht).chain

/-- A change of the scheduler that leaves its queue, and of its claims what law 4 asks, is a move. -/
theorem Chain.schedClaims (s : State) (c : Scheduler) (h : c.queue = s.sched.queue) (ha : c.arrivals = s.sched.arrivals)
    (hk : KeepsClaims s { s with sched := c }) : Calm s { s with sched := c } :=
  (Move.sched s c (fun hl => by rw [h]; exact hl) (Scheduler.ordered_congr h ha) hk).chain

/-- A change of the scheduler that leaves its queue and its claims is a move. -/
theorem Chain.sched (s : State) (c : Scheduler) (h : c.queue = s.sched.queue)
    (ha : c.arrivals = s.sched.arrivals := by rfl) (hc : c.claims = s.sched.claims := by rfl) :
    Calm s { s with sched := c } :=
  Chain.schedClaims s c h ha (KeepsClaims.of_eq hc rfl rfl)

/-- A run is written where the lane has one. -/
theorem Chain.setRun (s : State) (n : LaneNo) (r : Run) (h : s.mayPlay) (hk : KeepsRuns s (s.setRun n r)) :
    Calm s (s.setRun n r) := (Move.lane s n _ (.inr h) hk).chain

theorem Chain.countFor (s : State) (o : Owner) (f : RunRecord → RunRecord) : Calm s (s.countFor o f) := by
  unfold State.countFor
  split
  · next n =>
    split
    · next r hr =>
      exact Chain.setRun s _ _ (State.mayPlay_of_run (n := n) (by simp [hr]))
        (KeepsRuns.setRun_same hr rfl rfl rfl rfl rfl rfl)
    · exact .refl s
  · exact .refl s

theorem Chain.nextChoice (s : State) : Calm s s.nextChoice := (Move.choices s _).chain

theorem Chain.setHanding (s : State) (on : Bool) : Calm s { s with port := { s.port with handing := on } } :=
  Chain.port s _ rfl rfl

/-- Where a request is taken, no compaction is in progress. -/
theorem State.takes_compaction {s : State} (h : s.takes = true) : s.store.compaction = none := by
  simp only [State.takes, State.portReady, Bool.and_eq_true, Option.isNone_iff_eq_none] at h
  exact h.1.1.1

/-- A request at the port is a chain where what it does when taken is one. -/
theorem Chain.takeReady {g : Bool} {c : Instr} {taken : State → State} (s : State)
    (h : s.takes = true → Chain true g s (taken s)) : Chain true g s (Machine.takeRequest c taken s) := by
  unfold Machine.takeRequest
  split
  · exact h ‹_›
  · split
    · exact (Chain.offer s _).widen
    · exact .refl s

theorem Chain.takeRequest {g : Bool} {c : Instr} {taken : State → State} (h : ∀ s, Chain true g s (taken s)) (s : State) :
    Chain true g s (takeRequest c taken s) := Chain.takeReady s fun _ => h s

/-! ## What the port's operations and the counters leave -/

@[simp] theorem State.countFor_strikes (s : State) (o : Owner) (f : RunRecord → RunRecord) :
    (s.countFor o f).strikes = s.strikes := by
  unfold State.countFor
  split
  · split <;> rfl
  · rfl

@[simp] theorem State.countFor_motion (s : State) (o : Owner) (f : RunRecord → RunRecord) :
    (s.countFor o f).motion = s.motion := by
  unfold State.countFor
  split
  · split <;> rfl
  · rfl

theorem State.countFor_run (s : State) (o : Owner) (f : RunRecord → RunRecord) (n : LaneNo)
    (h : (s.lane n).run ≠ none) : ((s.countFor o f).lane n).run ≠ none := by
  unfold State.countFor
  split
  · next m =>
    split
    · rw [State.setRun, State.setLane_lane]
      split
      · simp
      · exact h
    · exact h
  · exact h

theorem State.setRun_run (s : State) (m : LaneNo) (r : Run) (n : LaneNo) (h : (s.lane n).run ≠ none) :
    ((s.setRun m r).lane n).run ≠ none := by
  rw [State.setRun, State.setLane_lane]
  split
  · simp
  · exact h

end Sys2Proof.Machine
end

