-- ==== Sys2Proof/Laws/TraceSched.lean ====
section
/-! SUPPORT. Chains of the scheduler's operations: dropping, ending and starting runs, the walk, admission; and of the
axis operations they use. -/
namespace Sys2Proof.Machine

/-! ## Axes -/

theorem shed_natAbs (v : Int) (dv : Nat) : (shed v dv).natAbs ≤ v.natAbs := by
  unfold shed
  split <;> omega

theorem bound_mem {low high x : Int} (h : low ≤ high) : low ≤ bound low high x ∧ bound low high x ≤ high := by
  unfold bound
  omega

/-- A mode in which no figure is commanded is one after STOP. -/
theorem Axis.stop_mode (x : Axis) (dv : Nat) (h : x.mode.moving = true) : (x.stop dv).1.mode.commanded = false := by
  unfold Axis.stop
  rw [if_pos h]
  split <;> rfl

/-- Stopping keeps law 6. -/
theorem Axis.stop_lawful (x : Axis) (dv : Nat) (h : x.lawful) : (x.stop dv).1.lawful := by
  unfold Axis.stop
  split
  · next hm =>
    have he : x.mode.enabled = true := by
      revert hm
      cases x.mode <;> simp [AxisMode.moving, AxisMode.enabled]
    intro c hc
    split at hc
    all_goals
      obtain ⟨hv, hf, hr⟩ := h c hc
      revert hf hr hv
      rcases hform : c.form with _ | ⟨lower, upper⟩
      · simp_all [Axis.withinForm, Axis.held]
      · simp only [Axis.withinForm]
        intro hv ⟨h1, h2, h3⟩ hr
        have := h2 he
        simp_all [Axis.held]
  · exact h

/-- Stopping leaves the configuration and the reply heard. -/
theorem Axis.stop_bus (x : Axis) (dv : Nat) : (x.stop dv).1.config = x.config ∧ (x.stop dv).1.heard = x.heard := by
  unfold Axis.stop
  split
  · split <;> exact ⟨rfl, rfl⟩
  · exact ⟨rfl, rfl⟩

/-- An axis written with its configuration and its reply heard as they were. -/
theorem bus_of_eq {x y : Axis} (h : y.config = x.config ∧ y.heard = x.heard) (hb : x.config = none → x.heard = none)
    (hc : y.config = none) : y.heard = none := by
  rw [h.2]
  exact hb (h.1 ▸ hc)

theorem Chain.disturb (s : State) (a : AxisNo) : Calm s (s.disturb a) := by
  unfold State.disturb
  split
  · exact (Move.verifier s _).chain
  · exact .refl s

theorem Chain.stopAxis (s : State) (a : AxisNo) (dv : Nat) : Calm s (s.stopAxis a dv).1 := by
  unfold State.stopAxis
  dsimp only
  split
  · next hm =>
    exact (Move.axis s a _ (Axis.stop_lawful _ dv) (.inl (Axis.stop_mode _ dv hm)) (bus_of_eq (Axis.stop_bus _ dv))).chain.trans
      (Chain.disturb _ _)
  · exact .refl s

/-- What the stop of an axis leaves. -/
theorem State.stopAxis_fields (s : State) (a : AxisNo) (dv : Nat) :
    (s.stopAxis a dv).1.lanes = s.lanes ∧ (s.stopAxis a dv).1.sched = s.sched ∧ (s.stopAxis a dv).1.strikes = s.strikes
      ∧ (s.stopAxis a dv).1.output = s.output ∧ (s.stopAxis a dv).1.exercise = s.exercise
      ∧ (s.stopAxis a dv).1.store = s.store := by
  unfold State.stopAxis State.disturb
  dsimp only
  split
  · split <;> exact ⟨rfl, rfl, rfl, rfl, rfl, rfl⟩
  · exact ⟨rfl, rfl, rfl, rfl, rfl, rfl⟩

/-- A command that is carried out keeps law 6. -/
theorem Axis.command_lawful {leaders : AxisNo → Axis} {a : AxisNo} {x : Axis} {m : MotionCommand} {c : Carried}
    (h : x.command leaders a m = some c) (hx : x.lawful) : c.axis.lawful := by
  unfold Axis.command at h
  split at h
  · cases h
  · next cfg hcfg =>
    split at h
    · next he =>
      have hform : ∀ y : Axis, y.config = x.config → y.cmd = x.cmd → y.v = x.v → y.residue = x.residue →
          y.turns = x.turns → y.missed = x.missed →
          (∀ t d r lower upper, y.mode = .move t d r → cfg.form = .bounded lower upper → lower ≤ upper →
            lower ≤ t ∧ t ≤ upper) → y.lawful := by
        intro y h1 h2 h3 h4 h5 h6 h7 c hc
        rw [h1, hcfg] at hc
        obtain ⟨hv, hf, hr⟩ := hx cfg hcfg
        cases hc
        rw [h3, h4, h5, h6]
        refine ⟨hv, ?_, hr⟩
        rcases hw : cfg.form with _ | ⟨lower, upper⟩
        · trivial
        · rw [hw] at hf
          obtain ⟨f1, f2, _⟩ := hf
          exact ⟨f1, fun _ => h2 ▸ f2 he, fun t d r hm => h7 t d r lower upper hm hw f1⟩
      cases m with
      | move target direction rate =>
        simp only [Option.some.injEq] at h
        subst h
        refine hform _ rfl rfl rfl rfl rfl rfl fun t d r lower upper hm hw hle => ?_
        simp only [AxisMode.move.injEq] at hm
        rw [← hm.1, hw]
        exact bound_mem hle
      | spin rate =>
        simp only at h
        split at h
        · cases h
          exact hform _ rfl rfl rfl rfl rfl rfl fun t d r lower upper hm => by simp at hm
        · cases h
      | stop =>
        simp only [Option.some.injEq] at h
        subst h
        exact Axis.stop_lawful _ _ hx
      | follow leader numerator denominator offset =>
        simp only at h
        split at h
        · cases h
        · cases h
          exact hform _ rfl rfl rfl rfl rfl rfl fun t d r lower upper hm => by simp at hm
    · cases h

/-- A command leaves the configuration and the reply heard. -/
theorem Axis.command_bus {leaders : AxisNo → Axis} {a : AxisNo} {x : Axis} {m : MotionCommand} {c : Carried}
    (h : x.command leaders a m = some c) : c.axis.config = x.config ∧ c.axis.heard = x.heard := by
  unfold Axis.command at h
  split at h
  · cases h
  · split at h
    · cases m
      case stop =>
        simp only [Option.some.injEq] at h
        subst h
        exact Axis.stop_bus _ _
      case move => cases h; exact ⟨rfl, rfl⟩
      all_goals
        simp only at h
        split at h <;> cases h
        exact ⟨rfl, rfl⟩
    · cases h

/-- A motion command, where something may begin. -/
theorem Chain.commandAxis {s t : State} {a : AxisNo} {m : MotionCommand} {limited settled : Bool}
    (h : s.commandAxis a m = some (t, limited, settled)) (hp : s.mayPlay) : Calm s t := by
  unfold State.commandAxis at h
  obtain ⟨c, hc, h⟩ := Option.map_eq_some_iff.mp h
  cases h
  exact (Move.axis s a _ (fun hl => Axis.command_lawful hc hl) (.inr hp) (bus_of_eq (Axis.command_bus hc))).chain.trans
    (Chain.disturb _ _)

/-- What a motion command leaves. -/
theorem State.commandAxis_fields {s t : State} {a : AxisNo} {m : MotionCommand} {limited settled : Bool}
    (h : s.commandAxis a m = some (t, limited, settled)) :
    t.lanes = s.lanes ∧ t.sched = s.sched ∧ t.strikes = s.strikes ∧ t.exercise = s.exercise ∧ t.output = s.output
      ∧ t.store = s.store := by
  unfold State.commandAxis State.disturb at h
  obtain ⟨c, _, h⟩ := Option.map_eq_some_iff.mp h
  simp only [Prod.mk.injEq] at h
  obtain ⟨rfl, _⟩ := h
  split <;> simp

/-! ## Dropping -/

theorem Chain.releaseKey (s : State) (o : Source) (id : Nat) : Calm s (s.releaseKey o id) := by
  unfold State.releaseKey
  split
  · dsimp only
    split
    · exact Chain.sched s _ rfl
    · exact .refl s
  · exact .refl s

theorem Chain.holdKey (s : State) (o : Source) (id : Nat) : Calm s (s.holdKey o id) := by
  unfold State.holdKey
  split
  · exact Chain.sched s _ rfl
  · exact .refl s

theorem Chain.dropRequest (s : State) (id showNo : Nat) (o : Source) (r : DropReason) :
    Calm s (s.dropRequest id showNo o r) :=
  ((Chain.notice s _).trans (Chain.latch _ _)).trans (Chain.releaseKey _ _ _)

/-- The queue of requests only shortens. -/
theorem Chain.setRequests (s : State) (q : List Request) (h : q.Sublist s.sched.queue) :
    Calm s (s.setRequests q) :=
  (Move.sched s { s.sched with queue := q } (fun hl => Nat.le_trans h.length_le hl) (Scheduler.ordered_sublist h rfl)
    (KeepsClaims.of_eq rfl rfl rfl)).chain

theorem withoutId_sublist (id : Nat) (q : List Request) : (withoutId id q).Sublist q := List.filter_sublist

theorem Chain.dropQueued (s : State) (r : Request) (why : DropReason) : Calm s (s.dropQueued r why) :=
  (Chain.setRequests s _ (withoutId_sublist _ _)).trans (Chain.dropRequest _ _ _ _ _)

/-! ## Ending -/

theorem State.releaseClaims_claim (s : State) (o : Owner) (a : AxisNo) :
    (s.releaseClaims o).claim a = if s.claim a = some o then none else s.claim a := by
  unfold State.releaseClaims
  exact tget_ofFn _ _

theorem Chain.releaseClaims (s : State) (n : LaneNo) : Calm s (s.releaseClaims (.lane n)) :=
  Chain.schedClaims s _ rfl rfl (KeepsClaims.release (fun a => by
    have h := State.releaseClaims_claim s (.lane n) a
    unfold State.claim at h ⊢
    split at h
    · next he => exact .inr ⟨h, by rw [he]; simp⟩
    · exact .inl h) rfl rfl)

/-- A released lane owns no axis. -/
theorem State.releaseClaims_none (s : State) (n : LaneNo) (a : AxisNo) :
    (s.releaseClaims (.lane n)).claim a ≠ some (.lane n) := by
  rw [State.releaseClaims_claim]
  split
  · simp
  · assumption

/-- A run is finalised on a lane that owns no axis and no queued strike. -/
theorem Chain.finalise (s : State) (n : LaneNo) (r : Run) (o : RunOutcome)
    (hc : s.claimsLawful → ∀ a, s.claim a ≠ some (.lane n)) (hq : ∀ k ∈ s.strikes.queue, k.owner ≠ .lane n) :
    Calm s (s.finalise n r o) :=
  ((Move.lane s n _ (.inl rfl) (KeepsRuns.idle rfl hc hq)).chain.trans (Chain.notice _ _)).trans (Chain.releaseKey _ _ _)

/-- A key released leaves the store, the claims and the requests. -/
theorem State.releaseKey_kept (s : State) (o : Source) (id : Nat) :
    (s.releaseKey o id).store = s.store ∧ (s.releaseKey o id).sched.claims = s.sched.claims
      ∧ (s.releaseKey o id).sched.queue = s.sched.queue ∧ (s.releaseKey o id).sched.arrivals = s.sched.arrivals := by
  unfold State.releaseKey
  split
  · dsimp only
    split <;> exact ⟨rfl, rfl, rfl, rfl⟩
  · exact ⟨rfl, rfl, rfl, rfl⟩

theorem State.finalise_kept (s : State) (n : LaneNo) (r : Run) (o : RunOutcome) :
    (s.finalise n r o).store = s.store ∧ (s.finalise n r o).sched.claims = s.sched.claims := by
  unfold State.finalise
  dsimp only
  obtain ⟨h1, h2, _⟩ := State.releaseKey_kept ((s.setLane n ⟨none, some { r.record with outcome := some o }⟩).notice
    (.showEnded n { r.record with outcome := some o })) r.source r.id
  exact ⟨h1, h2⟩

/-- Stops of ended runs leave the lanes, the strike unit, the scheduler, the store and the exercise. -/
theorem State.foldl_stopEnded_kept : ∀ (l : List AxisNo) (s : State),
    (l.foldl State.stopEnded s).lanes = s.lanes ∧ (l.foldl State.stopEnded s).strikes = s.strikes
      ∧ (l.foldl State.stopEnded s).sched = s.sched ∧ (l.foldl State.stopEnded s).store = s.store
      ∧ (l.foldl State.stopEnded s).exercise = s.exercise
  | [], _ => ⟨rfl, rfl, rfl, rfl, rfl⟩
  | a :: rest, s => by
    rw [List.foldl_cons]
    obtain ⟨h1, h2, h3, h4, h5⟩ := State.foldl_stopEnded_kept rest (s.stopEnded a)
    rw [h1, h2, h3, h4, h5]
    unfold State.stopEnded
    dsimp only
    have h := State.stopAxis_fields s a (s.axis a).dv
    split
    · exact ⟨h.1, h.2.2.1, h.2.1, h.2.2.2.2.2, h.2.2.2.2.1⟩
    · exact ⟨h.1, h.2.2.1, h.2.1, h.2.2.2.2.2, h.2.2.2.2.1⟩
    · exact ⟨h.1, h.2.2.1, h.2.1, h.2.2.2.2.2, h.2.2.2.2.1⟩
    · exact ⟨rfl, rfl, rfl, rfl, rfl⟩

theorem Chain.stopEnded (s : State) (a : AxisNo) : Calm s (s.stopEnded a) := by
  unfold State.stopEnded
  simp only
  split
  · exact Chain.stopAxis _ _ _
  · exact Chain.stopAxis _ _ _
  · exact Chain.stopAxis _ _ _
  · exact .refl s

theorem Chain.endRun (s : State) (n : LaneNo) (o : RunOutcome) : Calm s (s.endRun n o) := by
  unfold State.endRun
  split
  · exact .refl s
  · simp only
    have hd := (Move.drop (b := true) (g := true) s (s.strikes.queue.filter fun k => k.owner != .lane n)
      List.filter_sublist).chain
    have hq : ∀ k ∈ (s.setQueue (s.strikes.queue.filter fun k => k.owner != .lane n)).strikes.queue,
        k.owner ≠ .lane n := fun k hk => by simpa using (List.mem_filter.mp hk).2
    generalize s.setQueue (s.strikes.queue.filter fun k => k.owner != .lane n) = t at hd hq
    have h : Calm s (if o.stopsAxes then (t.owned (.lane n)).foldl State.stopEnded t else t)
        ∧ (if o.stopsAxes then (t.owned (.lane n)).foldl State.stopEnded t else t).strikes = t.strikes := by
      split
      · exact ⟨hd.trans (Chain.foldl _ _ Chain.stopEnded _), (State.foldl_stopEnded_kept _ _).2.1⟩
      · exact ⟨hd, rfl⟩
    generalize (if o.stopsAxes then (t.owned (.lane n)).foldl State.stopEnded t else t) = u at h
    refine h.1.trans ((Chain.releaseClaims _ _).trans (Chain.finalise _ _ _ _ (fun _ => State.releaseClaims_none _ _)
      fun k hk => hq k ?_))
    rw [← h.2]
    exact hk

/-- An end leaves the store; it releases claims of its lane and no others. -/
theorem State.endRun_kept (s : State) (n : LaneNo) (o : RunOutcome) :
    (s.endRun n o).store = s.store
      ∧ ∀ a, (s.endRun n o).claim a = s.claim a ∨ (s.endRun n o).claim a = none ∧ s.claim a = some (.lane n) := by
  unfold State.endRun
  split
  · exact ⟨rfl, fun _ => .inl rfl⟩
  · dsimp only
    have hk : ∀ t : State, t.store = s.store → t.sched = s.sched →
        ∀ (r : Run), ((t.releaseClaims (.lane n)).finalise n r o).store = s.store
          ∧ ∀ a, ((t.releaseClaims (.lane n)).finalise n r o).claim a = s.claim a
            ∨ ((t.releaseClaims (.lane n)).finalise n r o).claim a = none ∧ s.claim a = some (.lane n) := by
      intro t h1 h2 r
      obtain ⟨f1, f2⟩ := State.finalise_kept (t.releaseClaims (.lane n)) n r o
      refine ⟨f1.trans h1, fun a => ?_⟩
      have hc : ((t.releaseClaims (.lane n)).finalise n r o).claim a = (t.releaseClaims (.lane n)).claim a := by
        unfold State.claim
        rw [f2]
      have hs : t.claim a = s.claim a := by unfold State.claim; rw [h2]
      rw [hc, State.releaseClaims_claim, hs]
      split
      · next he => exact .inr ⟨rfl, he⟩
      · exact .inl rfl
    split
    · obtain ⟨_, _, h3, h4, _⟩ := State.foldl_stopEnded_kept
        ((s.setQueue (s.strikes.queue.filter fun k => k.owner != .lane n)).owned (.lane n))
        (s.setQueue (s.strikes.queue.filter fun k => k.owner != .lane n))
      exact hk _ h4 h3 _
    · exact hk (s.setQueue (s.strikes.queue.filter fun k => k.owner != .lane n)) rfl rfl _

/-- Ends leave the store; they release claims of lanes and no others. -/
theorem State.foldl_endRun_kept (o : RunOutcome) : ∀ (l : List LaneNo) (s : State),
    (l.foldl (fun s n => s.endRun n o) s).store = s.store
      ∧ ∀ a, s.claim a ≠ some .exercise → (l.foldl (fun s n => s.endRun n o) s).claim a ≠ some .exercise
  | [], _ => ⟨rfl, fun _ h => h⟩
  | n :: rest, s => by
    rw [List.foldl_cons]
    obtain ⟨h1, h2⟩ := State.foldl_endRun_kept o rest (s.endRun n o)
    obtain ⟨k1, k2⟩ := State.endRun_kept s n o
    refine ⟨h1.trans k1, fun a ha => h2 a ?_⟩
    rcases k2 a with h | h
    · rw [h]; exact ha
    · rw [h.1]; simp

/-! ## Starting and the walk -/

theorem Chain.claimFor (s : State) (n : LaneNo) (m : BitVec 12) (hr : ∃ r, (s.lane n).run = some r ∧ r.phase ≠ .draining)
    (he : ∀ a, inMask m a = true → s.claim a ≠ some .exercise) : Calm s (s.claimFor n m) :=
  Chain.schedClaims s _ rfl rfl (KeepsClaims.claimFor s n m hr he)

/-- A start, where the tower need not rest, no compaction is in progress and the exercise owns no axis of the show. -/
theorem Chain.startRun (s : State) (n : LaneNo) (r : Request) (b : Block) (m : BitVec 12) (limit : Nat)
    (h : ¬s.mustRest) (hb : s.store.playable r.showNo = some (b, m, limit)) (hc : s.store.compaction = none)
    (he : ∀ a, inMask m a = true → s.claim a ≠ some .exercise) : Calm s (s.startRun n r b m limit) := by
  unfold State.startRun
  simp only
  have h1 := Chain.setRequests s _ (withoutId_sublist r.id s.sched.queue)
  have h2 := Chain.sched (s.setRequests (withoutId r.id s.sched.queue))
    { (s.setRequests (withoutId r.id s.sched.queue)).sched with
      startSeq := (s.setRequests (withoutId r.id s.sched.queue)).sched.startSeq + 1 } rfl
  have h12 := h1.trans h2
  have hp := State.mayPlay_of_free fun hm => h (h12.mustRest_iff.mp hm)
  refine h12.trans (((Chain.setRun _ n (s.newRun r b limit) hp ?_).trans
    (Chain.claimFor _ n m ⟨_, State.setRun_run_self _ _ _, by simp [State.newRun]⟩ he)).trans
    (Chain.notice _ _))
  exact KeepsRuns.setRun (.inl (by simp [State.newRun])) (fun hl _ _ => State.newRun_inside hb hl) (.inl hc)

theorem mem_maskAxes {m : BitVec 12} {a : AxisNo} : a ∈ maskAxes m ↔ inMask m a = true := by simp [maskAxes]

/-- A test of a request leaves the store. -/
theorem State.tryStart_store (s : State) (r : Request) : (s.tryStart r).store = s.store := by
  unfold State.tryStart
  split
  · rfl
  · simp only
    split
    · rfl
    · split
      · rfl
      · split
        · rfl
        · split
          · have h := (State.foldl_endRun_kept .preempted (s.blocking ‹_›) s).1
            split
            · exact h
            · exact h
          · rfl

theorem Chain.tryStart (s : State) (r : Request) (h : ¬s.mustRest) (hcmp : s.store.compaction = none) :
    Calm s (s.tryStart r) := by
  unfold State.tryStart
  split
  · exact .refl s
  · next b mask limit hb =>
    simp only
    split
    · next hfree =>
      refine Chain.startRun _ _ _ _ _ _ h hb hcmp fun a ha => ?_
      have := List.all_eq_true.mp hfree a (mem_maskAxes.mpr ha)
      rw [Option.isNone_iff_eq_none.mp this]
      simp
    · split
      · exact .refl s
      · next hex =>
        split
        · exact .refl s
        · split
          · have hf := Chain.foldl (fun s n => s.endRun n .preempted) (s.blocking mask)
              (fun s n => Chain.endRun s n .preempted) s
            obtain ⟨hst, hcl⟩ := State.foldl_endRun_kept .preempted (s.blocking mask) s
            split
            · refine hf.trans (Chain.startRun _ _ _ _ _ _ (fun hm => h (hf.mustRest_iff.mp hm)) (by rw [hst]; exact hb)
                (by rw [hst]; exact hcmp) fun a ha => hcl a fun hc => hex ?_)
              exact List.any_eq_true.mpr ⟨a, mem_maskAxes.mpr ha, by simp [hc]⟩
            · exact hf
          · exact .refl s

theorem State.walkHeld_of_mustRest {s : State} (h : s.mustRest) : s.walkHeld = true := by
  unfold State.walkHeld
  rcases h with h | h <;> simp [h]

theorem Chain.walk (s : State) : Calm s s.walk := by
  unfold State.walk
  split
  · exact .refl s
  · next h =>
    have hc : s.store.compaction = none := by
      simp only [State.walkHeld, Bool.or_eq_true, not_or] at h
      simpa using h.1.2
    exact Chain.foldl_free (fun s => s.store.compaction = none) State.tryStart
      (fun s r hm hc => ⟨Chain.tryStart s r hm hc, by rw [State.tryStart_store]; exact hc⟩) _ s
      (fun hm => h (State.walkHeld_of_mustRest hm)) hc

theorem Chain.endAndWalk (s : State) (n : LaneNo) (o : RunOutcome) : Calm s (s.endAndWalk n o) :=
  (Chain.endRun s n o).trans (Chain.walk _)

theorem Chain.drainCheck (s : State) (n : LaneNo) : Calm s (s.drainCheck n) := by
  unfold State.drainCheck
  split
  · next r hr =>
    split
    · next hd =>
      simp only [Bool.and_eq_true, beq_iff_eq, Bool.not_eq_true'] at hd
      refine (Chain.finalise _ _ _ _ (fun hs a ha => ?_) fun k hk ho => ?_).trans (Chain.walk _)
      · obtain ⟨x, hx, hp⟩ := hs.1 a n ha
        rw [hr] at hx
        cases hx
        exact hp hd.1
      · have hno := hd.2
        simp only [State.ownsStrike, Bool.or_eq_false_iff] at hno
        have := List.any_eq_false.mp hno.1 k hk
        exact this (by simp [ho])
    · exact .refl s
  · exact .refl s

theorem Chain.finished (s : State) (o : Owner) : Calm s (s.finished o) := by
  unfold State.finished
  split
  · exact Chain.drainCheck _ _
  · exact .refl s

theorem Chain.finishedAll (s : State) : Calm s s.finishedAll := Chain.foldl _ _ Chain.drainCheck s

/-! ## Admission -/

theorem insertRequest_length (r : Request) (q : List Request) : (insertRequest r q).length = q.length + 1 := by
  induction q with
  | nil => rfl
  | cons x rest ih =>
    unfold insertRequest
    split <;> simp [ih]

/-- A change of the scheduler and the port together. -/
theorem Chain.schedPort (s : State) (c : Scheduler) (p : Port)
    (hq : s.sched.queue.length ≤ Config.requestCapacity → c.queue.length ≤ Config.requestCapacity)
    (ho : s.sched.ordered → c.ordered) (hk : c.claims = s.sched.claims)
    (hr : s.port.rx.length ≤ Config.receiveCapacity → p.rx.length ≤ Config.receiveCapacity)
    (ht : s.port.tx.length ≤ Config.transmitCapacity → p.tx.length ≤ Config.transmitCapacity) :
    Calm s { s with sched := c, port := p } :=
  (Move.sched s c hq ho (KeepsClaims.of_eq hk rfl rfl)).chain.trans (Move.port { s with sched := c } p hr ht).chain

theorem Chain.expireUnstarted (s : State) (id : Nat) : Calm s (s.expireUnstarted id) := by
  unfold State.expireUnstarted
  split
  · split
    · exact Chain.dropQueued _ _ _
    · exact .refl s
  · exact .refl s

theorem mem_of_lowestQueued {q : List Request} {x : Request} (h : lowestQueued q = some x) : x ∈ q := by
  unfold lowestQueued at h
  have key : ∀ (l : List Request) (best : Option Request),
      l.foldl
        (fun best r =>
          match best with
          | none => some r
          | some x => if r.priority < x.priority || (r.priority == x.priority && x.arrival < r.arrival) then some r else best)
        best = some x → x ∈ l ∨ best = some x := by
    intro l
    induction l with
    | nil => exact fun best h => .inr h
    | cons r rest ih =>
      intro best h
      rcases ih _ h with h' | h'
      · exact .inl (List.mem_cons_of_mem _ h')
      · dsimp only at h'
        split at h'
        · cases h'
          exact .inl List.mem_cons_self
        · split at h'
          · cases h'
            exact .inl List.mem_cons_self
          · exact .inr h'
  rcases key q none h with h | h
  · exact h
  · cases h

theorem withoutId_length_lt {q : List Request} {x : Request} (h : x ∈ q) : (withoutId x.id q).length < q.length := by
  unfold withoutId
  rw [List.length_filter_lt_length_iff_exists]
  exact ⟨x, h, by simp⟩

/-- What `roomFor` answers: there is room, or the request named stands in the queue. -/
theorem State.roomFor_spec {s : State} {p : Nat} {e : Option Request} (h : s.roomFor p = some e) :
    match e with
    | none => s.sched.queue.length < Config.requestCapacity
    | some x => x ∈ s.sched.queue := by
  unfold State.roomFor at h
  split at h
  · next hl => cases h; exact hl
  · split at h
    · next x hx =>
      split at h
      · cases h
        exact mem_of_lowestQueued hx
      · cases h
    · cases h

/-- Dropping a queued request touches the scheduler and the port alone, and takes the request from the queue. -/
theorem State.dropQueued_spec (s : State) (r : Request) (why : DropReason) :
    s.dropQueued r why = { s with sched := (s.dropQueued r why).sched, port := (s.dropQueued r why).port }
      ∧ (s.dropQueued r why).sched.queue = withoutId r.id s.sched.queue
      ∧ (s.dropQueued r why).sched.arrivals = s.sched.arrivals
      ∧ (s.dropQueued r why).sched.claims = s.sched.claims
      ∧ (s.dropQueued r why).port.rx = s.port.rx
      ∧ (s.port.tx.length ≤ Config.transmitCapacity →
          (s.dropQueued r why).port.tx.length ≤ Config.transmitCapacity) := by
  have h := Port.enterNotice_spec s.port s.now (.requestDropped r.id r.showNo r.source why)
  unfold State.dropQueued State.dropRequest State.releaseKey
  split
  · dsimp only
    split
    · exact ⟨rfl, rfl, rfl, rfl, h.1, h.2⟩
    · exact ⟨rfl, rfl, rfl, rfl, h.1, h.2⟩
  · exact ⟨rfl, rfl, rfl, rfl, h.1, h.2⟩

/-- A request enters where there is room for it, and the queue is walked. -/
theorem Chain.enterRequest (s : State) (w : Wish) (e : Option Request)
    (h : match e with
      | none => s.sched.queue.length < Config.requestCapacity
      | some x => x ∈ s.sched.queue) : Calm s (s.enterRequest w e) := by
  unfold State.enterRequest
  refine Chain.trans ?_ ((Chain.holdKey _ _ _).trans ((Chain.walk _).trans (Chain.expireUnstarted _ _)))
  cases e with
  | none =>
    exact (Move.sched s _ (fun _ => by
      rw [insertRequest_length]
      exact h) (Scheduler.ordered_insert (by rfl) rfl rfl) (by exact KeepsClaims.of_eq rfl rfl rfl)).chain
  | some x =>
    obtain ⟨h1, h2, ha, hcl, h3, h4⟩ := State.dropQueued_spec s x .evicted
    have hx := withoutId_length_lt (q := s.sched.queue) h
    dsimp only
    rw [h1]
    refine Chain.schedPort s _ _ (fun hq => ?_) (fun ho => ?_) hcl (fun hr => ?_) h4
    · dsimp only
      rw [insertRequest_length, h2]
      omega
    · exact Scheduler.ordered_insert (by rfl) rfl rfl
        (Scheduler.ordered_sublist (h2 ▸ withoutId_sublist x.id s.sched.queue) ha ho)
    · rw [h3]
      exact hr

theorem Chain.enterWish (s : State) (w : Wish) : Calm s (s.enterWish w) := by
  unfold State.enterWish
  split
  · exact Chain.dropRequest _ _ _ _ _
  · split
    · next e he =>
      refine Chain.enterRequest s w e ?_
      have := State.roomFor_spec he
      cases e <;> exact this
    · exact Chain.dropRequest _ _ _ _ _

theorem Chain.assigned (s : State) (id : Nat) : Calm s (s.assigned id) := Chain.sched s _ rfl

end Sys2Proof.Machine
end

