-- ==== Sys2Proof/Laws/TraceHammers.lean ====
section
/-! SUPPORT. Chains of the strike unit's operations at the state: entry, the tests at fire, the supply, bells. -/
namespace Sys2Proof.Machine

/-! ## Entry -/

theorem Chain.countIfLate (s : State) (o : Owner) (newly : Bool) : Calm s (s.countIfLate o newly) := by
  unfold State.countIfLate
  split
  · exact Chain.countFor _ _ _
  · exact .refl s

/-- A strike offered to the queue, for a bell that is not DISABLED, where something may begin, its fire instant near now and
its owner LINK or a lane that has a run. -/
theorem Chain.enterStrike (s : State) (o : Owner) (k : Strike) (hp : s.mayPlay)
    (hd : (s.bell k.bell).isDisabled = false)
    (hw : k.owner = .link ∨ ∃ n r, k.owner = .lane n ∧ (s.lane n).run = some r) (hn : k.nearby s.now) :
    Calm s (s.enterStrike o (s.examineEntry k)) := by
  unfold State.examineEntry
  split
  · unfold State.enterStrike
    exact Chain.countFor _ _ _
  · split
    · next x hx =>
      unfold State.enterStrike
      obtain ⟨hm, _, _⟩ := StrikeUnit.absorber_spec hx
      obtain ⟨h1, h2, h3, h4⟩ := mergedWith_spec s.strikes s.cal.level s.now x k.velocity
      refine ((Move.replace s _ x hm h1 h2 h3 h4 mergedWith_nearby).chain.trans (Chain.countIfLate _ _ _)).trans (Chain.countFor _ _ _)
    · next ha =>
      split
      · unfold State.enterStrike
        exact Chain.countFor _ _ _
      · next hl =>
        unfold State.enterStrike
        refine Chain.trans (Move.enter s { k with order := s.strikes.orderCount } hp (Nat.not_le.mp hl) hd rfl
          (StrikeUnit.absorber_none ha) hw hn).chain (Chain.countIfLate _ _ _)

/-! ## At fire -/

theorem Chain.holdStrike (s : State) (k : Strike) (f : FireState) (h : k ∈ s.strikes.queue) : Calm s (s.holdStrike k f) :=
  (Move.change s { k with fire := f } k h rfl rfl rfl rfl rfl).chain

theorem Chain.fire (s : State) (k : Strike) (h : k ∈ s.strikes.queue) (hr : (s.bell k.bell).state = .ready)
    (he : s.strikes.firing < s.strikes.emax) (hg : guardWait (s.bell k.bell) s.now k.flight = none) :
    Calm s (s.fire k) := by
  unfold State.fire
  refine Chain.trans ?_ (Chain.countFor _ k.owner _)
  have hm := (Move.fire (b := true) (g := true) s k h hr he hg).chain
  by_cases hl : s.mode = .live
  · have hl' : (s.setQueue (withoutOrder k.order s.strikes.queue)).mode = .live := hl
    simp only [hl', if_true]
    simp only [hl, if_true] at hm
    exact hm
  · have hl' : ¬(s.setQueue (withoutOrder k.order s.strikes.queue)).mode = .live := hl
    simp only [hl', if_false]
    simp only [hl, if_false] at hm
    exact hm

theorem Chain.drop (s : State) (q : List Strike) (h : q.Sublist s.strikes.queue) : Calm s (s.setQueue q) :=
  (Move.drop s q h).chain

theorem withoutOrder_sublist (n : Nat) (q : List Strike) : (withoutOrder n q).Sublist q := List.filter_sublist

theorem Chain.examine (s : State) (k : Strike) (h : k ∈ s.strikes.queue) : Calm s (s.examine k) := by
  unfold State.examine
  dsimp only
  split
  · exact Chain.holdStrike _ _ _ h
  · next hr =>
    split
    · exact Chain.holdStrike _ _ _ h
    · next hg =>
      split
      · exact (Chain.holdStrike _ _ _ h).trans (Chain.latch _ _)
      · next he =>
        split
        · exact ((Chain.drop s _ (withoutOrder_sublist _ _)).trans (Chain.countFor _ _ _)).trans (Chain.finished _ _)
        · exact (Chain.fire s k h (by simpa using hr) (Nat.not_le.mp he) hg).trans (Chain.countIfLate _ _ _)

/-- After an entry that merged, the absorbing strike stands in the queue. -/
theorem State.enterStrike_merged_mem (s : State) (o : Owner) {e : Entry} {k : Strike} (h : e = .merged k) :
    k ∈ (s.enterStrike o e).strikes.queue := by
  subst h
  simp [State.enterStrike, State.countIfLate, apply_ite, mem_replaceStrike]

/-- What follows a merge at once, where the absorbing strike stands in the queue (R93). -/
theorem Chain.examineMerged (s : State) (e : Entry) (h : ∀ k, e = .merged k → k ∈ s.strikes.queue) :
    Calm s (s.examineMerged e) := by
  unfold State.examineMerged
  split
  · next k =>
    split
    · exact Chain.examine s k (h k rfl)
    · exact .refl s
  · exact .refl s

/-- A strike of a lane that has a run, its step ready. -/
theorem Chain.laneStrike (s : State) (n : LaneNo) (b : BellNo) (v : Nat) (due : Instant)
    (h : (s.lane n).run ≠ none) (hr : reached (due - micros 250000) s.now = true) : Calm s (s.laneStrike n b v due) := by
  unfold State.laneStrike
  dsimp only
  split
  · exact Chain.countFor _ _ _
  · next hd =>
    split
    · exact Chain.countFor _ _ _
    · next c hc =>
      split
      · exact Chain.countFor _ _ _
      · next f late hf =>
        obtain ⟨r, hrun⟩ := Option.ne_none_iff_exists'.mp h
        exact (Chain.enterStrike _ _ _ (State.mayPlay_of_run h) (by simpa [strikeOf] using hd) (.inr ⟨n, r, rfl, hrun⟩)
          (laneStrike_nearby b v (.lane n) hr (StrikeUnit.compute_flight hc).2 hf)).trans
          (Chain.examineMerged _ _ fun _ he => State.enterStrike_merged_mem _ _ he)

theorem Chain.serveTimes : ∀ (fuel : Nat) (s : State), Calm s (s.serveTimes fuel)
  | 0, s => .refl s
  | fuel + 1, s => by
    unfold State.serveTimes
    split
    · exact .refl s
    · split
      · exact .refl s
      · next k hk => exact (Chain.examine s k (StrikeUnit.firstWaiting_spec hk).1).trans (Chain.serveTimes fuel _)

theorem Chain.serve (s : State) : Calm s s.serve := Chain.serveTimes _ s

theorem Chain.examineHeldBell (s : State) (n : Nat) : Calm s (s.examineHeldBell n) := by
  unfold State.examineHeldBell
  split
  · next k hk =>
    split
    · exact Chain.examine s k (List.mem_of_find?_eq_some hk)
    · exact .refl s
  · exact .refl s

theorem Chain.releaseHeld (s : State) (b : BellNo) : Calm s (s.releaseHeld b) :=
  Chain.foldl _ _ Chain.examineHeldBell s

/-! ## Bells -/

theorem GuardAct.guardMs {now : Instant} {x y : Bell} (h : GuardAct now x y) : y.guardMs = x.guardMs := by
  rcases h with h | h | h <;> exact h.1

/-- Nothing of a bell's spacing is written. -/
theorem GuardAct.same {now : Instant} {x y : Bell} (h1 : y.guardMs = x.guardMs) (h2 : y.lastImpact = x.lastImpact)
    (h3 : y.guardInstant = x.guardInstant) (h4 : y.guardRunning = x.guardRunning) : GuardAct now x y :=
  .inl ⟨h1, h2, h3, h4⟩

/-- A bell written with its state and disablement as they were. -/
theorem Chain.bellKept (s : State) (b : BellNo) (x : Bell) (hs : x.state = (s.bell b).state)
    (hk : GuardAct s.now (s.bell b) x) : Calm s (s.setBell b x) :=
  (Move.bell s b x (fun h => hs ▸ h) (fun h => .inl (hs ▸ h))
    (fun h => .inl (by unfold Bell.isDisabled at h ⊢; rw [← hs]; exact h)) (.inl (Nat.le_of_eq hk.guardMs)) (.inl hk)).chain

theorem Chain.flightReady (s : State) (b : BellNo) (x : Bell) (f : InFlight) (hs : (s.bell b).state = .flight)
    (hk : GuardAct s.now (s.bell b) x) : Calm s (s.flightReady b x f) := by
  refine Chain.trans ?_ ((Chain.finished _ _).trans (Chain.releaseHeld _ _))
  exact (Move.bell s b (x.finish .ready) (fun h => BellState.noConfusion h) (fun h => by rw [hs] at h; cases h)
    (fun h => by cases h) (.inl (Nat.le_of_eq hk.guardMs)) (.inl hk)).chain

theorem Chain.removeForBell (s : State) (b : BellNo) : Calm s (s.removeForBell b) :=
  (Chain.drop s _ List.filter_sublist).trans (Chain.foldl _ _ (fun _ _ => Chain.countFor _ _ _) _)

theorem foldl_countFor_strikes (f : Strike → RunRecord → RunRecord) : ∀ (l : List Strike) (s : State),
    (l.foldl (fun s k => s.countFor k.owner (f k)) s).strikes = s.strikes
  | [], _ => rfl
  | k :: rest, s => by
    rw [List.foldl_cons, foldl_countFor_strikes f rest]
    exact State.countFor_strikes _ _ _

/-- Removing a bell's strikes leaves none for it, and the rest of the strike unit. -/
theorem State.removeForBell_strikes (s : State) (b : BellNo) :
    (s.removeForBell b).strikes = { s.strikes with queue := s.strikes.queue.filter fun k => k.bell != b } :=
  foldl_countFor_strikes (fun _ r => { r with droppedDisabled := satInc r.droppedDisabled }) _ _

theorem Chain.removeInhibited (s : State) : Calm s s.removeInhibited :=
  (Chain.drop s [] (List.nil_sublist _)).trans (Chain.foldl _ _ (fun _ _ => Chain.countFor _ _ _) _)

theorem State.removeInhibited_strikes (s : State) : s.removeInhibited.strikes = { s.strikes with queue := [] } :=
  foldl_countFor_strikes (fun _ r => { r with droppedInhibited := satInc r.droppedInhibited }) _ _

theorem Chain.disableBell (s : State) (b : BellNo) (c : DisableCause) : Calm s (s.disableBell b c) := by
  unfold State.disableBell
  refine Chain.trans ?_ (Chain.latchBell _ _ _)
  refine ((Chain.removeForBell s b).trans (Move.release _ b).chain).trans (Move.bell _ b _ ?_ ?_ ?_ ?_ (by exact .inl (.same rfl rfl rfl rfl))).chain
  · intro h
    cases h
  · exact fun _ => .inr (StrikeUnit.release_hammers _ _)
  · refine fun _ => .inr fun k hk => ?_
    have hk' : k ∈ (s.removeForBell b).strikes.queue := hk
    rw [State.removeForBell_strikes] at hk'
    simpa using (List.mem_filter.mp hk').2
  · exact .inl (Nat.le_refl _)

theorem Chain.afterDisable (s : State) (w : Bool) : Calm s (s.afterDisable w) := by
  unfold State.afterDisable
  split
  · exact (Chain.finishedAll s).trans (Chain.serve _)
  · exact Chain.finishedAll s

end Sys2Proof.Machine
end

