-- ==== Sys2Proof/Laws/Axes.lean ====
section
/-! SUPPORT. Law 6 through the profiles: what an advance, a MOVE, a SPIN, a STOP and a FOLLOW do to an axis. -/
namespace Sys2Proof.Machine

/-- Law 6 of a configured axis, spelled out. -/
theorem Axis.lawful_iff {x : Axis} {c : AxisConfig} (hc : x.config = some c) :
    x.lawful ↔ x.v.natAbs ≤ c.vmax ∧ x.withinForm c.form ∧ 0 ≤ x.residue ∧ x.residue ≤ 99
      ∧ -360360 ≤ x.turns ∧ x.turns ≤ 360359 ∧ x.missed ≤ 3 :=
  ⟨fun h => h c hc, fun h c' hc' => by rw [hc] at hc'; cases hc'; exact h⟩

/-- An unconfigured axis is lawful. -/
theorem Axis.lawful_of_none {x : Axis} (h : x.config = none) : x.lawful := fun c hc => by rw [h] at hc; cases hc

theorem turnsUp_range {t : Int} (h : -360360 ≤ t ∧ t ≤ 360359) : -360360 ≤ turnsUp t ∧ turnsUp t ≤ 360359 := by
  unfold turnsUp
  split <;> omega

theorem turnsDown_range {t : Int} (h : -360360 ≤ t ∧ t ≤ 360359) : -360360 ≤ turnsDown t ∧ turnsDown t ≤ 360359 := by
  unfold turnsDown
  split <;> omega

theorem wrapTo_turns {p t : Int} (h : -360360 ≤ t ∧ t ≤ 360359) :
    -360360 ≤ (wrapTo p t).2 ∧ (wrapTo p t).2 ≤ 360359 := by
  unfold wrapTo
  split
  · exact turnsUp_range h
  · split
    · exact turnsDown_range h
    · exact h

/-- What an advance gives (R114). -/
theorem advance_spec (form : AxisForm) (x : Axis) (v : Int) :
    (advance form x v).1.config = x.config ∧ (advance form x v).1.mode = x.mode
      ∧ (advance form x v).1.missed = x.missed
      ∧ (advance form x v).1.v.natAbs ≤ v.natAbs
      ∧ 0 ≤ (advance form x v).1.residue ∧ (advance form x v).1.residue ≤ 99
      ∧ (-360360 ≤ x.turns ∧ x.turns ≤ 360359 →
          -360360 ≤ (advance form x v).1.turns ∧ (advance form x v).1.turns ≤ 360359)
      ∧ (∀ lower upper, form = .bounded lower upper → lower ≤ upper →
          ∃ p, (advance form x v).1.cmd = some p ∧ lower ≤ p ∧ p ≤ upper) := by
  unfold advance
  rcases form with _ | ⟨lower, upper⟩
  · dsimp only
    refine ⟨rfl, rfl, rfl, Nat.le_refl _, by omega, by omega, fun h => wrapTo_turns h, ?_⟩
    intro lower upper h
    cases h
  · dsimp only
    split
    · refine ⟨rfl, rfl, rfl, by simp, by simp, by simp, id, ?_⟩
      intro l u h hle
      cases h
      exact ⟨_, rfl, Int.le_refl _, hle⟩
    · split
      · refine ⟨rfl, rfl, rfl, by simp, by simp, by simp, id, ?_⟩
        intro l u h hle
        cases h
        exact ⟨_, rfl, hle, Int.le_refl _⟩
      · next h1 h2 =>
        refine ⟨rfl, rfl, rfl, Nat.le_refl _, by dsimp only; omega, by dsimp only; omega, id, ?_⟩
        intro l u h hle
        cases h
        exact ⟨_, rfl, by omega, by omega⟩

/-- An axis after an advance of a lawful one at a velocity within Vmax is lawful. -/
theorem advance_lawful {c : AxisConfig} {x : Axis} {v : Int} (hc : x.config = some c) (hx : x.lawful)
    (hv : v.natAbs ≤ c.vmax) : (advance c.form x v).1.lawful := by
  obtain ⟨h1, h2, h3, h4, h5, h6, h7, h8⟩ := advance_spec c.form x v
  obtain ⟨_, f1, _, _, f2, f3, f4⟩ := (Axis.lawful_iff hc).mp hx
  refine (Axis.lawful_iff (h1.trans hc)).mpr
    ⟨Nat.le_trans h4 hv, ?_, h5, h6, (h7 ⟨f2, f3⟩).1, (h7 ⟨f2, f3⟩).2, h3 ▸ f4⟩
  rcases hform : c.form with _ | ⟨lower, upper⟩
  · trivial
  · rw [hform] at f1 h8
    obtain ⟨g1, _, g3⟩ := f1
    refine ⟨g1, fun _ => h8 lower upper rfl g1, fun t d r hm => g3 t d r ?_⟩
    rw [← h2, hform]
    exact hm

/-- A velocity of a MOVE stays within Vmax (R115). -/
theorem moveVelocity_bound (c : AxisConfig) (rate : Nat) (v d : Int) (hv : v.natAbs ≤ c.vmax) :
    (moveVelocity c rate v d).natAbs ≤ c.vmax := by
  unfold moveVelocity
  split
  · exact Nat.le_trans (shed_natAbs _ _) hv
  · dsimp only
    rw [Int.natAbs_mul]
    have hs : d.sign.natAbs ≤ 1 := by
      rcases Int.lt_trichotomy d 0 with h | h | h
      · simp [Int.sign_eq_neg_one_of_neg h]
      · simp [h]
      · simp [Int.sign_eq_one_of_pos h]
    refine Nat.le_trans (Nat.mul_le_mul_right _ hs) ?_
    rw [Nat.one_mul]
    split
    · omega
    · split <;> omega

/-- An arrival keeps law 6 where the target is within the limits. -/
theorem Axis.arrive_lawful {c : AxisConfig} {x : Axis} {target d : Int} (hc : x.config = some c) (hx : x.lawful)
    (ht : ∀ lower upper, c.form = .bounded lower upper → lower ≤ target ∧ target ≤ upper) :
    (x.arrive c.form target d).lawful := by
  obtain ⟨_, f1, _, _, f2, f3, f4⟩ := (Axis.lawful_iff hc).mp hx
  have hturns : -360360 ≤ (x.arrive c.form target d).turns ∧ (x.arrive c.form target d).turns ≤ 360359 := by
    unfold Axis.arrive
    dsimp only
    split
    · exact wrapTo_turns ⟨f2, f3⟩
    · exact ⟨f2, f3⟩
  refine (Axis.lawful_iff (x := x.arrive c.form target d) (c := c) hc).mpr ⟨by simp [Axis.arrive, Axis.held], ?_, by simp [Axis.arrive, Axis.held],
    by simp [Axis.arrive, Axis.held], hturns.1, hturns.2, f4⟩
  rcases hform : c.form with _ | ⟨lower, upper⟩
  · trivial
  · rw [hform] at f1
    exact ⟨f1.1, fun _ => ⟨target, rfl, ht lower upper hform⟩, fun t d r h => by simp [Axis.arrive, Axis.held] at h⟩

/-- One update of a MOVE is an arrival or an advance. -/
theorem moveUpdate_cases (c : AxisConfig) (x : Axis) (t : Int) (dir : Direction) (r : Nat) :
    (moveUpdate c x t dir r).1 = x.arrive c.form t (moveDistance c.form dir t (x.cmd.getD 0))
      ∨ (moveUpdate c x t dir r).1
          = (advance c.form x (moveVelocity c r x.v (moveDistance c.form dir t (x.cmd.getD 0)))).1 := by
  unfold moveUpdate
  dsimp only
  generalize hd : moveDistance c.form dir t (x.cmd.getD 0) = d
  by_cases h0 : d = 0
  · rw [if_pos h0, h0]
    exact .inl rfl
  · rw [if_neg h0]
    generalize hg : (if (advance c.form x (moveVelocity c r x.v d)).2 = true then
      (advance c.form x (moveVelocity c r x.v d)).1.cmd.getD 0 - x.cmd.getD 0
      else advanceTravel x (moveVelocity c r x.v d)) = travel
    by_cases hcov : covers travel d = true
    · rw [if_pos hcov]
      exact .inl rfl
    · rw [if_neg hcov]
      exact .inr rfl

/-- One update of a MOVE keeps law 6. -/
theorem moveUpdate_lawful {c : AxisConfig} {x : Axis} {t : Int} {d : Direction} {r : Nat} (hc : x.config = some c)
    (hx : x.lawful) (hm : x.mode = .move t d r) : (moveUpdate c x t d r).1.lawful := by
  have ht : ∀ lower upper, c.form = .bounded lower upper → lower ≤ t ∧ t ≤ upper := by
    intro lower upper hform
    obtain ⟨_, f1, _⟩ := (Axis.lawful_iff hc).mp hx
    rw [hform] at f1
    exact f1.2.2 t d r hm
  rcases moveUpdate_cases c x t d r with h | h
  · rw [h]
    exact Axis.arrive_lawful hc hx ht
  · rw [h]
    exact advance_lawful hc hx (moveVelocity_bound _ _ _ _ ((Axis.lawful_iff hc).mp hx).1)

theorem toward_bound {v goal : Int} {dv m : Nat} (hv : v.natAbs ≤ m) (hg : goal.natAbs ≤ m) :
    (toward v goal dv).natAbs ≤ m := by
  unfold toward
  split <;> omega

theorem spinUpdate_lawful {c : AxisConfig} {x : Axis} {r : Int} (hc : x.config = some c) (hx : x.lawful) :
    (spinUpdate c x r).lawful := by
  refine advance_lawful hc hx (toward_bound ((Axis.lawful_iff hc).mp hx).1 ?_)
  unfold bound
  omega

/-- An axis held keeps law 6 where it held it in an enabled mode. -/
theorem Axis.held_lawful {x : Axis} (hx : x.lawful) (he : x.mode.enabled = true) : x.held.lawful := by
  intro c hc
  obtain ⟨_, f1, _, _, f2⟩ := hx c hc
  refine ⟨by simp [Axis.held], ?_, by simp [Axis.held], by simp [Axis.held], f2⟩
  rcases hform : c.form with _ | ⟨lower, upper⟩
  · trivial
  · rw [hform] at f1
    exact ⟨f1.1, fun _ => f1.2.1 he, fun t d r h => by simp [Axis.held] at h⟩

theorem stopUpdate_lawful {c : AxisConfig} {x : Axis} {dv : Nat} (hc : x.config = some c) (hx : x.lawful)
    (he : x.mode.enabled = true) : (stopUpdate c x dv).1.lawful := by
  have hv := Nat.le_trans (shed_natAbs x.v dv) ((Axis.lawful_iff hc).mp hx).1
  have ha := advance_lawful hc hx hv
  unfold stopUpdate
  dsimp only
  split
  · refine Axis.held_lawful ha ?_
    rw [(advance_spec c.form x (shed x.v dv)).2.1]
    exact he
  · exact ha

/-- The velocity of a FOLLOW stays within Vmax (R121). -/
theorem followStep_bound (vmax : Nat) (e : Int) :
    ((if ((vmax / 100 : Nat) : Int) < e.natAbs then e.sign * ((vmax / 100 : Nat) : Int) else e) * 100).natAbs ≤ vmax := by
  have hs : e.sign.natAbs ≤ 1 := by
    rcases Int.lt_trichotomy e 0 with h | h | h
    · simp [Int.sign_eq_neg_one_of_neg h]
    · simp [h]
    · simp [Int.sign_eq_one_of_pos h]
  rw [Int.natAbs_mul]
  split
  · rw [Int.natAbs_mul, Int.natAbs_natCast]
    calc e.sign.natAbs * (vmax / 100) * Int.natAbs 100 ≤ 1 * (vmax / 100) * 100 :=
          Nat.mul_le_mul_right _ (Nat.mul_le_mul_right _ hs)
      _ ≤ vmax := by omega
  · have : e.natAbs ≤ vmax / 100 := by omega
    calc e.natAbs * Int.natAbs 100 ≤ vmax / 100 * 100 := Nat.mul_le_mul_right _ this
      _ ≤ vmax := by omega

theorem followUpdate_lawful {c : AxisConfig} {x leader : Axis} {n : Int} {d : Nat} {o : Int} (hc : x.config = some c)
    (hx : x.lawful) (he : x.mode.enabled = true) (hn : ∀ t d r, x.mode ≠ .move t d r) :
    (followUpdate c x leader n d o).lawful := by
  obtain ⟨_, f1, _, _, f2, f3, f4⟩ := (Axis.lawful_iff hc).mp hx
  refine (Axis.lawful_iff (x := followUpdate c x leader n d o) (c := c) hc).mpr
    ⟨?_, ?_, by simp [followUpdate], by simp [followUpdate], ?_⟩
  · exact followStep_bound _ _
  · rcases hform : c.form with _ | ⟨lower, upper⟩
    · trivial
    · rw [hform] at f1
      obtain ⟨g1, g2, _⟩ := f1
      obtain ⟨p, hp, hl, hu⟩ := g2 he
      refine ⟨g1, fun _ => ?_, fun t d r h => absurd h (hn t d r)⟩
      unfold followUpdate
      rw [hform, hp]
      dsimp only [Option.getD_some]
      refine ⟨_, rfl, ?_⟩
      have hb := bound_mem (x := leaderTravel leader * n / (d : Int) + o) g1
      generalize bound lower upper (leaderTravel leader * n / (d : Int) + o) = q at hb
      split
      · next h =>
        generalize hm : ((c.vmax / 100 : Nat) : Int) = m at h ⊢
        have hm0 : 0 ≤ m := by omega
        rcases Int.lt_trichotomy (q - p) 0 with h0 | h0 | h0
        · rw [Int.sign_eq_neg_one_of_neg h0]
          omega
        · rw [h0]
          simp only [Int.sign_zero]
          omega
        · rw [Int.sign_eq_one_of_pos h0]
          omega
      · omega
  · unfold followUpdate
    dsimp only
    rcases c.form with _ | ⟨lower, upper⟩
    · dsimp only
      exact ⟨(wrapTo_turns ⟨f2, f3⟩).1, (wrapTo_turns ⟨f2, f3⟩).2, f4⟩
    · exact ⟨f2, f3, f4⟩

/-- One update's profile keeps law 6 (R111 step 1). -/
theorem profile_lawful (leaders : AxisNo → Axis) {c : AxisConfig} {x : Axis} (hc : x.config = some c) (hx : x.lawful) :
    (profile leaders c x).1.lawful := by
  unfold profile
  split
  · next t d r hm => exact moveUpdate_lawful hc hx hm
  · exact spinUpdate_lawful hc hx
  · next l n d o hm => exact followUpdate_lawful hc hx (by simp [hm, AxisMode.enabled]) (by simp [hm])
  · next dv hm => exact stopUpdate_lawful hc hx (by simp [hm, AxisMode.enabled])
  · intro c' hc'
    obtain ⟨_, h⟩ := hx c' hc'
    exact ⟨by simp, h⟩
  · exact hx
  · exact hx

/-- A profile gives no command: an axis commanded after it was commanded before it. -/
theorem profile_commanded (leaders : AxisNo → Axis) (c : AxisConfig) (x : Axis)
    (h : (profile leaders c x).1.mode.commanded = true) : x.mode.commanded = true := by
  unfold profile at h
  split at h
  all_goals first
    | (next hm => rw [hm]; rfl)
    | skip
  · next dv hm =>
    unfold stopUpdate at h
    dsimp only at h
    split at h
    · cases h
    · rw [(advance_spec c.form x (shed x.v dv)).2.1] at h
      exact h
  · exact h
  · exact h
  · exact h

/-- What a profile leaves. -/
theorem profile_config (leaders : AxisNo → Axis) (c : AxisConfig) (x : Axis) :
    (profile leaders c x).1.config = x.config := by
  unfold profile
  split
  · next t d r _ =>
    rcases moveUpdate_cases c x t d r with h | h
    · rw [h]
      rfl
    · rw [h]
      exact (advance_spec _ _ _).1
  · exact (advance_spec _ _ _).1
  · rfl
  · unfold stopUpdate
    dsimp only
    split
    · exact (advance_spec _ _ _).1
    · exact (advance_spec _ _ _).1
  · rfl
  · rfl
  · rfl

/-! ## Faults, OFF, HOLD -/

theorem Axis.enterFault_lawful {x : Axis} (cause : AxisFaultCause) (hx : x.lawful) : (x.enterFault cause).lawful := by
  intro c hc
  obtain ⟨_, f1, _, _, f2⟩ := hx c hc
  refine ⟨by simp [Axis.enterFault], ?_, by simp [Axis.enterFault], by simp [Axis.enterFault], f2⟩
  rcases hform : c.form with _ | ⟨lower, upper⟩
  · trivial
  · rw [hform] at f1
    exact ⟨f1.1, fun h => by simp [Axis.enterFault, AxisMode.enabled] at h, fun t d r h => by
      simp [Axis.enterFault] at h⟩

theorem Axis.putOff_lawful {x : Axis} (hx : x.lawful) : x.putOff.lawful := by
  intro c hc
  obtain ⟨_, f1, _, _, f2⟩ := hx c hc
  refine ⟨by simp [Axis.putOff], ?_, by simp [Axis.putOff], by simp [Axis.putOff], f2⟩
  rcases hform : c.form with _ | ⟨lower, upper⟩
  · trivial
  · rw [hform] at f1
    exact ⟨f1.1, fun h => by simp [Axis.putOff, AxisMode.enabled] at h, fun t d r h => by simp [Axis.putOff] at h⟩

theorem Axis.softReset_lawful {x : Axis} (hx : x.lawful) : x.softReset.lawful := by
  intro c hc
  obtain ⟨_, f1, _⟩ := hx c hc
  refine ⟨by simp [Axis.softReset], ?_, by simp [Axis.softReset], by simp [Axis.softReset], by simp [Axis.softReset],
    by simp [Axis.softReset], by simp [Axis.softReset]⟩
  rcases hform : c.form with _ | ⟨lower, upper⟩
  · trivial
  · rw [hform] at f1
    exact ⟨f1.1, fun h => by simp [Axis.softReset, AxisMode.enabled] at h, fun t d r h => by
      simp [Axis.softReset] at h⟩

/-- An axis that differs in none of law 6's fields is lawful. -/
theorem Axis.lawful_of_eq {x y : Axis} (h : x.lawful) (h1 : y.config = x.config) (h2 : y.mode = x.mode)
    (h3 : y.cmd = x.cmd) (h4 : y.v = x.v) (h5 : y.residue = x.residue) (h6 : y.turns = x.turns)
    (h7 : y.missed ≤ 3 ∨ y.missed = x.missed) : y.lawful := by
  intro c hc
  obtain ⟨f0, f1, f2, f3, f4, f5, f6⟩ := h c (h1 ▸ hc)
  refine ⟨h4 ▸ f0, ?_, h5 ▸ f2, h5 ▸ f3, h6 ▸ f4, h6 ▸ f5, by rcases h7 with h | h <;> omega⟩
  rcases hform : c.form with _ | ⟨lower, upper⟩
  · trivial
  · rw [hform] at f1
    exact ⟨f1.1, fun h => h3 ▸ f1.2.1 (h2 ▸ h), fun t d r h => f1.2.2 t d r (h2 ▸ h)⟩

end Sys2Proof.Machine
end

