-- ==== Sys2Proof/Laws/Cursors.lean ====
section
/-! SUPPORT. What each write of the show store does to law 10: which READY entries stand, and that their steps read as
before where their slots were not written, or were moved whole (R24, R25, R32). -/
namespace Sys2Proof.Machine

/-! ## Slots of step memory -/

namespace Memory

/-- A record is the one its bytes make. -/
theorem stepOfBytes_stepByte (w : StepWord) : stepOfBytes (stepByte w) = w := by
  unfold stepOfBytes stepByte
  ext i hi
  simp only [BitVec.getElem_append, BitVec.getElem_extractLsb']
  split_ifs <;> (rw [BitVec.getLsbD_eq_getElem (by omega)]; congr 1; omega)

theorem stepOfBytes_congr {f g : Nat → Byte} (h : ∀ i, i < 8 → f i = g i) : stepOfBytes f = stepOfBytes g := by
  unfold stepOfBytes
  rw [h 0 (by omega), h 1 (by omega), h 2 (by omega), h 3 (by omega), h 4 (by omega), h 5 (by omega), h 6 (by omega),
    h 7 (by omega)]

theorem readSlot_congr {m m' : Memory} {k j : Nat} (h : ∀ i, i < 8 → m'.readByte (8 * k + i) = m.readByte (8 * j + i)) :
    m'.readSlot k = m.readSlot j := stepOfBytes_congr h

/-- A slot not written reads as before. -/
theorem readSlot_writeSlot_of_ne (m : Memory) {slot k : Nat} (w : StepWord) (h : k ≠ slot) :
    (m.writeSlot slot w).readSlot k = m.readSlot k :=
  readSlot_congr fun i hi => readByte_writeSlot_of_outside m slot _ w (by omega)

/-- A slot outside those written reads as before. -/
theorem readSlot_writeSlots_of_outside (m : Memory) {slot k : Nat} (ws : List StepWord)
    (h : k < slot ∨ slot + ws.length ≤ k) : (m.writeSlots slot ws).readSlot k = m.readSlot k :=
  readSlot_congr fun i hi => readByte_writeSlots_of_outside _ ws m slot (by omega)

/-- A slot written reads as written. -/
theorem readSlot_writeSlot_self {m : Memory} (slot : Nat) (w : StepWord) (h : m.wf = true) :
    (m.writeSlot slot w).readSlot slot = w := by
  have key : ∀ (l : List Nat) (m : Memory), m.wf = true → ∀ i,
      (l.foldl (fun acc i => acc.writeByte (8 * slot + i) (stepByte w i)) m).readByte (8 * slot + i)
        = if i ∈ l then stepByte w i else m.readByte (8 * slot + i) := by
    intro l
    induction l with
    | nil => intro m _ i; simp
    | cons x rest ih =>
      intro m hm i
      rw [List.foldl_cons, ih _ (writeByte_wf _ _ hm)]
      by_cases hx : i = x
      · subst hx
        simp [readByte_writeByte_self _ _ hm]
      · rw [readByte_writeByte_of_ne _ (by omega)]
        simp [hx]
  refine (stepOfBytes_congr fun i hi => ?_).trans (stepOfBytes_stepByte w)
  unfold writeSlot
  rw [key _ m h, if_pos (List.mem_range.mpr hi)]

/-- Slots moved down read as they did where they stood, and the slots outside their new place as before. -/
theorem readSlot_moveSlots {m : Memory} {src dst : Nat} (hd : dst ≤ src) (h : m.wf = true) : ∀ n,
    (∀ k, k < n → (m.moveSlots src dst n).readSlot (dst + k) = m.readSlot (src + k))
      ∧ ∀ k, k < dst ∨ dst + n ≤ k → (m.moveSlots src dst n).readSlot k = m.readSlot k
  | 0 => ⟨fun _ hk => absurd hk (Nat.not_lt_zero _), fun _ _ => rfl⟩
  | n + 1 => by
    obtain ⟨h1, h2⟩ := readSlot_moveSlots hd h n
    unfold moveSlots
    dsimp only
    refine ⟨fun k hk => ?_, fun k hk => ?_⟩
    · by_cases hn : k = n
      · subst hn
        rw [readSlot_writeSlot_self _ _ (moveSlots_wf _ _ h _), h2 _ (by omega)]
      · rw [readSlot_writeSlot_of_ne _ _ (by omega), h1 k (by omega)]
    · rw [readSlot_writeSlot_of_ne _ _ (by omega), h2 k (by omega)]

end Memory

/-! ## READY entries -/

/-- READY entries that were READY, of the same kind and length and with the same steps, are valid as before. -/
theorem Store.stepsValid_of {st u : Store} (h : ∀ i b, tget u.directory i = .ready b →
      ∃ c, tget st.directory i = .ready c ∧ b.kind = c.kind ∧ b.count = c.count
        ∧ ∀ j, j < b.count → u.mem.readSlot (b.first + j) = st.mem.readSlot (c.first + j))
    (hv : st.stepsValid) : u.stepsValid := by
  intro i b hb j hj
  obtain ⟨c, hc, hk, hn, hm⟩ := h i b hb
  rw [hm j hj, hk, hn]
  exact hv i c hc j (hn ▸ hj)

/-- A run stands as it did where every READY entry that it uses stands. -/
theorem Run.inside_store {st u : Store} {r : Run} (hp : r.phase ≠ .draining)
    (hr : ∀ i b, tget st.directory i = .ready b → tget u.directory i = .ready b ∨ r.uses i.val = false)
    (h : r.inside st) : r.inside u := by
  obtain ⟨⟨i, b, hb, hk, hn, hsh⟩, he, h3⟩ := h
  refine ⟨⟨i, b, (hr i b hb).resolve_right fun hu => ?_, hk, hn, hsh⟩, ?_, h3⟩
  · simp [Run.uses, hn] at hu
  · refine he.imp (fun h => h) fun ⟨⟨j, c, hc, hkc, hex⟩, hback⟩ => ⟨⟨j, c, ?_, hkc, hex⟩, hback⟩
    refine (hr j c hc).resolve_right fun hu => ?_
    simp [Run.uses, hex] at hu
    exact hp hu.2

/-- A write of the store keeps law 10 where the READY entries in use stand and every READY entry is valid. -/
theorem KeepsCursors.store {s : State} {st : Store}
    (hr : ∀ i b, tget s.store.directory i = .ready b →
      tget st.directory i = .ready b ∨ ∀ n r, (s.lane n).run = some r → r.uses i.val = false)
    (hv : s.store.lawful → s.store.stepsValid → st.stepsValid)
    (hc : st.compaction = none ∨ st.compaction = s.store.compaction ∨ ∀ n, (s.lane n).run = none) :
    KeepsCursors s { s with store := st } := by
  rintro hl ⟨h1, h2, h3⟩
  refine ⟨hv hl h1, fun n r hn hp => ?_, fun hcmp n => ?_⟩
  · exact Run.inside_store hp (fun i b hb => (hr i b hb).imp id fun h => h n r hn) (h2 n r hn hp)
  · rcases hc with hc | hc | hc
    · exact absurd hc hcmp
    · exact h3 (fun h => hcmp (hc.trans h)) n
    · exact hc n

/-! ## The store's writes -/

/-- An entry that was not READY becomes one that is not (R23, R28). -/
theorem KeepsCursors.setEntry {s : State} {i : Fin 64} {e : DirEntry} (c : Option Nat)
    (hn : ∀ b, tget s.store.directory i = .ready b → ∀ n r, (s.lane n).run = some r → r.uses i.val = false)
    (he : ∀ b, e = .ready b → s.store.mem.firstInvalid b = none) :
    KeepsCursors s { s with store := { s.store.setEntry i e with cursor := c } } := by
  have hget : ∀ j, tget (s.store.setEntry i e).directory j = if i = j then e else tget s.store.directory j :=
    fun j => Store.setEntry_get _ _ _ _
  refine KeepsCursors.store (fun j b hb => ?_) (fun _ hv j b hb k hk => ?_) (.inr (.inl rfl))
  · by_cases hij : i = j
    · subst hij
      exact .inr (hn b hb)
    · exact .inl (by show tget (s.store.setEntry i e).directory j = _; rw [hget, if_neg hij]; exact hb)
  · have hb' : tget (s.store.setEntry i e).directory j = .ready b := hb
    rw [hget] at hb'
    split at hb'
    · have hf := he b hb'
      unfold Memory.firstInvalid at hf
      rw [List.findSome?_eq_none_iff] at hf
      exact Option.map_eq_none_iff.mp (hf k (List.mem_range.mpr hk))
    · exact hv j b hb' k hk

/-- Records written into an OPEN entry (R24). -/
theorem KeepsCursors.data {s : State} {i : Fin 64} {b : Block} (ws : List StepWord) (start : Nat) (c : Option Nat)
    (ho : tget s.store.directory i = .opened b) (hn : start + ws.length ≤ b.count) :
    KeepsCursors s { s with store := { s.store with
      mem := s.store.mem.writeSlots (b.first + start) ws, cursor := c } } := by
  refine KeepsCursors.store (fun j x hx => .inl hx) (fun hl hv => ?_) (.inr (.inl rfl))
  refine Store.stepsValid_of (st := s.store) (fun j x hx => ⟨x, hx, rfl, rfl, fun k hk => ?_⟩) hv
  refine Memory.readSlot_writeSlots_of_outside _ _ ?_
  have hij : i ≠ j := fun h => by
    subst h
    have hx' : tget s.store.directory i = .ready x := hx
    rw [ho] at hx'
    cases hx'
  have := hl.2.2.2.1 i j b x hij (DirEntry.block_opened ho) (DirEntry.block_ready hx)
  omega

/-- A compaction begins while no lane has a run (R31). -/
theorem KeepsCursors.beginCompaction {s : State} (c : Option Compaction) (hl : ∀ n, (s.lane n).run = none) :
    KeepsCursors s { s with store := { s.store with compaction := c } } :=
  KeepsCursors.store (fun _ _ hx => .inl hx) (fun _ hv => hv) (.inr (.inr hl))

/-- What compacting a list of READY entries from slot `pos` does to their steps: each reads at its new place as it did at
its old one, and the slots below `pos` read as before. -/
theorem compactFrom_slots : ∀ (l : List (Fin 64 × Block)) (pos : Nat) (st : Store), ChainedEntries l →
    (∀ e ∈ l, pos ≤ e.2.first) → (∀ e ∈ l, tget st.directory e.1 = .ready e.2) → st.mem.wf = true →
    (∀ k, k < pos → (compactFrom pos l st).mem.readSlot k = st.mem.readSlot k)
      ∧ ∀ e ∈ l, ∃ place, tget (compactFrom pos l st).directory e.1 = .ready { e.2 with first := place }
        ∧ ∀ j, j < e.2.count →
          (compactFrom pos l st).mem.readSlot (place + j) = st.mem.readSlot (e.2.first + j)
  | [], _, _, _, _, _, _ => ⟨fun _ _ => rfl, fun _ h => absurd h List.not_mem_nil⟩
  | (i, b) :: rest, pos, st, hc, hp, hr, hw => by
    obtain ⟨hin, hpw⟩ := hc
    rw [List.pairwise_cons] at hpw
    have hpb : pos ≤ b.first := hp (i, b) (List.mem_cons_self ..)
    have hri : tget st.directory i = .ready b := hr (i, b) (List.mem_cons_self ..)
    have hchain : ChainedEntries rest := ⟨fun e he => hin e (List.mem_cons_of_mem _ he), hpw.2⟩
    have hpos : ∀ e ∈ rest, pos + b.count ≤ e.2.first := fun e he => by
      have h2 : b.first + b.count ≤ e.2.first := (hpw.1 e he).2
      omega
    unfold compactFrom
    dsimp only
    generalize hst : (if b.first = pos then st
      else { st.setEntry i (.ready { b with first := pos }) with mem := st.mem.moveSlots b.first pos b.count }) = st'
    have hget : ∀ j, tget st'.directory j = if i = j then .ready { b with first := pos } else tget st.directory j := by
      intro j
      subst hst
      split
      · rename_i hbp
        split
        · rename_i hij
          subst hij
          rw [hri, ← hbp]
        · rfl
      · exact Store.setEntry_get _ _ _ _
    have hmem : (∀ k, k < b.count → st'.mem.readSlot (pos + k) = st.mem.readSlot (b.first + k))
        ∧ ∀ k, k < pos ∨ pos + b.count ≤ k → st'.mem.readSlot k = st.mem.readSlot k := by
      subst hst
      split
      · rename_i hbp
        rw [hbp]
        exact ⟨fun _ _ => rfl, fun _ _ => rfl⟩
      · exact Memory.readSlot_moveSlots hpb hw b.count
    have hwf : st'.mem.wf = true := by
      subst hst
      split
      · exact hw
      · exact Memory.moveSlots_wf _ _ hw _
    have hdir : ∀ e ∈ rest, tget st'.directory e.1 = .ready e.2 := fun e he => by
      rw [hget, if_neg (hpw.1 e he).1]
      exact hr e (List.mem_cons_of_mem _ he)
    obtain ⟨h1, h2⟩ := compactFrom_slots rest (pos + b.count) st' hchain hpos hdir hwf
    have hstay := (compactFrom_spec rest (pos + b.count) st' hchain hpos hdir).1
    refine ⟨fun k hk => ?_, fun e he => ?_⟩
    · rw [h1 k (by omega), hmem.2 k (.inl hk)]
    · rcases List.mem_cons.mp he with rfl | he
      · refine ⟨pos, ?_, fun j hj => ?_⟩
        · dsimp only
          rw [hstay i fun e he => ((hpw.1 e he).1).symm, hget, if_pos rfl]
        · dsimp only at hj ⊢
          rw [h1 _ (by omega), hmem.1 j hj]
      · obtain ⟨place, hpl, hm⟩ := h2 e he
        refine ⟨place, hpl, fun j hj => ?_⟩
        have := hpos e he
        rw [hm j hj, hmem.2 _ (.inr (by omega))]

/-- A compaction ends, no lane having a run (R32). -/
theorem KeepsCursors.compacted {s : State} (hl : ∀ n, (s.lane n).run = none) :
    KeepsCursors s { s with store := { s.store.compacted with compaction := none } } := by
  refine KeepsCursors.store (fun i b _ => .inr fun n r hr => by rw [hl] at hr; cases hr) (fun hlaw hv => ?_) (.inl rfl)
  have hch := Store.readyEntries_chained hlaw.2.2.1 hlaw.2.2.2.1
  have hmem : ∀ e ∈ s.store.readyEntries, tget s.store.directory e.1 = .ready e.2 := fun e he =>
    (s.store.mem_readyEntries e.1 e.2).mp he
  obtain ⟨_, h2⟩ := compactFrom_slots s.store.readyEntries 0 s.store hch (fun _ _ => Nat.zero_le _) hmem hlaw.1
  have hstay := (compactFrom_spec s.store.readyEntries 0 s.store hch (fun _ _ => Nat.zero_le _) hmem).1
  refine Store.stepsValid_of (fun i b hb => ?_) hv
  have hb' : tget (compactFrom 0 s.store.readyEntries s.store).directory i = .ready b := hb
  by_cases hi : ∃ e ∈ s.store.readyEntries, e.1 = i
  · obtain ⟨e, he, rfl⟩ := hi
    obtain ⟨place, hpl, hm⟩ := h2 e he
    rw [hb'] at hpl
    cases hpl
    exact ⟨e.2, hmem e he, rfl, rfl, hm⟩
  · have := hstay i fun e he h => hi ⟨e, he, h⟩
    rw [hb'] at this
    exact absurd ⟨(i, b), (s.store.mem_readyEntries i b).mpr this.symm, rfl⟩ hi

/-- A soft reset of the store keeps its READY entries and their steps (R36). -/
theorem KeepsCursors.softReset (s : State) : KeepsCursors s { s with store := s.store.softReset } := by
  refine KeepsCursors.store (fun i b hb => .inl ?_) (fun _ hv => ?_) (.inl s.store.softReset_compaction)
  · rw [Store.softReset_directory, hb]
    rfl
  · refine Store.stepsValid_of (fun i b hb => ⟨b, ?_, rfl, rfl, fun j _ => by rw [Store.softReset_mem]⟩) hv
    rw [Store.softReset_directory] at hb
    split at hb
    · cases hb
    · exact hb

end Sys2Proof.Machine
end

