-- ==== Sys2Proof/Laws/TraceLanes.lean ====
section
/-! SUPPORT. Chains of a lane's steps and of the figures: settle events, faults, replies, updates, verifier, exercise. -/
namespace Sys2Proof.Machine

/-! ## Steps -/

/-- A step's command on an axis, of a lane that has a run. -/
theorem Chain.laneCommand {s t : State} {n : LaneNo} {axis : Nat} {form : Option Bool} {m : Option MotionCommand}
    {limited : Bool} (h : s.laneCommand n axis form m = some (t, limited)) (hr : (s.lane n).run ≠ none) :
    Calm s t ∧ t.lanes = s.lanes ∧ t.store = s.store := by
  unfold State.laneCommand at h
  split at h
  · dsimp only at h
    split at h
    · obtain ⟨⟨u, l, b⟩, hu, h⟩ := Option.map_eq_some_iff.mp h
      cases h
      exact ⟨Chain.commandAxis hu (State.mayPlay_of_run hr), (State.commandAxis_fields hu).1,
        (State.commandAxis_fields hu).2.2.2.2.2⟩
    · cases h
  · cases h

/-- A RUNNING or WAITING run written on a lane that has one, in its place. -/
theorem Chain.setRunOf (s : State) (n : LaneNo) (r : Run) (h : (s.lane n).run ≠ none) (hp : r.phase ≠ .draining)
    (hi : s.store.lawful → s.cursorsInside → r.inside s.store) : Calm s (s.setRun n r) :=
  Chain.setRun s n r (State.mayPlay_of_run h) (KeepsRuns.setRun (.inl hp) (fun hl hs _ => hi hl hs) (.inr h))

/-- A lane that takes END. -/
theorem Chain.takeEnd (s : State) (n : LaneNo) (r : Run) (h : (s.lane n).run ≠ none) : Calm s (s.takeEnd n r) := by
  unfold State.takeEnd
  dsimp only
  have h1 : Calm s ((s.releaseClaims (.lane n)).setRun n { r with phase := .draining, timer := none }) :=
    (Chain.releaseClaims s n).trans (Chain.setRun (s.releaseClaims (.lane n)) n _ (State.mayPlay_of_run h)
      (KeepsRuns.setRun (.inr fun _ => State.releaseClaims_none s n) (fun _ _ hp => absurd rfl hp) (.inr h)))
  refine Chain.trans ?_ (Chain.walk _)
  split
  · exact h1
  · next ho =>
    refine h1.trans (Chain.finalise _ _ _ _ (fun _ => State.releaseClaims_none s n) fun k hk hko => ?_)
    simp only [State.ownsStrike, Bool.or_eq_true, not_or] at ho
    exact ho.1 (List.any_eq_true.mpr ⟨k, hk, by simp [hko]⟩)

/-! ## The place of a run after a step -/

/-- After a step other than END and RETURN the run stands at the next slot. -/
theorem Run.inside_advanced {st : Store} {r x : Run} (hv : st.stepsValid) (h : r.inside st)
    (he : decodeStep (st.mem.readSlot r.cursor) ≠ .endStep) (hr : decodeStep (st.mem.readSlot r.cursor) ≠ .returnStep)
    (h1 : x.showNo = r.showNo) (h2 : x.shown = r.shown) (h3 : x.executing = r.executing)
    (h4 : x.returnPoint = r.returnPoint) (h5 : x.cursor = r.cursor + 1)
    (h6 : ∀ set deadline, x.phase ≠ .waiting set deadline) : x.inside st := by
  refine Run.inside_move h h1 h2 h3 h4 ?_ ?_ fun set d hw => absurd hw (h6 set d)
  · rw [h5]; exact Nat.le_succ_of_le h.2.2.1
  · rw [h5]; exact Run.inside_room hv h he hr

/-- A CALL leads into a READY phrase, its return point in the show. -/
theorem Run.inside_called {st : Store} {r : Run} (hl : st.lawful) (hv : st.stepsValid) (h : r.inside st) {entry : Nat}
    {b : Block} (hs : decodeStep (st.mem.readSlot r.cursor) = .call entry) (hb : st.phrase entry = some b)
    (hp : ∀ set deadline, r.phase ≠ .waiting set deadline) :
    ({ r with
        returnPoint := some (r.cursor + 1), executing := ⟨entry, true, b.first, b.count⟩, cursor := b.first } :
      Run).inside st := by
  obtain ⟨i, hn, hi, hk⟩ := Store.phrase_spec hb
  have hcount := (hl.2.2.1 i b (DirEntry.block_ready hi)).1
  have hroom := Run.inside_room hv h (by rw [hs]; simp) (by rw [hs]; simp)
  have hex := Run.inside_call hv h hs
  have hlo := h.2.2.1
  rw [hex] at hroom hlo
  refine ⟨h.1, .inr ⟨⟨i, b, hi, hk, by rw [hn]⟩, r.cursor + 1, rfl, ?_, hroom⟩, ?_, ?_, fun set d hw => absurd hw (hp set d)⟩
  · exact Nat.le_succ_of_le hlo
  · exact Nat.le_refl _
  · show b.first < b.first + b.count
    omega

/-- A RETURN leads back into the show. -/
theorem Run.inside_returned {st : Store} {r : Run} {back : Nat} (h : r.inside st) (hb : r.returnPoint = some back)
    (hp : ∀ set deadline, r.phase ≠ .waiting set deadline) :
    ({ r with cursor := back, executing := r.shown, returnPoint := none } : Run).inside st := by
  rcases h.2.1 with h' | ⟨_, y, hy, hlo, hhi⟩
  · rw [hb] at h'; cases h'.2
  · rw [hb] at hy
    cases hy
    exact ⟨h.1, .inl ⟨rfl, rfl⟩, hlo, hhi, fun set d hw => absurd hw (hp set d)⟩

/-- One step of a lane that has a run: the step at the run's cursor, ready if it is a STRIKE. -/
theorem Chain.takeStep (s : State) (n : LaneNo) (r : Run) (step : Step) (due : Instant) (h : (s.lane n).run ≠ none)
    (hp : r.phase = .running) (hi : s.store.lawful → s.cursorsInside → r.inside s.store)
    (hs : decodeStep (s.store.mem.readSlot r.cursor) = step)
    (hr : ∀ b v, step = .strike b v → reached (due - micros 250000) s.now = true) :
    Calm s (s.takeStep n r step due).1 := by
  have hd : r.phase ≠ .draining := by rw [hp]; simp
  have hw : ∀ set d, r.phase ≠ .waiting set d := fun set d => by rw [hp]; simp
  have adv : step ≠ .endStep → step ≠ .returnStep → ∀ x : Run, x.showNo = r.showNo → x.shown = r.shown →
      x.executing = r.executing → x.returnPoint = r.returnPoint → x.cursor = r.cursor + 1 →
      (∀ set d, x.phase ≠ .waiting set d) → s.store.lawful → s.cursorsInside → x.inside s.store :=
    fun he hre x h1 h2 h3 h4 h5 h6 hl hc =>
      Run.inside_advanced hc.1 (hi hl hc) (by rw [hs]; exact he) (by rw [hs]; exact hre) h1 h2 h3 h4 h5 h6
  unfold State.takeStep
  split
  · dsimp only
    have h1 := Chain.setRunOf s n
      { r.advanced with record := { r.record with taken := satInc r.record.taken } } h hd
      (adv (by simp) (by simp) _ rfl rfl rfl rfl rfl hw)
    split
    · exact h1.trans (Chain.laneStrike _ _ _ _ _ (by simp) (hr _ _ rfl))
    · exact h1
  · dsimp only
    split
    · exact Chain.setRunOf _ _ _ h (by simp [Run.waitEnded])
        (adv (by simp) (by simp) _ rfl rfl rfl rfl rfl (by simp [Run.waitEnded]))
    · refine Chain.setRunOf _ _ _ h (by simp) fun hl hc => ?_
      refine Run.inside_move (hi hl hc) rfl rfl rfl rfl (hi hl hc).2.2.1 (hi hl hc).2.2.2.1 fun _ _ _ => ?_
      have hroom := Run.inside_room (r := r) hc.1 (hi hl hc) (by rw [hs]; simp) (by rw [hs]; simp)
      exact hroom
  · exact (Chain.setRunOf s n r.advanced h hd (adv (by simp) (by simp) _ rfl rfl rfl rfl rfl hw)).trans
      (by exact Chain.sched (s.setRun n r.advanced) _ rfl)
  · exact Chain.setRunOf _ _ _ h hd (adv (by simp) (by simp) _ rfl rfl rfl rfl rfl hw)
  · dsimp only
    refine Chain.setRunOf _ _ _ h hd fun hl hc => ?_
    have hin := hi hl hc
    have hlo := hin.2.2.1
    refine Run.inside_move hin rfl rfl rfl rfl ?_ ?_ fun set d hx => absurd hx (hw set d)
    · dsimp only
      split
      · exact Nat.le_add_right _ _
      · exact Nat.le_succ_of_le hlo
    · dsimp only
      split
      · have := Run.inside_branch hc.1 hin hs
        omega
      · exact Run.inside_room hc.1 hin (by rw [hs]; simp) (by rw [hs]; simp)
  · split
    · next b hb =>
      exact Chain.setRunOf _ _ _ h hd fun hl hc => Run.inside_called hl hc.1 (hi hl hc) hs hb hw
    · exact (Chain.setRunOf _ _ _ h hd hi).trans (Chain.endAndWalk _ _ _)
  · split
    · next back hb => exact Chain.setRunOf _ _ _ h hd fun hl hc => Run.inside_returned (hi hl hc) hb hw
    · exact (Chain.setRunOf _ _ _ h hd hi).trans (Chain.endAndWalk _ _ _)
  · exact Chain.takeEnd _ _ _ h
  · exact (Chain.setRunOf _ _ _ h hd hi).trans (Chain.endAndWalk _ _ _)
  all_goals
    split
    · split
      · next hc =>
        obtain ⟨h1, h2, h3⟩ := Chain.laneCommand hc h
        refine h1.trans (Chain.setRunOf _ _ _ ?_ hd fun hl hcur => ?_)
        · unfold State.lane at h ⊢
          rw [h2]
          exact h
        · rw [h3] at hl ⊢
          exact adv (by simp) (by simp) _ rfl rfl rfl rfl rfl hw hl (State.cursorsInside_congr h3.symm h2.symm hcur)
      · exact Chain.setRunOf _ _ _ h hd (adv (by simp) (by simp) _ rfl rfl rfl rfl rfl hw)
    · exact .refl s

theorem Chain.lookStep (s : State) (n : LaneNo) : Calm s (s.lookStep n).1 := by
  unfold State.lookStep
  split
  · exact .refl s
  · next r hr =>
    have h : (s.lane n).run ≠ none := by simp [hr]
    split
    · next hp =>
      have hin : s.store.lawful → s.cursorsInside → r.inside s.store := fun _ hc => hc.2.1 n r hr (by rw [hp]; simp)
      have same : ∀ x : Run, x.showNo = r.showNo → x.shown = r.shown → x.executing = r.executing →
          x.returnPoint = r.returnPoint → x.cursor = r.cursor → x.phase = r.phase →
          s.store.lawful → s.cursorsInside → x.inside s.store := fun x h1 h2 h3 h4 h5 h6 hl hc =>
        Run.inside_congr (hin hl hc) h1 h2 h3 h4 h5 fun set d hx => ⟨set, d, h6 ▸ hx⟩
      dsimp only
      split
      · next hready =>
        split
        · exact Chain.endAndWalk _ _ _
        · refine Chain.takeStep _ _ _ _ _ h hp (same _ rfl rfl rfl rfl rfl rfl) rfl fun b v hb => ?_
          rw [hb] at hready
          exact hready
      · exact Chain.setRunOf _ _ _ h (by rw [hp]; simp) (same _ rfl rfl rfl rfl rfl rfl)
    · exact .refl s

theorem Chain.stepTimes (n : LaneNo) : ∀ (fuel : Nat) (s : State), Calm s (s.stepTimes n fuel)
  | 0, s => .refl s
  | fuel + 1, s => by
    have hl := Chain.lookStep s n
    unfold State.stepTimes
    split
    · next s' heq => rw [heq] at hl; exact hl.trans (Chain.stepTimes n fuel s')
    · next s' heq => rw [heq] at hl; exact hl

theorem Chain.runSteps (s : State) (n : LaneNo) : Calm s (s.runSteps n) := Chain.stepTimes n _ s

/-! ## Waits -/

theorem Chain.endWait (s : State) (n : LaneNo) (r : Run) (w : WaitResult) (h : (s.lane n).run ≠ none)
    (hi : s.cursorsInside → r.inside s.store) {set : BitVec 12} {deadline : Instant}
    (hp : r.phase = .waiting set deadline) : Calm s (s.endWait n r w) :=
  (Chain.setRunOf s n _ h (by simp [Run.waitEnded]) fun _ hc =>
    Run.inside_waitEnded (hi hc) hp w s.now (some s.now)).trans (Chain.runSteps _ _)

theorem Chain.waitReview (s : State) (a : AxisNo) (n : LaneNo) : Calm s (s.waitReview a n) := by
  unfold State.waitReview
  split
  · exact .refl s
  · next r hr =>
    split
    · next hp =>
      split
      · exact Chain.endWait _ _ _ _ (by simp [hr]) (fun hc => hc.2.1 n r hr (by rw [hp]; simp)) hp
      · exact .refl s
    · exact .refl s

theorem Chain.tellLanes (s : State) (a : AxisNo) : Calm s (s.tellLanes a) :=
  Chain.foldl (fun s n => s.waitReview a n) _ (fun s n => Chain.waitReview s a n) s

/-! ## The verifier's scan -/

theorem Chain.verifier (s : State) (v : Verifier) : Calm s { s with verifier := v } := (Move.verifier s v).chain

theorem Chain.chooseDwell (s : State) : Calm s s.chooseDwell := by
  unfold State.chooseDwell
  dsimp only
  split
  · split
    · exact Chain.verifier _ _
    · exact Chain.verifier _ _
  · exact .refl s

theorem Chain.reviewScan (s : State) : Calm s s.reviewScan := by
  unfold State.reviewScan
  split
  · exact Chain.chooseDwell s
  · exact .refl s

theorem Chain.verdict (s : State) (a : AxisNo) (r : VerdictRecord) : Calm s (s.verdict a r) := Chain.verifier _ _

theorem Chain.skipDwell (s : State) (a : AxisNo) : Calm s (s.skipDwell a) := by
  unfold State.skipDwell
  split
  · exact (Chain.verdict _ _ _).trans (Chain.chooseDwell _)
  · exact .refl s

/-! ## The exercise -/

theorem State.exercising_spec {s : State} {e : Exercise} (h : s.exercising = some e) :
    s.exercise = some e ∧ e.phase ≠ .done := by
  unfold State.exercising at h
  split at h
  · split at h
    · cases h
    · next he hp => cases h; exact ⟨he, hp⟩
  · cases h

/-- The record is written while an exercise runs, and it goes on. -/
theorem Chain.exercise {s : State} {e : Exercise} (h : s.exercising = some e) (x : Exercise) (hx : x.phase ≠ .done)
    (ha : x.axis = e.axis) : Calm s { s with exercise := some x } :=
  have hs := State.exercising_spec h
  (Move.exercise s (some x) s.sched.claims (.inr (State.mayPlay_of_exercise h))
    (KeepsClaims.proceed hs.1 hs.2 rfl hx ha rfl rfl)).chain

theorem Chain.exerciseMove (s : State) (e : Exercise) (target : Int) (h : s.mayPlay) : Calm s (s.exerciseMove e target) := by
  unfold State.exerciseMove
  split
  · next t l b ht => exact Chain.commandAxis ht h
  · exact .refl s

theorem Chain.endExercise (s : State) (e : Exercise) (v : ExerciseVerdict) (h : s.exercising = some e) :
    Calm s (s.endExercise e v) := by
  unfold State.endExercise
  dsimp only
  have hs := State.exercising_spec h
  refine Chain.trans ?_ (Chain.walk _)
  exact (Move.exercise s (some { e with phase := .done, verdict := some v }) (tset s.sched.claims e.axis none) (.inl rfl)
    (KeepsClaims.finish hs.1 rfl rfl (fun a => tget_tset _ _ _ _) rfl)).chain.trans
      (Chain.notice _ (.exerciseDone { e with phase := .done, verdict := some v }))

theorem Chain.abortExercise (s : State) (c : AbortCause) : Calm s (s.abortExercise c) := by
  unfold State.abortExercise
  split
  · next e he => exact Chain.endExercise _ _ _ he
  · exact .refl s

theorem Chain.exerciseSettle (s : State) (a : AxisNo) : Calm s (s.exerciseSettle a) := by
  unfold State.exerciseSettle
  split
  · exact .refl s
  · next e he =>
    split
    · exact Chain.exercise he _ (by simp) rfl
    · exact .refl s

theorem Chain.completeExercise (s : State) : Calm s s.completeExercise := by
  unfold State.completeExercise
  split
  · next e he => exact Chain.endExercise _ _ _ (Option.eq_some_of_filter_eq_some he)
  · exact .refl s

theorem State.exercising_of_phase {s : State} {e : Exercise} (h : s.exercise = some e) (hp : e.phase ≠ .done) :
    s.exercising = some e := by
  unfold State.exercising
  rw [h]
  simp [hp]

theorem Chain.exerciseMeasure (s : State) (e : Exercise) (c : AxisConfig) (m : Int) (h : s.exercising = some e) :
    Calm s (s.exerciseMeasure e c m) := by
  unfold State.exerciseMeasure
  dsimp only
  split
  · refine (Chain.exercise h _ (by simp) (by rfl)).trans (Chain.exerciseMove _ _ _ ?_)
    exact State.mayPlay_of_exercise (State.exercising_of_phase rfl (by simp))
  · refine (Chain.exercise h _ (by simp) (by rfl)).trans (Chain.exerciseMove _ _ _ ?_)
    exact State.mayPlay_of_exercise (State.exercising_of_phase rfl (by simp))

theorem Chain.exerciseUpdate (s : State) (a : AxisNo) : Calm s (s.exerciseUpdate a) := by
  unfold State.exerciseUpdate
  split
  · exact .refl s
  · next e he =>
    split
    · next hp =>
      dsimp only
      have h1 := Chain.exercise he { e with dwell := e.dwell + 1 } (State.exercising_spec he).2 rfl
      split
      · exact h1
      · split
        · refine h1.trans (Chain.exerciseMeasure _ _ _ _ ?_)
          exact State.exercising_of_phase rfl (by simp [hp.2])
        · exact h1
    · exact .refl s

/-! ## Settle events and faults -/

theorem Chain.settle (s : State) (a : AxisNo) : Calm s (s.settle a) :=
  (Chain.tellLanes s a).trans (Chain.exerciseSettle _ a)

theorem Chain.stopFollower (leader : AxisNo) (s : State) (f : AxisNo) : Calm s (s.stopFollower leader f) := by
  unfold State.stopFollower
  split
  · split
    · have h := Chain.stopAxis s f (s.axis f).dv
      dsimp only
      split
      · exact h.trans (Chain.settle _ _)
      · exact h
    · exact .refl s
  · exact .refl s

theorem Chain.stopFollowers (s : State) (leader : AxisNo) : Calm s (s.stopFollowers leader) :=
  Chain.foldl (State.stopFollower leader) _ (Chain.stopFollower leader) s

theorem Chain.exerciseFault (s : State) (a : AxisNo) : Calm s (s.exerciseFault a) := by
  unfold State.exerciseFault
  split
  · split
    · exact Chain.abortExercise _ _
    · exact .refl s
  · exact .refl s

theorem Chain.enterFault (s : State) (a : AxisNo) (c : AxisFaultCause) : Calm s (s.enterFault a c) := by
  unfold State.enterFault
  dsimp only
  split
  · refine Chain.trans ?_ ((Chain.notice _ _).trans (Chain.skipDwell _ _))
    refine Chain.trans ?_ ((Chain.exerciseFault _ _).trans (Chain.latchAxis _ _ _))
    exact ((Move.axis s a _ (Axis.enterFault_lawful c) (.inl rfl) (bus_of_eq ⟨rfl, rfl⟩)).chain.trans (Chain.stopFollowers _ _)).trans
      (Chain.tellLanes _ _)
  · exact .refl s

theorem Chain.putOff (s : State) (a : AxisNo) : Calm s (s.putOff a) :=
  ((Move.axis s a _ Axis.putOff_lawful (.inl rfl) (bus_of_eq ⟨rfl, rfl⟩)).chain.trans (Chain.stopFollowers _ _)).trans (Chain.skipDwell _ _)

/-! ## Verdicts and replies -/

theorem Chain.trackingFail (s : State) (a : AxisNo) : Calm s (s.trackingFail a) := by
  unfold State.trackingFail
  split
  · exact Chain.enterFault _ _ _
  · exact Chain.enterFault _ _ _
  · exact (Chain.latchAxis _ _ _).trans (Chain.notice _ _)
  · exact .refl s

theorem Chain.endDwell (s : State) (a : AxisNo) (r : VerdictRecord) : Calm s (s.endDwell a r) := by
  unfold State.endDwell
  refine Chain.trans ?_ (Chain.chooseDwell _)
  refine (Chain.verdict s a r).trans ?_
  split
  · exact Chain.trackingFail _ _
  · exact .refl _

theorem Chain.verifierUpdate (s : State) (a : AxisNo) (valid : Bool) : Calm s (s.verifierUpdate a valid) := by
  unfold State.verifierUpdate
  dsimp only
  split
  · split
    · exact (Chain.verifier s _).trans (Chain.verifier _ _)
    · exact (Chain.verifier s _).trans (Chain.endDwell _ _ _)
  · exact .refl s

/-- An axis written with law 6 kept and no new command. -/
theorem Chain.axisKept (s : State) (a : AxisNo) (x : Axis) (hl : (s.axis a).lawful → x.lawful)
    (hm : x.mode = (s.axis a).mode)
    (hb : ((s.axis a).config = none → (s.axis a).heard = none) → x.config = none → x.heard = none) :
    Calm s (s.setAxis a x) := by
  refine (Move.axis s a x hl ?_ hb).chain
  by_cases h : x.mode.commanded = true
  · exact .inr (State.mayPlay_of_axis (a := a) (hm ▸ h))
  · exact .inl (by simpa using h)

theorem Chain.replyMissing (s : State) (a : AxisNo) : Calm s (s.replyMissing a).1 := by
  unfold State.replyMissing
  dsimp only
  have h : ∀ m : Option Int, Calm s (s.setAxis a
      { s.axis a with awaiting := none, missed := min 3 ((s.axis a).missed + 1), measured := m }) := fun m =>
    Chain.axisKept _ _ _ (fun hl => Axis.lawful_of_eq hl rfl rfl rfl rfl rfl rfl (.inl (Nat.min_le_left _ _))) rfl
      (bus_of_eq ⟨rfl, rfl⟩)
  exact h _

/-- A valid reply taken keeps law 6. -/
theorem Axis.replyTaken_lawful {x : Axis} {m : Int} (hx : x.lawful) :
    ({ x with awaiting := none, missed := 0, measured := some m
              cmd := if x.mode = .off then some m else x.cmd } : Axis).lawful := by
  intro c hc
  obtain ⟨f0, f1, f2, f3, f4, f5, f6⟩ := hx c hc
  refine ⟨f0, ?_, f2, f3, f4, f5, Nat.zero_le _⟩
  rcases hform : c.form with _ | ⟨lower, upper⟩
  · trivial
  · rw [hform] at f1
    refine ⟨f1.1, fun he => ?_, f1.2.2⟩
    dsimp only at he ⊢
    by_cases ho : x.mode = .off
    · rw [ho] at he
      cases he
    · rw [if_neg ho]
      exact f1.2.1 he

theorem Chain.replyValid (s : State) (a : AxisNo) (c : AxisConfig) (r : AmpReply) : Calm s (s.replyValid a c r).1 := by
  unfold State.replyValid
  dsimp only
  have h : ∀ m : Int, Calm s (s.setAxis a
      { s.axis a with awaiting := none, missed := 0, measured := some m
                      cmd := if (s.axis a).mode = .off then some m else (s.axis a).cmd }) := fun m =>
    Chain.axisKept _ _ _ (fun hl => Axis.replyTaken_lawful hl) rfl (bus_of_eq ⟨rfl, rfl⟩)
  exact h _

theorem Chain.countReply (s : State) (a : AxisNo) (valid : Bool) (f : Option AxisFaultCause) :
    Calm s (s.countReply a valid f) := by
  unfold State.countReply
  split
  · exact Chain.verifierUpdate _ _ _
  · split
    · split
      · exact ((Chain.nextChoice s).trans (Chain.enterFault _ _ _)).trans (Chain.verifierUpdate _ _ _)
      · exact ((Chain.nextChoice s).trans (Chain.verifierUpdate _ _ _)).trans (Chain.enterFault _ _ _)
    · exact (Chain.enterFault _ _ _).trans (Chain.verifierUpdate _ _ _)

theorem Chain.takeReply (s : State) (a : AxisNo) (r : Option AmpReply) : Calm s (s.takeReply a r) := by
  unfold State.takeReply
  split
  · exact Chain.axisKept _ _ _ (fun hl => Axis.lawful_of_eq hl rfl rfl rfl rfl rfl rfl (.inr rfl)) rfl (bus_of_eq ⟨rfl, rfl⟩)
  · next c _ =>
    split
    · next m _ =>
      exact ((Chain.replyValid s a c m).trans (Chain.countReply _ a true (s.replyValid a c m).2)).trans
        (Chain.exerciseUpdate _ a)
    · exact ((Chain.replyMissing s a).trans (Chain.countReply _ a false (s.replyMissing a).2)).trans
        (Chain.exerciseUpdate _ a)

/-! ## The update -/

/-- A change of the motion unit that leaves its axes is a move, where LISTEN drives no frame. -/
theorem Chain.line (s : State) (l : Option BusFrame) (h : s.mode ≠ .listen) :
    Calm s { s with motion := { s.motion with line := l } } :=
  (Move.motion s { s.motion with line := l } (fun _ h => h) (fun _ h => h) fun hb => ⟨hb.1, fun hm => absurd hm h⟩).chain

theorem Chain.driveFrame (s : State) (a : AxisNo) (x : Axis) : Calm s (s.driveFrame a x) := by
  unfold State.driveFrame
  split
  · exact .refl s
  · next hm =>
    exact (Chain.line s (some ⟨setpointBytes a (frameCommandFor s.mode x.mode) (s.setpointOf x),
      s.now + micros Config.axisFrameTime⟩) hm).trans (Move.choices { s with motion := { s.motion with line := _ } } _).chain

theorem Chain.noteUpdate (s : State) (a : AxisNo) : Calm s (s.noteUpdate a) := by
  unfold State.noteUpdate
  split
  · exact Chain.verifier _ _
  · exact .refl s

theorem updated_lawful {s : State} {x y : Axis} (h : y.lawful) : (updated s x y).lawful :=
  Axis.lawful_of_eq h rfl rfl rfl rfl rfl rfl (.inr rfl)

theorem Chain.update (s : State) (a : AxisNo) : Calm s (s.update a) := by
  unfold State.update
  dsimp only
  split
  · exact .refl s
  · next c hc =>
    have hset : Calm s (s.setAxis a (updated s (s.axis a) (profile s.leaders c (s.axis a)).1)) := by
      refine (Move.axis s a _ (fun hl => updated_lawful (profile_lawful s.leaders hc hl)) ?_ (fun _ _ => rfl)).chain
      by_cases hm : (updated s (s.axis a) (profile s.leaders c (s.axis a)).1).mode.commanded = true
      · exact .inr (State.mayPlay_of_axis (a := a) (profile_commanded s.leaders c _ hm))
      · exact .inl (by simpa using hm)
    have h3 := (hset.trans (Chain.driveFrame _ a (profile s.leaders c (s.axis a)).1)).trans (Chain.noteUpdate _ a)
    generalize ((s.setAxis a (updated s (s.axis a) (profile s.leaders c (s.axis a)).1)).driveFrame a
      (profile s.leaders c (s.axis a)).1).noteUpdate a = t at h3
    have h4 : Calm s (if (profile s.leaders c (s.axis a)).1.lag = true then
        t.latchAxis a fun l => { l with lag := true } else t) := by
      split
      · exact h3.trans (Chain.latchAxis _ _ _)
      · exact h3
    generalize (if (profile s.leaders c (s.axis a)).1.lag = true then
        t.latchAxis a fun l => { l with lag := true } else t) = u at h4
    have h5 : Calm s (if (profile s.leaders c (s.axis a)).2 = true then u.settle a else u) := by
      split
      · exact h4.trans (Chain.settle _ _)
      · exact h4
    split
    · exact h5.trans (Chain.takeReply _ _ _)
    · exact h5

end Sys2Proof.Machine
end

