-- ==== Sys2Proof/Laws/TraceCommands.lean ====
section
/-! SUPPORT. Chains of the commands that leave output control alone: the port, the calendar, the store, the scheduler,
the lanes, the strike unit, the motion unit, the verifier and the exercise. -/
namespace Sys2Proof.Machine

/-! ## The message port -/

theorem Chain.setReported (s : State) : Calm s s.setReported := Chain.port s _ rfl rfl

theorem Chain.askReset (s : State) (tag : Byte) : Calm s (s.askReset tag) :=
  have h := Port.enterReply_spec s.port s.now { replyFrame tag 0x02 .ok [] with role := .resetReply }
  (Move.port s { s.port.enterReply s.now { replyFrame tag 0x02 .ok [] with role := .resetReply } with
    resetWaiting := true } (fun hl => by rw [h.1]; exact hl) h.2).chain

theorem Chain.clearLatches (s : State) : Calm s s.clearLatches := Chain.latch s _

theorem Chain.writeMask (s : State) (tag : Byte) (m : Half) : Calm s (s.writeMask tag m) := by
  unfold State.writeMask
  split
  · exact Chain.reply _ _ _ _ _
  · dsimp only
    exact (Chain.port s _ (by rfl) (by rfl)).trans (Chain.reply _ _ _ _ _)

theorem Chain.setReceiver (s : State) (r : Receiver) : Calm s (s.setReceiver r) := Chain.port s _ rfl rfl

theorem Chain.discardFrame (s : State) : Calm s s.discardFrame := (Chain.setReceiver s _).trans (Chain.latch _ _)

theorem Chain.examineFrame (s : State) (bytes : List Byte) : Calm s (s.examineFrame bytes) := by
  unfold State.examineFrame
  dsimp only
  split
  · split
    · split
      · exact (Chain.setReceiver s _).trans (Chain.latch _ _)
      · exact (Chain.setReceiver s _).trans (Chain.offer _ _)
    · exact Chain.setReceiver s _
  · exact (Chain.setReceiver s _).trans (Chain.latch _ _)

theorem Chain.completeFrame (s : State) : Calm s s.completeFrame := by
  unfold State.completeFrame
  split
  · exact Chain.examineFrame _ _
  · exact .refl s

theorem Chain.passGap (s : State) : Calm s s.passGap := by
  unfold State.passGap
  split
  · exact Chain.discardFrame s
  · exact .refl s

theorem Chain.byteError (s : State) : Calm s s.byteError := by
  unfold State.byteError
  split
  · exact Chain.discardFrame s
  · exact .refl s

theorem Chain.receive (s : State) (b : Byte) : Calm s (s.receive b) := by
  unfold State.receive
  dsimp only
  have h : Calm s { s with port := { s.port with lastByte := s.now } } := Chain.port s _ rfl rfl
  generalize { s with port := { s.port with lastByte := s.now } } = t at h
  split
  · split
    · exact h.trans (Chain.setReceiver _ _)
    · exact h
  · split
    · exact h.trans (Chain.setReceiver _ _)
    · exact h.trans (Chain.discardFrame _)
  · exact h.trans (Chain.setReceiver _ _)

theorem Chain.frameSent (s : State) : Calm s { s with port := s.port.frameSent s.now } :=
  have h := Port.frameSent_spec s.port s.now
  (Move.port s _ (fun hl => by rw [h.1]; exact hl) h.2).chain

/-! ## The calendar -/

theorem Chain.setPlays (s : State) (l : List TimedPlay)
    (h : s.cal.timedPlays.length ≤ Config.timedPlayCapacity → l.length ≤ Config.timedPlayCapacity) :
    Calm s (s.setPlays l) :=
  (Move.cal s { s.cal with timedPlays := l } h fun h => h).chain

theorem withoutPlay_length (id : Nat) (l : List TimedPlay) : (withoutPlay id l).length ≤ l.length :=
  List.length_filter_le _ _

theorem Chain.dropPlay (s : State) (p : TimedPlay) (r : DropReason) : Calm s (s.dropPlay p r) :=
  (Chain.setPlays s _ fun h => Nat.le_trans (withoutPlay_length _ _) h).trans (Chain.dropRequest _ _ _ _ _)

theorem Chain.releasePlay (s : State) (p : TimedPlay) : Calm s (s.releasePlay p) :=
  (Chain.setPlays s _ fun h => Nat.le_trans (withoutPlay_length _ _) h).trans (Chain.enterWish _ _)

theorem Chain.releasePlays (s : State) : Calm s s.releasePlays := Chain.foldl _ _ Chain.releasePlay s

theorem Calendar.relevel_timedPlays (c : Calendar) : c.relevel.timedPlays = c.timedPlays := rfl

theorem Chain.reviewLevel (s : State) : Calm s s.reviewLevel := Chain.cal s _ rfl

theorem Chain.reviewProgramme (s : State) : Calm s s.reviewProgramme := by
  unfold State.reviewProgramme
  dsimp only
  split
  · exact Chain.cal s _ rfl
  · exact (Chain.cal s _ (by rfl)).trans (Chain.notice _ _)

theorem Chain.expirePlays (s : State) : Calm s s.expirePlays := Chain.foldl _ _ (fun s p => Chain.dropPlay s p _) s

theorem Chain.loadTime (s : State) (t : MallTime) (f : Bool) (h : t.inRange) : Calm s (s.loadTime t f) :=
  Chain.cal s _ rfl fun _ => h

theorem Chain.setTime (s : State) (tag : Byte) (t : MallTime) (pps : Byte) (h : t.micro ≤ 1000) :
    Calm s (s.setTime tag t pps) := by
  unfold State.setTime
  split
  · split
    · rename_i hv
      exact ((((Chain.reply _ _ _ _ _).trans (Chain.loadTime _ _ _ ⟨hv.1, hv.2, h⟩)).trans (Chain.reviewProgramme _)).trans
        (Chain.reviewLevel _)).trans (Chain.expirePlays _)
    · exact Chain.reply _ _ _ _ _
  · exact Chain.reply _ _ _ _ _

theorem Chain.writeProgramme (s : State) (tag : Byte) (n : Nat) (p : Programme) : Calm s (s.writeProgramme tag n p) := by
  unfold State.writeProgramme
  split
  · split
    · exact ((Chain.cal s _ (by rfl)).trans (Chain.reviewLevel _)).trans (Chain.reply _ _ _ _ _)
    · exact Chain.reply _ _ _ _ _
  · exact Chain.reply _ _ _ _ _

theorem Chain.setSeasonEntry (s : State) (i : Fin 16) (e : Season) : Calm s (s.setSeasonEntry i e) := Chain.cal s _ rfl
theorem Chain.setTriggerEntry (s : State) (i : Fin 96) (e : Trigger) : Calm s (s.setTriggerEntry i e) := Chain.cal s _ rfl

theorem Chain.writeSeason (s : State) (tag : Byte) (n : Nat) (e : Season) (m : Byte) : Calm s (s.writeSeason tag n e m) := by
  unfold State.writeSeason
  split
  · split
    · exact ((Chain.reply _ _ _ _ _).trans (Chain.setSeasonEntry _ _ _)).trans (Chain.reviewProgramme _)
    · exact Chain.reply _ _ _ _ _
  · exact Chain.reply _ _ _ _ _

theorem Chain.clearSeason (s : State) (tag : Byte) (n : Nat) : Calm s (s.clearSeason tag n) := by
  unfold State.clearSeason
  split
  · exact ((Chain.reply _ _ _ _ _).trans (Chain.setSeasonEntry _ _ _)).trans (Chain.reviewProgramme _)
  · exact Chain.reply _ _ _ _ _

theorem Chain.writeTrigger (s : State) (tag entry selector : Byte) (hours : BitVec 24)
    (minute weekdays showNo priority grace : Byte) :
    Calm s (s.writeTrigger tag entry selector hours minute weekdays showNo priority grace) := by
  unfold State.writeTrigger
  split
  · split
    · exact (Chain.setTriggerEntry _ _ _).trans (Chain.reply _ _ _ _ _)
    · exact Chain.reply _ _ _ _ _
  · exact Chain.reply _ _ _ _ _

theorem Chain.clearTrigger (s : State) (tag : Byte) (n : Nat) : Calm s (s.clearTrigger tag n) := by
  unfold State.clearTrigger
  split
  · exact (Chain.setTriggerEntry _ _ _).trans (Chain.reply _ _ _ _ _)
  · exact Chain.reply _ _ _ _ _

theorem Chain.invalidateTime (s : State) : Calm s s.invalidateTime := by
  unfold State.invalidateTime
  dsimp only
  refine Chain.trans ?_ (Chain.foldl _ _ (fun s p => Chain.dropPlay s p _) _)
  exact (((Chain.cal s { s.cal with timeValid := false, ppsState := .none } rfl).trans (Chain.reviewProgramme _)).trans
    (Chain.reviewLevel _)).trans (Chain.latch _ _)

theorem Chain.testTrigger (s : State) (i : Fin 96) : Calm s (s.testTrigger i) := by
  unfold State.testTrigger
  dsimp only
  split
  · exact ((Chain.setTriggerEntry _ _ _).trans (Chain.assigned _ _)).trans (Chain.enterWish _ _)
  · exact .refl s

theorem Chain.fireTriggers (s : State) : Calm s s.fireTriggers := by
  unfold State.fireTriggers
  split
  · exact Chain.foldl _ _ Chain.testTrigger s
  · exact .refl s

theorem Chain.minuteBoundary (s : State) (t : MallTime) : Calm s (s.minuteBoundary t) := by
  unfold State.minuteBoundary
  dsimp only
  refine Chain.trans ?_ (Chain.fireTriggers _)
  refine Chain.trans ?_ (Chain.reviewLevel _)
  split
  · exact Chain.invalidateTime s
  · split
    · exact Chain.reviewProgramme s
    · exact .refl s

theorem Chain.carry (s : State) : Calm s s.carry := by
  unfold State.carry
  dsimp only
  refine Chain.trans ?_ (Chain.releasePlays _)
  have h : Calm s { s with cal := { s.cal with time := s.cal.time.nextSecond } } := Chain.cal s _ rfl MallTime.nextSecond_inRange
  split
  · exact h.trans (Chain.minuteBoundary _ _)
  · exact h

theorem Chain.alignTime (s : State) : Calm s s.alignTime := by
  unfold State.alignTime
  split
  · exact Chain.cal s _ rfl MallTime.aligned_inRange
  · exact Chain.carry s

theorem Chain.lockPps (s : State) : Calm s s.lockPps := by
  unfold State.lockPps
  dsimp only
  split
  · exact (Chain.cal s _ (by rfl)).trans (Chain.notice _ _)
  · exact Chain.cal s _ rfl

theorem Chain.losePps (s : State) : Calm s s.losePps :=
  ((Chain.cal s { s.cal with ppsState := .lost } rfl).trans (Chain.latch _ _)).trans (Chain.notice _ _)

/-! ## The store -/

theorem Chain.setStore (s : State) (st : Store) (h : s.store.lawful → st.lawful)
    (hk : KeepsCursors s { s with store := st }) : Calm s (s.setStore st) :=
  (Move.store s st h hk).chain

theorem openKind_count {kind : Byte} {count claims limit : Half} {k : EntryKind}
    (h : openKind kind count claims limit = some k) : 1 ≤ count.toNat := by
  unfold openKind at h
  split at h
  · cases h
  · omega

theorem Chain.showOpen (s : State) (tag n k : Byte) (c m l : Half) (hr : s.store.compaction = none) :
    Calm s (s.showOpen tag n k c m l) := by
  unfold State.showOpen
  split
  · exact Chain.reply _ _ _ _ _
  · split
    · exact Chain.reply _ _ _ _ _
    · rename_i ho
      split
      · exact Chain.reply _ _ _ _ _
      · rename_i hf
        split
        · exact Chain.reply _ _ _ _ _
        · rename_i hk
          split
          · exact Chain.reply _ _ _ _ _
          · rename_i hfit
            refine (Chain.setStore _ _ (fun h => Store.lawful_open h (Bool.not_eq_true _ ▸ ho) (not_not.mp hf)
              (openKind_count hk) hfit hr) (KeepsCursors.setEntry _ (fun b hb => ?_) fun b hb => ?_)).trans
              (Chain.reply _ _ _ _ _)
            · rw [not_not.mp hf] at hb; cases hb
            · cases hb

theorem Chain.showData (s : State) (tag n : Byte) (f : Half) (r : List StepWord) : Calm s (s.showData tag n f r) := by
  unfold State.showData
  split
  · exact Chain.reply _ _ _ _ _
  · split
    · rename_i b ho
      dsimp only
      split
      · exact Chain.reply _ _ _ _ _
      · rename_i hc
        split
        · exact Chain.reply _ _ _ _ _
        · rename_i hn
          exact (Chain.setStore _ _ (fun h => Store.lawful_data _ h ho (not_not.mp hc) (by omega))
            (KeepsCursors.data _ _ _ ho (by omega))).trans (Chain.reply _ _ _ _ _)
    · exact Chain.reply _ _ _ _ _

theorem Chain.showClose (s : State) (tag n : Byte) : Calm s (s.showClose tag n) := by
  unfold State.showClose
  split
  · exact Chain.reply _ _ _ _ _
  · split
    · rename_i b ho
      dsimp only
      split
      · exact Chain.reply _ _ _ _ _
      · split
        · exact Chain.reply _ _ _ _ _
        · next hv =>
          refine (Chain.setStore _ _ (fun h => Store.lawful_close (e := .ready b) h ho rfl fun c hc => by cases hc; rfl)
            (KeepsCursors.setEntry _ (fun c hc => ?_) fun c hc => ?_)).trans (Chain.reply _ _ _ _ _)
          · rw [ho] at hc; cases hc
          · cases hc; exact hv
    · exact Chain.reply _ _ _ _ _

theorem Chain.dropForShow (s : State) (n : Nat) : Calm s (s.dropForShow n) :=
  Chain.foldl _ _ (fun s r => Chain.dropQueued s r _) s

theorem State.inUse_false {s : State} {k : Nat} (h : ¬s.inUse k = true) {n : LaneNo} {r : Run}
    (hn : (s.lane n).run = some r) : r.uses k = false := by
  unfold State.inUse at h
  rw [List.any_eq_true] at h
  by_contra hu
  exact h ⟨n, mem_indexes n, by simp only [hn]; simpa using hu⟩

theorem Chain.showErase (s : State) (tag n : Byte) : Calm s (s.showErase tag n) := by
  unfold State.showErase
  split
  · exact Chain.reply _ _ _ _ _
  · split
    · exact Chain.reply _ _ _ _ _
    · rename_i b ho
      refine (Chain.setStore _ _ (fun h => Store.lawful_close h ho rfl fun c hc => by cases hc)
        (KeepsCursors.setEntry _ (fun c hc => ?_) fun c hc => ?_)).trans (Chain.reply _ _ _ _ _)
      · rw [ho] at hc; cases hc
      · cases hc
    · rename_i b hr
      split
      · exact Chain.reply _ _ _ _ _
      · next hu =>
        have h := (Chain.setStore s _ (fun h => Store.lawful_erase h hr)
          (KeepsCursors.setEntry s.store.cursor (fun _ _ n r hn => State.inUse_false hu hn) fun _ hc => by cases hc)).trans
          (Chain.reply _ tag 0x15 .ok [])
        dsimp only
        split
        · exact h
        · exact h.trans (Chain.dropForShow _ _)

theorem Chain.endCompaction (s : State) (tag : Byte)
    (ho : s.store.lawful → ∀ i, (tget s.store.directory i).isOpened = false)
    (hn : s.cursorsInside → ∀ n, (s.lane n).run = none) : Calm s (s.endCompaction tag) := by
  unfold State.endCompaction
  dsimp only
  exact ((Chain.setStore s _ (fun h => Store.lawful_compacted h (ho h)) fun hl hc =>
    KeepsCursors.compacted (hn hc) hl hc).trans (Chain.reply _ _ _ _ _)).trans (Chain.walk _)

theorem Chain.storeCompact (s : State) (tag : Byte) : Calm s (s.storeCompact tag) := by
  unfold State.storeCompact
  split
  · exact Chain.reply _ _ _ _ _
  · rename_i hb
    have ho : ∀ i, (tget s.store.directory i).isOpened = false := by
      simp only [State.compactBusy, Bool.or_eq_true, not_or] at hb
      exact Store.none_opened_of_opened (by simpa using hb.1.2)
    have hn : ∀ n, (s.lane n).run = none := fun n => by
      simp only [State.compactBusy, Bool.or_eq_true, not_or, List.any_eq_true, not_exists, not_and] at hb
      simpa using hb.1.1 n (mem_indexes n)
    dsimp only
    split
    · exact Chain.endCompaction _ _ (fun _ => ho) fun _ => hn
    · exact Chain.setStore _ _ (fun h => Store.lawful_begin _ h ho) (KeepsCursors.beginCompaction _ hn)

theorem Chain.storeList (s : State) (tag : Byte) (n : Nat) : Calm s (s.storeList tag n) := by
  unfold State.storeList
  split
  · exact Chain.reply _ _ _ _ _
  · exact Chain.reply _ _ _ _ _

/-! ## The scheduler -/

theorem Chain.playAdmitted (s : State) (tag n p g : Byte) : Calm s (s.playAdmitted tag n p g) := by
  unfold State.playAdmitted
  dsimp only
  split
  · next e he =>
    exact ((Chain.assigned s _).trans (Chain.reply _ _ _ _ _)).trans
      (Chain.enterRequest _ _ _ (by have h := State.roomFor_spec he; cases e <;> exact h))
  · exact (Chain.assigned s _).trans (Chain.reply _ _ _ _ _)

theorem Chain.playNow (s : State) (tag n p g : Byte) : Calm s (s.playNow tag n p g) := by
  unfold State.playNow
  split
  · exact Chain.reply _ _ _ _ _
  · split
    · exact Chain.reply _ _ _ _ _
    · exact Chain.playAdmitted _ _ _ _ _

theorem Chain.listPlay (s : State) (tag n p g : Byte) (t : DateTime)
    (h : s.cal.timedPlays.length < Config.timedPlayCapacity) : Calm s (s.listPlay tag n p g t) := by
  unfold State.listPlay
  dsimp only
  refine ((Chain.assigned s _).trans (Chain.setPlays _ _ ?_)).trans (Chain.reply _ _ _ _ _)
  intro _
  simp only [State.assigned, List.length_append, List.length_cons, List.length_nil]
  omega

theorem Chain.playTimed (s : State) (tag n p g : Byte) (t : DateTime) : Calm s (s.playTimed tag n p g t) := by
  unfold State.playTimed
  split
  · exact Chain.reply _ _ _ _ _
  · split
    · exact Chain.reply _ _ _ _ _
    · split
      · exact Chain.reply _ _ _ _ _
      · split
        · exact Chain.playNow _ _ _ _ _
        · split
          · exact Chain.reply _ _ _ _ _
          · next h => exact Chain.listPlay _ _ _ _ _ _ (Nat.not_le.mp h)

theorem Chain.cancel (s : State) (tag : Byte) (id : Nat) : Calm s (s.cancel tag id) := by
  unfold State.cancel
  split
  · exact Chain.reply _ _ _ _ _
  · split
    · exact (Chain.reply _ _ _ _ _).trans (Chain.dropQueued _ _ _)
    · exact (Chain.reply _ _ _ _ _).trans (Chain.dropPlay _ _ _)
    · exact (Chain.reply _ _ _ _ _).trans (Chain.endAndWalk _ _ _)
    · exact Chain.reply _ _ _ _ _

theorem Chain.writeKey (s : State) (tag k e n p g : Byte) : Calm s (s.writeKey tag k e n p g) := by
  unfold State.writeKey
  split
  · split
    · exact (Chain.sched s _ (by rfl)).trans (Chain.reply _ _ _ _ _)
    · exact Chain.reply _ _ _ _ _
  · exact Chain.reply _ _ _ _ _

theorem Chain.setInput (s : State) (k : KeyNo) (x : KeyInput) : Calm s (s.setInput k x) := Chain.sched s _ rfl

theorem Chain.keyChange (s : State) (k : KeyNo) (l : Bool) : Calm s (s.keyChange k l) := by
  unfold State.keyChange
  dsimp only
  split
  · exact .refl s
  · exact Chain.setInput _ _ _

theorem Chain.press (s : State) (k : KeyNo) : Calm s (s.press k) := by
  unfold State.press
  dsimp only
  split
  · exact (Chain.assigned _ _).trans (Chain.enterWish _ _)
  · exact .refl s

theorem Chain.debounceKey (s : State) (k : KeyNo) : Calm s (s.debounceKey k) := by
  unfold State.debounceKey
  dsimp only
  split
  · exact (Chain.setInput s _ _).trans (Chain.press _ _)
  · exact Chain.setInput s _ _

/-! ## The strike unit -/

theorem Chain.replyEntry (s : State) (tag : Byte) (e : Entry) : Calm s (s.replyEntry tag e) := by
  cases e <;> exact Chain.reply _ _ _ _ _

@[simp] theorem State.replyEntry_strikes (s : State) (tag : Byte) (e : Entry) :
    (s.replyEntry tag e).strikes = s.strikes := by
  cases e <;> rfl

theorem Chain.strikeMessage (s : State) (tag b v : Byte) (d : Half) : Calm s (s.strikeMessage tag b v d) := by
  unfold State.strikeMessage
  split
  · exact Chain.reply _ _ _ _ _
  · split
    · exact Chain.reply _ _ _ _ _
    · next hrange =>
      split
      · exact Chain.reply _ _ _ _ _
      · next hsafe =>
        split
        · exact Chain.reply _ _ _ _ _
        · next hstop =>
          split
          · exact Chain.reply _ _ _ _ _
          · next bell _ hd =>
            split
            · exact Chain.reply _ _ _ _ _
            · next c hc =>
              have hdelay : d.toNat ≤ 60000 := by omega
              refine ((Chain.enterStrike s .link (messageStrike s.now bell v.toNat d.toNat c)
                (State.mayPlay_of_free ?_) (by simpa [messageStrike, strikeOf] using hd) (.inl rfl)
                (messageStrike_nearby _ _ _ _ (StrikeUnit.compute_flight hc).2 hdelay)).trans
                (Chain.replyEntry _ _ _)).trans (Chain.examineMerged _ _ fun k he => ?_)
              · rintro (h | h)
                · exact hstop h
                · exact hsafe h
              · rw [State.replyEntry_strikes]
                exact State.enterStrike_merged_mem s .link he

theorem Bell.enabled_isDisabled (b : Bell) : b.enabled.isDisabled = false := by
  unfold Bell.enabled Bell.isDisabled
  cases b.state <;> rfl

theorem Bell.enabled_firing (b : Bell) : b.enabled.state = .firing ↔ b.state = .firing := by
  unfold Bell.enabled Bell.isDisabled
  cases b.state <;> simp

/-- The calibration of a bell: a chain that leaves output control alone. -/
theorem Chain.writeBell (s : State) (tag b : Byte) (k : Long) (lo hi g : Half) (w m : Byte) :
    Chain true false s (s.writeBell tag b k lo hi g w m) := by
  unfold State.writeBell
  split
  · exact (Chain.reply _ _ _ _ _).widen
  · next n _ =>
    split
    · exact (Chain.reply _ _ _ _ _).widen
    · split
      · exact (Chain.reply _ _ _ _ _).widen
      · next hg =>
        refine (Move.bell s n ((s.bell n).calibrated k lo hi g w m).enabled ?_ ?_ ?_ ?_
          (.inr ⟨rfl, rfl, rfl, rfl⟩)).chain.trans (Chain.reply _ _ _ _ _).widen
        · intro h; exact (Bell.enabled_firing _).mp h
        · intro h; exact .inl ((Bell.enabled_firing _).mpr h)
        · intro h; rw [Bell.enabled_isDisabled] at h; cases h
        · show g.toNat ≤ (s.bell n).guardMs ∨ _
          by_cases hle : g.toNat ≤ (s.bell n).guardMs
          · exact .inl hle
          · refine .inr fun x hx he => hg ⟨Nat.not_le.mp hle, ?_⟩
            exact List.any_eq_true.mpr ⟨x, hx, by simp [he]⟩

theorem Chain.bellEnable (s : State) (tag b on : Byte) : Calm s (s.bellEnable tag b on) := by
  unfold State.bellEnable
  split
  · next n _ _ =>
    refine (Move.bell s n (s.bell n).enabled ?_ ?_ ?_ (.inl (Nat.le_refl _)) (.inl (.same rfl rfl rfl rfl))).chain.trans
      (Chain.reply _ _ _ _ _)
    · intro h; exact (Bell.enabled_firing _).mp h
    · intro h; exact .inl ((Bell.enabled_firing _).mpr h)
    · intro h; rw [Bell.enabled_isDisabled] at h; cases h
  · dsimp only
    split
    · exact Chain.reply _ _ _ _ _
    · exact ((Chain.reply _ _ _ _ _).trans (Chain.disableBell _ _ _)).trans (Chain.afterDisable _ _)
  · exact Chain.reply _ _ _ _ _

theorem Chain.writeCurve (s : State) (tag : Byte) (p : List Nat) : Calm s (s.writeCurve tag p) := by
  unfold State.writeCurve
  split
  · exact (Move.settings s _ s.strikes.master s.strikes.emax s.strikes.tau id).chain.trans (Chain.reply _ _ _ _ _)
  · exact Chain.reply _ _ _ _ _

theorem Chain.writeLevel (s : State) (tag : Byte) (m e t : Nat) : Calm s (s.writeLevel tag m e t) := by
  unfold State.writeLevel
  split
  · exact Chain.reply _ _ _ _ _
  · split
    · exact Chain.reply _ _ _ _ _
    · next h =>
      dsimp only
      have h1 := (Move.settings (b := true) (g := true) s s.strikes.curve m e t fun _ => Nat.not_lt.mp h).chain
      split
      · exact (h1.trans (Chain.reply _ _ _ _ _)).trans (Chain.serve _)
      · exact h1.trans (Chain.reply _ _ _ _ _)

end Sys2Proof.Machine
end

