-- ==== Sys2Proof/Laws/TraceEvents.lean ====
section
/-! SUPPORT. Chains of the strike unit's events, of the lanes' events, and of the commands of the motion unit, the
verifier and the exercise. -/
namespace Sys2Proof.Machine

/-! ## Events of the strike unit -/

theorem Bell.pulseOver_firing {b : Bell} {now : Instant} {f : InFlight} (h : b.pulseOver now = some f) :
    b.state = .firing := by
  unfold Bell.pulseOver at h
  split at h
  · assumption
  · cases h

/-- A released output is low. -/
theorem State.energised_release (s : State) (b : BellNo) :
    ({ s with strikes := s.strikes.release b } : State).energised b = false :=
  StrikeUnit.release_hammers s.strikes b

/-- A pulse ends on a FIRING bell. -/
theorem Chain.endPulse (s : State) (b : BellNo) (f : InFlight) (hs : (s.bell b).state = .firing) :
    Calm s (s.endPulse b f) := by
  unfold State.endPulse
  dsimp only
  refine (Move.release s b).chain.trans ?_
  generalize ht : ({ s with strikes := s.strikes.release b } : State) = t
  have he : t.energised b = false := by rw [← ht]; exact State.energised_release s b
  have hd : (t.bell b).state = .firing := by rw [← ht]; exact hs
  split
  · refine (Move.bell t b _ ?_ (fun _ => .inr he) ?_ (by exact .inl (Nat.le_refl _))
      (by exact .inl (.same rfl rfl rfl rfl))).chain.trans (Chain.serve _)
    · intro h; cases h
    · intro h; cases h
  · refine Chain.trans ?_ (Chain.releaseHeld _ _)
    refine Chain.trans ?_ (Chain.serve _)
    refine Chain.trans ?_ (Chain.finished _ _)
    refine (Move.bell t b _ ?_ (fun _ => .inr he) ?_ (by exact .inl (Nat.le_refl _))
      (by exact .inl (.same rfl rfl rfl rfl))).chain
    · intro h; cases h
    · intro h; cases h

theorem Chain.confirm (s : State) (b : BellNo) (f : InFlight) : Calm s (s.confirm b f) := by
  unfold State.confirm
  dsimp only
  split
  · next h => exact Chain.flightReady s b _ f h (by exact .same rfl rfl rfl rfl)
  · exact Chain.bellKept s b _ rfl (by exact .same rfl rfl rfl rfl)

theorem Chain.stray (s : State) (b : BellNo) : Calm s (s.stray b) := by
  unfold State.stray
  split
  · exact (Chain.latchBell _ _ _).trans (Chain.notice _ _)
  · exact (Chain.latchBell _ _ _).trans (Chain.notice _ _)

theorem Chain.edge (s : State) (b : BellNo) : Calm s (s.edge b) := by
  unfold State.edge
  split
  · exact Chain.confirm _ _ _
  · split
    · exact .refl s
    · exact Chain.stray _ _

theorem Chain.leaveWindow (s : State) (b : BellNo) (f : InFlight) : Calm s (s.leaveWindow b f) := by
  unfold State.leaveWindow
  dsimp only
  split
  · next h => exact Chain.flightReady s b _ f h (by exact .same rfl rfl rfl rfl)
  · exact Chain.bellKept s b _ rfl (by exact .same rfl rfl rfl rfl)

theorem Chain.missDisable (s : State) (b : BellNo) (n : Nat) : Calm s (s.missDisable b n) :=
  ((Chain.disableBell _ _ _).trans (Chain.notice _ _)).trans (Chain.afterDisable _ _)

theorem Chain.miss (s : State) (b : BellNo) (f : InFlight) : Calm s (s.miss b f) := by
  unfold State.miss
  dsimp only
  have h : Calm s (((s.setBell b { s.bell b with streak := min 7 ((s.bell b).streak + 1) }).latchBell b
      fun l => { l with miss := true }).notice
        (.bellMiss b (min 7 ((s.bell b).streak + 1)) f.owner f.due f.impact)) :=
    ((Chain.bellKept s b _ (by rfl) (by exact .same rfl rfl rfl rfl)).trans (Chain.latchBell _ _ _)).trans (Chain.notice _ _)
  split
  · exact h.trans (Chain.missDisable _ _ _)
  · exact h.trans (Chain.leaveWindow _ _ _)

theorem Chain.shadowMiss (s : State) (b : BellNo) (f : InFlight) : Calm s (s.shadowMiss b f) :=
  ((Chain.latchBell _ _ _).trans (Chain.notice _ _)).trans (Chain.leaveWindow _ _ _)

theorem Chain.deem (s : State) (b : BellNo) (f : InFlight) : Calm s (s.deem b f) := by
  unfold State.deem
  dsimp only
  split
  · next h => exact Chain.flightReady s b _ f h (by exact .same rfl rfl rfl rfl)
  · exact Chain.bellKept s b _ rfl (by exact .same rfl rfl rfl rfl)

/-! ## Commands of the motion unit -/

/-- An axis put in a mode without a command. -/
theorem Chain.setAxisFree (s : State) (a : AxisNo) (x : Axis) (hl : (s.axis a).lawful → x.lawful)
    (h : x.mode.commanded = false)
    (hb : ((s.axis a).config = none → (s.axis a).heard = none) → x.config = none → x.heard = none) :
    Calm s (s.setAxis a x) := (Move.axis s a x hl (.inl h) hb).chain

/-- The soft limits of a form are in order. -/
def AxisForm.ordered (form : AxisForm) : Prop := ∀ lower upper, form = .bounded lower upper → lower ≤ upper

theorem formOf_ordered {f : Byte} {lower upper : Int} {form : AxisForm} (h : formOf f lower upper = some form) :
    form.ordered := by
  intro lo hi he
  subst he
  unfold formOf at h
  split at h
  · cases h
  · split at h
    · split at h
      · next hb => cases h; exact Int.le_of_lt hb.2.2.1
      · cases h
    · cases h

/-- A configuration accepted by SET_AXIS has soft limits in order. -/
theorem axisConfigOf_ordered {f : Byte} {lower upper vmax : Long} {dv stop tol : Half} {c : AxisConfig}
    (h : axisConfigOf f lower upper vmax dv stop tol = some c) : c.form.ordered := by
  unfold axisConfigOf at h
  obtain ⟨form, hf, h⟩ := Option.bind_eq_some_iff.mp h
  split at h
  · cases h; exact formOf_ordered hf
  · cases h

/-- An axis configured anew is OFF, and lawful. -/
theorem Axis.configured_lawful {x : Axis} {k : AxisConfig} (h : k.form.ordered) : (x.configured k).lawful := by
  intro c hc
  have hk : c = k := (Option.some.inj hc).symm
  subst hk
  refine ⟨Nat.zero_le _, ?_, by simp [Axis.configured, Axis.softReset], by simp [Axis.configured, Axis.softReset],
    by simp [Axis.configured, Axis.softReset], by simp [Axis.configured, Axis.softReset], Nat.zero_le _⟩
  cases hform : c.form with
  | wrap => exact trivial
  | bounded lo hi =>
    refine ⟨h _ _ hform, ?_, ?_⟩
    · intro he; cases he
    · intro t d r hm; cases hm

theorem Chain.writeAxis (s : State) (tag axis : Byte) (c : Option AxisConfig) (h : ∀ k, c = some k → k.form.ordered) :
    Calm s (s.writeAxis tag axis c) := by
  unfold State.writeAxis
  split
  · next a k _ =>
    dsimp only
    split
    · exact Chain.reply _ _ _ _ _
    · exact (Chain.setAxisFree s a _ (fun _ => Axis.configured_lawful (h _ rfl)) rfl fun _ hc => by cases hc).trans (Chain.reply _ _ _ _ _)
  · exact Chain.reply _ _ _ _ _

theorem State.axisGate_passed {s : State} {axis : Byte} {a : AxisNo} {c : AxisConfig} (h : s.axisGate axis = .passed a c) :
    (s.axis a).config = some c ∧ s.claim a = none ∧ s.mode ≠ .safe := by
  unfold State.axisGate at h
  split at h
  · cases h
  · split at h
    · cases h
    · next hc =>
      split at h
      · cases h
      · next hn =>
        split at h
        · cases h
        · next hs =>
          cases h
          exact ⟨hc, by simpa using hn, hs⟩

theorem Chain.carryOut (s : State) (tag : Byte) (a : AxisNo) (m : MotionCommand) (h : ¬s.mustRest) :
    Calm s (s.carryOut tag a m) := by
  unfold State.carryOut
  split
  · split
    · next s' l b hc =>
      dsimp only
      have h1 := Chain.commandAxis hc (State.mayPlay_of_free h)
      split
      · exact (h1.trans (Chain.reply _ _ _ _ _)).trans (Chain.settle _ _)
      · exact h1.trans (Chain.reply _ _ _ _ _)
    · exact Chain.reply _ _ _ _ _
  · exact Chain.reply _ _ _ _ _

theorem Chain.motionCommand (s : State) (tag axis : Byte) (f : AxisNo → AxisConfig → Option MotionCommand) :
    Calm s (s.motionCommand tag axis f) := by
  unfold State.motionCommand
  split
  · exact Chain.reply _ _ _ _ _
  · next a c hg =>
    split
    · exact Chain.reply _ _ _ _ _
    · next hstop =>
      split
      · exact Chain.reply _ _ _ _ _
      · refine Chain.carryOut _ _ _ _ ?_
        rintro (h | h)
        · exact hstop h
        · exact (State.axisGate_passed hg).2.2 h

theorem Axis.enablePosition_limits {x : Axis} {c : AxisConfig} {m : Int} (h : x.enablePosition c = some m) :
    c.form.withinLimits m = true := by
  unfold Axis.enablePosition at h
  split at h
  · cases h
  · exact (Option.filter_eq_some_iff.mp h).2

/-- ENABLE of an axis held at a measured position within its limits keeps law 6. -/
theorem Axis.enableAt_lawful {x : Axis} {c : AxisConfig} {m : Int} (hc : x.config = some c)
    (h : x.enablePosition c = some m) (hl : x.lawful) : (x.enableAt m).lawful := by
  intro c' hc'
  have hcc : c' = c := by
    have h2 : x.config = some c' := hc'
    rw [hc] at h2
    exact (Option.some.inj h2).symm
  subst hcc
  obtain ⟨f0, f1, f2, f3, f4, f5, f6⟩ := hl _ hc
  have hlim := Axis.enablePosition_limits h
  refine ⟨Nat.zero_le _, ?_, by simp [Axis.enableAt], by simp [Axis.enableAt], by simp [Axis.enableAt],
    by simp [Axis.enableAt], f6⟩
  · cases hform : c'.form with
    | wrap => exact trivial
    | bounded lo hi =>
      rw [hform] at f1 hlim
      simp only [AxisForm.withinLimits, Bool.and_eq_true, decide_eq_true_eq] at hlim
      refine ⟨f1.1, fun _ => ⟨m, rfl, hlim.1, hlim.2⟩, ?_⟩
      intro t d r hm; cases hm

theorem Chain.enableAxis (s : State) (tag axis : Byte) : Calm s (s.enableAxis tag axis) := by
  unfold State.enableAxis
  split
  · exact Chain.reply _ _ _ _ _
  · next a c hg =>
    dsimp only
    split
    · exact Chain.reply _ _ _ _ _
    · split
      · exact Chain.reply _ _ _ _ _
      · next m hm =>
        refine ((Chain.setAxisFree s a _ (Axis.enableAt_lawful (State.axisGate_passed hg).1 hm) rfl (bus_of_eq ⟨rfl, rfl⟩)).trans
          (Chain.reviewScan _)).trans (Chain.reply _ _ _ _ _)
    · exact Chain.reply _ _ _ _ _

theorem Chain.disableAxis (s : State) (tag axis : Byte) : Calm s (s.disableAxis tag axis) := by
  unfold State.disableAxis
  split
  · exact Chain.reply _ _ _ _ _
  · exact (Chain.reply _ _ _ _ _).trans (Chain.putOff _ _)

theorem Chain.clearAxis (s : State) (tag axis : Byte) : Calm s (s.clearAxis tag axis) := by
  unfold State.clearAxis
  split
  · exact Chain.reply _ _ _ _ _
  · split
    · exact (Chain.reply _ _ _ _ _).trans (Chain.putOff _ _)
    · exact Chain.reply _ _ _ _ _

theorem Chain.takeBytes (s : State) (b : List Byte) : Calm s (s.takeBytes b) := by
  unfold State.takeBytes
  split
  · split
    · exact Chain.takeReply _ _ _
    · exact .refl s
  · exact .refl s

theorem Chain.decodeBus (s : State) (b : List Byte) : Calm s (s.decodeBus b) := by
  unfold State.decodeBus
  split
  · split
    · split
      · split
        · next hh =>
          refine Chain.axisKept _ _ _ (fun h => Axis.lawful_of_eq h rfl rfl rfl rfl rfl rfl (.inr rfl)) rfl
            fun _ hn => ?_
          have hn : (s.axis _).config = none := hn
          simp [Axis.hears, hn] at hh
        · exact .refl s
      · exact .refl s
    · exact .refl s
  · exact .refl s

/-! ## The verifier and the exercise -/

theorem Chain.setVerify (s : State) (tag on : Byte) : Calm s (s.setVerify tag on) := by
  unfold State.setVerify
  split
  · exact Chain.reply _ _ _ _ _
  · dsimp only
    split
    · exact Chain.reply _ _ _ _ _
    · split
      · exact ((Chain.reply _ _ _ _ _).trans (Chain.verifier _ _)).trans (Chain.chooseDwell _)
      · exact (Chain.reply _ _ _ _ _).trans (Chain.verifier _ _)

theorem exerciseOver_of_idle {s : State} (h : ¬s.exercising.isSome = true) : exerciseOver s.exercise := by
  unfold State.exercising at h
  unfold exerciseOver
  split
  · next e he =>
    rw [he] at h
    dsimp only at h
    split at h
    · assumption
    · simp at h
  · trivial

theorem Chain.beginExercise (s : State) (tag : Byte) (e : Exercise) (h : ¬s.mustRest) (ho : exerciseOver s.exercise)
    (hp : e.phase ≠ .done) : Calm s (s.beginExercise tag e) := by
  unfold State.beginExercise
  have h1 : Calm s (({ s with exercise := some e }.setClaim e.axis (some .exercise)).reply tag 0x33 .ok e.replyBytes) :=
    (Move.exercise s (some e) (tset s.sched.claims e.axis (some .exercise)) (.inr (State.mayPlay_of_free h))
      (KeepsClaims.begin ho rfl hp (fun a => tget_tset _ _ _ _) rfl)).chain.trans (Chain.reply _ _ _ _ _)
  exact h1.trans (Chain.exerciseMove _ _ _ (State.mayPlay_of_free fun hm => h (h1.mustRest_iff.mp hm)))

theorem Chain.exerciseFree (s : State) (tag : Byte) (a : AxisNo) (c : AxisConfig) : Calm s (s.exerciseFree tag a c) := by
  unfold State.exerciseFree
  dsimp only
  split
  · exact Chain.reply _ _ _ _ _
  · next hm =>
    split
    · exact Chain.reply _ _ _ _ _
    · next hs =>
      split
      · exact Chain.reply _ _ _ _ _
      · next he =>
        split
        · exact Chain.reply _ _ _ _ _
        · split
          · exact Chain.reply _ _ _ _ _
          · refine Chain.beginExercise _ _ _ ?_ (exerciseOver_of_idle he) (by simp [Exercise.opened])
            rintro (h | h)
            · exact hs h
            · rw [h] at hm; simp at hm

theorem Chain.startExercise (s : State) (tag axis : Byte) : Calm s (s.startExercise tag axis) := by
  unfold State.startExercise
  split
  · exact Chain.reply _ _ _ _ _
  · split
    · exact Chain.reply _ _ _ _ _
    · split
      · exact Chain.reply _ _ _ _ _
      · exact Chain.exerciseFree _ _ _ _

theorem Chain.hostAbort (s : State) (tag : Byte) : Calm s (s.hostAbort tag) := by
  unfold State.hostAbort
  split
  · exact Chain.reply _ _ _ _ _
  · exact ((Chain.reply _ _ _ _ _).trans (Chain.stopAxis _ _ _)).trans (Chain.abortExercise _ _)

end Sys2Proof.Machine
end

