-- ==== Sys2Proof/Laws/TraceOutput.lean ====
section
/-! SUPPORT. Chains of output control and of the resets, and what the tower is like when it has been stopped. -/
namespace Sys2Proof.Machine

/-! ## Output control's own moves -/

/-- The mode is set, and in LISTEN the frame being driven is cut off (R138). -/
theorem Chain.setOutputMode (s : State) (m : OutputMode) : Trace s (s.setOutputMode m) := by
  refine (Move.output s { s.output with mode := m } (if m = .listen then none else s.motion.line) rfl ?_).chain
  intro _ hm
  exact if_pos hm

/-- Output control is written with its mode as it was. -/
theorem Chain.output (s : State) (o : OutputControl) (h : o.mode = s.output.mode) : Trace s { s with output := o } :=
  (Move.output s o s.motion.line rfl fun hl hm => hl (h.symm.trans hm)).chain

theorem Chain.setOpen (s : State) (b : Bool) : Trace s (s.setOpen b) := Chain.output s _ rfl

theorem Chain.atriumChange (s : State) (l : Bool) : Trace s (s.atriumChange l) := by
  unfold State.atriumChange
  split
  · exact .refl s
  · exact Chain.output s _ rfl

/-! ## Stopping -/

theorem Chain.endRuns (s : State) (o : RunOutcome) : Calm s (s.endRuns o) := Chain.foldl _ _ (fun s n => Chain.endRun s n o) s

theorem Chain.hammerStop (s : State) : Calm s { s with strikes := s.strikes.hammerStop } := (Move.hammerStop s).chain

theorem Chain.hammerStopClear (s : State) : Calm s { s with strikes := { s.strikes.hammerStop with queue := [] } } :=
  (Chain.drop s [] (List.nil_sublist _)).trans (Chain.hammerStop (s.setQueue []))

theorem Axis.putOff_commanded (x : Axis) : x.putOff.mode.commanded = false := rfl

/-- OFF leaves an axis its configuration and its reply heard. -/
theorem Axis.putOffIf_bus (x : Axis) (b : Bool) :
    (if b then x.putOff else x).config = x.config ∧ (if b then x.putOff else x).heard = x.heard := by
  cases b <;> exact ⟨rfl, rfl⟩

theorem Chain.allOff (s : State) (p : AxisMode → Bool) : Calm s (s.allOff p) := by
  unfold State.allOff
  dsimp only
  have h : Calm s { s with motion := { s.motion with
      axes := Vector.ofFn fun a => if p (s.axis a).mode then (s.axis a).putOff else s.axis a } } := by
    refine (Move.motion s { s.motion with
      axes := Vector.ofFn fun a => if p (s.axis a).mode then (s.axis a).putOff else s.axis a } ?_ ?_ ?_).chain
    · intro a hl
      dsimp only
      rw [tget_ofFn]
      split
      · exact Axis.putOff_lawful hl
      · exact hl
    · intro a hc
      dsimp only at hc
      rw [tget_ofFn] at hc
      split at hc
      · cases hc
      · exact hc
    · refine fun hb => ⟨fun a hn => ?_, hb.2⟩
      have hx := tget_ofFn (fun a => if p (s.axis a).mode then (s.axis a).putOff else s.axis a) a
      have h := Axis.putOffIf_bus (s.axis a) (p (s.axis a).mode)
      exact bus_of_eq ⟨(congrArg Axis.config hx).trans h.1, (congrArg Axis.heard hx).trans h.2⟩ (hb.1 a) hn
  split
  · split
    · exact h.trans (Chain.skipDwell _ _)
    · exact h
  · exact h

theorem Chain.fastStop (s : State) : Calm s s.fastStop := Chain.foldl _ _ (fun s a => Chain.stopAxis s a _) s

theorem Chain.clearTower (s : State) : Calm s s.clearTower := by
  unfold State.clearTower
  split
  · exact ((Chain.nextChoice s).trans (Chain.removeInhibited _)).trans (Chain.endRuns _ _)
  · exact ((Chain.nextChoice s).trans (Chain.endRuns _ _)).trans (Chain.removeInhibited _)

theorem Chain.stopTower (s : State) : Calm s s.stopTower := by
  unfold State.stopTower
  dsimp only
  have h := (Chain.clearTower s).trans (Chain.hammerStop s.clearTower)
  exact (h.trans (Chain.fastStop _)).trans (Chain.abortExercise _ _)

/-! ## The commands -/

theorem Chain.toSafe (s : State) : Trace s s.toSafe :=
  ((Chain.setOutputMode s .safe).trans
    (((Chain.endRuns _ _).trans (Chain.hammerStopClear _)).trans
      (((Chain.allOff _ _).trans (Chain.abortExercise _ _)).trans (Chain.walk _))).loosen)

theorem Chain.betweenRunning (s : State) (m : OutputMode) : Trace s (s.betweenRunning m) :=
  ((Chain.allOff s _).loosen.trans (Chain.setOutputMode _ m)).trans (Chain.walk _).loosen

theorem Chain.changeMode (s : State) (tag : Byte) (m : OutputMode) : Trace s (s.changeMode tag m) := by
  unfold State.changeMode
  split
  · exact (Chain.reply _ _ _ _ _).loosen
  · split
    · exact (Chain.reply _ _ _ _ _).loosen.trans (Chain.toSafe _)
    · split
      · exact ((Chain.reply _ _ _ _ _).loosen.trans (Chain.setOutputMode _ _)).trans (Chain.walk _).loosen
      · split
        · exact (Chain.reply _ _ _ _ _).loosen
        · exact (Chain.reply _ _ _ _ _).loosen.trans (Chain.betweenRunning _ _)

theorem Chain.askMode (s : State) (tag m : Byte) : Trace s (s.askMode tag m) := by
  unfold State.askMode
  split
  · exact (Chain.reply _ _ _ _ _).loosen
  · exact Chain.changeMode _ _ _

theorem Chain.openInterlock (s : State) : Trace s s.openInterlock := by
  unfold State.openInterlock
  dsimp only
  refine Chain.trans ?_ ((Chain.notice _ _).trans (Chain.walk _)).loosen
  have h := (Chain.setOpen s true).trans (Chain.latch _ fun l => { l with interlock := true }).loosen
  split
  · exact h.trans (Chain.stopTower _).loosen
  · exact h

theorem Chain.closeInterlock (s : State) : Trace s s.closeInterlock :=
  (Chain.setOpen s false).trans ((Chain.notice _ _).trans (Chain.walk _)).loosen

/-! ## The soft reset -/

theorem StrikeUnit.softReset_eq (u : StrikeUnit) :
    u.softReset = { u.hammerStop with
      queue := [], bells := Vector.ofFn fun n => { tget u.hammerStop.bells n with streak := 0 } } := by
  unfold StrikeUnit.softReset StrikeUnit.hammerStop Bell.softReset
  simp

theorem Chain.strikesSoftReset (s : State) : Trace s { s with strikes := s.strikes.softReset } := by
  rw [StrikeUnit.softReset_eq]
  exact ((Chain.drop s [] (List.nil_sublist _)).loosen.trans (Move.hammerStop _).chain).trans (Move.streaks _).chain

theorem Chain.motionSoftReset (s : State) : Trace s { s with motion := s.motion.softReset } := by
  refine (Move.motion s s.motion.softReset ?_ ?_ ?_).chain
  · intro a hl
    simp only [Motion.softReset, tget_ofFn]
    exact Axis.softReset_lawful hl
  · intro a hc
    simp only [Motion.softReset, tget_ofFn] at hc
    cases hc
  · refine fun hb => ⟨fun a hn => bus_of_eq ?_ (hb.1 a) hn, hb.2⟩
    simp only [State.axis, Motion.softReset, tget_ofFn]
    exact ⟨rfl, rfl⟩

/-- Blocks set to values that hold nothing that waits or plays, where no strike is queued: the exercise goes with the
claims, and the lanes after them. -/
theorem Chain.emptied (s : State) (c : Calendar) (st : Store) (sc : Scheduler) (l : Vector Lane 4) (v : Verifier)
    (o : OutputControl) (p : Port) (hq : s.strikes.queue = []) (hc : c.timedPlays = [] ∧ c.time = s.cal.time)
    (hst : s.store.lawful → st.lawful) (hk : KeepsCursors s { s with store := st }) (hsc : sc.queue = [])
    (hcl : ∀ a, tget sc.claims a = none) (hl : ∀ n, (tget l n).run = none) (ho : o.mode ≠ .listen) (hr : p.rx = [])
    (ht : p.tx = []) :
    Trace s { s with
      cal := c, store := st, sched := sc, lanes := l, verifier := v, exercise := none, output := o, port := p } := by
  have h1 := (Move.store (b := false) (g := true) s st hst hk).chain
  have h2 := h1.trans (Move.cal _ c (fun _ => by rw [hc.1]; exact Nat.zero_le _) fun h => by
    rw [hc.2]; exact h).chain
  have h3 := h2.trans (Move.exercise _ none sc.claims (.inl trivial) (KeepsClaims.none hcl rfl)).chain
  have h4 := h3.trans (Move.sched _ sc (fun _ => by rw [hsc]; exact Nat.zero_le _) (fun _ =>
    Scheduler.ordered_empty hsc) (KeepsClaims.of_eq rfl rfl rfl)).chain
  have h5 := h4.trans (Move.lanes _ l (fun n _ => hl n) (by exact KeepsRuns.allIdle hl hq hcl)).chain
  have h6 := h5.trans (Move.verifier _ v).chain
  have h7 := h6.trans (Move.output _ o s.motion.line rfl fun _ hm => absurd hm ho).chain
  exact h7.trans (Move.port _ p (fun _ => by rw [hr]; exact Nat.zero_le _) fun _ => by
    rw [ht]; exact Nat.zero_le _).chain

theorem Chain.softReset (s : State) : Trace s s.softReset := by
  unfold State.softReset
  dsimp only
  refine Chain.trans ?_ (Chain.latch _ _).loosen
  unfold State.softResetBlocks
  have h := (Chain.strikesSoftReset s).trans (Chain.motionSoftReset { s with strikes := s.strikes.softReset })
  refine h.trans (Chain.emptied { s with strikes := s.strikes.softReset, motion := s.motion.softReset }
    { s.cal with timedPlays := [] } s.store.softReset s.sched.softReset (Vector.replicate 4 ⟨none, none⟩)
    s.verifier.softReset { s.output with mode := .safe } s.port.softReset rfl ⟨rfl, rfl⟩
    (fun h => Store.lawful_softReset h) (KeepsCursors.softReset _) (by simp only [Scheduler.softReset])
    (fun a => by simp only [Scheduler.softReset, tget_replicate]) (fun n => by rw [tget_replicate])
    (by simp) rfl rfl)

end Sys2Proof.Machine
end

