-- ==== Sys2Proof/Laws/TraceExec.lean ====
section
/-! SUPPORT. What each command, each thing the block does by itself, and a step may do: a chain of moves, or a hard reset. -/
namespace Sys2Proof.Machine

theorem Chain.queryLane (s : State) (tag lane : Byte) : Calm s (s.queryLane tag lane) := by
  unfold State.queryLane
  split <;> exact Chain.reply _ _ _ _ _

theorem Chain.queryBell (s : State) (tag bell : Byte) : Calm s (s.queryBell tag bell) := by
  unfold State.queryBell
  split <;> exact Chain.reply _ _ _ _ _

theorem Chain.queryAxis (s : State) (tag axis : Byte) : Calm s (s.queryAxis tag axis) := by
  unfold State.queryAxis
  split <;> exact Chain.reply _ _ _ _ _

theorem Chain.queryCalendar (s : State) (tag : Byte) (a b : Nat) : Calm s (s.queryCalendar tag a b) := by
  unfold State.queryCalendar
  split <;> exact Chain.reply _ _ _ _ _

theorem State.deadlineDue_run {s : State} {n : LaneNo} {r : Run} (h : s.deadlineDue n = some r) :
    (s.lane n).run = some r ∧ ∃ set deadline, r.phase = .waiting set deadline := by
  unfold State.deadlineDue at h
  split at h
  · next x hr =>
    split at h
    · next hp =>
      split at h
      · cases h
        exact ⟨hr, _, _, hp⟩
      · cases h
    · cases h
  · cases h

theorem Bell.guardOver_spec {b : Bell} {now : Instant} (h : b.guardOver now = true) (g : Instant)
    (hg : b.guardInstant = some g) : before now g = false := by
  unfold Bell.guardOver at h
  rw [hg] at h
  simpa [reached] using (Bool.and_eq_true_iff.mp h).2

/-- The commands that leave output control alone. -/
def leavesOutput : Instr → Bool
  | .setMode .. => false
  | .softReset => false
  | .hardReset .. => false
  | .atriumDebounceChange => false
  | .atriumClearChange .. => false
  | _ => true

/-- The command that calibrates a bell. -/
def calibrates : Instr → Bool
  | .setBell .. => true
  | _ => false

/-- A command that leaves output control alone is a chain of moves that do; it calibrates no bell but by SET_BELL. -/
theorem exec_calm {c : Instr} {s t : State} (hc : leavesOutput c = true) (h : exec c s = .next t) :
    Chain true (!calibrates c) s t := by
  cases c
  case ping =>
    simp only [exec, execPing, Host.Outcome.next.injEq] at h
    subst h
    exact Chain.takeRequest (fun s => (Chain.reply s _ _ _ _).trans (Chain.setReported _)) s
  case reset =>
    simp only [exec, execReset, Host.Outcome.next.injEq] at h
    subst h
    exact Chain.takeRequest (fun s => Chain.askReset s _) s
  case status =>
    simp only [exec, execStatus, Host.Outcome.next.injEq] at h
    subst h
    exact Chain.takeRequest (fun s => (Chain.clearLatches s).trans (Chain.reply _ _ _ _ _)) s
  case noticeMask =>
    simp only [exec, execNoticeMask, Host.Outcome.next.injEq] at h
    subst h
    exact Chain.takeRequest (fun s => Chain.writeMask s _ _) s
  case queryLane =>
    simp only [exec, execQueryLane, Host.Outcome.next.injEq] at h
    subst h
    exact Chain.takeRequest (fun s => Chain.queryLane s _ _) s
  case queryQueue =>
    simp only [exec, execQueryQueue, Host.Outcome.next.injEq] at h
    subst h
    exact Chain.takeRequest (fun s => Chain.reply s _ _ _ _) s
  case queryBell =>
    simp only [exec, execQueryBell, Host.Outcome.next.injEq] at h
    subst h
    exact Chain.takeRequest (fun s => Chain.queryBell s _ _) s
  case queryAxis =>
    simp only [exec, execQueryAxis, Host.Outcome.next.injEq] at h
    subst h
    exact Chain.takeRequest (fun s => Chain.queryAxis s _ _) s
  case queryCalendar =>
    simp only [exec, execQueryCalendar, Host.Outcome.next.injEq] at h
    subst h
    exact Chain.takeRequest (fun s => Chain.queryCalendar s _ _ _) s
  case queryExercise =>
    simp only [exec, execQueryExercise, Host.Outcome.next.injEq] at h
    subst h
    exact Chain.takeRequest (fun s => Chain.reply s _ _ _ _) s
  case requestBadKind =>
    simp only [exec, execRequestBadKind, Host.Outcome.next.injEq] at h
    subst h
    exact Chain.takeRequest (fun s => Chain.reply s _ _ _ _) s
  case setTime =>
    simp only [exec, execSetTime, Host.Outcome.next.injEq] at h
    subst h
    exact Chain.takeRequest (fun s => Chain.setTime s _ _ _ (Nat.zero_le _)) s
  case getTime =>
    simp only [exec, execGetTime, Host.Outcome.next.injEq] at h
    subst h
    exact Chain.takeRequest (fun s => Chain.reply s _ _ _ _) s
  case setProgramme =>
    simp only [exec, execSetProgramme, Host.Outcome.next.injEq] at h
    subst h
    exact Chain.takeRequest (fun s => Chain.writeProgramme s _ _ _) s
  case setSeason =>
    simp only [exec, execSetSeason, Host.Outcome.next.injEq] at h
    subst h
    exact Chain.takeRequest (fun s => Chain.writeSeason s _ _ _ _) s
  case clearSeason =>
    simp only [exec, execClearSeason, Host.Outcome.next.injEq] at h
    subst h
    exact Chain.takeRequest (fun s => Chain.clearSeason s _ _) s
  case setTrigger =>
    simp only [exec, execSetTrigger, Host.Outcome.next.injEq] at h
    subst h
    exact Chain.takeRequest (fun s => Chain.writeTrigger s _ _ _ _ _ _ _ _ _) s
  case clearTrigger =>
    simp only [exec, execClearTrigger, Host.Outcome.next.injEq] at h
    subst h
    exact Chain.takeRequest (fun s => Chain.clearTrigger s _ _) s
  case showOpen =>
    simp only [exec, execShowOpen, Host.Outcome.next.injEq] at h
    subst h
    exact Chain.takeReady s fun hr => Chain.showOpen s _ _ _ _ _ _ (State.takes_compaction hr)
  case showData =>
    simp only [exec, execShowData, Host.Outcome.next.injEq] at h
    subst h
    exact Chain.takeRequest (fun s => Chain.showData s _ _ _ _) s
  case showClose =>
    simp only [exec, execShowClose, Host.Outcome.next.injEq] at h
    subst h
    exact Chain.takeRequest (fun s => Chain.showClose s _ _) s
  case showErase =>
    simp only [exec, execShowErase, Host.Outcome.next.injEq] at h
    subst h
    exact Chain.takeRequest (fun s => Chain.showErase s _ _) s
  case storeCompact =>
    simp only [exec, execStoreCompact, Host.Outcome.next.injEq] at h
    subst h
    exact Chain.takeRequest (fun s => Chain.storeCompact s _) s
  case storeList =>
    simp only [exec, execStoreList, Host.Outcome.next.injEq] at h
    subst h
    exact Chain.takeRequest (fun s => Chain.storeList s _ _) s
  case play =>
    simp only [exec, execPlay, Host.Outcome.next.injEq] at h
    subst h
    exact Chain.takeRequest (fun s => Chain.playNow s _ _ _ _) s
  case playTimed =>
    simp only [exec, execPlayTimed, Host.Outcome.next.injEq] at h
    subst h
    exact Chain.takeRequest (fun s => Chain.playTimed s _ _ _ _ _) s
  case cancel =>
    simp only [exec, execCancel, Host.Outcome.next.injEq] at h
    subst h
    exact Chain.takeRequest (fun s => Chain.cancel s _ _) s
  case setFlags =>
    simp only [exec, execSetFlags, Host.Outcome.next.injEq] at h
    subst h
    exact Chain.takeRequest (fun s => (Chain.sched s _ (by rfl)).trans (Chain.reply _ _ _ _ _)) s
  case setKey =>
    simp only [exec, execSetKey, Host.Outcome.next.injEq] at h
    subst h
    exact Chain.takeRequest (fun s => Chain.writeKey s _ _ _ _ _ _) s
  case strike =>
    simp only [exec, execStrike, Host.Outcome.next.injEq] at h
    subst h
    exact Chain.takeRequest (fun s => Chain.strikeMessage s _ _ _ _) s
  case setBell =>
    simp only [exec, execSetBell, Host.Outcome.next.injEq] at h
    subst h
    exact Chain.takeRequest (fun s => Chain.writeBell s _ _ _ _ _ _ _ _) s
  case bellEnable =>
    simp only [exec, execBellEnable, Host.Outcome.next.injEq] at h
    subst h
    exact Chain.takeRequest (fun s => Chain.bellEnable s _ _ _) s
  case setCurve =>
    simp only [exec, execSetCurve, Host.Outcome.next.injEq] at h
    subst h
    exact Chain.takeRequest (fun s => Chain.writeCurve s _ _) s
  case setLevel =>
    simp only [exec, execSetLevel, Host.Outcome.next.injEq] at h
    subst h
    exact Chain.takeRequest (fun s => Chain.writeLevel s _ _ _ _) s
  case setAxis =>
    simp only [exec, execSetAxis, Host.Outcome.next.injEq] at h
    subst h
    exact Chain.takeRequest (fun s => Chain.writeAxis s _ _ _ fun _ hk => axisConfigOf_ordered hk) s
  case axisCmdMove =>
    simp only [exec, execAxisCmdMove, Host.Outcome.next.injEq] at h
    subst h
    exact Chain.takeRequest (fun s => Chain.motionCommand s _ _ _) s
  case axisCmdSpin =>
    simp only [exec, execAxisCmdSpin, Host.Outcome.next.injEq] at h
    subst h
    exact Chain.takeRequest (fun s => Chain.motionCommand s _ _ _) s
  case axisCmdStop =>
    simp only [exec, execAxisCmdStop, Host.Outcome.next.injEq] at h
    subst h
    exact Chain.takeRequest (fun s => Chain.motionCommand s _ _ _) s
  case axisCmdFollow =>
    simp only [exec, execAxisCmdFollow, Host.Outcome.next.injEq] at h
    subst h
    exact Chain.takeRequest (fun s => Chain.motionCommand s _ _ _) s
  case axisCmdEnable =>
    simp only [exec, execAxisCmdEnable, Host.Outcome.next.injEq] at h
    subst h
    exact Chain.takeRequest (fun s => Chain.enableAxis s _ _) s
  case axisCmdDisable =>
    simp only [exec, execAxisCmdDisable, Host.Outcome.next.injEq] at h
    subst h
    exact Chain.takeRequest (fun s => Chain.disableAxis s _ _) s
  case axisCmdClear =>
    simp only [exec, execAxisCmdClear, Host.Outcome.next.injEq] at h
    subst h
    exact Chain.takeRequest (fun s => Chain.clearAxis s _ _) s
  case setVerify =>
    simp only [exec, execSetVerify, Host.Outcome.next.injEq] at h
    subst h
    exact Chain.takeRequest (fun s => Chain.setVerify s _ _) s
  case exercise =>
    simp only [exec, execExercise, Host.Outcome.next.injEq] at h
    subst h
    exact Chain.takeRequest (fun s => Chain.startExercise s _ _) s
  case exerciseAbort =>
    simp only [exec, execExerciseAbort, Host.Outcome.next.injEq] at h
    subst h
    exact Chain.takeRequest (fun s => Chain.hostAbort s _) s
  case setMode => cases hc
  case frameComplete =>
    simp only [exec, execFrameComplete, Host.Outcome.next.injEq] at h
    subst h
    exact Chain.completeFrame s
  case frameGapTimeout =>
    simp only [exec, execFrameGapTimeout, Host.Outcome.next.injEq] at h
    subst h
    exact Chain.passGap s
  case frameByteError =>
    simp only [exec, execFrameByteError, Host.Outcome.next.injEq] at h
    subst h
    exact (Chain.completeFrame s).trans (Chain.byteError _)
  case transmitFrameSent =>
    simp only [exec, execTransmitFrameSent, Host.Outcome.next.injEq] at h
    subst h
    split
    · exact Chain.frameSent s
    · exact .refl s
  case softReset => cases hc
  case hardReset => cases hc
  case compactionEnd =>
    simp only [exec, execCompactionEnd, Host.Outcome.next.injEq] at h
    subst h
    split
    · rename_i c hc
      have hc := Option.eq_some_of_filter_eq_some hc
      exact Chain.endCompaction _ _ (fun hl => Store.lawful_none_opened hl hc) fun hs => hs.2.2 (by simp [hc])
    · exact .refl s
  case minuteBoundary =>
    simp only [exec, execMinuteBoundary, Host.Outcome.next.injEq] at h
    subst h
    split
    · exact Chain.carry s
    · exact .refl s
  case timedPlayRelease =>
    simp only [exec, execTimedPlayRelease, Host.Outcome.next.injEq] at h
    subst h
    split
    · exact Chain.carry s
    · exact .refl s
  case ppsEdge =>
    simp only [exec, execPpsEdge, Host.Outcome.next.injEq] at h
    subst h
    split
    · exact (Chain.alignTime s).trans (Chain.lockPps _)
    · exact .refl s
  case ppsLossDeadline =>
    simp only [exec, execPpsLossDeadline, Host.Outcome.next.injEq] at h
    subst h
    split
    · exact Chain.losePps s
    · exact .refl s
  case keyPress =>
    simp only [exec, execKeyPress, Host.Outcome.next.injEq] at h
    subst h
    split
    · exact Chain.debounceKey s _
    · exact .refl s
  case requestExpiry =>
    simp only [exec, execRequestExpiry, Host.Outcome.next.injEq] at h
    subst h
    split
    · split
      · exact Chain.dropQueued _ _ _
      · exact .refl s
    · exact .refl s
  case laneTimerExpiry =>
    simp only [exec, execLaneTimerExpiry, Host.Outcome.next.injEq] at h
    subst h
    split
    · exact Chain.runSteps s _
    · exact .refl s
  case waitDeadlineExpiry =>
    simp only [exec, execWaitDeadlineExpiry, Host.Outcome.next.injEq] at h
    subst h
    split
    · next r hr =>
      obtain ⟨hn, set, deadline, hp⟩ := State.deadlineDue_run hr
      exact Chain.endWait _ _ _ _ (by simp [hn]) (fun hc => Run.inside_congr (hc.2.1 _ r hn (by rw [hp]; simp)) rfl rfl rfl rfl
        rfl fun _ _ hx => ⟨_, _, hx⟩) hp
    · exact .refl s
  case runLimitExpiry =>
    simp only [exec, execRunLimitExpiry, Host.Outcome.next.injEq] at h
    subst h
    split
    · exact Chain.endAndWalk s _ _
    · exact .refl s
  case fireInstantArrival =>
    simp only [exec, execFireInstantArrival, Host.Outcome.next.injEq] at h
    subst h
    split
    · next k hk => exact Chain.examine s k (List.mem_of_find?_eq_some hk)
    · exact .refl s
  case heldGuardWaitExpiry =>
    simp only [exec, execHeldGuardWaitExpiry, Host.Outcome.next.injEq] at h
    subst h
    split
    · next k hk => exact Chain.examine s k (List.mem_of_find?_eq_some hk)
    · exact .refl s
  case guardInstantExpiry =>
    simp only [exec, execGuardInstantExpiry, Host.Outcome.next.injEq] at h
    subst h
    split
    · next hg => exact Chain.bellKept s _ _ rfl (by exact .inr (.inl ⟨rfl, rfl, rfl, rfl, Bell.guardOver_spec hg⟩))
    · exact .refl s
  case pulseEnd =>
    simp only [exec, execPulseEnd, Host.Outcome.next.injEq] at h
    subst h
    split
    · next f hf => exact Chain.endPulse s _ f (Bell.pulseOver_firing hf)
    · exact .refl s
  case senseEdge =>
    simp only [exec, execSenseEdge, Host.Outcome.next.injEq] at h
    subst h
    split
    · exact .refl s
    · exact Chain.edge s _
  case impactWindowEnd =>
    simp only [exec, execImpactWindowEnd, Host.Outcome.next.injEq] at h
    subst h
    split
    · split
      · exact Chain.miss s _ _
      · exact Chain.shadowMiss s _ _
    · exact .refl s
  case confirmedWindowEndPasses =>
    simp only [exec, execConfirmedWindowEndPasses, Host.Outcome.next.injEq] at h
    subst h
    split
    · exact Chain.bellKept s _ _ rfl (by exact .same rfl rfl rfl rfl)
    · exact .refl s
  case deemedImpact =>
    simp only [exec, execDeemedImpact, Host.Outcome.next.injEq] at h
    subst h
    split
    · exact Chain.deem s _ _
    · exact .refl s
  case axisUpdate =>
    simp only [exec, execAxisUpdate, Host.Outcome.next.injEq] at h
    subst h
    split
    · exact Chain.update s _
    · exact .refl s
  case axisReply =>
    simp only [exec, execAxisReply, Host.Outcome.next.injEq] at h
    subst h
    exact Chain.takeBytes s _
  case axisReplyTimeout =>
    simp only [exec, execAxisReplyTimeout, Host.Outcome.next.injEq] at h
    subst h
    split
    · exact Chain.takeReply s _ _
    · exact .refl s
  case axisBusDecode =>
    simp only [exec, execAxisBusDecode, Host.Outcome.next.injEq] at h
    subst h
    exact Chain.decodeBus s _
  case atriumDebounceChange => cases hc
  case receivedByte =>
    simp only [exec, execReceivedByte, Host.Outcome.next.injEq] at h
    subst h
    exact ((Chain.completeFrame s).trans (Chain.passGap _)).trans (Chain.receive _ _)
  case atriumClearChange => cases hc
  case keyInputChange =>
    simp only [exec, execKeyInputChange, Host.Outcome.next.injEq] at h
    subst h
    exact Chain.keyChange s _ _

/-- Every command answers a next state. -/
theorem exec_next (c : Instr) (s : State) : ∃ t, exec c s = .next t := by
  cases c <;> exact ⟨_, rfl⟩

/-- A request at the port is a chain where what it does when taken is one. -/
theorem Chain.takeRequestTrace {c : Instr} {taken : State → State} (h : ∀ s, Trace s (taken s)) (s : State) :
    Trace s (Machine.takeRequest c taken s) := by
  unfold Machine.takeRequest
  split
  · exact h s
  · split
    · exact (Chain.offer s _).loosen
    · exact .refl s

/-- A command is a chain, which calibrates no bell but by SET_BELL; or it is a hard reset. -/
theorem exec_trace {c : Instr} {s t : State} (h : exec c s = .next t) :
    Chain false (!calibrates c) s t ∨ ∃ cause baud, c = .hardReset cause baud ∧ resetActs cause = true
      ∧ t = s.hardReset baud := by
  by_cases hc : leavesOutput c = true
  · exact .inl ((exec_calm hc h).weaken (fun _ => rfl) id)
  · cases c
    case setMode =>
      simp only [exec, execSetMode, Host.Outcome.next.injEq] at h
      subst h
      exact .inl (Chain.takeRequestTrace (fun s => Chain.askMode s _ _) s)
    case softReset =>
      simp only [exec, execSoftReset, Host.Outcome.next.injEq] at h
      subst h
      exact .inl (Chain.softReset s)
    case hardReset cause baud =>
      simp only [exec, execHardReset, Host.Outcome.next.injEq] at h
      subst h
      split
      · next ha => exact .inr ⟨cause, baud, rfl, ha, rfl⟩
      · exact .inl (.refl s)
    case atriumDebounceChange =>
      simp only [exec, execAtriumDebounceChange, Host.Outcome.next.injEq] at h
      subst h
      left
      split
      · split
        · exact Chain.closeInterlock s
        · exact Chain.openInterlock s
      · exact .refl s
    case atriumClearChange =>
      simp only [exec, execAtriumClearChange, Host.Outcome.next.injEq] at h
      subst h
      exact .inl (Chain.atriumChange s _)
    all_goals exact absurd rfl hc

/-! ## What the block does by itself -/

theorem Axis.slotOpened_lawful {x : Axis} (h : x.lawful) : ({ x with slotTaken := false } : Axis).lawful :=
  Axis.lawful_of_eq h rfl rfl rfl rfl rfl rfl (.inr rfl)

theorem Motion.tick_axes (m : Motion) (b : Bool) (now : Instant) (a : AxisNo) :
    tget (m.tick b now).axes a = if b then { tget m.axes a with slotTaken := false } else tget m.axes a := by
  unfold Motion.tick
  cases b
  · rfl
  · exact tget_ofFn _ _

theorem Chain.motionTick (s : State) (b : Bool) (now : Instant) : Calm s { s with motion := s.motion.tick b now } := by
  refine (Move.motion s (s.motion.tick b now) ?_ ?_ ?_).chain
  · intro a hl
    rw [Motion.tick_axes]
    split
    · exact Axis.slotOpened_lawful hl
    · exact hl
  · intro a hc
    rw [Motion.tick_axes] at hc
    split at hc
    · exact hc
    · exact hc
  · refine fun hb => ⟨fun a => ?_, fun hm => ?_⟩
    · have h := hb.1 a
      simp only [State.axis, Motion.tick_axes] at h ⊢
      cases b
      · exact h
      · exact h
    · show s.motion.line.filter _ = none
      have h := hb.2 hm
      rw [h]
      rfl

theorem Request.tick_spec (r : Request) : r.tick.priority = r.priority ∧ r.tick.arrival = r.arrival := by
  unfold Request.tick
  split <;> exact ⟨rfl, rfl⟩

/-- The present instant and the place in the update cycle, a microsecond later. -/
def State.clocked (s : State) : State :=
  { s with now := s.now + 1, cycle := if Config.updateCycle ≤ s.cycle + 1 then 0 else s.cycle + 1 }

/-- One microsecond: the clock, then a chain. -/
theorem Chain.tick (s : State) : Calm s.clocked s.tick := by
  unfold State.tick
  dsimp only
  have h2 := Chain.cal s.clocked s.cal.tick rfl MallTime.tick_inRange
  have h3 := h2.trans (Move.sched (b := true) _ { s.sched with queue := s.sched.queue.map Request.tick } (by
    intro hl
    rw [List.length_map]
    exact hl) (by exact Scheduler.ordered_map Request.tick_spec rfl rfl) (by exact .of_eq rfl rfl rfl)).chain
  have h4 := h3.trans (Move.lanes (b := true) _ (Vector.ofFn fun n => (s.lane n).tick) (by
    intro n hn
    rw [tget_ofFn]
    have hn' : (s.lane n).run = none := hn
    unfold Lane.tick
    rw [hn']
    rfl) (KeepsRuns.lanes_same (fun r => { r with elapsed := r.elapsed.tick }) (fun n => by rw [tget_ofFn]; rfl)
      (fun _ => rfl) (fun _ => rfl) (fun _ => rfl) (fun _ => rfl) (fun _ => rfl) (fun _ => rfl))).chain
  exact h4.trans (Chain.motionTick
    { s with
      now := s.now + 1
      cycle := if Config.updateCycle ≤ s.cycle + 1 then 0 else s.cycle + 1
      cal := s.cal.tick
      sched := { s.sched with queue := s.sched.queue.map Request.tick }
      lanes := Vector.ofFn fun n => (s.lane n).tick } _ (s.now + 1))

/-- A frame taken from the receive queue. -/
theorem Chain.frameOut (s : State) (f : RxFrame) (rest : List RxFrame) (h : s.port.rx = f :: rest) :
    Calm s { s with port := { s.port with rx := rest } } :=
  (Move.port s { s.port with rx := rest } (fun hl => by rw [h, List.length_cons] at hl; exact Nat.le_of_succ_le hl)
    id).chain

/-- A request handed over is one command of the table, with the mark of the handing set before it and cleared after. -/
theorem handOver_spec {s t : State} {c : Instr} (h : s.handOver c = .next t) :
    ∃ v, exec c (s.setHanding true) = .next v ∧ t = v.setHanding false := by
  unfold State.handOver at h
  split at h
  · next v hv => cases h; exact ⟨v, hv, rfl⟩
  · next hn => exact absurd h (hn t)

/-- A taken frame asks for no hard reset. -/
def Parsed.noHardReset : Parsed → Prop
  | .request (.hardReset ..) => False
  | _ => True

theorem parseQuery_noHardReset (tag : Byte) (p : List Byte) : (parseQuery tag p).noHardReset := by
  unfold parseQuery
  split
  · trivial
  · split
    all_goals first | trivial | (split <;> trivial)

theorem answer_noHardReset {b : Prop} [Decidable b] (r r' : Result) :
    (if b then Parsed.answer r else .answer r').noHardReset := by
  split <;> exact True.intro

theorem parseAxisCmd_noHardReset (tag : Byte) (p : List Byte) : (parseAxisCmd tag p).noHardReset := by
  rcases p with _ | ⟨axis, _ | ⟨command, rest⟩⟩
  · trivial
  · trivial
  · unfold parseAxisCmd
    dsimp only
    generalize command.toNat = n
    match n with
    | 0 => rcases rest with _ | ⟨_, _ | ⟨_, _ | ⟨_, _ | ⟨_, _ | ⟨_, _ | ⟨_, _ | ⟨_, _ | ⟨_, _ | ⟨_, _ |
        ⟨_, _⟩⟩⟩⟩⟩⟩⟩⟩⟩⟩ <;> exact True.intro
    | 1 => rcases rest with _ | ⟨_, _ | ⟨_, _ | ⟨_, _ | ⟨_, _ | ⟨_, _⟩⟩⟩⟩⟩ <;> exact True.intro
    | 2 => cases rest <;> exact True.intro
    | 3 => rcases rest with _ | ⟨_, _ | ⟨_, _ | ⟨_, _ | ⟨_, _ | ⟨_, _ | ⟨_, _ | ⟨_, _ | ⟨_, _⟩⟩⟩⟩⟩⟩⟩⟩ <;> exact True.intro
    | 4 => cases rest <;> exact True.intro
    | 5 => cases rest <;> exact True.intro
    | 6 => cases rest <;> exact True.intro
    | n + 7 => exact answer_noHardReset _ _

theorem parseShowData_noHardReset (tag : Byte) (p : List Byte) : (parseShowData tag p).noHardReset := by
  unfold parseShowData
  repeat' (first | trivial | split)

theorem parseSetCurve_noHardReset (tag : Byte) (p : List Byte) : (parseSetCurve tag p).noHardReset := by
  unfold parseSetCurve
  repeat' (first | trivial | split)

/-- Each request kind, with the payload lengths it has a request for. -/
theorem parseRequest_noHardReset (f : RxFrame) : (parseRequest f).noHardReset := by
  obtain ⟨tag, kind, payload⟩ := f
  unfold parseRequest
  split
  · next h =>
    simp only [isRequestKind, requestKinds, List.contains_iff_mem, List.mem_cons, List.not_mem_nil, or_false] at h
    rcases h with rfl | rfl | rfl | rfl | rfl | rfl | rfl | rfl | rfl | rfl | rfl | rfl | rfl | rfl | rfl | rfl | rfl |
      rfl | rfl | rfl | rfl | rfl | rfl | rfl | rfl | rfl | rfl | rfl | rfl | rfl | rfl | rfl | rfl
    · rcases payload with _ | ⟨_, _⟩ <;> exact True.intro
    · rcases payload with _ | ⟨_, _⟩ <;> exact True.intro
    · rcases payload with _ | ⟨_, _⟩ <;> exact True.intro
    · rcases payload with _ | ⟨_, _ | ⟨_, _ | ⟨_, _⟩⟩⟩ <;> exact True.intro
    · exact parseQuery_noHardReset _ _
    · rcases payload with _ | ⟨_, _ | ⟨_, _ | ⟨_, _ | ⟨_, _ | ⟨_, _ | ⟨_, _ | ⟨_, _ | ⟨_, _ | ⟨_, _ | ⟨_, _ | ⟨_,
        _⟩⟩⟩⟩⟩⟩⟩⟩⟩⟩⟩ <;> exact True.intro
    · rcases payload with _ | ⟨_, _⟩ <;> exact True.intro
    · rcases payload with _ | ⟨_, _ | ⟨_, _ | ⟨_, _ | ⟨_, _ | ⟨_, _ | ⟨_, _ | ⟨_, _ | ⟨_, _⟩⟩⟩⟩⟩⟩⟩⟩ <;> exact True.intro
    · rcases payload with _ | ⟨_, _ | ⟨_, _ | ⟨_, _ | ⟨_, _ | ⟨_, _ | ⟨_, _ | ⟨_, _ | ⟨_, _ | ⟨_, _⟩⟩⟩⟩⟩⟩⟩⟩⟩ <;>
        trivial
    · rcases payload with _ | ⟨_, _ | ⟨_, _⟩⟩ <;> exact True.intro
    · rcases payload with _ | ⟨_, _ | ⟨_, _ | ⟨_, _ | ⟨_, _ | ⟨_, _ | ⟨_, _ | ⟨_, _ | ⟨_, _ | ⟨_, _ | ⟨_, _ | ⟨_,
        _⟩⟩⟩⟩⟩⟩⟩⟩⟩⟩⟩ <;> exact True.intro
    · rcases payload with _ | ⟨_, _ | ⟨_, _⟩⟩ <;> exact True.intro
    · rcases payload with _ | ⟨_, _ | ⟨_, _ | ⟨_, _ | ⟨_, _ | ⟨_, _ | ⟨_, _ | ⟨_, _ | ⟨_, _ | ⟨_, _⟩⟩⟩⟩⟩⟩⟩⟩⟩ <;>
        trivial
    · exact parseShowData_noHardReset _ _
    · rcases payload with _ | ⟨_, _ | ⟨_, _⟩⟩ <;> exact True.intro
    · rcases payload with _ | ⟨_, _ | ⟨_, _⟩⟩ <;> exact True.intro
    · rcases payload with _ | ⟨_, _⟩ <;> exact True.intro
    · rcases payload with _ | ⟨_, _ | ⟨_, _⟩⟩ <;> exact True.intro
    · rcases payload with _ | ⟨_, _ | ⟨_, _ | ⟨_, _ | ⟨_, _ | ⟨_, _ | ⟨_, _ | ⟨_, _ | ⟨_, _ | ⟨_, _ | ⟨_, _ | ⟨_,
        _⟩⟩⟩⟩⟩⟩⟩⟩⟩⟩⟩ <;> exact True.intro
    · rcases payload with _ | ⟨_, _ | ⟨_, _⟩⟩ <;> exact True.intro
    · rcases payload with _ | ⟨_, _ | ⟨_, _⟩⟩ <;> exact True.intro
    · rcases payload with _ | ⟨_, _ | ⟨_, _ | ⟨_, _ | ⟨_, _ | ⟨_, _ | ⟨_, _⟩⟩⟩⟩⟩⟩ <;> exact True.intro
    · rcases payload with _ | ⟨_, _ | ⟨_, _ | ⟨_, _ | ⟨_, _ | ⟨_, _⟩⟩⟩⟩⟩ <;> exact True.intro
    · rcases payload with _ | ⟨_, _ | ⟨_, _ | ⟨_, _ | ⟨_, _ | ⟨_, _ | ⟨_, _ | ⟨_, _ | ⟨_, _ | ⟨_, _ | ⟨_, _ | ⟨_, _ |
        ⟨_, _ | ⟨_, _ | ⟨_, _⟩⟩⟩⟩⟩⟩⟩⟩⟩⟩⟩⟩⟩⟩ <;> exact True.intro
    · rcases payload with _ | ⟨_, _ | ⟨_, _ | ⟨_, _⟩⟩⟩ <;> exact True.intro
    · exact parseSetCurve_noHardReset _ _
    · rcases payload with _ | ⟨_, _ | ⟨_, _ | ⟨_, _ | ⟨_, _ | ⟨_, _ | ⟨_, _ | ⟨_, _⟩⟩⟩⟩⟩⟩⟩ <;> exact True.intro
    · rcases payload with _ | ⟨_, _ | ⟨_, _ | ⟨_, _ | ⟨_, _ | ⟨_, _ | ⟨_, _ | ⟨_, _ | ⟨_, _ | ⟨_, _ | ⟨_, _ | ⟨_, _ |
        ⟨_, _ | ⟨_, _ | ⟨_, _ | ⟨_, _ | ⟨_, _ | ⟨_, _ | ⟨_, _ | ⟨_, _ | ⟨_, _ | ⟨_, _⟩⟩⟩⟩⟩⟩⟩⟩⟩⟩⟩⟩⟩⟩⟩⟩⟩⟩⟩⟩⟩ <;> exact True.intro
    · exact parseAxisCmd_noHardReset _ _
    · rcases payload with _ | ⟨_, _ | ⟨_, _⟩⟩ <;> exact True.intro
    · rcases payload with _ | ⟨_, _ | ⟨_, _⟩⟩ <;> exact True.intro
    · rcases payload with _ | ⟨_, _⟩ <;> exact True.intro
    · rcases payload with _ | ⟨_, _ | ⟨_, _⟩⟩ <;> exact True.intro
  · trivial

theorem parseRequest_request {f : RxFrame} {c : Instr} (h : parseRequest f = .request c) (cause : ResetCause)
    (baud : BitVec 2) : c ≠ .hardReset cause baud := by
  rintro rfl
  have := parseRequest_noHardReset f
  rw [h] at this
  exact this

theorem mem_dueIf {b : Bool} {c : Instr} {d : Due} (h : d ∈ dueIf b c) : d = .event c := by
  unfold dueIf at h
  split at h
  · simpa using h
  · cases h

theorem mem_dueEach {n : Nat} {p : Fin n → Bool} {c : Fin n → Instr} {d : Due} (h : d ∈ dueEach p c) :
    ∃ i, d = .event (c i) := by
  obtain ⟨i, _, h⟩ := List.mem_map.mp h
  exact ⟨i, h.symm⟩

/-- What falls due is no hard reset. -/
theorem State.dueNow_event {s : State} {c : Instr} (h : .event c ∈ s.dueNow) (cause : ResetCause) (baud : BitVec 2) :
    c ≠ .hardReset cause baud := by
  rintro rfl
  simp only [State.dueNow, State.duePort, State.dueCalendar, State.dueScheduler, State.dueStrikes, State.dueMotion,
    List.mem_append] at h
  repeat' (rcases h with h | h)
  all_goals first
    | cases mem_dueIf h
    | (obtain ⟨_, h⟩ := mem_dueEach h; cases h)
    | (obtain ⟨_, _, h⟩ := List.mem_map.mp h; cases h)
    | (split at h <;> simp at h)

/-- One command of the table that is no hard reset, between calm chains that leave the strike unit. -/
def OneCommand (s t : State) : Prop :=
  ∃ u c v, (Calm s u ∧ u.strikes = s.strikes) ∧ (∀ cause baud, c ≠ .hardReset cause baud) ∧ exec c u = .next v
    ∧ Calm v t ∧ t.strikes = v.strikes

/-- What one due thing does: a calm chain, or one command of the table. -/
theorem doDue_spec {s t : State} {d : Due} (hd : ∀ c, d = .event c → ∀ cause baud, c ≠ .hardReset cause baud)
    (h : s.doDue d = .next t) : Calm s t ∨ OneCommand s t := by
  cases d with
  | completeExercise => cases h; exact .inl (Chain.completeExercise s)
  | event c => exact .inr ⟨s, c, t, ⟨.refl s, rfl⟩, hd c rfl, h, .refl t, rfl⟩
  | takeFrame =>
    unfold State.doDue State.takeFrame at h
    dsimp only at h
    split at h
    · cases h; exact .inl (.refl s)
    · next f rest hrx =>
      have h1 := Chain.frameOut s f rest hrx
      split at h
      · next c hp =>
        obtain ⟨v, hv, rfl⟩ := handOver_spec h
        exact .inr ⟨_, c, v, ⟨h1.trans (Chain.setHanding _ true), rfl⟩, parseRequest_request hp, hv,
          Chain.setHanding v false, rfl⟩
      · cases h; exact .inl (h1.trans (Chain.reply _ _ _ _ _))

/-- Idling: one microsecond; or a calm chain, or one command of the table. -/
theorem idle_spec {s t : State} (h : s.idle = .next t) : t = s.tick ∨ Calm s t ∨ OneCommand s t := by
  unfold State.idle at h
  split at h
  · cases h; exact .inl rfl
  · next d hd => exact .inr (doDue_spec (fun c hc => State.dueNow_event (by rw [hd, hc]; simp)) h)
  · next d more _ hd =>
    right
    have hmem : ∀ n, (d :: more).getD n d ∈ s.dueNow := fun n => by
      rw [hd, List.getD_eq_getElem?_getD]
      cases hx : (d :: more)[n]? with
      | none => exact List.mem_cons_self
      | some x => exact List.mem_of_getElem? hx
    rcases doDue_spec (fun c hc => State.dueNow_event (by rw [← hc]; exact hmem _)) h with
      hc | ⟨u, c, v, ⟨hu, hs⟩, ht⟩
    · exact .inl ((Chain.nextChoice s).trans hc)
    · exact .inr ⟨u, c, v, ⟨(Chain.nextChoice s).trans hu, hs⟩, ht⟩

/-- A property kept by calm chains and by every command is kept by every step but a microsecond, where the queue of waiting
commands is no part of it. -/
theorem step_keeps_or_tick {I : State → Prop} (hp : ∀ s l, I s → I { s with pending := l })
    (hcalm : ∀ {s t}, Calm s t → I s → I t) (hexec : ∀ {c s t}, exec c s = .next t → I s → I t)
    {s t : State} (h : step s = .next t) (hs : I s) : I t ∨ t = s.tick := by
  unfold step at h
  split at h
  · exact .inl (hexec h (hp _ _ hs))
  · rcases idle_spec h with ht | ht | ⟨u, c, v, ⟨hu, _⟩, _, hc, hv, _⟩
    · exact .inr ht
    · exact .inl (hcalm ht hs)
    · exact .inl (hcalm hv (hexec hc (hcalm hu hs)))

/-- A property kept by calm chains and by every command, of which neither the queue of waiting commands nor the clock is a
part, is kept by every step. -/
theorem step_keeps {I : State → Prop} (hp : ∀ s l, I s → I { s with pending := l }) (hclock : ∀ s, I s → I s.clocked)
    (hcalm : ∀ {s t}, Calm s t → I s → I t) (hexec : ∀ {c s t}, exec c s = .next t → I s → I t)
    {s t : State} (h : step s = .next t) (hs : I s) : I t := by
  rcases step_keeps_or_tick hp hcalm hexec h hs with h | rfl
  · exact h
  · exact hcalm (Chain.tick s) (hclock s hs)

end Sys2Proof.Machine
end

