-- ==== Sys2Proof/Laws/Invariants.lean ====
section
/-! SUPPORT. What every move keeps: capacities, law 1, law 3, law 5, law 6, the form of step memory; and for calm moves,
laws 7 and 8. -/
namespace Sys2Proof.Machine

theorem Chain.keeps {b g : Bool} {I : State → Prop} (h : ∀ {s t}, Move b g s t → I s → I t) {s t : State}
    (hc : Chain b g s t) (hs : I s) : I t := by
  induction hc with
  | refl => exact hs
  | tail _ hm ih => exact h hm ih

/-- A property that every move keeps, and that a hard reset leaves, is kept by every step, where neither the queue of waiting
commands nor the clock is a part of it. -/
theorem step_keeps_moves {I : State → Prop} (hp : ∀ s l, I s → I { s with pending := l }) (hclock : ∀ s, I s → I s.clocked)
    (hm : ∀ {b g s t}, Move b g s t → I s → I t) (hh : ∀ (s : State) baud, I (s.hardReset baud)) {s t : State}
    (h : step s = .next t) (hs : I s) : I t :=
  step_keeps hp hclock (fun hc => Chain.keeps hm hc) (fun hx hs => by
    rcases exec_trace hx with hc | ⟨_, b, _, _, rfl⟩
    · exact Chain.keeps hm hc hs
    · exact hh _ _) h hs

/-! ## A hammer stop's parts -/

@[simp] theorem StrikeUnit.hammerStop_queue (u : StrikeUnit) : u.hammerStop.queue = u.queue := by
  simp only [StrikeUnit.hammerStop]
@[simp] theorem StrikeUnit.hammerStop_emax (u : StrikeUnit) : u.hammerStop.emax = u.emax := by
  simp only [StrikeUnit.hammerStop]
@[simp] theorem StrikeUnit.hammerStop_hammers (u : StrikeUnit) : u.hammerStop.hammers = 0 := by
  simp only [StrikeUnit.hammerStop]
@[simp] theorem StrikeUnit.hammerStop_orderCount (u : StrikeUnit) : u.hammerStop.orderCount = u.orderCount := by
  simp only [StrikeUnit.hammerStop]
@[simp] theorem StrikeUnit.hammerStop_bell (u : StrikeUnit) (n : BellNo) :
    tget u.hammerStop.bells n = (tget u.bells n).hammerStop := by
  simp only [StrikeUnit.hammerStop, tget_ofFn]

/-! ## Capacities -/

theorem Move.withinCapacity {b g : Bool} {s t : State} (h : Move b g s t) (hs : s.withinCapacity) : t.withinCapacity := by
  obtain ⟨h1, h2, h3, h4, h5⟩ := hs
  cases h with
  | cal c h _ => exact ⟨h1, h h2, h3, h4, h5⟩
  | sched c h _ => exact ⟨h h1, h2, h3, h4, h5⟩
  | drop q h => exact ⟨h1, h2, Nat.le_trans h.length_le h3, h4, h5⟩
  | change k x _ _ _ _ => exact ⟨h1, h2, by simpa using h3, h4, h5⟩
  | replace k x hx ho _ _ => exact ⟨h1, h2, Nat.le_trans (replaceStrike_length hx ho) h3, h4, h5⟩
  | enter k _ hl _ _ _ =>
    refine ⟨h1, h2, ?_, h4, h5⟩
    show (insertStrike k s.strikes.queue).length ≤ _
    rw [insertStrike_length]
    exact hl
  | fire k _ _ _ =>
    have hq : (withoutOrder k.order s.strikes.queue).length ≤ Config.strikeCapacity :=
      Nat.le_trans (withoutOrder_sublist _ _).length_le h3
    split
    · exact ⟨h1, h2, hq, h4, h5⟩
    · exact ⟨h1, h2, hq, h4, h5⟩
  | port p hr ht => exact ⟨h1, h2, h3, hr h4, ht h5⟩
  | hammerStop =>
    have hq := s.strikes.hammerStop_queue
    generalize s.strikes.hammerStop = u at hq ⊢
    exact ⟨h1, h2, by rw [← hq] at h3; exact h3, h4, h5⟩
  | streaks =>
    generalize (Vector.ofFn fun n => { s.bell n with streak := 0 }) = v
    exact ⟨h1, h2, h3, h4, h5⟩
  | _ => exact ⟨h1, h2, h3, h4, h5⟩

/-! ## Law 9: the order of requests -/

theorem Move.ordered {b g : Bool} {s t : State} (h : Move b g s t) (hs : s.sched.ordered) : t.sched.ordered := by
  cases h with
  | sched c _ h => exact h hs
  | fire => split <;> exact hs
  | hammerStop =>
    generalize s.strikes.hammerStop = u
    exact hs
  | _ => exact hs

/-! ## The show store -/

theorem Move.storeLawful {b g : Bool} {s t : State} (h : Move b g s t) (hs : s.store.lawful) : t.store.lawful := by
  cases h with
  | store st h => exact h hs
  | fire => split <;> exact hs
  | hammerStop =>
    generalize s.strikes.hammerStop = u
    exact hs
  | _ => exact hs

/-! ## The mall time -/

theorem Move.timeInRange {b g : Bool} {s t : State} (h : Move b g s t) (hs : s.cal.time.inRange) : t.cal.time.inRange := by
  cases h with
  | cal c _ h => exact h hs
  | fire => split <;> exact hs
  | hammerStop =>
    generalize s.strikes.hammerStop = u
    exact hs
  | _ => exact hs

/-! ## Law 1 -/

theorem filter_length_le {α : Type} {p q : α → Bool} (h : ∀ x, p x = true → q x = true) :
    ∀ l : List α, (l.filter p).length ≤ (l.filter q).length
  | [] => Nat.le_refl _
  | x :: rest => by
    have ih := filter_length_le h rest
    rw [List.filter_cons, List.filter_cons]
    by_cases hp : p x = true
    · rw [if_pos hp, if_pos (h x hp)]
      simpa using ih
    · rw [if_neg hp]
      split
      · exact Nat.le_succ_of_le ih
      · exact ih

theorem filter_length_le_succ {α : Type} {p q : α → Bool} (b : α) (h : ∀ x, p x = true → x = b ∨ q x = true) :
    ∀ l : List α, l.Nodup → (l.filter p).length ≤ (l.filter q).length + 1
  | [], _ => Nat.zero_le _
  | x :: rest, hn => by
    rw [List.nodup_cons] at hn
    have ih := filter_length_le_succ b h rest hn.2
    rw [List.filter_cons, List.filter_cons]
    by_cases hp : p x = true
    · rcases h x hp with rfl | hq
      · have hle : (rest.filter p).length ≤ (rest.filter q).length := by
          have hpq : ∀ y ∈ rest, p y = true → q y = true := fun y hy hpy =>
            (h y hpy).resolve_left fun he => hn.1 (he ▸ hy)
          clear ih hn
          induction rest with
          | nil => exact Nat.le_refl _
          | cons y rest ih =>
            have ih := ih fun z hz => hpq z (List.mem_cons_of_mem _ hz)
            rw [List.filter_cons, List.filter_cons]
            by_cases hpy : p y = true
            · rw [if_pos hpy, if_pos (hpq y (List.mem_cons_self ..) hpy)]
              simpa using ih
            · rw [if_neg hpy]
              split
              · exact Nat.le_succ_of_le ih
              · exact ih
        rw [if_pos hp]
        split <;> simp <;> omega
      · rw [if_pos hp, if_pos hq]
        simpa using ih
    · rw [if_neg hp]
      split
      · simp; omega
      · exact ih

/-- The bells in FIRING, counted. -/
theorem firing_le {u v : StrikeUnit} (h : ∀ n, (tget u.bells n).state = .firing → (tget v.bells n).state = .firing) :
    u.firing ≤ v.firing :=
  filter_length_le (fun n hn => by simp only [beq_iff_eq] at hn ⊢; exact h n hn) _

/-- One more bell in FIRING, counted. -/
theorem firing_succ {u v : StrikeUnit} (b : BellNo)
    (h : ∀ n, (tget u.bells n).state = .firing → n = b ∨ (tget v.bells n).state = .firing) : u.firing ≤ v.firing + 1 :=
  filter_length_le_succ b (fun n hn => by simp only [beq_iff_eq] at hn ⊢; exact h n hn) _ (List.nodup_finRange 32)

theorem Bell.hammerStop_firing (b : Bell) : b.hammerStop.state ≠ .firing := by
  unfold Bell.hammerStop
  cases h : b.state <;> simp

theorem Move.withinSupply {b g : Bool} {s t : State} (h : Move b g s t) (hs : s.withinSupply) : t.withinSupply := by
  have hs' : s.strikes.firing ≤ s.strikes.emax := hs
  cases h with
  | bell n x hf _ _ _ =>
    refine Nat.le_trans (firing_le ?_) hs'
    intro m hm
    have hm' : ((s.setBell n x).bell m).state = .firing := hm
    rw [State.setBell_bell] at hm'
    show (s.bell m).state = .firing
    split at hm'
    · next he => subst he; exact hf hm'
    · exact hm'
  | fire k hk hr he =>
    have key : ∀ u : StrikeUnit, u.emax = s.strikes.emax → u.bells = s.strikes.bells →
        ({ u with bells := tset u.bells k.bell ((s.bell k.bell).firedWith k s.now) } : StrikeUnit).firing
          ≤ s.strikes.emax := by
      intro u _ hb
      refine Nat.le_trans (firing_succ (v := s.strikes) k.bell ?_) he
      intro m hm
      by_cases hmb : m = k.bell
      · exact .inl hmb
      · right
        rw [hb, tget_tset_of_ne _ _ (Ne.symm hmb)] at hm
        exact hm
    split
    · exact key { s.strikes with
        queue := withoutOrder k.order s.strikes.queue, hammers := s.strikes.hammers ||| hammerBit k.bell } rfl rfl
    · exact key { s.strikes with queue := withoutOrder k.order s.strikes.queue } rfl rfl
  | hammerStop =>
    have hf : s.strikes.hammerStop.firing ≤ s.strikes.firing := firing_le fun m hm => by
      rw [StrikeUnit.hammerStop_bell] at hm
      exact absurd hm (Bell.hammerStop_firing _)
    have he := s.strikes.hammerStop_emax
    generalize s.strikes.hammerStop = u at hf he ⊢
    exact Nat.le_trans hf (by rw [he]; exact hs')
  | streaks =>
    have hf : ∀ m, tget (Vector.ofFn fun n => { s.bell n with streak := 0 }) m = { s.bell m with streak := 0 } :=
      fun m => tget_ofFn _ _
    generalize (Vector.ofFn fun n => { s.bell n with streak := 0 }) = v at hf ⊢
    refine Nat.le_trans (firing_le (v := s.strikes) ?_) hs'
    intro m hm
    have hm' : (tget v m).state = .firing := hm
    rw [hf] at hm'
    exact hm'
  | settings c m e u h => exact h hs'
  | _ => exact hs'

/-! ## Law 5 -/

theorem Bell.hammerStop_isDisabled (b : Bell) : b.hammerStop.isDisabled = b.isDisabled := by
  unfold Bell.hammerStop Bell.isDisabled
  cases h : b.state <;> simp

theorem Move.noStrikeDisabled {b g : Bool} {s t : State} (h : Move b g s t) (hs : s.noStrikeDisabled) : t.noStrikeDisabled := by
  have hs' : ∀ k ∈ s.strikes.queue, (s.bell k.bell).isDisabled = false := hs
  cases h with
  | drop q h => exact fun k hk => hs' k (h.subset hk)
  | change k x hx _ hb _ =>
    intro j hj
    rcases mem_of_updateStrike hj with rfl | hj
    · show (s.bell j.bell).isDisabled = false
      rw [hb]; exact hs' x hx
    · exact hs' j hj
  | replace k x hx _ hb _ =>
    intro j hj
    rcases mem_replaceStrike.mp hj with rfl | ⟨hj, _⟩
    · show (s.bell j.bell).isDisabled = false
      rw [hb]; exact hs' x hx
    · exact hs' j hj
  | enter k _ _ hd _ _ =>
    intro j hj
    rcases mem_insertStrike.mp hj with rfl | hj
    · exact hd
    · exact hs' j hj
  | bell n x _ _ hd _ =>
    intro k hk
    rw [State.setBell_bell]
    split
    · next he =>
      by_cases hx : x.isDisabled = true
      · rcases hd hx with h | h
        · have := hs' k hk
          rw [← he, h] at this
          cases this
        · exact absurd he.symm (h k hk)
      · simpa using hx
    · exact hs' k hk
  | fire k hk hr _ =>
    have key : ∀ u : State, u.strikes.queue = withoutOrder k.order s.strikes.queue → u.strikes.bells = s.strikes.bells →
        (u.setBell k.bell ((s.bell k.bell).firedWith k s.now)).noStrikeDisabled := by
      intro u hq hb j hj
      rw [State.setBell_bell]
      split
      · rfl
      · show (tget u.strikes.bells j.bell).isDisabled = false
        rw [hb]
        have hj' : j ∈ u.strikes.queue := hj
        rw [hq] at hj'
        exact hs' j (mem_withoutOrder.mp hj').1
    split
    · exact key _ rfl rfl
    · exact key _ rfl rfl
  | hammerStop =>
    have hq := s.strikes.hammerStop_queue
    have hb := s.strikes.hammerStop_bell
    generalize s.strikes.hammerStop = u at hq hb ⊢
    intro k hk
    show (tget u.bells k.bell).isDisabled = false
    rw [hb, Bell.hammerStop_isDisabled]
    have hk' : k ∈ u.queue := hk
    rw [hq] at hk'
    exact hs' k hk'
  | streaks =>
    have hf : ∀ m, tget (Vector.ofFn fun n => { s.bell n with streak := 0 }) m = { s.bell m with streak := 0 } :=
      fun m => tget_ofFn _ _
    generalize (Vector.ofFn fun n => { s.bell n with streak := 0 }) = v at hf ⊢
    intro k hk
    show (tget v k.bell).isDisabled = false
    rw [hf]
    exact hs' k hk
  | _ => exact hs'

/-! ## Law 6 -/

theorem State.axesLawful_of_motion {s t : State} (h : t.motion = s.motion) (hs : s.axesLawful) : t.axesLawful := by
  intro a
  unfold State.axis
  rw [h]
  exact hs a

theorem Move.axesLawful {b g : Bool} {s t : State} (h : Move b g s t) (hs : s.axesLawful) : t.axesLawful := by
  cases h with
  | axis a x hl _ =>
    intro c
    rw [State.setAxis_axis]
    split
    · next he => subst he; exact hl (hs _)
    · exact hs c
  | motion m hl _ => exact fun a => hl a (hs a)
  | fire k _ _ _ =>
    split
    · exact State.axesLawful_of_motion (by simp) hs
    · exact State.axesLawful_of_motion (by simp) hs
  | output o line => exact fun a => hs a
  | _ => exact State.axesLawful_of_motion (by simp) hs

end Sys2Proof.Machine
end

