-- ==== Sys2Proof/Laws/Lawful.lean ====
section
/-! SUPPORT. What every move keeps of laws 4, 5 (its first clause) and 10 and of the bus, and what it does to a bell's
spacing (law 2). -/
namespace Sys2Proof.Machine

/-! ## Law 4 -/

theorem Move.claimsLawful {b g : Bool} {s t : State} (h : Move b g s t) (hs : s.claimsLawful) : t.claimsLawful := by
  cases h with
  | sched c _ _ hk => exact hk hs
  | lane n x _ hk => exact hk.1 hs
  | lanes v _ hk => exact hk.1 hs
  | exercise e c _ hk => exact hk hs
  | fire k => split <;> exact KeepsClaims.of_eq (s := s) rfl rfl rfl hs
  | _ => exact KeepsClaims.of_eq (s := s) rfl rfl rfl hs

/-! ## Law 5, its first clause -/

/-- Owners of the queue stand where no lane changes and each queued strike has the owner of one queued before. -/
theorem State.strikesOwned_of {s t : State} (hl : t.lanes = s.lanes)
    (hq : ∀ k ∈ t.strikes.queue, ∃ x ∈ s.strikes.queue, k.owner = x.owner) (hs : s.strikesOwned) : t.strikesOwned := by
  intro k hk
  obtain ⟨x, hx, ho⟩ := hq k hk
  rw [ho]
  unfold State.lane
  rw [hl]
  exact hs x hx

theorem Move.strikesOwned {b g : Bool} {s t : State} (h : Move b g s t) (hs : s.strikesOwned) : t.strikesOwned := by
  cases h with
  | lane n x _ hk => exact hk.2.1 hs
  | lanes v _ hk => exact hk.2.1 hs
  | drop q h => exact State.strikesOwned_of (s := s) rfl (fun k hk => ⟨k, h.subset hk, rfl⟩) hs
  | change k x hx _ _ _ hw _ =>
    refine State.strikesOwned_of (s := s) rfl (fun j hj => ?_) hs
    rcases mem_of_updateStrike hj with rfl | hj
    · exact ⟨x, hx, hw⟩
    · exact ⟨j, hj, rfl⟩
  | replace k x hx _ _ _ hw _ =>
    refine State.strikesOwned_of (s := s) rfl (fun j hj => ?_) hs
    rcases mem_replaceStrike.mp hj with rfl | ⟨hj, _⟩
    · exact ⟨x, hx, hw⟩
    · exact ⟨j, hj, rfl⟩
  | enter k _ _ _ _ _ hw _ =>
    intro j hj
    rcases mem_insertStrike.mp hj with rfl | hj
    · exact hw
    · exact hs j hj
  | fire k =>
    split
    · exact State.strikesOwned_of (s := s) rfl (fun j hj => ⟨j, (mem_withoutOrder.mp hj).1, rfl⟩) hs
    · exact State.strikesOwned_of (s := s) rfl (fun j hj => ⟨j, (mem_withoutOrder.mp hj).1, rfl⟩) hs
  | hammerStop =>
    have hq := s.strikes.hammerStop_queue
    generalize s.strikes.hammerStop = u at hq ⊢
    exact State.strikesOwned_of (s := s) rfl (fun j hj => ⟨j, hq ▸ hj, rfl⟩) hs
  | streaks =>
    generalize (Vector.ofFn fun n => { s.bell n with streak := 0 }) = v
    exact State.strikesOwned_of (s := s) rfl (fun j hj => ⟨j, hj, rfl⟩) hs
  | _ => exact State.strikesOwned_of (s := s) rfl (fun j hj => ⟨j, hj, rfl⟩) hs

/-! ## Law 10 -/

theorem Move.cursorsInside {b g : Bool} {s t : State} (h : Move b g s t) (hl : s.store.lawful) (hs : s.cursorsInside) :
    t.cursorsInside := by
  cases h with
  | store st _ hk => exact hk hl hs
  | lane n x _ hk => exact hk.2.2 hl hs
  | lanes v _ hk => exact hk.2.2 hl hs
  | fire k => split <;> exact State.cursorsInside_congr (s := s) rfl rfl hs
  | _ => exact State.cursorsInside_congr (s := s) rfl rfl hs

/-- Law 10 with the law of the store that it rests on. -/
theorem Move.storeAndCursors {b g : Bool} {s t : State} (h : Move b g s t) (hs : s.store.lawful ∧ s.cursorsInside) :
    t.store.lawful ∧ t.cursorsInside :=
  ⟨h.storeLawful hs.1, h.cursorsInside hs.1 hs.2⟩

/-! ## The axis bus -/

theorem State.busLawful_congr {s t : State} (hm : t.motion = s.motion) (ho : t.output = s.output) (hs : s.busLawful) :
    t.busLawful := by
  unfold State.busLawful State.axis State.mode at *
  rw [hm, ho]
  exact hs

theorem Move.busLawful {b g : Bool} {s t : State} (h : Move b g s t) (hs : s.busLawful) : t.busLawful := by
  cases h with
  | axis a x _ _ hb =>
    refine ⟨fun c => ?_, hs.2⟩
    rw [State.setAxis_axis]
    split
    · next he => subst he; exact hb (hs.1 a)
    · exact hs.1 c
  | motion m _ _ hb => exact hb hs
  | output o line _ hb => exact ⟨hs.1, hb hs.2⟩
  | fire k => split <;> exact State.busLawful_congr (s := s) rfl rfl hs
  | _ => exact State.busLawful_congr (s := s) rfl rfl hs

/-! ## Law 2 -/

/-- A fire instant that no running guard bars. -/
theorem Bell.guards_none {b : Bell} {impact i : Instant} (h : b.guards impact = none) (hr : b.guardRunning = true)
    (hi : b.guardInstant = some i) : before impact i = false := by
  unfold Bell.guards at h
  rw [hi] at h
  by_contra hb
  simp [hr, Bool.not_eq_false _ ▸ hb] at h

/-- What a move that calibrates no bell does to the spacing of one: acts of law 2. -/
theorem Move.guardAct {b : Bool} {s t : State} (h : Move b true s t) (n : BellNo) :
    Relation.ReflTransGen (GuardAct s.now) (s.bell n) (t.bell n) := by
  cases h with
  | bell m x _ _ _ _ hk =>
    rw [State.setBell_bell]
    split
    · next he =>
      subst he
      rcases hk with hk | hk
      · exact .single hk
      · cases hk.1
    · exact .refl
  | fire k _ _ _ hg =>
    have key : ∀ u : State, u.strikes.bells = s.strikes.bells →
        Relation.ReflTransGen (GuardAct s.now) (s.bell n)
          ((u.setBell k.bell ((s.bell k.bell).firedWith k s.now)).bell n) := by
      intro u hu
      rw [State.setBell_bell]
      split
      · next he =>
        subst he
        refine .single (.inr (.inr ⟨rfl, rfl, s.now + micros k.flight, rfl, rfl, fun hr i hi => ?_⟩))
        exact Bell.guards_none (Option.map_eq_none_iff.mp hg) hr hi
      · unfold State.bell
        rw [hu]
    split
    · exact key _ rfl
    · exact key _ rfl
  | hammerStop =>
    refine .single ?_
    show GuardAct s.now (s.bell n) (tget s.strikes.hammerStop.bells n)
    rw [StrikeUnit.hammerStop_bell]
    unfold Bell.hammerStop
    exact .same (by split <;> rfl) (by split <;> rfl) (by split <;> rfl) (by split <;> rfl)
  | streaks =>
    refine .single ?_
    show GuardAct s.now (s.bell n) (tget (Vector.ofFn _) n)
    rw [tget_ofFn]
    exact .same rfl rfl rfl rfl
  | _ => exact .refl

/-- What a chain that calibrates no bell does to the spacing of one. -/
theorem Chain.guardAct {b : Bool} {s t : State} (h : Chain b true s t) (n : BellNo) :
    Relation.ReflTransGen (GuardAct s.now) (s.bell n) (t.bell n) := by
  induction h with
  | refl => exact .refl
  | tail hc hm ih =>
    have h1 := hm.guardAct n
    rw [hc.now_eq] at h1
    exact ih.trans h1

/-- SET_BELL leaves the spacing of every bell. -/
theorem State.writeBell_calibrated (s : State) (tag b : Byte) (k : Long) (lo hi g : Half) (w m : Byte) (n : BellNo) :
    Calibrated (s.bell n) ((s.writeBell tag b k lo hi g w m).bell n) := by
  unfold State.writeBell
  split
  · exact ⟨rfl, rfl, rfl⟩
  · next i _ =>
    split
    · exact ⟨rfl, rfl, rfl⟩
    · split
      · exact ⟨rfl, rfl, rfl⟩
      · show Calibrated (s.bell n) ((s.setBell i _).bell n)
        rw [State.setBell_bell]
        split
        · next he => subst he; exact ⟨rfl, rfl, rfl⟩
        · exact ⟨rfl, rfl, rfl⟩

/-- What a command but a hard reset does to the spacing of a bell. -/
theorem exec_guardKept {c : Instr} {s t : State} (h : exec c s = .next t)
    (hc : ∀ cause baud, c = .hardReset cause baud → resetActs cause = false) (n : BellNo) :
    GuardKept s.now (s.bell n) (t.bell n) := by
  rcases exec_trace h with hch | ⟨cause, baud, he, ha, _⟩
  · cases hcal : calibrates c with
    | false => rw [hcal] at hch; exact .inl (hch.guardAct n)
    | true =>
      cases c
      case setBell =>
        simp only [exec, execSetBell, Host.Outcome.next.injEq] at h
        subst h
        unfold Machine.takeRequest
        split
        · exact .inr (State.writeBell_calibrated _ _ _ _ _ _ _ _ _ _)
        · exact .inl .refl
      all_goals cases hcal
  · rw [hc cause baud he] at ha
    cases ha

end Sys2Proof.Machine
end

