-- ==== Sys2Proof/Laws/Spacing.lean ====
section
/-! SUPPORT. What every move keeps of law 3: distinct entry orders, and the repeat guard between queued strikes. -/
namespace Sys2Proof.Machine

/-- Two queued strikes stand together: distinct orders, and for one bell its guard apart. -/
def apart (g : BellNo → Nat) (j k : Strike) : Prop :=
  j.order ≠ k.order ∧ (j.bell = k.bell → g j.bell * 1000 ≤ distance j.due k.due)

theorem distance_comm (a b : Instant) : distance a b = distance b a := by
  unfold distance before
  simp only [Bool.and_eq_true, decide_eq_true_eq]
  have ha := a.isLt
  have hb := b.isLt
  simp only [BitVec.toNat_sub]
  split <;> split <;> omega

theorem apart_comm {g : BellNo → Nat} {j k : Strike} (h : apart g j k) : apart g k j := by
  refine ⟨fun e => h.1 e.symm, fun e => ?_⟩
  rw [distance_comm, e]
  exact h.2 e.symm

/-- The guards of a state's bells. -/
def State.guards (s : State) (n : BellNo) : Nat := (s.bell n).guardMs

theorem State.strikesSpaced_iff (s : State) :
    s.strikesSpaced ↔ (∀ k ∈ s.strikes.queue, k.order < s.strikes.orderCount) ∧ s.strikes.queue.Pairwise (apart s.guards) := by
  unfold State.strikesSpaced
  rw [List.Nodup, List.pairwise_map]
  constructor
  · rintro ⟨h1, h2, h3⟩
    exact ⟨h2, h1.and h3⟩
  · rintro ⟨h2, h⟩
    exact ⟨h.imp fun h => h.1, h2, h.imp fun h => h.2⟩

theorem eq_of_order {g : BellNo → Nat} {q : List Strike} (h : q.Pairwise (apart g)) {x y : Strike} (hx : x ∈ q)
    (hy : y ∈ q) (he : x.order = y.order) : x = y := by
  induction q with
  | nil => cases hx
  | cons z rest ih =>
    rw [List.pairwise_cons] at h
    rcases List.mem_cons.mp hx with rfl | hx'
    · rcases List.mem_cons.mp hy with rfl | hy'
      · rfl
      · exact absurd he (h.1 y hy').1
    · rcases List.mem_cons.mp hy with rfl | hy'
      · exact absurd he.symm (h.1 x hx').1
      · exact ih h.2 hx' hy'

theorem apart_of_mem {g : BellNo → Nat} {q : List Strike} (h : q.Pairwise (apart g)) {x y : Strike} (hx : x ∈ q)
    (hy : y ∈ q) (hne : x ≠ y) : apart g x y := by
  induction q with
  | nil => cases hx
  | cons z rest ih =>
    rw [List.pairwise_cons] at h
    rcases List.mem_cons.mp hx with rfl | hx'
    · rcases List.mem_cons.mp hy with rfl | hy'
      · exact absurd rfl hne
      · exact h.1 y hy'
    · rcases List.mem_cons.mp hy with rfl | hy'
      · exact apart_comm (h.1 x hx')
      · exact ih h.2 hx' hy'

/-- A strike entered anywhere, apart from every other. -/
theorem pairwise_insertStrike {g : BellNo → Nat} {q : List Strike} {k : Strike} (h : q.Pairwise (apart g))
    (hk : ∀ x ∈ q, apart g k x) : (insertStrike k q).Pairwise (apart g) := by
  rw [(insertStrike_perm k q).pairwise_iff apart_comm, List.pairwise_cons]
  exact ⟨hk, h⟩

/-- A record changed, its order, bell and due instant as they were. -/
theorem pairwise_updateStrike {g : BellNo → Nat} {q : List Strike} {k x : Strike} (h : q.Pairwise (apart g)) (hx : x ∈ q)
    (ho : k.order = x.order) (hb : k.bell = x.bell) (hd : k.due = x.due) : (updateStrike k q).Pairwise (apart g) := by
  unfold updateStrike
  rw [List.pairwise_map]
  refine h.imp_of_mem ?_
  intro a c ha hc hac
  have hself : ∀ y ∈ q, (if y.order = k.order then k else y).order = y.order
      ∧ (if y.order = k.order then k else y).bell = y.bell ∧ (if y.order = k.order then k else y).due = y.due := by
    intro y hy
    split
    · next he =>
      have hyx := eq_of_order h hy hx (he.trans ho)
      subst hyx
      exact ⟨ho, hb, hd⟩
    · exact ⟨rfl, rfl, rfl⟩
  obtain ⟨a1, a2, a3⟩ := hself a ha
  obtain ⟨c1, c2, c3⟩ := hself c hc
  unfold apart
  rw [a1, a2, a3, c1, c2, c3]
  exact hac

/-- The same, moved to its place. -/
theorem pairwise_replaceStrike {g : BellNo → Nat} {q : List Strike} {k x : Strike} (h : q.Pairwise (apart g)) (hx : x ∈ q)
    (ho : k.order = x.order) (hb : k.bell = x.bell) (hd : k.due = x.due) : (replaceStrike k q).Pairwise (apart g) := by
  unfold replaceStrike
  refine pairwise_insertStrike (h.sublist (withoutOrder_sublist _ _)) ?_
  intro y hy
  obtain ⟨hy, hne⟩ := mem_withoutOrder.mp hy
  have hxy : apart g x y := apart_of_mem h hx hy fun e => hne (by rw [← e, ho])
  unfold apart
  rw [ho, hb, hd]
  exact hxy

/-- Guards that do not grow, for the bells of queued strikes. -/
theorem pairwise_guards {g g' : BellNo → Nat} {q : List Strike} (h : q.Pairwise (apart g))
    (hg : ∀ k ∈ q, g' k.bell ≤ g k.bell) : q.Pairwise (apart g') :=
  h.imp_of_mem fun ha _ hac => ⟨hac.1, fun e => Nat.le_trans (Nat.mul_le_mul_right _ (hg _ ha)) (hac.2 e)⟩

theorem Bell.hammerStop_guardMs (b : Bell) : b.hammerStop.guardMs = b.guardMs := by
  unfold Bell.hammerStop
  cases b.state <;> rfl

theorem Move.strikesSpaced {b g : Bool} {s t : State} (h : Move b g s t) (hs : s.strikesSpaced) : t.strikesSpaced := by
  rw [State.strikesSpaced_iff] at hs ⊢
  obtain ⟨h1, h2⟩ := hs
  cases h with
  | drop q hq => exact ⟨fun k hk => h1 k (hq.subset hk), h2.sublist hq⟩
  | change k x hx ho hb hd =>
    refine ⟨fun j hj => ?_, pairwise_updateStrike h2 hx ho hb hd⟩
    rcases mem_of_updateStrike hj with rfl | hj
    · show j.order < s.strikes.orderCount
      rw [ho]; exact h1 x hx
    · exact h1 j hj
  | replace k x hx ho hb hd =>
    refine ⟨fun j hj => ?_, pairwise_replaceStrike h2 hx ho hb hd⟩
    rcases mem_replaceStrike.mp hj with rfl | ⟨hj, _⟩
    · show j.order < s.strikes.orderCount
      rw [ho]; exact h1 x hx
    · exact h1 j hj
  | enter k hp hl hd ho hsp =>
    refine ⟨fun j hj => ?_, pairwise_insertStrike h2 fun x hx => ?_⟩
    · show j.order < s.strikes.orderCount + 1
      rcases mem_insertStrike.mp hj with rfl | hj
      · omega
      · have := h1 j hj; omega
    · refine ⟨?_, fun e => ?_⟩
      · have := h1 x hx; omega
      · rw [distance_comm]
        exact hsp x hx e.symm
  | bell n x hf hh hd hg =>
    refine ⟨h1, pairwise_guards h2 ?_⟩
    intro k hk
    unfold State.guards
    rw [State.setBell_bell]
    split
    · next he =>
      subst he
      rcases hg with hg | hg
      · exact hg
      · exact absurd rfl (hg k hk)
    · exact Nat.le_refl _
  | fire k hk hr he =>
    have key : ∀ u : State, u.strikes.queue = withoutOrder k.order s.strikes.queue → u.strikes.bells = s.strikes.bells →
        u.strikes.orderCount = s.strikes.orderCount →
        (∀ j ∈ (u.setBell k.bell ((s.bell k.bell).firedWith k s.now)).strikes.queue,
          j.order < (u.setBell k.bell ((s.bell k.bell).firedWith k s.now)).strikes.orderCount)
        ∧ (u.setBell k.bell ((s.bell k.bell).firedWith k s.now)).strikes.queue.Pairwise
          (apart (u.setBell k.bell ((s.bell k.bell).firedWith k s.now)).guards) := by
      intro u hq hb hc
      simp only [State.setBell_strikes]
      rw [hq, hc]
      refine ⟨fun j hj => h1 j (mem_withoutOrder.mp hj).1, pairwise_guards (h2.sublist (withoutOrder_sublist _ _)) ?_⟩
      intro j _
      unfold State.guards
      rw [State.setBell_bell]
      split
      · next he => exact he ▸ Nat.le_refl _
      · show (tget u.strikes.bells j.bell).guardMs ≤ (tget s.strikes.bells j.bell).guardMs
        exact Nat.le_of_eq (by rw [hb])
    split
    · exact key _ rfl rfl rfl
    · exact key _ rfl rfl rfl
  | hammerStop =>
    have hq := s.strikes.hammerStop_queue
    have hc := s.strikes.hammerStop_orderCount
    have hb := s.strikes.hammerStop_bell
    generalize s.strikes.hammerStop = u at hq hc hb ⊢
    dsimp only
    rw [hq, hc]
    refine ⟨h1, pairwise_guards h2 fun k _ => ?_⟩
    show (tget u.bells k.bell).guardMs ≤ _
    rw [hb, Bell.hammerStop_guardMs]
    exact Nat.le_refl _
  | streaks =>
    have hf : ∀ m, tget (Vector.ofFn fun n => { s.bell n with streak := 0 }) m = { s.bell m with streak := 0 } :=
      fun m => tget_ofFn _ _
    generalize (Vector.ofFn fun n => { s.bell n with streak := 0 }) = v at hf ⊢
    refine ⟨h1, pairwise_guards h2 fun k _ => ?_⟩
    show (tget v k.bell).guardMs ≤ _
    rw [hf]
    exact Nat.le_refl _
  | _ => exact ⟨h1, h2⟩

end Sys2Proof.Machine
end

