-- ==== Sys2Proof/Laws/Order.lean ====
section
/-! SUPPORT. The order of the strike queue (R91): an order of records near now, kept by every move. -/
namespace Sys2Proof.Machine

/-! ## The order of R91 among records near now -/

/-- Where an instant near now stands: its place from 1,000 seconds before now on. -/
def Instant.place (t now : Instant) : Nat := (t - now + micros 1000000000).toNat

theorem place_lt_iff {a b n c : Nat} (h1 : a < 4294967296) (h2 : b < 4294967296) (h3 : n < 4294967296)
    (hc : c = 1000000000)
    (ha : (4294967296 - a + n) % 4294967296 ≤ 1000000000 ∨ (4294967296 - n + a) % 4294967296 ≤ 1000000000)
    (hb : (4294967296 - b + n) % 4294967296 ≤ 1000000000 ∨ (4294967296 - n + b) % 4294967296 ≤ 1000000000) :
    (1 ≤ (4294967296 - a + b) % 4294967296 ∧ (4294967296 - a + b) % 4294967296 ≤ 2147483647)
      ↔ ((4294967296 - n + a) % 4294967296 + c) % 4294967296 < ((4294967296 - n + b) % 4294967296 + c) % 4294967296 := by
  omega

theorem distance_le {t now : Instant} {n : Nat} (h : distance t now ≤ n) : (now - t).toNat ≤ n ∨ (t - now).toNat ≤ n := by
  unfold distance at h
  split at h
  · exact .inl h
  · exact .inr h

theorem before_iff_offset {a b now c : Instant} (hc : c.toNat = 1000000000) (ha : distance a now ≤ 1000000000)
    (hb : distance b now ≤ 1000000000) : before a b = true ↔ (a - now + c).toNat < (b - now + c).toNat := by
  have ha' := distance_le ha
  have hb' := distance_le hb
  rw [before_iff]
  simp only [BitVec.toNat_sub, BitVec.toNat_add] at ha' hb' ⊢
  exact place_lt_iff a.isLt b.isLt now.isLt hc ha' hb'

/-- Among instants near now, the order of R1 is the order of their places. -/
theorem before_iff_place {a b now : Instant} (ha : distance a now ≤ 1000000000) (hb : distance b now ≤ 1000000000) :
    before a b = true ↔ Instant.place a now < Instant.place b now :=
  before_iff_offset (toNat_micros (by omega)) ha hb

theorem Instant.place_inj {a b now : Instant} (h : Instant.place a now = Instant.place b now) : a = b := by
  unfold Instant.place at h
  have h1 := BitVec.eq_of_toNat_eq h
  rw [BitVec.add_left_inj] at h1
  have h2 := congrArg (· + now) h1
  simpa [BitVec.sub_add_cancel] using h2

/-- The order of R91 by places: queued fire instant, bell, entry order. -/
theorem Strike.precedes_iff {a b : Strike} {now : Instant} (ha : a.nearby now) (hb : b.nearby now) :
    a.precedes b = true ↔ Instant.place a.fireAt now < Instant.place b.fireAt now
      ∨ (Instant.place a.fireAt now = Instant.place b.fireAt now
        ∧ (a.bell.val < b.bell.val ∨ (a.bell.val = b.bell.val ∧ a.order < b.order))) := by
  unfold Strike.precedes
  rw [Bool.or_eq_true, before_iff_place ha.1 hb.1]
  simp only [Bool.and_eq_true, beq_iff_eq, Bool.or_eq_true, decide_eq_true_eq]
  have he : a.fireAt = b.fireAt ↔ Instant.place a.fireAt now = Instant.place b.fireAt now :=
    ⟨fun h => by rw [h], Instant.place_inj⟩
  rw [he, Fin.lt_def, Fin.ext_iff]

theorem Strike.precedes_trans {a b c : Strike} {now : Instant} (ha : a.nearby now) (hb : b.nearby now) (hc : c.nearby now)
    (h : a.precedes b = true) (h' : b.precedes c = true) : a.precedes c = true := by
  rw [Strike.precedes_iff ha hb] at h
  rw [Strike.precedes_iff hb hc] at h'
  rw [Strike.precedes_iff ha hc]
  omega

theorem Strike.precedes_total {a b : Strike} {now : Instant} (ha : a.nearby now) (hb : b.nearby now)
    (ho : a.order ≠ b.order) (h : ¬a.precedes b = true) : b.precedes a = true := by
  rw [Strike.precedes_iff ha hb] at h
  rw [Strike.precedes_iff hb ha]
  omega

/-! ## The queue's operations -/

/-- A queue in order, its records near now. -/
def inOrder (now : Instant) (q : List Strike) : Prop :=
  (∀ k ∈ q, k.nearby now) ∧ q.Pairwise fun j k => j.precedes k = true

theorem inOrder.sublist {now : Instant} {q r : List Strike} (h : inOrder now q) (hr : r.Sublist q) : inOrder now r :=
  ⟨fun k hk => h.1 k (hr.subset hk), h.2.sublist hr⟩

/-- A record entered at its place keeps the order. -/
theorem inOrder.insert {now : Instant} {k : Strike} (hk : k.nearby now) :
    ∀ {q : List Strike}, inOrder now q → (∀ x ∈ q, k.order ≠ x.order) → inOrder now (insertStrike k q)
  | [], _, _ => ⟨fun x hx => by rw [insertStrike, List.mem_singleton] at hx; rw [hx]; exact hk, List.pairwise_singleton _ _⟩
  | x :: rest, h, ho => by
    refine ⟨fun y hy => ?_, ?_⟩
    · rcases mem_insertStrike.mp hy with rfl | hy
      · exact hk
      · exact h.1 y hy
    · have hx := h.1 x List.mem_cons_self
      have hp := List.pairwise_cons.mp h.2
      unfold insertStrike
      split
      · next hkx =>
        refine List.pairwise_cons.mpr ⟨fun y hy => ?_, h.2⟩
        rcases List.mem_cons.mp hy with rfl | hy
        · exact hkx
        · exact Strike.precedes_trans hk hx (h.1 y (List.mem_cons_of_mem _ hy)) hkx (hp.1 y hy)
      · next hkx =>
        have hrest : inOrder now rest := ⟨fun y hy => h.1 y (List.mem_cons_of_mem _ hy), hp.2⟩
        refine List.pairwise_cons.mpr ⟨fun y hy => ?_,
          (inOrder.insert hk hrest fun y hy => ho y (List.mem_cons_of_mem _ hy)).2⟩
        rcases mem_insertStrike.mp hy with rfl | hy
        · exact Strike.precedes_total hk hx (ho x List.mem_cons_self) hkx
        · exact hp.1 y hy

/-- A record replaced, and moved to its place. -/
theorem inOrder.replace {now : Instant} {k : Strike} {q : List Strike} (hk : k.nearby now) (h : inOrder now q) :
    inOrder now (replaceStrike k q) :=
  (h.sublist (withoutOrder_sublist k.order q)).insert hk fun _ hx he => (mem_withoutOrder.mp hx).2 he.symm

/-- A record changed where it stands, its queued fire instant, due instant, bell and order as they were. -/
theorem inOrder.update {now : Instant} {k x : Strike} {q : List Strike} {g : BellNo → Nat} (h : inOrder now q)
    (hd : q.Pairwise (apart g)) (hx : x ∈ q) (ho : k.order = x.order) (hb : k.bell = x.bell) (hdue : k.due = x.due)
    (hf : k.fireAt = x.fireAt) : inOrder now (updateStrike k q) := by
  have hself : ∀ y ∈ q, y.order = k.order → y = x := fun y hy he => eq_of_order hd hy hx (he.trans ho)
  refine ⟨fun j hj => ?_, ?_⟩
  · rcases mem_of_updateStrike hj with rfl | hj
    · have := h.1 x hx
      unfold Strike.nearby at this ⊢
      rw [hdue, hf]
      exact this
    · exact h.1 j hj
  · unfold updateStrike
    rw [List.pairwise_map]
    have hsame : ∀ y ∈ q, (if y.order = k.order then k else y).fireAt = y.fireAt
        ∧ (if y.order = k.order then k else y).bell = y.bell ∧ (if y.order = k.order then k else y).order = y.order := by
      intro y hy
      split
      · next he => rw [hself y hy he]; exact ⟨hf, hb, ho⟩
      · exact ⟨rfl, rfl, rfl⟩
    refine h.2.imp_of_mem fun {y z} hy hz hyz => ?_
    obtain ⟨a1, a2, a3⟩ := hsame y hy
    obtain ⟨b1, b2, b3⟩ := hsame z hz
    unfold Strike.precedes at hyz ⊢
    rw [a1, a2, a3, b1, b2, b3]
    exact hyz

/-! ## The moves -/

/-- The strike queue is in order, its records near now, with distinct entry orders a repeat guard apart. -/
def State.queueLawful (s : State) : Prop := s.strikesSpaced ∧ inOrder s.now s.strikes.queue

/-- Records within 1,000 seconds of now are near. -/
theorem State.queueLawful_of {s : State} (h : s.strikesSpaced) (hn : s.strikesNear) (ho : s.strikesOrdered) : s.queueLawful :=
  ⟨h, fun k hk => (Strike.nearby_iff k s.now).mpr ⟨(hn k hk).1, Instant.nearby_of_distance (hn k hk).2⟩, ho⟩

theorem Move.inOrder {b g : Bool} {s t : State} (h : Move b g s t) (hs : s.strikesSpaced)
    (hq : inOrder s.now s.strikes.queue) : inOrder t.now t.strikes.queue := by
  rw [h.now_eq]
  rw [State.strikesSpaced_iff] at hs
  obtain ⟨h1, h2⟩ := hs
  cases h with
  | drop q h => exact hq.sublist h
  | change k x hx ho hb hd _ hf => exact hq.update h2 hx ho hb hd hf
  | replace k x hx _ _ _ _ hn => exact hq.replace (hn (hq.1 x hx))
  | enter k _ _ _ ho _ _ hn => exact hq.insert hn fun x hx he => by have := h1 x hx; omega
  | fire k =>
    have hw := hq.sublist (withoutOrder_sublist k.order _)
    split
    · exact hw
    · exact hw
  | hammerStop =>
    have hu := s.strikes.hammerStop_queue
    generalize s.strikes.hammerStop = u at hu ⊢
    exact hu ▸ hq
  | streaks =>
    generalize (Vector.ofFn fun n => { s.bell n with streak := 0 }) = v
    exact hq
  | _ => exact hq

theorem Move.queueLawful {b g : Bool} {s t : State} (h : Move b g s t) (hs : s.queueLawful) : t.queueLawful :=
  ⟨h.strikesSpaced hs.1, h.inOrder hs.1 hs.2⟩

end Sys2Proof.Machine
end

