-- ==== Sys2Proof/Laws/Tower.lean ====
section
/-! SUPPORT. Laws 7 and 8: what calm moves keep of them, and the tower at rest after the operations that stop it. -/
namespace Sys2Proof.Machine

/-! ## Calm moves -/

theorem State.still_congr {s t : State} (hl : t.lanes = s.lanes) (hq : t.strikes.queue = s.strikes.queue)
    (he : t.exercise = s.exercise) (hm : t.motion = s.motion) (h : s.still) : t.still := by
  unfold State.still State.lane State.exercising State.axis at *
  rw [hl, hq, he, hm]
  exact h

theorem State.gated_congr {s t : State} (hh : t.strikes.hammers = s.strikes.hammers) (hb : t.strikes.bells = s.strikes.bells)
    (ho : t.output = s.output) (h : s.hammersGated) : t.hammersGated := by
  unfold State.hammersGated State.energised State.bell State.mode at *
  rw [hh, hb, ho]
  exact h

/-- A calm move from a tower that must rest and rests leaves it at rest. -/
theorem Move.still {g : Bool} {s t : State} (h : Move true g s t) (hm : s.mustRest) (hs : s.still) : t.still := by
  cases h with
  | lane n x hx =>
    rcases hx with hx | hx
    · refine ⟨fun m => ?_, hs.2.1, hs.2.2.1, hs.2.2.2⟩
      rw [State.setLane_lane]
      split
      · exact hx
      · exact hs.1 m
    · exact absurd hs (hx hm)
  | lanes v hv => exact ⟨fun m => hv m (hs.1 m), hs.2.1, hs.2.2.1, hs.2.2.2⟩
  | drop q hq =>
    refine ⟨hs.1, ?_, hs.2.2.1, hs.2.2.2⟩
    have h0 := hs.2.1
    rw [h0] at hq
    exact List.sublist_nil.mp hq
  | change k x hx => rw [hs.2.1] at hx; cases hx
  | replace k x hx => rw [hs.2.1] at hx; cases hx
  | enter k hp => exact absurd hs (hp hm)
  | fire k hk => rw [hs.2.1] at hk; cases hk
  | axis a x hl hc =>
    rcases hc with hc | hc
    · refine ⟨hs.1, hs.2.1, hs.2.2.1, fun c => ?_⟩
      rw [State.setAxis_axis]
      split
      · exact hc
      · exact hs.2.2.2 c
    · exact absurd hs (hc hm)
  | motion m hl hc =>
    refine ⟨hs.1, hs.2.1, hs.2.2.1, fun a => ?_⟩
    cases h : (tget m.axes a).mode.commanded with
    | false => exact h
    | true =>
      have h' := hs.2.2.2 a
      rw [hc a h] at h'
      cases h'
  | exercise e _ he =>
    rcases he with he | he
    · refine ⟨hs.1, hs.2.1, ?_, hs.2.2.2⟩
      unfold State.exercising
      cases e with
      | none => rfl
      | some e =>
        have he' : e.phase = .done := he
        simp [he']
    · exact absurd hs (he hm)
  | hammerStop =>
    have hq := s.strikes.hammerStop_queue
    generalize s.strikes.hammerStop = u at hq ⊢
    exact State.still_congr (s := s) rfl hq rfl rfl hs
  | release n => exact State.still_congr (s := s) rfl rfl rfl rfl hs
  | output _ _ h => cases h
  | _ => exact State.still_congr (s := s) (by simp) (by simp) (by simp) (by simp) hs

/-- A calm move keeps law 7, where the tower rests if it must. -/
theorem Move.hammersGated {g : Bool} {s t : State} (h : Move true g s t) (hr : s.stillWhenStopped) (hs : s.hammersGated) :
    t.hammersGated := by
  cases h with
  | bell n x hf hh hd hg =>
    intro m hm
    have hm' : s.energised m = true := hm
    obtain ⟨h1, h2, h3⟩ := hs m hm'
    refine ⟨?_, h2, h3⟩
    rw [State.setBell_bell]
    split
    · next he =>
      subst he
      rcases hh h1 with h | h
      · exact h
      · rw [hm'] at h; cases h
    · exact h1
  | fire k hk hready he =>
    by_cases hl : s.mode = .live
    · rw [if_pos hl]
      have hclosed : s.output.isOpen = false := by
        cases ho : s.output.isOpen with
        | false => rfl
        | true =>
          have hstop : s.stopped = true := by unfold State.stopped; rw [hl, ho]; rfl
          have hq := (hr (.inl hstop)).2.1
          rw [hq] at hk
          cases hk
      intro m hm
      refine ⟨?_, hl, hclosed⟩
      rw [State.setBell_bell]
      split
      · rfl
      · next hne =>
        have hm' : (s.strikes.drive k.bell).hammers.getLsbD m.val = true := hm
        rw [StrikeUnit.drive_hammers] at hm'
        have hm2 : s.energised m = true := by
          unfold State.energised
          rwa [decide_eq_false hne, Bool.or_false] at hm'
        exact (hs m hm2).1
    · rw [if_neg hl]
      intro m hm
      exact absurd (hs m hm).2.1 hl
  | release n =>
    intro m hm
    have hm' : (s.strikes.release n).hammers.getLsbD m.val = true := hm
    by_cases he : m = n
    · rw [he, StrikeUnit.release_hammers] at hm'; cases hm'
    · rw [StrikeUnit.release_hammers_of_ne _ he] at hm'
      exact hs m hm'
  | hammerStop =>
    have hh := s.strikes.hammerStop_hammers
    generalize s.strikes.hammerStop = u at hh ⊢
    intro m hm
    have hm' : u.hammers.getLsbD m.val = true := hm
    rw [hh] at hm'
    simp at hm'
  | streaks =>
    have hf : ∀ m, tget (Vector.ofFn fun n => { s.bell n with streak := 0 }) m = { s.bell m with streak := 0 } :=
      fun m => tget_ofFn _ _
    generalize (Vector.ofFn fun n => { s.bell n with streak := 0 }) = v at hf ⊢
    intro m hm
    obtain ⟨h1, h2⟩ := hs m hm
    refine ⟨?_, h2⟩
    show (tget v m).state = .firing
    rw [hf]
    exact h1
  | output _ _ h => cases h
  | _ => exact State.gated_congr (s := s) (by simp) (by simp) (by simp) hs

theorem Move.towerSafe {g : Bool} {s t : State} (h : Move true g s t) (hs : s.towerSafe) : t.towerSafe := by
  refine ⟨fun hm => ?_, h.hammersGated hs.1 hs.2⟩
  have hm' : s.mustRest := (h.chain.mustRest_iff).mp hm
  exact h.still hm' (hs.1 hm')

/-- A calm chain keeps laws 7 and 8. -/
theorem Chain.towerSafe {s t : State} (h : Calm s t) (hs : s.towerSafe) : t.towerSafe :=
  Chain.keeps Move.towerSafe h hs

/-- A tower at rest with every output low is safe. -/
theorem State.towerSafe_of_rest {s : State} (h : s.still) (h0 : s.strikes.hammers = 0) : s.towerSafe := by
  refine ⟨fun _ => h, fun b hb => ?_⟩
  unfold State.energised at hb
  rw [h0] at hb
  simp at hb

/-- Outputs that may be high only in another condition are low. -/
theorem State.hammers_low {s : State} (hs : s.hammersGated) (h : ∀ b, (s.bell b).state = .firing → s.mode ≠ .live) :
    s.strikes.hammers = 0 := by
  apply BitVec.eq_of_getLsbD_eq
  intro i hi
  cases hb : s.strikes.hammers.getLsbD i with
  | false => simp
  | true =>
    obtain ⟨h1, h2, _⟩ := hs ⟨i, hi⟩ hb
    exact absurd h2 (h _ h1)

end Sys2Proof.Machine
end

