-- ==== Sys2Proof/Laws/Rest.lean ====
section
/-! SUPPORT. The tower at rest after each operation that stops it: the change to SAFE, the opening of the interlock in LIVE,
the soft reset, the hard reset; and the commands of output control keep laws 7 and 8. -/
namespace Sys2Proof.Machine

/-! ## Ending every run -/

theorem State.releaseKey_fields (s : State) (o : Source) (id : Nat) :
    (s.releaseKey o id).lanes = s.lanes ∧ (s.releaseKey o id).strikes = s.strikes
      ∧ (s.releaseKey o id).motion = s.motion ∧ (s.releaseKey o id).exercise = s.exercise := by
  unfold State.releaseKey
  split
  · dsimp only
    split <;> exact ⟨rfl, rfl, rfl, rfl⟩
  · exact ⟨rfl, rfl, rfl, rfl⟩

/-- A finalised lane is IDLE; the others stand. -/
theorem State.finalise_lane (s : State) (n : LaneNo) (r : Run) (o : RunOutcome) (m : LaneNo) :
    ((s.finalise n r o).lane m).run = if n = m then none else (s.lane m).run := by
  unfold State.finalise
  dsimp only
  unfold State.lane
  rw [(State.releaseKey_fields _ _ _).1]
  show (((s.setLane n _).notice _).lane m).run = _
  show ((s.setLane n _).lane m).run = _
  rw [State.setLane_lane]
  split <;> rfl

/-- A fold of stops leaves the lanes, the strike unit and the exercise. -/
theorem State.foldl_stopEnded_fields : ∀ (l : List AxisNo) (s : State),
    (l.foldl State.stopEnded s).lanes = s.lanes ∧ (l.foldl State.stopEnded s).strikes = s.strikes
  | [], _ => ⟨rfl, rfl⟩
  | a :: rest, s => by
    rw [List.foldl_cons]
    obtain ⟨h1, h2⟩ := State.foldl_stopEnded_fields rest (s.stopEnded a)
    rw [h1, h2]
    unfold State.stopEnded
    dsimp only
    have h := State.stopAxis_fields s a (s.axis a).dv
    split
    · exact ⟨h.1, h.2.2.1⟩
    · exact ⟨h.1, h.2.2.1⟩
    · exact ⟨h.1, h.2.2.1⟩
    · exact ⟨rfl, rfl⟩

theorem State.finalise_strikes (s : State) (n : LaneNo) (r : Run) (o : RunOutcome) :
    (s.finalise n r o).strikes = s.strikes :=
  (State.releaseKey_fields _ _ _).2.1

theorem State.endRun_lane (s : State) (n : LaneNo) (o : RunOutcome) (m : LaneNo) :
    ((s.endRun n o).lane m).run = if n = m then none else (s.lane m).run := by
  unfold State.endRun
  split
  · next h =>
    split
    · next he => rw [← he]; exact h
    · rfl
  · dsimp only
    rw [State.finalise_lane]
    split
    · rfl
    · show ((State.releaseClaims _ _).lane m).run = _
      unfold State.lane State.releaseClaims
      dsimp only
      split
      · rw [(State.foldl_stopEnded_fields _ _).1]; rfl
      · rfl

theorem State.endRuns_lane (s : State) (o : RunOutcome) (m : LaneNo) : ((s.endRuns o).lane m).run = none := by
  have key : ∀ (l : List LaneNo) (s : State), (m ∈ l ∨ (s.lane m).run = none) →
      ((l.foldl (fun s n => s.endRun n o) s).lane m).run = none := by
    intro l
    induction l with
    | nil => exact fun s h => h.resolve_left List.not_mem_nil
    | cons n rest ih =>
      intro s h
      rw [List.foldl_cons]
      apply ih
      rw [State.endRun_lane]
      rcases h with h | h
      · rcases List.mem_cons.mp h with rfl | h
        · exact .inr (if_pos rfl)
        · exact .inl h
      · right
        split
        · rfl
        · exact h
  exact key _ s (.inl (mem_indexes m))

theorem State.endRun_strikes (s : State) (n : LaneNo) (o : RunOutcome) :
    (s.endRun n o).strikes = s.strikes
      ∨ (s.endRun n o).strikes = { s.strikes with queue := s.strikes.queue.filter fun k => k.owner != .lane n } := by
  unfold State.endRun
  split
  · exact .inl rfl
  · right
    dsimp only
    rw [State.finalise_strikes]
    unfold State.releaseClaims
    dsimp only
    split
    · rw [(State.foldl_stopEnded_fields _ _).2]; rfl
    · rfl

/-- Ending runs removes queued strikes and changes nothing else of the strike unit. -/
theorem State.endRuns_strikes (s : State) (o : RunOutcome) :
    ∃ q, q.Sublist s.strikes.queue ∧ (s.endRuns o).strikes = { s.strikes with queue := q } := by
  have key : ∀ (l : List LaneNo) (s : State), ∃ q, q.Sublist s.strikes.queue
      ∧ (l.foldl (fun s n => s.endRun n o) s).strikes = { s.strikes with queue := q } := by
    intro l
    induction l with
    | nil => exact fun s => ⟨_, List.Sublist.refl _, rfl⟩
    | cons n rest ih =>
      intro s
      rw [List.foldl_cons]
      obtain ⟨q, hq, he⟩ := ih (s.endRun n o)
      rcases State.endRun_strikes s n o with h | h
      · rw [h] at hq he
        exact ⟨q, hq, he⟩
      · rw [h] at hq he
        exact ⟨q, hq.trans List.filter_sublist, he⟩
  exact key _ s

theorem State.endRuns_queue {s : State} (o : RunOutcome) (h : s.strikes.queue = []) : (s.endRuns o).strikes.queue = [] := by
  obtain ⟨q, hq, he⟩ := State.endRuns_strikes s o
  rw [h] at hq
  rw [he]
  exact List.sublist_nil.mp hq

/-! ## The exercise's end while nothing may start -/

/-- While nothing may start, an abort leaves the exercise done and the lanes, the strike unit and the axes as they are. -/
theorem State.abortExercise_rest {s : State} (c : AbortCause) (h : s.mustRest) :
    (s.abortExercise c).exercising = none ∧ (s.abortExercise c).lanes = s.lanes
      ∧ (s.abortExercise c).strikes = s.strikes ∧ (s.abortExercise c).motion = s.motion := by
  unfold State.abortExercise
  split
  · next e _ =>
    unfold State.endExercise State.walk
    dsimp only
    rw [if_pos]
    · refine ⟨?_, rfl, rfl, rfl⟩
      show State.exercising { s with exercise := some { e with phase := .done, verdict := some _ } } = none
      simp [State.exercising]
    · exact State.walkHeld_of_mustRest ((State.mustRest_congr (s := s) rfl).mpr h)
  · next h0 => exact ⟨h0, rfl, rfl, rfl⟩

/-! ## Axes put at rest -/

theorem State.skipDwell_fields (s : State) (a : AxisNo) :
    (s.skipDwell a).lanes = s.lanes ∧ (s.skipDwell a).strikes = s.strikes ∧ (s.skipDwell a).motion = s.motion
      ∧ (s.skipDwell a).exercise = s.exercise ∧ (s.skipDwell a).output = s.output := by
  unfold State.skipDwell State.chooseDwell State.verdict
  dsimp only
  split
  · split
    · split <;> exact ⟨rfl, rfl, rfl, rfl, rfl⟩
    · exact ⟨rfl, rfl, rfl, rfl, rfl⟩
  · exact ⟨rfl, rfl, rfl, rfl, rfl⟩

theorem State.allOff_fields (s : State) (p : AxisMode → Bool) :
    (s.allOff p).lanes = s.lanes ∧ (s.allOff p).strikes = s.strikes ∧ (s.allOff p).exercise = s.exercise
      ∧ (s.allOff p).output = s.output := by
  unfold State.allOff
  dsimp only
  split
  · split
    · obtain ⟨h1, h2, _, h4, h5⟩ := State.skipDwell_fields _ _
      exact ⟨h1, h2, h4, h5⟩
    · exact ⟨rfl, rfl, rfl, rfl⟩
  · exact ⟨rfl, rfl, rfl, rfl⟩

theorem State.allOff_axis (s : State) (p : AxisMode → Bool) (a : AxisNo) :
    (s.allOff p).axis a = if p (s.axis a).mode then (s.axis a).putOff else s.axis a := by
  unfold State.allOff State.axis
  dsimp only
  split
  · split
    · rw [(State.skipDwell_fields _ _).2.2.1]; exact tget_ofFn _ _
    · exact tget_ofFn _ _
  · exact tget_ofFn _ _

/-! ## The change to SAFE -/

theorem State.toSafe_rest (s : State) : s.toSafe.still ∧ s.toSafe.strikes.hammers = 0 := by
  unfold State.toSafe
  dsimp only
  generalize ht : (s.setOutputMode .safe).endRuns .mode = t
  have hlanes : ∀ n, (t.lane n).run = none := fun n => by rw [← ht]; exact State.endRuns_lane _ _ n
  have hsafe : t.mode = .safe := by
    have h := (Chain.endRuns (s.setOutputMode .safe) .mode).output_eq
    rw [ht] at h
    unfold State.mode
    rw [h]
    rfl
  have hhammers := t.strikes.hammerStop_hammers
  generalize t.strikes.hammerStop = u at hhammers
  generalize hv : ({ t with strikes := { u with queue := [] } } : State) = v
  have hvl : v.lanes = t.lanes := by rw [← hv]
  have hvs : v.strikes = { u with queue := [] } := by rw [← hv]
  have hvm : v.mode = .safe := by rw [← hv]; exact hsafe
  obtain ⟨hl, hst, _, ho⟩ := State.allOff_fields v fun m => m != .off
  have hrest : (v.allOff fun m => m != .off).mustRest := .inr (by
    unfold State.mode
    rw [ho]
    exact hvm)
  obtain ⟨he, hl', hst', hm'⟩ := State.abortExercise_rest .mode hrest
  have hwalk : ((v.allOff fun m => m != .off).abortExercise .mode).walk = (v.allOff fun m => m != .off).abortExercise .mode := by
    unfold State.walk
    rw [if_pos]
    exact State.walkHeld_of_mustRest ((Chain.mustRest_iff (Chain.abortExercise _ _)).mpr hrest)
  rw [hwalk]
  refine ⟨⟨fun n => ?_, ?_, he, fun a => ?_⟩, ?_⟩
  · unfold State.lane
    rw [hl', hl, hvl]
    exact hlanes n
  · rw [hst', hst, hvs]
  · unfold State.axis
    rw [hm']
    have h := State.allOff_axis v (fun m => m != .off) a
    unfold State.axis at h
    rw [h]
    split
    · rfl
    · next hne =>
      have : (tget v.motion.axes a).mode = .off := by simpa using hne
      rw [this]
      rfl
  · rw [hst', hst, hvs]
    exact hhammers

/-! ## The opening of the interlock in LIVE -/

theorem State.clearTower_rest (s : State) : (∀ n, (s.clearTower.lane n).run = none) ∧ s.clearTower.strikes.queue = [] := by
  unfold State.clearTower
  split
  · refine ⟨State.endRuns_lane _ _, State.endRuns_queue _ ?_⟩
    rw [State.removeInhibited_strikes]
  · refine ⟨fun n => ?_, ?_⟩
    · have key : ∀ (l : List Strike) (t : State), (t.lane n).run = none →
          ((l.foldl (fun s k => s.countFor k.owner fun r => { r with droppedInhibited := satInc r.droppedInhibited }) t).lane
            n).run = none := by
        intro l
        induction l with
        | nil => exact fun t h => h
        | cons k rest ih =>
          intro t h
          rw [List.foldl_cons]
          apply ih
          unfold State.countFor
          split
          · next m =>
            split
            · next r hr =>
              rw [State.setRun, State.setLane_lane]
              split
              · next he => subst he; rw [h] at hr; cases hr
              · exact h
            · exact h
          · exact h
      exact key _ _ (State.endRuns_lane _ _ n)
    · rw [State.removeInhibited_strikes]

theorem State.stopAxis_axis (s : State) (a : AxisNo) (dv : Nat) (c : AxisNo) :
    (s.stopAxis a dv).1.axis c = if a = c ∧ (s.axis a).mode.moving = true then ((s.axis a).stop dv).1 else s.axis c := by
  unfold State.stopAxis State.disturb
  dsimp only
  split
  · next hm =>
    have h : ∀ t : State, t.motion = (s.setAxis a ((s.axis a).stop dv).1).motion →
        t.axis c = if a = c ∧ (s.axis a).mode.moving = true then ((s.axis a).stop dv).1 else s.axis c := by
      intro t ht
      unfold State.axis
      rw [ht]
      have h2 := State.setAxis_axis s a c ((s.axis a).stop dv).1
      unfold State.axis at h2 ⊢
      unfold State.axis at hm
      rw [h2]
      simp [hm]
    split
    · exact h _ rfl
    · exact h _ rfl
  · next hm => simp [hm]

theorem AxisMode.commanded_moving {m : AxisMode} (h : m.commanded = true) : m.moving = true := by
  cases m <;> first | rfl | cases h

/-- After the fast stop no axis is in MOVE, SPIN or FOLLOW; the lanes, the strike unit and the exercise stand. -/
theorem State.fastStop_rest (s : State) :
    (∀ a, (s.fastStop.axis a).mode.commanded = false) ∧ s.fastStop.lanes = s.lanes ∧ s.fastStop.strikes = s.strikes
      ∧ s.fastStop.output = s.output := by
  have key : ∀ (l : List AxisNo) (t : State),
      (∀ a, (a ∈ l ∨ (t.axis a).mode.commanded = false) →
        ((l.foldl (fun s a => (s.stopAxis a (s.axis a).stopDv).1) t).axis a).mode.commanded = false)
      ∧ (l.foldl (fun s a => (s.stopAxis a (s.axis a).stopDv).1) t).lanes = t.lanes
      ∧ (l.foldl (fun s a => (s.stopAxis a (s.axis a).stopDv).1) t).strikes = t.strikes
      ∧ (l.foldl (fun s a => (s.stopAxis a (s.axis a).stopDv).1) t).output = t.output := by
    intro l
    induction l with
    | nil => exact fun t => ⟨fun a h => h.resolve_left List.not_mem_nil, rfl, rfl, rfl⟩
    | cons b rest ih =>
      intro t
      rw [List.foldl_cons]
      obtain ⟨h1, h2, h3, h4⟩ := ih (t.stopAxis b (t.axis b).stopDv).1
      obtain ⟨f1, _, f3, f4, _⟩ := State.stopAxis_fields t b (t.axis b).stopDv
      refine ⟨fun a ha => h1 a ?_, h2.trans f1, h3.trans f3, h4.trans f4⟩
      have hstop : (t.axis a).mode.commanded = false ∨ a = b →
          ((t.stopAxis b (t.axis b).stopDv).1.axis a).mode.commanded = false := by
        intro h
        rw [State.stopAxis_axis]
        split
        · next hc => exact Axis.stop_mode _ _ hc.2
        · next hc =>
          rcases h with h | h
          · exact h
          · subst h
            cases hcm : (t.axis a).mode.commanded with
            | false => rfl
            | true => exact absurd ⟨rfl, AxisMode.commanded_moving hcm⟩ hc
      rcases ha with ha | ha
      · rcases List.mem_cons.mp ha with rfl | ha
        · exact .inr (hstop (.inr rfl))
        · exact .inl ha
      · exact .inr (hstop (.inl ha))
  obtain ⟨h1, h2⟩ := key (indexes 12) s
  exact ⟨fun a => h1 a (.inl (mem_indexes a)), h2⟩

theorem State.stopTower_rest {s : State} (h : s.mustRest) : s.stopTower.still ∧ s.stopTower.strikes.hammers = 0 := by
  unfold State.stopTower
  dsimp only
  obtain ⟨hl, hq⟩ := State.clearTower_rest s
  have hm : s.clearTower.mustRest := (Chain.clearTower s).mustRest_iff.mpr h
  generalize s.clearTower = t at hl hq hm
  have hhammers := t.strikes.hammerStop_hammers
  have hqueue := t.strikes.hammerStop_queue
  generalize t.strikes.hammerStop = u at hhammers hqueue
  generalize hv : ({ t with strikes := u } : State) = v
  have hvl : v.lanes = t.lanes := by rw [← hv]
  have hvs : v.strikes = u := by rw [← hv]
  have hvo : v.output = t.output := by rw [← hv]
  obtain ⟨f1, f2, f3, f4⟩ := State.fastStop_rest v
  have hrest : v.fastStop.mustRest := (State.mustRest_congr (f4.trans hvo)).mpr hm
  obtain ⟨he, hl', hst', hm'⟩ := State.abortExercise_rest .interlock hrest
  refine ⟨⟨fun n => ?_, ?_, he, fun a => ?_⟩, ?_⟩
  · unfold State.lane
    rw [hl', f2, hvl]
    exact hl n
  · rw [hst', f3, hvs, hqueue, hq]
  · unfold State.axis
    rw [hm']
    exact f1 a
  · rw [hst', f3, hvs, hhammers]

/-! ## Resets -/

theorem State.softReset_rest (s : State) : s.softReset.still ∧ s.softReset.strikes.hammers = 0 := by
  unfold State.softReset State.softResetBlocks
  dsimp only
  refine ⟨⟨fun n => ?_, ?_, rfl, fun a => ?_⟩, ?_⟩
  · show (tget (Vector.replicate 4 (⟨none, none⟩ : Lane)) n).run = none
    rw [tget_replicate]
  · simp only [State.latch_strikes, StrikeUnit.softReset]
  · show (tget s.motion.softReset.axes a).mode.commanded = false
    simp only [Motion.softReset, tget_ofFn]
    rfl
  · simp only [State.latch_strikes, StrikeUnit.softReset]

theorem State.hardReset_rest (s : State) (baud : BitVec 2) :
    (s.hardReset baud).still ∧ (s.hardReset baud).strikes.hammers = 0 := by
  refine ⟨⟨fun n => ?_, rfl, rfl, fun a => ?_⟩, rfl⟩
  · show (tget State.reset.lanes n).run = none
    simp [State.reset]
  · show (tget State.reset.motion.axes a).mode.commanded = false
    simp [State.reset, Motion.reset, Axis.reset, AxisMode.commanded]

/-! ## The commands of output control keep laws 7 and 8 -/

/-- A tower that rests is safe whatever its mode and interlock become. -/
theorem State.towerSafe_of_output {s : State} (h : s.still) (h0 : s.strikes.hammers = 0) (o : OutputControl) :
    ({ s with output := o } : State).towerSafe :=
  State.towerSafe_of_rest (s := { s with output := o }) (State.still_congr (s := s) rfl rfl rfl rfl h) h0

/-- In SAFE a safe tower rests, with every output low. -/
theorem State.rest_of_safe {s : State} (hs : s.towerSafe) (h : s.mode = .safe) : s.still ∧ s.strikes.hammers = 0 :=
  ⟨hs.1 (.inr h), State.hammers_low hs.2 fun _ _ => by rw [h]; simp⟩

theorem State.unquiet_zero {s : State} (h : s.unquiet = 0) :
    (∀ n, (s.lane n).run = none) ∧ s.strikes.queue = [] ∧ (∀ b, (s.bell b).state ≠ .firing)
      ∧ (∀ a, (s.axis a).mode.moving = false) ∧ s.exercising = none := by
  unfold State.unquiet at h
  have key : ∀ p q r u v : Bool, ((if p then 1 else 0) + (if q then 0 else 2) + (if r then 4 else 0) + (if u then 8 else 0)
      + (if v then 16 else 0) : Byte) = 0 → p = false ∧ q = true ∧ r = false ∧ u = false ∧ v = false := by decide
  obtain ⟨h1, h2, h3, h4, h5⟩ := key _ _ _ _ _ h
  refine ⟨fun n => ?_, List.isEmpty_iff.mp h2, fun b hb => ?_, fun a => ?_, ?_⟩
  · have := List.any_eq_false.mp h1 n (mem_indexes n)
    simpa using this
  · have := List.any_eq_false.mp h3 b (mem_indexes b)
    simp [hb] at this
  · have := List.any_eq_false.mp h4 a (mem_indexes a)
    simpa using this
  · simpa using h5

theorem State.betweenRunning_towerSafe {s : State} (m : OutputMode) (hs : s.towerSafe) (h : s.unquiet = 0) :
    (s.betweenRunning m).towerSafe := by
  obtain ⟨hl, hq, hb, ha, he⟩ := State.unquiet_zero h
  have h0 : s.strikes.hammers = 0 := State.hammers_low hs.2 fun b hf => absurd hf (hb b)
  obtain ⟨fl, fs, fe, _⟩ := State.allOff_fields s fun x => x == .hold
  unfold State.betweenRunning
  refine Chain.towerSafe (Chain.walk _) (State.towerSafe_of_output ⟨fun n => ?_, ?_, ?_, fun a => ?_⟩ ?_ _)
  · unfold State.lane
    rw [fl]
    exact hl n
  · rw [fs]; exact hq
  · unfold State.exercising
    rw [fe]
    exact he
  · rw [State.allOff_axis]
    split
    · rfl
    · cases hc : (s.axis a).mode.commanded with
      | false => rfl
      | true =>
        have := AxisMode.commanded_moving hc
        rw [ha a] at this
        cases this
  · rw [fs]; exact h0

theorem State.changeMode_towerSafe {s : State} (tag : Byte) (m : OutputMode) (hs : s.towerSafe) :
    (s.changeMode tag m).towerSafe := by
  unfold State.changeMode
  split
  · exact Chain.towerSafe (Chain.reply _ _ _ _ _) hs
  · split
    · obtain ⟨h1, h2⟩ := State.toSafe_rest (s.reply tag 0x38 .ok [m.code])
      exact State.towerSafe_of_rest h1 h2
    · split
      · next hsafe =>
        have hr := Chain.towerSafe (Chain.reply s tag 0x38 .ok [m.code]) hs
        obtain ⟨h1, h2⟩ := State.rest_of_safe hr hsafe
        exact Chain.towerSafe (Chain.walk _) (State.towerSafe_of_output h1 h2 _)
      · split
        · exact Chain.towerSafe (Chain.reply _ _ _ _ _) hs
        · next hu =>
          have hu' : (s.reply tag 0x38 .ok [m.code]).unquiet = 0 := by
            show s.unquiet = 0
            simpa using hu
          exact State.betweenRunning_towerSafe m (Chain.towerSafe (Chain.reply _ _ _ _ _) hs) hu'

theorem State.openInterlock_towerSafe {s : State} (hs : s.towerSafe) : s.openInterlock.towerSafe := by
  unfold State.openInterlock
  dsimp only
  refine Chain.towerSafe ((Chain.notice _ _).trans (Chain.walk _)) ?_
  have hlatch := Chain.latch (s.setOpen true) fun l => { l with interlock := true }
  split
  · next hl =>
    have hm : ((s.setOpen true).latch fun l => { l with interlock := true }).mustRest := by
      left
      unfold State.stopped
      rw [hl]
      rfl
    obtain ⟨h1, h2⟩ := State.stopTower_rest hm
    exact State.towerSafe_of_rest h1 h2
  · next hl =>
    refine Chain.towerSafe hlatch ?_
    have hl' : s.mode ≠ .live := hl
    refine ⟨fun h => ?_, fun b hb => absurd (hs.2 b hb).2.1 hl'⟩
    rcases h with h | h
    · exact absurd h (by
        have hm : (s.setOpen true).mode = s.mode := rfl
        unfold State.stopped
        rw [hm]
        simp [hl'])
    · exact State.still_congr (s := s) rfl rfl rfl rfl (hs.1 (.inr h))

theorem State.closeInterlock_towerSafe {s : State} (hs : s.towerSafe) : s.closeInterlock.towerSafe := by
  unfold State.closeInterlock
  dsimp only
  refine Chain.towerSafe ((Chain.notice _ _).trans (Chain.walk _)) ?_
  refine ⟨fun h => ?_, fun b hb => ?_⟩
  · rcases h with h | h
    · exact absurd h (by simp [State.stopped, State.setOpen])
    · exact State.still_congr (s := s) rfl rfl rfl rfl (hs.1 (.inr h))
  · obtain ⟨h1, h2, _⟩ := hs.2 b hb
    exact ⟨h1, h2, rfl⟩

theorem State.atriumChange_towerSafe {s : State} (l : Bool) (hs : s.towerSafe) : (s.atriumChange l).towerSafe := by
  unfold State.atriumChange
  split
  · exact hs
  · exact hs

end Sys2Proof.Machine
end

