-- ==== Sys2Proof/Tests/Slice0.lean ====
section
/-! SUPPORT. Tests: commands the lines cannot carry are refused by `Instr.wf`; the worked cases of the manual; and for
each statement with hypotheses a concrete case, at the boundaries of its clauses, that meets them. -/
namespace Sys2Proof.Test
open Sys2Proof.Machine
set_option Elab.async false

/-! ## What the lines cannot carry -/

theorem test_wf_badKind_request : (Instr.requestBadKind 1 0x01 []).wf = false := by decide
theorem test_wf_badKind_high : (Instr.requestBadKind 1 0x80 []).wf = false := by decide
theorem test_wf_badKind_long : (Instr.requestBadKind 1 0x7F (List.replicate 239 0)).wf = false := by decide +kernel
theorem test_wf_showData_empty : (Instr.showData 1 0 0 []).wf = false := by decide
theorem test_wf_showData_long : (Instr.showData 1 0 0 (List.replicate 25 0)).wf = false := by decide
theorem test_wf_setCurve_short : (Instr.setCurve 1 (List.replicate 16 0)).wf = false := by decide
theorem test_wf_requestExpiry : (Instr.requestExpiry 0).wf = false ∧ (Instr.requestExpiry 256).wf = false := by decide
theorem test_wf_axisReply : (Instr.axisReply (List.replicate 8 0)).wf = false := by decide
theorem test_wf_axisBusDecode : (Instr.axisBusDecode (List.replicate 10 0)).wf = false := by decide
theorem test_wf_hardReset : (Instr.hardReset (.pin 9) 0).wf = false := by decide

/-! ## States to start from -/

/-- The bounded arm of chapter 8, in HOLD at 1,000. -/
def arm : Axis := { Axis.reset with
  config := some ⟨.bounded (-90000) 90000, 20000, 5000, 10000, 400⟩
  mode := .hold, cmd := some 1000, measured := some 1000 }

/-- A turntable in HOLD at 0. -/
def ring : Axis := { Axis.reset with
  config := some ⟨.wrap, 240000, 5000, 10000, 500⟩, mode := .hold, cmd := some 0, measured := some 0 }

/-- A configured axis in OFF at its measured position 0. -/
def idle : Axis := { ring with mode := .off }

/-- LIVE, the interlock closed, 25 December 2027 at 10:14:59.700, every bell READY; axis 2 a turntable and axis 3 an arm in
HOLD, axis 5 a turntable in OFF. -/
def live : State := { State.reset with
  cal := { Calendar.reset with
    time := ⟨⟨2027, 12, 25⟩, 10, 14, 59, 700, 0⟩, timeValid := true, ppsEnable := true, ppsState := .locked
    ppsSince := some ⟨1000, 0⟩, ppsDeadline := 2500000 }
  strikes := { StrikeUnit.reset with bells := Vector.replicate 32 { Bell.reset with state := .ready } }
  motion := { Motion.reset with
    axes := Vector.ofFn fun a => if a = 2 then ring else if a = 3 then arm else if a = 5 then idle else Axis.reset }
  output := ⟨.live, false, true, 0⟩ }

/-- The same in another output mode. -/
def inMode (m : OutputMode) : State := { live with output := { live.output with mode := m } }

/-- A step record from its kind and selector byte, its delta and its five argument bytes (section 11.5). -/
def stepOf (first : Byte) (delta : Half) (arguments : BitVec 40) : StepWord := first ++ delta ++ arguments

/-- STRIKE bell 3 velocity 100 after 1,000 ms, then END. -/
def tune : List StepWord := [stepOf 0x10 1000 0x0364000000, stepOf 0xC0 0 0]

/-- Show 1 is READY in slots 5 and 6, claims axis 3 and has a run limit of 60 s. -/
def stored : Store := { Store.reset with
  directory := tset Store.reset.directory 1 (.ready ⟨.playable 0x008 60, 5, 2⟩), mem := Memory.writeSlots [] 5 tune }

/-- A request for show 1. -/
def asked (id priority arrival : Nat) : Request := ⟨id, 1, priority, .link, arrival, 5000, 0⟩

/-- A run of show 1, as R50 opens it. -/
def run (id priority startSeq : Nat) : Run :=
  { State.newRun { live with store := stored } (asked id priority 0) ⟨.playable 0x008 60, 5, 2⟩ 60 with
    startSeq := startSeq }

/-- Lane 0 runs show 1 and owns axis 3. -/
def playing : State := { live with
  store := stored, lanes := tset live.lanes 0 ⟨some (run 5 4 0), none⟩
  sched := { live.sched with claims := tset live.sched.claims 3 (some (.lane 0)) } }

/-- A strike of bell 3. -/
def strike (order : Nat) (due : Instant) (f : FireState) : Strike :=
  ⟨3, 100, .lane 0, due, 8000, 9000, due - 8000, false, false, false, f, order⟩

/-- A strike of bell 3 in flight, fired at 0. -/
def flying (w : Window) : InFlight := ⟨.lane 0, 100, 8000, 8000, 9000, 0, 8000, 4000, 23000, w⟩

/-- Bell 3 in a state, with a strike in flight. -/
def belled (s : State) (x : BellState) (w : Window) : State :=
  s.setBell 3 { s.bell 3 with state := x, inFlight := some (flying w) }

/-- The same at an instant. -/
def at' (s : State) (t : Instant) : State := { s with now := t }

/-- The next state of an answer. -/
def after (o : Host.Outcome State Fault Refusal) : Option State :=
  match o with
  | .next t => some t
  | _ => none

/-! ## Worked cases of the manual -/

/-- The check of R145 is the CRC-16 with polynomial 0x1021 and initial value 0xFFFF. -/
theorem test_check : checkOf [0x31, 0x32, 0x33, 0x34, 0x35, 0x36, 0x37, 0x38, 0x39] = 0x29B1 := by decide +kernel

/-- R2: 25 December 2027 and 8 January 2028 are Saturdays, 12 January 2028 a Wednesday. -/
theorem test_weekday : Date.weekday ⟨2027, 12, 25⟩ = 5 ∧ Date.weekday ⟨2028, 1, 8⟩ = 5 ∧ Date.weekday ⟨2028, 1, 12⟩ = 2 := by
  decide +kernel

/-- The three entries of the season example, on a date. -/
def seasonal (d : Date) : Calendar := { live.cal with
  time := { live.cal.time with date := d }
  seasons := tset (tset (tset live.cal.seasons 0 ⟨true, 12, 1, 1, 6, 0x7F, 3, 5⟩) 1 ⟨true, 12, 24, 12, 26, 0x7F, 4, 9⟩)
    2 ⟨true, 1, 1, 12, 31, 0x60, 2, 1⟩ }

theorem test_seasons : (seasonal ⟨2027, 12, 25⟩).choice = (some 1, 4) ∧ (seasonal ⟨2027, 12, 27⟩).choice = (some 0, 3)
    ∧ (seasonal ⟨2028, 1, 8⟩).choice = (some 2, 2) ∧ (seasonal ⟨2028, 1, 12⟩).choice = (none, 0) := by decide +kernel

/-- The alignment example: an edge at .700 completes the second and the minute. -/
theorem test_ppsEdge : live.alignTime.lockPps.cal.time = ⟨⟨2027, 12, 25⟩, 10, 15, 0, 0, 0⟩
    ∧ live.alignTime.lockPps.cal.ppsDeadline = 2500000 := by decide +kernel

/-- The full-queue example: a request of priority 5 evicts id 44; one of priority 2 is refused. -/
def full : State := { live with sched := { live.sched with
  queue := [asked 1 9 0, asked 2 7 1, asked 3 7 2, asked 4 4 3, asked 6 4 4, asked 7 4 5, asked 41 2 6, asked 44 2 7]
  arrivals := 8 } }

theorem test_roomFor : full.roomFor 5 = some (some (asked 44 2 7)) ∧ full.roomFor 2 = none := by decide +kernel

/-- The ordinary strike of section 5.10. -/
theorem test_ordinaryStrike :
    ({ StrikeUnit.reset with curve := tset (tset StrikeUnit.reset.curve 9 2600) 10 2900 } : StrikeUnit).compute 75
      Bell.reset 100 = some ⟨8624, 8533, false⟩ := by decide +kernel

/-- The table of limits of section 5.10. -/
theorem test_strikeLimits : let u := StrikeUnit.reset
    u.compute 100 Bell.reset 127 = some ⟨11922, 5039, false⟩
      ∧ u.compute 100 { Bell.reset with k := 100000 } 127 = some ⟨11922, 1000, true⟩
      ∧ u.compute 100 { Bell.reset with k := 4000000 } 127 = some ⟨11922, 31496, false⟩
      ∧ u.compute 97 Bell.reset 1 = some ⟨2078, 100000, true⟩ ∧ u.compute 96 Bell.reset 1 = none
      ∧ u.compute 100 Bell.reset 6 = some ⟨2469, 100000, true⟩ ∧ u.compute 100 Bell.reset 7 = some ⟨2547, 91428, false⟩
      ∧ u.compute 97 { Bell.reset with k := 1000 } 1 = some ⟨2078, 1000, false⟩
      ∧ u.compute 100 { Bell.reset with k := 1000 } 2 = some ⟨2156, 1000, true⟩ := by decide +kernel

/-- Across the timebase wrap a fire instant is before its due instant, and after now. -/
theorem test_wrap : (3000 - micros 8533 : Instant) = 4294961763 ∧ before (4294961763 : Instant) 3000 = true
    ∧ entryFire 4294720296 4294961763 20000 = some (4294961763, false) := by decide +kernel

/-- A strike entered late: 8,000 µs, within the tolerance. -/
theorem test_late : entryFire 10000000 9992000 20000 = some (10000000, true)
    ∧ entryFire 10000000 9974000 20000 = none := by decide +kernel

/-- The merge of section 5.10, with the level unchanged and in the quiet window. -/
def queued60 : Strike := ⟨2, 60, .lane 1, 20000000, 10666, 6688, 19989334, false, false, false, .scheduled, 0⟩

theorem test_merge : mergedWith StrikeUnit.reset 100 19800000 queued60 90
      = ⟨2, 90, .lane 1, 20000000, 7111, 9031, 19992889, false, false, true, .scheduled, 0⟩
    ∧ mergedWith StrikeUnit.reset 30 19800000 queued60 90
      = ⟨2, 90, .lane 1, 20000000, 23703, 4109, 19976297, false, false, true, .scheduled, 0⟩ := by decide +kernel

/-- The worked move of chapter 7. -/
def moved : Nat → Axis
  | 0 => { arm with cmd := some 0, mode := .move 1000 .short 20000 }
  | n + 1 => (profile (fun _ => ring) ⟨.bounded (-90000) 90000, 20000, 5000, 10000, 400⟩ (moved n)).1

theorem test_move : (List.range 9).map (fun n => (moved n).cmd) =
      [some 0, some 50, some 150, some 300, some 500, some 700, some 850, some 950, some 1000]
    ∧ (moved 7).mode = .move 1000 .short 20000 ∧ (moved 8).mode = .hold ∧ (moved 8).v = 0 := by decide +kernel

/-- The shorter way round, and the long way. -/
theorem test_shorterWay : moveDistance .wrap .short 10000 350000 = 20000
    ∧ moveDistance .wrap .ccw 10000 350000 = -340000 := by decide +kernel

/-- Residue at a slow speed, one way and the other. -/
theorem test_residue :
    let x := { ring with cmd := some 100, mode := .spin 250, v := 250 }
    let y := (advance .wrap x 250).1
    let z := (advance .wrap x (-250)).1
    (y.cmd = some 102 ∧ y.residue = 50) ∧ ((advance .wrap y 250).1.cmd = some 105 ∧ (advance .wrap y 250).1.residue = 0)
      ∧ (z.cmd = some 97 ∧ z.residue = 50) ∧ (advance .wrap z (-250)).1.cmd = some 95 := by decide +kernel

/-- The worked follow across a wrap: update k + 1. -/
theorem test_follow :
    let x := followUpdate ⟨.wrap, 240000, 5000, 5000, 500⟩ { ring with cmd := some 181500 }
      { ring with cmd := some 1000, turns := 5 } (-3) 2 0
    x.cmd = some 179100 ∧ x.v = -240000 ∧ x.lag = true := by decide +kernel

/-- The two dwells of chapter 8. -/
theorem test_dwells :
    positionError .wrap 250 359800 = 450 ∧ positionError (.bounded (-90000) 90000) 12620 12000 = 620 := by decide +kernel

/-- The test positions of the exercised arm. -/
theorem test_positions : (List.finRange 8).map (testPosition (.bounded (-90000) 90000)) =
    [-90000, -64286, -38572, -12858, 12857, 38571, 64285, 90000] := by decide +kernel

/-- The hour on a twelve-hour dial. -/
theorem test_hour12 : hour12 15 = 3 ∧ hour12 0 = 12 ∧ hour12 12 = 12 := by decide

/-- Steps written out from section 11.5. -/
theorem test_decodeStep : decodeStep (stepOf 0x10 1500 0x006E000000) = .strike 0 110
    ∧ stepDelta (stepOf 0x10 1500 0x006E000000) = 1500
    ∧ decodeStep (stepOf 0x20 0 0x0AFC807530) = .move 0 true .short 90000 30000
    ∧ decodeStep (stepOf 0x32 0 0x01D4C00000) = .spin 2 120000
    ∧ decodeStep (stepOf 0x60 0 0x0003271000) = .waitAxis 3 10000
    ∧ decodeStep (stepOf 0x90 0 0x0600000009) = .branch 0 6 0 9
    ∧ decodeStep (stepOf 0x80 0 0x0100000000) = .countSet 1 0
    ∧ decodeStep (stepOf 0x42 0 0) = .stop 2
    ∧ decodeStep (stepOf 0x56 0 0x0F42000000) = .follow 6 0 (-3) 2 0
    ∧ decodeStep (stepOf 0xC0 0 0) = .endStep ∧ decodeStep 0 = .unknown := by decide +kernel

/-! ## The hypotheses of the statements are met: port and resets -/

theorem test_StepRunsFrontCommand : ({ live with pending := [.frameComplete, .ppsEdge] } : State).pending =
    Instr.frameComplete :: [.ppsEdge] := rfl

/-- Idle with nothing due, with one thing due, with two. -/
theorem test_IdleStepDoesOneThing : live.pending = [] ∧ State.reset.dueNow = []
    ∧ ({ State.reset with port := { State.reset.port with resetDue := true } } : State).dueNow = [.event .softReset]
    ∧ ({ State.reset with
        port := { State.reset.port with resetDue := true }
        cal := { State.reset.cal with time := ⟨⟨2000, 1, 1⟩, 0, 0, 0, 999, 1000⟩ } } : State).dueNow =
          .event .softReset :: .event .timedPlayRelease :: [] := by decide +kernel

/-- Inside a frame at an instant, the last byte having come at 0. -/
def receiving (bytes : List Byte) (t : Instant) : State :=
  at' { live with port := { live.port with receiver := .inside bytes } } t

theorem test_FramesReceived : live.port.receiver = .hunting
    ∧ (receiving [] 2000).port.receiver = .inside [] ∧ frameIsComplete [] = false ∧ frameIsComplete [2, 7] = false
    ∧ before (receiving [] 2000).now ((receiving [] 2000).port.lastByte + 2001) = true
    ∧ before (receiving [] 2001).now ((receiving [] 2001).port.lastByte + 2001) = false := by decide +kernel

/-- A PING frame with its check. -/
def pingFrame (high low : Byte) : State := receiving (([2, 7, 1] : List Byte) ++ [high, low]) 0

theorem test_CompleteFrameExamined :
    (pingFrame 0 0).port.receiver = .inside ((2 :: 7 :: 1 :: []) ++ [0, 0]) ∧ (2 : Byte).toNat = ([] : List Byte).length + 2
      ∧ (0 : Byte) ++ (0 : Byte) ≠ checkOf (2 :: 7 :: 1 :: [])
      ∧ (∃ high low : Byte, high ++ low = checkOf (2 :: 7 :: 1 :: []))
      ∧ (∃ high low : Byte, high ++ low = checkOf (2 :: 7 :: 0x80 :: []))
      ∧ 0x80 ≤ (0x80 : Byte).toNat ∧ (0x7F : Byte).toNat < 0x80 := by
  refine ⟨rfl, rfl, by decide +kernel, ⟨(checkOf [2, 7, 1]).extractLsb' 8 8, (checkOf [2, 7, 1]).extractLsb' 0 8, ?_⟩,
    ⟨(checkOf [2, 7, 0x80]).extractLsb' 8 8, (checkOf [2, 7, 0x80]).extractLsb' 0 8, ?_⟩, by decide, by decide⟩ <;> decide +kernel

/-- The port while a compaction runs, a reply is held, a RESET reply waits. -/
theorem test_UnreadyPortOffers : requestFrame (.ping 7) = some ⟨7, 1, []⟩
    ∧ ({ live with store := { live.store with compaction := some ⟨7, 100⟩ } } : State).store.compaction ≠ none
    ∧ ({ live with port := { live.port with held := some ⟨.reply, 7, 0x81, [0]⟩ } } : State).port.held ≠ none
    ∧ ({ live with port := { live.port with resetWaiting := true } } : State).port.resetWaiting = true
    ∧ (List.replicate 3 (⟨7, 1, []⟩ : RxFrame)).length < 4 ∧ 4 ≤ (List.replicate 4 (⟨7, 1, []⟩ : RxFrame)).length := by
  decide +kernel

theorem test_RequestFramesReadBack :
    (Instr.showData 1 2 0 (List.replicate 24 0)).wf = true ∧ (requestFrame (.showData 1 2 0 (List.replicate 24 0))).isSome = true
    ∧ (Instr.setCurve 1 (List.replicate 17 0)).wf = true ∧ (requestFrame (.setCurve 1 (List.replicate 17 0))).isSome = true
    ∧ (Instr.requestBadKind 1 0x7F (List.replicate 238 0)).wf = true := by decide +kernel

/-- Transmit queues of fifteen and sixteen frames. -/
def sent (n : Nat) (last : List TxFrame) : List TxFrame := List.replicate n ⟨.reply, 1, 0x81, [0]⟩ ++ last

theorem test_FramesSent : (sent 15 []).length < 16
    ∧ (∃ head older n newer, 16 ≤ (sent 15 [(Notice.time true).frame]).length
        ∧ sent 15 [(Notice.time true).frame] = head :: (older ++ n :: newer) ∧ n.role = .notice
        ∧ ∀ g ∈ older, g.role ≠ .notice)
    ∧ (∃ head rest, 16 ≤ (sent 16 []).length ∧ sent 16 [] = head :: rest ∧ ∀ g ∈ rest, g.role ≠ .notice)
    ∧ (0 : BitVec 12).getLsbD (Notice.time true).number = false ∧ (0xFFF : BitVec 12).getLsbD (Notice.time true).number = true
    ∧ before (0 : Instant) 0 = false := by
  refine ⟨by decide, ⟨⟨.reply, 1, 0x81, [0]⟩, sent 14 [], (Notice.time true).frame, [], ?_⟩,
    ⟨⟨.reply, 1, 0x81, [0]⟩, sent 15 [], ?_⟩, ?_⟩ <;> decide +kernel

/-- The head frame's last stop bit falls now. -/
theorem test_HeadFrameLeaves :
    let s := { live with port := { live.port with tx := sent 1 [], sentAt := some 0 } }
    s.port.tx = ⟨.reply, 1, 0x81, [0]⟩ :: [] ∧ s.port.sentAt = some 0 ∧ before s.now 0 = false
      ∧ before s.now 1 = true ∧ live.port.sentAt = none := by decide +kernel

/-- The port takes requests: a premise of most statements about one. -/
theorem test_portReady : live.portReady = true ∧ live.takes = true ∧ playing.takes = true
    ∧ (inMode .safe).takes = true := by decide +kernel

/-- Two frames wait: a PING of the wrong length, then a PING. -/
def waitingFrames : State := { live with port := { live.port with rx := [⟨7, 1, [0]⟩, ⟨8, 1, []⟩] } }

theorem test_OldestFrameTaken : waitingFrames.port.rx = ⟨7, 1, [0]⟩ :: [⟨8, 1, []⟩] ∧ waitingFrames.portReady = true
    ∧ waitingFrames.takes = false ∧ parseRequest ⟨7, 1, [0]⟩ = .answer .badLength
    ∧ parseRequest ⟨8, 1, []⟩ = .request (.ping 8) ∧ waitingFrames.port.handing = false := by decide +kernel

/-- The oldest frame is answered first, and a request command joins the queue behind it. -/
theorem test_frames : (after (waitingFrames.doDue .takeFrame)).map (fun t =>
      (t.port.rx.length, t.port.tx.map TxFrame.payload, t.port.handing)) = some (1, [[2]], false)
    ∧ (after (exec (.getTime 9) waitingFrames)).map (fun t => (t.port.rx.map RxFrame.tag, t.port.tx)) =
      some ([7, 8, 9], []) := by decide +kernel

/-- Payloads of a length that section 11.4 lists and of one it does not, unknown codes, and a kind that is no request. -/
theorem test_FramesParsed : LengthAllowed 0x20 (List.replicate 10 0) ∧ LengthAllowed 0x13 (List.replicate 195 0)
    ∧ ¬LengthAllowed 0x13 (List.replicate 196 0) ∧ ¬LengthAllowed 0x01 [0] ∧ ¬UnknownCode 0x01 [0]
    ∧ UnknownCode 0x05 [6] ∧ UnknownCode 0x31 [0, 7] ∧ isRequestKind 0x01 = true ∧ isRequestKind 0x70 = false := by
  refine ⟨Or.inr rfl, ⟨24, by decide, by decide, rfl⟩, fun ⟨n, _, hn, h⟩ => ?_,
    fun h => absurd (show 1 = 0 from h) (by decide), fun h => ?_, Or.inl ⟨rfl, 6, rfl, by decide⟩,
    Or.inr ⟨rfl, 7, rfl, by decide⟩, by decide, by decide⟩
  · have h : 196 = 3 + 8 * n := h
    omega
  · rcases h with ⟨h, _⟩ | ⟨h, _⟩ <;> exact absurd h (by decide)

theorem test_SoftReset_HardReset : live.takes = true ∧ 9 < 10
    ∧ (ResetCause.pin 10 = .powerUp ∨ ∃ low, ResetCause.pin 10 = .pin low ∧ 10 ≤ low) :=
  ⟨by decide +kernel, by decide, .inr ⟨10, rfl, by decide⟩⟩

theorem test_PingAndMask : (0x0FFF : Half).toNat < 4096 ∧ 4096 ≤ (0x1000 : Half).toNat := by decide

theorem test_QueriesChangeNothing : (63 : Byte).toNat ≤ 63 ∧ 63 < (64 : Byte).toNat := by decide

theorem test_CalendarQueried : (1 : Byte).toNat = 1 ∧ (15 : Byte).toNat = (15 : Fin 16).val ∧ 16 ≤ (16 : Byte).toNat
    ∧ (95 : Byte).toNat = (95 : Fin 96).val ∧ 96 ≤ (96 : Byte).toNat ∧ 4 < (5 : Byte).toNat := by decide

/-- QUERY of programme 15 and of an index beyond the seasons; STORE_LIST of the last entry. -/
theorem test_queries : (after (exec (.queryCalendar 7 1 15) live)).map (fun t => t.port.tx.map TxFrame.payload) =
      some [[0, 100, 100, 0, 0, 0, 0]]
    ∧ (after (exec (.queryCalendar 7 2 16) live)).map (fun t => t.port.tx.map TxFrame.payload) = some [[3]]
    ∧ (after (exec (.storeList 7 63) live)).map (fun t => t.port.tx.map fun f => f.payload.drop 11) =
      some [[1, 63, 0, 0xFF, 0xFF, 0xFF, 0xFF, 0xFF, 0xFF, 0xFF, 0xFF, 0xFF]] := by decide +kernel

/-- What PING answers after a hard reset. -/
theorem test_ping : after (exec (.ping 7) State.reset) = some (({ State.reset with port := { State.reset.port with
    resetRecord := ⟨.hard, true⟩, tx := [⟨.reply, 7, 0x81,
      [0, 0x4C, 1, 32, 12, 4, 64, 0x20, 0, 8, 8, 64, 4, 16, 0, 0]⟩], sentAt := some 11459 } } : State)) := by
  decide +kernel

/-- An unknown kind, an unready port, a frame of the wrong length. -/
theorem test_taken : after (exec (.requestBadKind 7 0x70 []) State.reset) = some (State.reset.reply 7 0x70 .badKind)
    ∧ parseRequest ⟨7, 1, [0]⟩ = .answer .badLength ∧ parseRequest ⟨7, 5, [6]⟩ = .answer .badArg := by decide +kernel

/-! ## The calendar -/

theorem test_TimeAdvances : Date.valid ⟨2099, 12, 30⟩ = true ∧ (⟨2099, 12, 30⟩ : Date) ≠ ⟨2099, 12, 31⟩
    ∧ live.cal.time.micro < 999
    ∧ ({ live with cal := { live.cal with time := { live.cal.time with micro := 999, milli := 998 } } } : State).cal.time.milli < 999
    := by decide +kernel

/-- Time invalid; the winner as it is; a different programme chosen. -/
theorem test_ProgrammeChosen : State.reset.cal.timeValid = false ∧ live.cal.choice.2 = live.cal.active
    ∧ live.cal.choice.1 = none ∧ (seasonal ⟨2027, 12, 25⟩).timeValid = true
    ∧ (seasonal ⟨2027, 12, 25⟩).choice.1 = some 1
    ∧ (tget (seasonal ⟨2027, 12, 25⟩).seasons 1).programme < 16
    ∧ (seasonal ⟨2027, 12, 25⟩).choice.2 ≠ (seasonal ⟨2027, 12, 25⟩).active := by decide +kernel

theorem test_SetTimeLoads : Date.valid ⟨(2099 : Half).toNat, (2 : Byte).toNat, (28 : Byte).toNat⟩ = true
    ∧ Date.valid ⟨(2099 : Half).toNat, (2 : Byte).toNat, (29 : Byte).toNat⟩ = false ∧ (23 : Byte).toNat ≤ 23
    ∧ (59 : Byte).toNat ≤ 59 ∧ (999 : Half).toNat ≤ 999 ∧ ((1 : Byte) = 0 ∨ (1 : Byte) = 1) := by decide

theorem test_SetProgrammeWrites : (15 : Byte).toNat = (15 : Fin 16).val ∧ (100 : Byte).toNat ≤ 100
    ∧ (1439 : Half).toNat ≤ 1439 ∧ ¬(1440 : Half).toNat ≤ 1439 := by decide

theorem test_TablesWritten : (15 : Byte).toNat = (15 : Fin 16).val ∧ 15 < (16 : Byte).toNat
    ∧ (12 : Byte).toNat ≤ 12 ∧ (29 : Byte).toNat ≤ monthLength 2000 (2 : Byte).toNat ∧ (0x7F : Byte).toNat < 128
    ∧ ¬(0x80 : Byte).toNat < 128 ∧ (95 : Byte).toNat = (95 : Fin 96).val ∧ 95 < (96 : Byte).toNat
    ∧ (63 : Byte).toNat ≤ 63 := by decide

/-- A trigger of 10:14 on every day; it fires, and does not fire twice. -/
def daily : Trigger := ⟨true, none, 0xFFFFFF, 14, 0x7F, 1, 4, 5, none⟩

theorem test_TriggerFires : daily.firesAt live.cal = true
    ∧ { daily with lastFired := some live.cal.time.dateMinute }.firesAt live.cal = false := by decide +kernel

/-- Trigger 95 fires at 10:14 and is recorded; with time invalid none is tested. -/
theorem test_testTrigger : let s := { live with cal := { live.cal with triggers := tset live.cal.triggers 95 daily } }
    (tget s.cal.triggers 95).firesAt s.cal = true ∧ (tget s.cal.triggers 0).firesAt s.cal = false ∧ s.cal.timeValid = true
    ∧ (tget (s.testTrigger 95).cal.triggers 95).lastFired = some s.cal.time.dateMinute ∧ State.reset.cal.timeValid = false := by
  decide +kernel

/-- The carry has come out of second 59, out of second 58, and out of 2099. -/
def carrying (t : MallTime) : State := { live with cal := { live.cal with time := t } }

theorem test_CarryByRunning :
    (carrying ⟨⟨2027, 12, 25⟩, 10, 14, 59, 999, 1000⟩).cal.time.inRange
    ∧ (carrying ⟨⟨2027, 12, 25⟩, 10, 14, 58, 999, 1000⟩).cal.time.inRange
    ∧ (carrying ⟨⟨2099, 12, 31⟩, 23, 59, 59, 999, 1000⟩).cal.time.inRange
    ∧ (carrying ⟨⟨2099, 12, 31⟩, 23, 59, 59, 999, 1000⟩).cal.time.nextSecond.date.year < 2099 := by
  unfold MallTime.inRange
  decide +kernel

/-- Minute boundaries within a date, into another date, and out of 2099. -/
theorem test_CarryActs : live.cal.time.date = ⟨2027, 12, 25⟩ ∧ (⟨2027, 12, 24⟩ : Date) ≠ live.cal.time.date
    ∧ ¬live.cal.time.date.year < 2027 ∧ live.cal.time.date.year < 2099 ∧ live.cal.time.second = 59 := by decide +kernel

/-- The PPS edge: ignored at 499 ms, accepted at 500; aligned back at .499 and forward at .500; regained from LOST. -/
def edged (ms milli : Nat) (p : PpsState) : State := { live with cal := { live.cal with
  ppsSince := some ⟨ms, 0⟩, ppsState := p, time := { live.cal.time with milli := milli } } }

theorem test_PpsFollowed : (edged 499 499 .lost).cal.time.inRange ∧ (edged 500 500 .lost).cal.time.inRange
    ∧ (edged 499 0 .lost).cal.ppsSince = some ⟨499, 0⟩ ∧ (edged 500 0 .lost).cal.ppsSince = some ⟨500, 0⟩
    ∧ live.cal.ppsEnable = true ∧ live.cal.timeValid = true ∧ State.reset.cal.ppsEnable = false
    ∧ live.cal.ppsState = .locked ∧ before (at' live 2499999).now live.cal.ppsDeadline = true
    ∧ before (at' live 2500000).now live.cal.ppsDeadline = false := by
  unfold MallTime.inRange
  decide +kernel

/-! ## The show store -/

/-- The store after reset is lawful. -/
theorem test_lawfulEmpty : Store.reset.lawful := by
  have free : ∀ i, tget Store.reset.directory i = .free := fun i => tget_replicate _ i
  refine ⟨rfl, fun c h => (List.not_mem_nil h).elim, fun i b h => ?_, fun i j b c _ h => ?_, fun i b h => ?_, fun _ => rfl⟩
  · rw [free] at h; cases h
  · rw [free] at h; cases h
  · rw [free] at h; cases h

/-- A store whose only block is READY in the slots from `first` on. -/
def oneBlock (b : Block) : Store := { Store.reset with directory := tset Store.reset.directory 1 (.ready b) }

theorem oneBlock_entry (b : Block) (i : Fin 64) : tget (oneBlock b).directory i = if 1 = i then .ready b else .free := by
  unfold oneBlock
  dsimp only
  rw [tget_tset]
  split
  · rfl
  · exact tget_replicate _ i

theorem test_lawfulOne (b : Block) (h1 : 1 ≤ b.count) (h2 : b.first + b.count ≤ 8192) : (oneBlock b).lawful := by
  refine ⟨rfl, fun c h => (List.not_mem_nil h).elim, fun i c h => ?_, fun i j c d hij hc hd => ?_, fun i c h => ?_, fun _ => rfl⟩
  · rw [oneBlock_entry] at h
    split at h
    · cases h; exact ⟨h1, h2⟩
    · cases h
  · rw [oneBlock_entry] at hc hd
    split at hc
    · next hi =>
      split at hd
      · next hj => exact (hij (hi.symm.trans hj)).elim
      · cases hd
    · cases hc
  · rw [oneBlock_entry] at h
    split at h <;> cases h

theorem test_FirstFitAllocates : Store.reset.lawful ∧ Store.reset.firstFit 8192 = some 0 ∧ Store.reset.largestRun = 8192
    ∧ (oneBlock ⟨.phrase, 3, 2⟩).lawful ∧ (oneBlock ⟨.phrase, 3, 2⟩).firstFit 3 = some 0
    ∧ (oneBlock ⟨.phrase, 3, 2⟩).firstFit 4 = some 5 ∧ (oneBlock ⟨.phrase, 3, 2⟩).firstFit 8188 = none :=
  ⟨test_lawfulEmpty, by decide +kernel, by decide +kernel, test_lawfulOne _ (by decide) (by decide), by decide +kernel,
    by decide +kernel, by decide +kernel⟩

/-- Show 2 is OPEN with four steps, some of them loaded. -/
def loading (cursor : Nat) : State := { live with store := { stored with
  directory := tset stored.directory 2 (.opened ⟨.phrase, 10, 4⟩), cursor := some cursor } }

theorem test_ShowOpened : 63 < (64 : Byte).toNat ∧ (63 : Byte).toNat = (63 : Fin 64).val
    ∧ ((2 : Fin 64) ≠ 3 ∧ (tget (loading 0).store.directory 2).isOpened = true)
    ∧ (∀ j : Fin 64, j ≠ 1 → (tget playing.store.directory j).isOpened = false)
    ∧ tget playing.store.directory 1 ≠ .free ∧ tget playing.store.directory 63 = .free
    ∧ (8192 : Half).toNat ≤ 8192 ∧ (0x0FFF : Half).toNat < 4096 ∧ (3600 : Half).toNat ≤ 3600
    ∧ playing.store.firstFit 8192 = none ∧ playing.store.firstFit 8185 = some 7 := by decide +kernel

theorem test_ShowDataWritten : tget (loading 2).store.directory 2 = .opened ⟨.phrase, 10, 4⟩
    ∧ (loading 2).store.cursor = some 2 ∧ (tget (loading 2).store.directory 1).isOpened = false
    ∧ (3 : Half).toNat ≠ 2 ∧ (2 : Half).toNat = 2 ∧ 4 < 2 + [(0 : StepWord), 0, 0].length
    ∧ 2 + [(0 : StepWord), 0].length ≤ 4 ∧ (loading 2).store.mem.wf = true := by decide +kernel

/-- A step that passes, one that fails its first check, and the last of a show. -/
theorem test_ShowsClosed : (loading 3).store.cursor = some 3 ∧ (loading 4).store.cursor = some 4
    ∧ stepFailure ⟨.phrase, 4, 0⟩ (decodeStep ((loading 4).store.mem.readSlot 10)) = some 1
    ∧ stepFailure ⟨.playable 0x008 60, 2, 0⟩ (decodeStep (stored.mem.readSlot 5)) = none
    ∧ stepFailure ⟨.playable 0x008 60, 2, 1⟩ (decodeStep (stored.mem.readSlot 6)) = none
    ∧ stepFailure ⟨.playable 0x008 60, 2, 1⟩ (.strike 3 100) = some 16
    ∧ stepFailure ⟨.playable 0x008 60, 2, 0⟩ (.strike 32 128) = some 2 := by decide +kernel

/-- An entry that is FREE, OPEN, in use by lane 0, and READY. -/
theorem test_ShowErased : tget playing.store.directory 0 = .free ∧ tget (loading 2).store.directory 2 = .opened ⟨.phrase, 10, 4⟩
    ∧ tget playing.store.directory 1 = .ready ⟨.playable 0x008 60, 5, 2⟩ ∧ (playing.lane 0).run = some (run 5 4 0)
    ∧ (run 5 4 0).showNo = 1 ∧ (∀ n, (full.lane n).run = none) ∧ (EntryKind.phrase = .phrase)
    ∧ EntryKind.playable 8 60 ≠ .phrase := by decide +kernel

/-- A compaction with nothing to move, and one that moves two slots. -/
theorem test_StoreCompacted : (∀ n, (live.lane n).run = none) ∧ (playing.lane 0).run ≠ none
    ∧ Store.reset.lawful ∧ movedSlots Store.reset = 0
    ∧ (oneBlock ⟨.phrase, 5, 2⟩).lawful ∧ movedSlots (oneBlock ⟨.phrase, 5, 2⟩) = 2
    ∧ (∀ i, (tget (oneBlock ⟨.phrase, 5, 2⟩).directory i).isOpened = false)
    ∧ before (9 : Instant) 10 = true ∧ before (10 : Instant) 10 = false :=
  ⟨by decide +kernel, by decide +kernel, test_lawfulEmpty, by decide +kernel, test_lawfulOne _ (by decide) (by decide),
    by decide +kernel, by decide +kernel, by decide, by decide⟩

/-! ## The scheduler and the lanes -/

theorem test_IdsAndDrops : State.reset.withinCapacity ∧ full.withinCapacity ∧ full.heldId 44 = true
    ∧ full.nextId = 5 ∧ ({ full with sched := { full.sched with lastId := 255 } } : State).nextId = 5 := by
  unfold State.withinCapacity
  decide +kernel

/-- Admission: show 1 playable and not; a queue with room, with a weaker request, with none. -/
theorem test_RequestsAdmitted : live.store.playable 1 = none ∧ playing.store.playable 1 ≠ none
    ∧ playing.sched.queue.length < 8 ∧ 8 ≤ full.sched.queue.length
    ∧ Weakest full (asked 44 2 7) ∧ (asked 44 2 7).priority < (3 : Byte).toNat
    ∧ (∀ r ∈ full.sched.queue, (2 : Byte).toNat ≤ r.priority)
    ∧ full.sched.queue.find? (fun r => r.id == 9) = none
    ∧ full.sched.queue.find? (fun r => r.id == 44) = some (asked 44 2 7) ∧ (asked 44 2 7).grace ≠ 0 := by
  unfold Weakest
  decide +kernel

/-- PLAY admitted while every lane may be busy: with a lane free and its axis free, the run starts at once. -/
theorem test_play : (after (exec (.play 7 1 4 5) { live with store := stored })).map (fun t =>
    ((t.lane 0).run.map Run.id, t.claim 3, t.sched.queue, t.port.tx.map TxFrame.payload)) =
      some (some 1, some (.lane 0), [], [[0, 1]]) := by decide +kernel

/-- A start time that has come, and one that has not; the list with room and full; the id not there. -/
theorem test_TimedAndCancelled : live.cal.timeValid = true ∧ State.reset.cal.timeValid = false
    ∧ (⟨⟨2027, 12, 25⟩, 10, 14, 59⟩ : DateTime).key ≤ live.cal.time.dateTime.key
    ∧ live.cal.time.dateTime.key < (⟨⟨2027, 12, 25⟩, 10, 15, 0⟩ : DateTime).key
    ∧ live.cal.timedPlays.length < 8 ∧ playing.store.playable (1 : Byte).toNat ≠ none
    ∧ (9 : Byte) ≠ 0 ∧ full.sched.queue.find? (fun r => r.id == (44 : Byte).toNat) = some (asked 44 2 7)
    ∧ (∀ r ∈ playing.sched.queue, r.id ≠ (5 : Byte).toNat)
    ∧ (∀ p ∈ playing.cal.timedPlays, p.id ≠ (5 : Byte).toNat)
    ∧ (playing.lane 0).run = some (run 5 4 0) ∧ (run 5 4 0).id = (5 : Byte).toNat := by decide +kernel

theorem test_timedPlay_found : ({ live with cal := { live.cal with
    timedPlays := List.replicate 8 ⟨9, 1, 4, 5, ⟨⟨2027, 12, 25⟩, 10, 15, 0⟩⟩ } } : State).cal.timedPlays.find?
      (fun p => p.id == (9 : Byte).toNat) = some ⟨9, 1, 4, 5, ⟨⟨2027, 12, 25⟩, 10, 15, 0⟩⟩ := by decide +kernel

theorem test_SetKeyWrites : (3 : Byte).toNat = (3 : KeyNo).val ∧ ((1 : Byte) = 0 ∨ (1 : Byte) = 1) ∧ (63 : Byte).toNat ≤ 63
    ∧ (15 : Byte).toNat ≤ 15 ∧ ¬(4 : Byte).toNat ≤ 3 := by decide

/-- A key whose level has been high for 49,999 µs, and for 50,000. -/
def keyed (t : Instant) : State := at' { live with
  sched := { live.sched with
    inputs := tset live.sched.inputs 1 ⟨true, 0, false, none⟩, keys := tset live.sched.keys 1 ⟨true, 1, 4, 5⟩ } } t

theorem test_KeysPressed : (tget (keyed 0).sched.inputs 1).level = true
    ∧ before (keyed 49999).now ((tget (keyed 0).sched.inputs 1).changedAt + 50000) = true
    ∧ before (keyed 50000).now ((tget (keyed 0).sched.inputs 1).changedAt + 50000) = false
    ∧ (tget (keyed 0).sched.keys 1).enabled = true ∧ (tget (keyed 0).sched.inputs 1).held = none
    ∧ (tget live.sched.inputs 1).level ≠ true := by decide +kernel

/-- Every lane runs, with priorities 4, 4, 9 and 9; lane 0 owns axis 3. -/
def busy : State := { playing with lanes := (Vector.ofFn fun n : Fin 4 =>
  ⟨some (run (5 + n.val) (if n.val < 2 then 4 else 9) n.val), none⟩ : Vector Lane 4) }

theorem test_WalkStartsRequests :
    WalkHeld (inMode .safe) ∧ ¬WalkHeld live ∧ playing.store.playable 1 = some (⟨.playable 0x008 60, 5, 2⟩, 0x008, 60)
    ∧ LowestIdle playing 1 ∧ (∀ n, (busy.lane n).run ≠ none) ∧ busy.victim = some 1
    ∧ busy.blocking 0x008 = [0, 1] ∧ (∀ n : LaneNo, n < 2 → busy.below 5 n = true)
    ∧ busy.claim 3 = some (.lane 0) ∧ (run 5 4 0).startSeq ≠ (run 6 4 1).startSeq := by
  unfold WalkHeld LowestIdle
  decide +kernel

/-- The run limit: 59,999 ms elapsed, and 60,000. -/
theorem test_RunsStartAndEnd : (playing.lane 0).run = some (run 5 4 0) ∧ (run 5 4 0).phase ≠ .draining
    ∧ (run 5 4 0).elapsed.ms < (run 5 4 0).limit * 1000
    ∧ { run 5 4 0 with elapsed := ⟨60000, 0⟩ }.limit * 1000 ≤ 60000
    ∧ { run 5 4 0 with phase := .draining }.phase = .draining
    ∧ (∀ k ∈ playing.strikes.queue, k.owner ≠ .lane 0) ∧ (∀ b, (playing.bell b).inFlight = none) := by decide +kernel

/-- The first step of show 1 is due at 1,000 ms and, a STRIKE, ready 250 ms before. -/
theorem test_LanesStep : NextStep playing (run 5 4 0) = .strike 3 100 ∧ NextDue playing (run 5 4 0) = 1000000
    ∧ NextReady playing (run 5 4 0) = 750000 ∧ (run 5 4 0).timer = some 750000 ∧ (run 5 4 0).phase = .running
    ∧ before (at' playing 749999).now 750000 = true ∧ before (at' playing 750000).now 750000 = false
    ∧ NextDelta playing { run 5 4 0 with cursor := 6 } = 0 ∧ 63 ≤ { run 5 4 0 with zeroCount := 63 }.zeroCount
    ∧ { run 5 4 0 with phase := .waiting 8 100 }.phase = .waiting 8 100
    ∧ (8 : BitVec 12).getLsbD (3 : AxisNo).val = true ∧ (playing.axis 3).mode.moving = false := by decide +kernel

/-- The lane takes its STRIKE at its ready instant. -/
theorem test_laneTimer : (after (exec (.laneTimerExpiry 0) (at' playing 750000))).map (fun t =>
    (t.strikes.queue.map fun k => (k.bell, k.due, k.late), ((t.lane 0).run.map fun r => (r.cursor, r.record.taken)))) =
      some ([(3, 1000000, false)], some (6, 1)) := by decide +kernel

theorem test_StepsTaken : axisStep (.stop 3) = some (3, none, some .stop) ∧ playing.claim 3 = some (.lane 0)
    ∧ (playing.axis 3).mode.enabled = true ∧ (playing.axis 3).fitsForm none = true
    ∧ (playing.commandAxis 3 .stop).isSome = true ∧ playing.claim 2 ≠ some (.lane 0)
    ∧ axisStep (.spin 3 100) = some (3, none, some (.spin 100)) ∧ (playing.commandAxis 3 (.spin 100)).isNone = true
    ∧ conditionOf 9 = some .count ∧ conditionOf 0 = some .flag ∧ playing.store.phrase 1 = none
    ∧ ({ stored with directory := tset stored.directory 2 (.ready ⟨.phrase, 10, 4⟩) } : Store).phrase 2 =
        some ⟨.phrase, 10, 4⟩ := by decide +kernel

/-! ## The strike unit -/

theorem test_StrikeValues : (1 * (96 * 100) * 16 + 5000) / 10000 < 16 ∧ 16 ≤ (1 * (97 * 100) * 16 + 5000) / 10000
    ∧ (127 * (100 * 100) * 16 + 5000) / 10000 < 2048 ∧ Bell.reset.pmin ≤ Bell.reset.pmax
    ∧ (∀ i, tget StrikeUnit.reset.curve i ≤ 4096) := by decide +kernel

/-- Bell 3 with its guard running until 1,000,000. -/
def guarded (s : State) : State := s.setBell 3 { s.bell 3 with guardRunning := true, guardInstant := some 1000000 }

/-- Lane 0 has strikes queued. -/
def queued (l : List Strike) : State := { playing with strikes := { playing.strikes with queue := l, orderCount := l.length } }

/-- STRIKE at its bounds; guarded until the guard instant; absorbed within the repeat guard; the queue with room and full;
entries on time, late by the tolerance, and later. -/
theorem test_StrikesEnterQueue : (31 : Byte).toNat ≤ 31 ∧ ¬(32 : Byte).toNat ≤ 31 ∧ (127 : Byte).toNat ≤ 127
    ∧ (60000 : Half).toNat ≤ 60000 ∧ ¬(60001 : Half).toNat ≤ 60000 ∧ (live.bell 3).isDisabled = false
    ∧ (State.reset.bell 3).isDisabled = true ∧ (31 : Byte).toNat = (31 : BellNo).val
    ∧ live.strikes.compute live.cal.level (live.bell 3) 100 = some ⟨9813, 6400, false⟩
    ∧ live.strikes.compute 0 (live.bell 3) 100 = none
    ∧ Guards ((guarded live).bell 3) 999999 1000000 ∧ ¬Guards ((guarded live).bell 3) 1000000 1000000
    ∧ (queued [strike 0 1000000 .scheduled]).strikes.absorber 3 1149999 = some (strike 0 1000000 .scheduled)
    ∧ (queued [strike 0 1000000 .scheduled]).strikes.absorber 3 1150000 = none
    ∧ 64 ≤ (List.replicate 64 (strike 0 1000000 .scheduled)).length
    ∧ before (1000000 - micros 6400 : Instant) 1013600 = true ∧ ((1013600 - (1000000 - micros 6400) : Instant)).toNat = 20000
    ∧ (playing.lane 0).run = some (run 5 4 0) ∧ (100 : Nat) < 101 := by
  unfold Guards
  decide +kernel

/-- Of two strikes at one distance the earlier absorbs; a raised velocity applied on time, late and not at all; a strike of
the host is counted for nobody. -/
theorem test_StrikesMerge : let u := (queued [strike 1 1100000 .scheduled, strike 0 1000000 .scheduled]).strikes
    u.absorber 3 1050000 = some (strike 0 1000000 .scheduled)
    ∧ distance (1000000 : Instant) 1050000 = distance (1100000 : Instant) 1050000
    ∧ live.strikes.compute live.cal.level (live.bell 3) 127 = some ⟨11922, 5039, false⟩
    ∧ (mergedWith u 100 0 (strike 0 1000000 .heldBell) 127).fire = .scheduled
    ∧ (mergedWith u 100 1000000 (strike 0 1000000 .heldBell) 127).fire = .heldBell
    ∧ (mergedWith u 100 1000000 (strike 0 1000000 .heldBell) 127).late = true
    ∧ (mergedWith u 100 1200000 (strike 0 1000000 .heldBell) 127).velocity = 100
    ∧ (∀ n r, Owner.link = .lane n → (live.lane n).run ≠ some r) :=
  ⟨by decide +kernel, by decide +kernel, by decide +kernel, by decide +kernel, by decide +kernel, by decide +kernel,
    by decide +kernel, fun _ _ h => nomatch h⟩

/-- A merge into a strike HELD_GUARD: with the raised velocity's T its wait is not after now, and it fires at once. -/
theorem test_mergeSettled :
    let s := at' (guarded (queued [⟨3, 90, .lane 0, 1000000, 7111, 9031, 992889, false, false, false, .heldGuard 992889, 0⟩]))
      994961
    let m := mergedWith s.strikes s.cal.level s.now
      ⟨3, 90, .lane 0, 1000000, 7111, 9031, 992889, false, false, false, .heldGuard 992889, 0⟩ 127
    m.fire = .heldGuard 994961 ∧ (MergeSettled m (s.setQueue [m])).strikes.queue = []
      ∧ MergeSettled m (at' (s.setQueue [m]) 994960) = at' (s.setQueue [m]) 994960 := by decide +kernel

/-- A STRIKE of the host enters the queue with its original fire instant. -/
theorem test_strike : (after (exec (.strike 7 3 100 0) live)).map (fun t =>
    (t.strikes.queue.map fun k => (k.due, k.fireAt, k.pulse), t.port.tx.map fun f => f.payload.take 2)) =
      some ([(6400, 0, 9813)], [[0, 0]]) := by decide +kernel

/-- Strikes at fire: the bell busy, guarded, the supply full and free, late by τ and by more; waiting strikes served. -/
theorem test_StrikesFired : ((belled live .firing .pending).bell 3).state ≠ .ready ∧ (live.bell 3).state = .ready
    ∧ Guards ((guarded live).bell 3) ((at' live 991999).now + micros 8000) 1000000
    ∧ live.strikes.firing < live.strikes.emax
    ∧ ({ live.strikes with emax := 0 } : StrikeUnit).emax ≤ live.strikes.firing
    ∧ before ((strike 0 1000000 .scheduled).due - micros 8000) 1012000 = true
    ∧ ((1012000 : Instant) - ((strike 0 1000000 .scheduled).due - micros 8000)).toNat = live.strikes.tau
    ∧ (∀ k ∈ live.strikes.queue, k.fire = .scheduled → before live.now k.fireAt = true)
    ∧ (queued [strike 0 1000000 .scheduled]).strikes.queue = [] ++ strike 0 1000000 .scheduled :: []
    ∧ before (992000 : Instant) (strike 0 1000000 .scheduled).fireAt = false
    ∧ (strike 1 1000000 (.heldGuard 5)).fire = .heldGuard 5
    ∧ (queued [strike 0 1000000 .heldSupply]).strikes.firstWaiting = some (strike 0 1000000 .heldSupply)
    ∧ (∀ k ∈ (queued [strike 0 1000000 .scheduled]).strikes.queue, k.fire ≠ .heldSupply)
    ∧ (queued [strike 0 1000000 .heldSupply, strike 1 999999 .heldSupply]).strikes.queue.filter
        (fun x => x.fire == .heldSupply) = [strike 0 1000000 .heldSupply, strike 1 999999 .heldSupply] := by
  unfold Guards
  decide +kernel

/-- Three strikes wait for supply; the earliest original fire instant is first. -/
theorem test_SupplyServed : let u := (queued [strike 0 1000000 .heldSupply, strike 1 999999 .heldSupply,
      strike 2 1000001 .heldSupply]).strikes
    u.firstWaiting = some (strike 1 999999 .heldSupply)
    ∧ (∀ x ∈ u.queue, ∀ y ∈ u.queue, distance (x.due - micros x.flight) (y.due - micros y.flight) ≤ 70000000) := by
  decide +kernel

/-- A strike fires in LIVE: the output is high; in REHEARSE it is not. -/
theorem test_fire : ((queued [strike 0 1000000 .scheduled]).fire (strike 0 1000000 .scheduled)).strikes.hammers = 8
    ∧ (({ queued [strike 0 1000000 .scheduled] with output := (inMode .rehearse).output } : State).fire
        (strike 0 1000000 .scheduled)).strikes.hammers = 0 := by decide +kernel

/-- A strike in flight, fired at 0: the pulse ends at 9,000, the window is 4,000 to 23,000, the impact expected at 8,000. -/
theorem test_BellsAfterFiring :
    ((belled live .firing .pending).bell 3).inFlight = some (flying .pending) ∧ (flying .pending).window = .pending
    ∧ (flying .ended).window ≠ .pending ∧ before (8999 : Instant) ((flying .pending).firedAt + micros 9000) = true
    ∧ before (9000 : Instant) ((flying .pending).firedAt + micros 9000) = false
    ∧ WindowOpen (at' live 4000) (flying .pending) ∧ WindowOpen (at' live 23000) (flying .pending)
    ∧ ¬WindowOpen (at' live 3999) (flying .pending) ∧ ¬WindowOpen (at' live 23001) (flying .pending)
    ∧ before (22999 : Instant) (flying .pending).windowEnd = true ∧ before (23000 : Instant) (flying .pending).windowEnd = false
    ∧ ((belled live .flight .pending).bell 3).state = .flight
    ∧ (inMode .listen).mode = .listen ∧ (inMode .rehearse).mode = .rehearse ∧ live.mode = .live
    ∧ (live.bell 3).missLimit ≠ 0 ∧ min 7 ((live.bell 3).streak + 1) < (live.bell 3).missLimit
    ∧ (live.bell 3).missLimit ≤ min 7 (2 + 1)
    ∧ before (23000 : Instant) 23000 = false ∧ before (23000 : Instant) 23001 = true
    ∧ ((guarded live).bell 3).guardRunning = true ∧ before (999999 : Instant) 1000000 = true := by
  unfold WindowOpen
  decide +kernel

/-- A window end in LIVE: a miss is latched and the streak counts. -/
theorem test_miss : (after (exec (.impactWindowEnd 3) (at' (belled live .flight .pending) 23000))).map (fun t =>
    ((t.bell 3).state, (t.bell 3).streak, (tget t.port.latches.bells 3).miss)) = some (.ready, 1, true) := by decide +kernel

/-- Within a confirmed window end an edge is absorbed on a READY bell and stray on a DISABLED one. -/
theorem test_disabledEdge : (after (exec (.senseEdge 3) (live.setBell 3 { live.bell 3 with confirmedEnd := some 5 }))).map
      (fun t => (tget t.port.latches.bells 3).stray) = some false
    ∧ (after (exec (.senseEdge 3) (live.setBell 3 { live.bell 3 with
        state := .disabled .host, confirmedEnd := some 5 }))).map (fun t => (tget t.port.latches.bells 3).stray) =
      some true := by decide +kernel

theorem test_BellsConfigured : (31 : Byte).toNat = (31 : BellNo).val ∧ (1000 : Long).toNat = 1000
    ∧ (4000000 : Long).toNat ≤ 4000000 ∧ (200 : Half).toNat ≤ (40000 : Half).toNat ∧ (2000 : Half).toNat ≤ 2000
    ∧ (50 : Byte).toNat ≤ 50 ∧ (7 : Byte).toNat ≤ 7 ∧ (live.bell 3).guardMs < (151 : Half).toNat
    ∧ ¬(live.bell 3).guardMs < (150 : Half).toNat
    ∧ (∃ x ∈ (queued [strike 0 1000000 .scheduled]).strikes.queue, x.bell = 3)
    ∧ (State.reset.bell 3).isDisabled = true ∧ (live.bell 3).isDisabled = false :=
  ⟨rfl, rfl, by decide, by decide, by decide, by decide, by decide, by decide +kernel, by decide +kernel,
    ⟨strike 0 1000000 .scheduled, List.mem_singleton.mpr rfl, rfl⟩, by decide +kernel, by decide +kernel⟩

theorem test_CurveWritten : (List.replicate 17 (4096 : Half)).length = 17
    ∧ (∀ p ∈ List.replicate 17 (4096 : Half), p.toNat ≤ 4096) ∧ 4096 < (4097 : Half).toNat :=
  ⟨List.length_replicate, fun p h => by rw [List.eq_of_mem_replicate h]; decide, by decide⟩

/-- SET_CURVE of a flat curve, and of one that falls. -/
theorem test_setCurve : (after (exec (.setCurve 7 (List.replicate 17 4096)) live)).map (fun t => tget t.strikes.curve 0) =
      some 4096
    ∧ (after (exec (.setCurve 7 (1 :: List.replicate 16 0)) live)).map (fun t => tget t.strikes.curve 0) = some 0 := by
  decide +kernel

theorem test_LevelWritten : (100 : Byte).toNat ≤ 100 ∧ (8 : Byte).toNat ≤ 8 ∧ (100000 : Long).toNat ≤ 100000
    ∧ ((indexes 32).filter fun b => ((belled live .firing .pending).bell b).state == .firing).length = 1
    ∧ live.strikes.emax < (7 : Byte).toNat ∧ (6 : Byte).toNat ≤ live.strikes.emax
    ∧ (1 : Byte).toNat < ((indexes 32).filter fun b =>
        ((belled (live.setBell 4 { live.bell 4 with state := .firing }) .firing .pending).bell b).state == .firing).length := by
  decide +kernel

/-! ## Figure axes -/

theorem test_AxisConfigured : AxisFieldsGood 1 (-180000) 180000 360000 1 20000 50 ∧ AxisFieldsGood 0 0 0 1 20000 20000 20000
    ∧ ¬AxisFieldsGood 1 0 0 1 1 1 50 ∧ (live.axis 3).config ≠ none ∧ (live.axis 3).mode ≠ .off
    ∧ (live.axis 5).mode = .off ∧ (live.axis 0).config = none ∧ (11 : Byte).toNat = (11 : AxisNo).val := by
  unfold AxisFieldsGood
  decide +kernel

/-- AXIS_CMD on an axis: unconfigured, claimed, free; in OFF, in HOLD, in FAULT; arguments accepted and refused. -/
theorem test_AxisRequestsAnswered : 11 < (12 : Byte).toNat ∧ (live.axis 0).config = none ∧ (live.axis 3).config ≠ none
    ∧ playing.claim 3 ≠ none ∧ live.claim 3 = none ∧ (inMode .safe).mode = .safe ∧ live.mode ≠ .safe
    ∧ ¬(live.mode = .live ∧ live.output.isOpen = true)
    ∧ ({ live with output := ⟨.live, true, false, 0⟩ } : State).output.isOpen = true
    ∧ (AxisRequest.move (-90000) 360000 0).motion ∧ ¬AxisRequest.enable.motion
    ∧ (AxisRequest.stop.accepted live 3 ⟨.wrap, 1, 1, 1, 50⟩ .stop)
    ∧ (AxisRequest.move 180000 360000 0).accepted live 3 ⟨.bounded (-90000) 90000, 20000, 5000, 10000, 400⟩
        (.move 180000 .short 360000)
    ∧ (live.axis 3).mode.enabled = true ∧ (live.axis 5).mode.enabled = false ∧ (live.axis 5).mode = .off
    ∧ (live.axis 5).missed < 3 ∧ (live.axis 5).measured = some 0 := by
  refine ⟨by decide, by decide +kernel, by decide +kernel, by decide +kernel, by decide +kernel, rfl, by decide +kernel,
    by decide +kernel, rfl, trivial, fun h => h, trivial, ?_, by decide +kernel, by decide +kernel, by decide +kernel,
    by decide +kernel, by decide +kernel⟩
  unfold AxisRequest.accepted
  decide +kernel

/-- MOVE of the arm, clamped to its soft limit; SPIN of the arm refused; ENABLE of the idle turntable. -/
theorem test_axisCmd : (after (exec (.axisCmdMove 7 3 100000 20000 0) live)).map (fun t => ((t.axis 3).mode,
      t.port.tx.map TxFrame.payload)) = some (.move 90000 .short 20000, [[0, 2, 1]])
    ∧ (after (exec (.axisCmdSpin 7 3 100) live)).map (fun t => t.port.tx.map TxFrame.payload) = some [[3]]
    ∧ (after (exec (.axisCmdEnable 7 5) live)).map (fun t => (t.axis 5).mode) = some .hold := by decide +kernel

/-- An update in its slot, out of it, taken already; in LISTEN. -/
theorem test_AxisUpdates : (live.axis 0).config = none ∧ ({ live with cycle := 2400 } : State).cycle = 800 * (3 : AxisNo).val
    ∧ (live.axis 3).slotTaken = false ∧ live.cycle ≠ 800 * (3 : AxisNo).val
    ∧ (moved 3).v.natAbs = 15000 ∧ moveDistance (.bounded (-90000) 90000) .short 1000 1000 = 0
    ∧ (0 : Int) ≤ ((some 359999 : Option Int).getD 0) ∧ ((240000 / 100 : Nat) : Int) ≤ 3600 := by decide +kernel

/-- A MOVE that arrives at a soft limit, and one that meets it turning back; a WRAP MOVE across 0. -/
theorem test_moveLimits : let c : AxisConfig := ⟨.bounded (-90000) 90000, 20000, 5000, 10000, 400⟩
    moveUpdate c { arm with cmd := some 89990, v := 5000 } 90000 .short 20000 =
        ({ arm with cmd := some 90000, mode := .hold }, true)
    ∧ moveUpdate c { arm with cmd := some 89990, v := 20000, mode := .move 0 .short 20000 } 0 .short 20000 =
        ({ arm with cmd := some 90000, mode := .move 0 .short 20000 }, false)
    ∧ moveUpdate ⟨.wrap, 240000, 5000, 10000, 500⟩ { ring with cmd := some 359990, v := 5000 } 5 .short 20000 =
        ({ ring with cmd := some 5, turns := 1 }, true) := by decide +kernel

/-- FOLLOW of a WRAP axis across 0, with its turns, and of a BOUNDED one held at its limit. -/
theorem test_followUpdates :
    followUpdate ⟨.wrap, 240000, 5000, 5000, 500⟩ { ring with cmd := some 359999, mode := .follow 3 1 1 0 }
      { ring with cmd := some 0 } 1 1 0 = { ring with cmd := some 0, turns := 1, v := 100, mode := .follow 3 1 1 0 }
    ∧ followUpdate ⟨.bounded (-90000) 90000, 20000, 5000, 10000, 400⟩ { arm with cmd := some 90000 } { ring with turns := 1 }
      1 1 0 = { arm with cmd := some 90000, v := 0 } := by decide +kernel

/-- In LISTEN no frame is driven, and the reply heard since the last slot is taken. -/
theorem test_listenUpdate : (after (exec (.axisUpdate 3) { inMode .listen with
      cycle := 2400, motion := { live.motion with axes := tset live.motion.axes 3 { arm with heard := some ⟨.ready, 1200⟩ } } })).map
      (fun t => (t.motion.line, (t.axis 3).measured, (t.axis 3).heard, (t.axis 3).awaiting)) =
        some (none, some 1200, none, none) := by decide +kernel

/-- The setpoint frame of an update in HOLD. -/
theorem test_axisUpdate : (after (exec (.axisUpdate 3) { live with cycle := 2400 })).map (fun t =>
    (t.motion.line.map fun f => (f.bytes.take 7, f.endsAt), (t.axis 3).awaiting)) =
      some (some ([0xA3, 4, 1, 0, 0, 0x03, 0xE8], 90), some 290) := by decide +kernel

/-- A reply frame of an amplifier with its check. -/
def replyBytes (address status : Byte) (measured : Long) : List Byte :=
  let body := address :: status :: four measured
  0x3A :: (body ++ two (checkOf body))

/-- Axis 3 awaits its reply until 290. -/
def awaiting : State := at' (live.setAxis 3 { arm with awaiting := some 290, lastCommand := some .enable }) 100

theorem test_AxisRepliesTaken : live.awaited = none ∧ awaiting.awaited = some 3
    ∧ before (289 : Instant) 290 = true ∧ before (290 : Instant) 290 = false
    ∧ readReply (replyBytes 4 2 1200) = some (4, ⟨.fault, 1200⟩) ∧ readReply (replyBytes 4 3 1200) = none
    ∧ (AxisForm.bounded (-90000) 90000).inRange 180000 = true ∧ (AxisForm.bounded (-90000) 90000).inRange 180001 = false
    ∧ (90400 : Int) ≤ 90000 + (400 : Nat) ∧ ((90000 : Int) + (400 : Nat) < 90401)
    ∧ min 3 ((live.axis 3).missed + 1) < 3 ∧ min 3 (2 + 1) = 3 ∧ (live.axis 5).mode.enabled = false := by decide +kernel

/-- Within the allowance of axis 3, from 90 to 290, and no other axis awaits. -/
theorem test_InAllowance : InAllowance (at' awaiting 90) 3 ∧ InAllowance (at' awaiting 290) 3
    ∧ ∀ b, b ≠ 3 → ¬InAllowance awaiting b := by
  have others : ∀ b : AxisNo, b ≠ 3 → (awaiting.axis b).awaiting = none := by decide +kernel
  refine ⟨⟨290, by decide +kernel, by decide +kernel, by decide +kernel⟩,
    ⟨290, by decide +kernel, by decide +kernel, by decide +kernel⟩, fun b hb ⟨t, h, _⟩ => ?_⟩
  rw [others b hb] at h
  cases h

/-- Replies of the amplifiers of axis 3, of the unconfigured axis 0, and of an address that is no axis's. -/
theorem test_IsReply : IsReply (replyBytes 4 2 1200) 4 ⟨.fault, 1200⟩ ∧ IsReply (replyBytes 1 0 0) 1 ⟨.ready, 0⟩
    ∧ IsReply (replyBytes 13 0 0) 13 ⟨.ready, 0⟩ ∧ (∀ a : AxisNo, (13 : Byte).toNat ≠ a.val + 1)
    ∧ (live.axis 0).config = none := by
  refine ⟨⟨2, 0, 0, 4, 0xB0, (checkOf [4, 2, 0, 0, 4, 0xB0]).extractLsb' 8 8, (checkOf [4, 2, 0, 0, 4, 0xB0]).extractLsb' 0 8, ?_⟩,
    ⟨0, 0, 0, 0, 0, (checkOf [1, 0, 0, 0, 0, 0]).extractLsb' 8 8, (checkOf [1, 0, 0, 0, 0, 0]).extractLsb' 0 8, ?_⟩,
    ⟨0, 0, 0, 0, 0, (checkOf [13, 0, 0, 0, 0, 0]).extractLsb' 8 8, (checkOf [13, 0, 0, 0, 0, 0]).extractLsb' 0 8, ?_⟩,
    ?_, ?_⟩ <;> decide +kernel

/-- A reply heard for an unconfigured axis is not kept. -/
theorem test_unheard : after (exec (.axisBusDecode (replyBytes 1 0 0)) (inMode .listen)) = some (inMode .listen) := by
  decide +kernel

/-- Axis 2 follows axis 3, at rest and turning. -/
def following (v : Int) : State := live.setAxis 2 { ring with mode := .follow 3 1 1 0, v := v }

theorem test_FaultsSpread : ((following 0).axis 2).mode = .follow 3 1 1 0 ∧ ((following 0).axis 2).v = 0
    ∧ ((following 100).axis 2).v ≠ 0 ∧ ((following 100).axis 2).config = some ⟨.wrap, 240000, 5000, 10000, 500⟩
    ∧ (live.axis 2).mode = .hold ∧ live.exercise = none := by decide +kernel

/-- A leader that is disabled stops its follower. -/
theorem test_stopFollower : (after (exec (.axisCmdDisable 7 3) (following 100))).map (fun t => ((t.axis 3).mode, (t.axis 2).mode)) =
    some (.off, .stopping 5000) := by decide +kernel

/-- A valid FAULT reply after an ENABLE frame faults the axis. -/
theorem test_axisReply : (after (exec (.axisReply (replyBytes 4 2 1200)) awaiting)).map (fun t =>
    ((t.axis 3).mode, (t.axis 3).measured, (t.axis 3).awaiting)) = some (.fault .ampFault, some 1200, none) := by
  decide +kernel

/-! ## The verifier, the exercise and output control -/

/-- The turntable's dwell has had so many updates. -/
def dwelling (n : Nat) : State := { live with verifier := { live.verifier with
  scan := some 2, last := some 2, dwell := n, previousSetpoint := some 359800, updateSeen := true } }

theorem test_DwellsJudged : live.verifier.enable = true ∧ live.verifier.scan ≠ some 2
    ∧ (dwelling 18).verifier.dwell + 1 < 20 ∧ 20 ≤ (dwelling 19).verifier.dwell + 1
    ∧ ((dwelling 19).axis 2).measured = some 0 ∧ (dwelling 19).verifier.previousSetpoint = some 359800
    ∧ live.eligible 2 = true ∧ live.eligible 5 = false ∧ State.reset.eligible 2 = false := by decide +kernel

/-- The third missing reply of the turntable, at the last update of its dwell and at the one before. -/
def twiceMissed (n : Nat) : State := (dwelling n).setAxis 2 { ring with missed := 2, awaiting := some 290 }

theorem test_FaultCounted : ((twiceMissed 19).replyMissing 2).2 = some .axisLink
    ∧ ((twiceMissed 19).replyMissing 2).1.dwellEnds 2 = true ∧ ((twiceMissed 18).replyMissing 2).1.dwellEnds 2 = false
    ∧ (twiceMissed 19).verifier.scan = some 2 ∧ (twiceMissed 19).verifier.updateSeen = true
    ∧ (after (.next ((twiceMissed 18).takeReply 2 none))).map (fun t => ((t.axis 2).mode, tget t.verifier.verdicts 2)) =
      some (.fault .axisLink, some ⟨.skipped, none, none⟩) := by decide +kernel

/-- The first dwell of the manual: e is 450, the allowance 700. -/
theorem test_dwell : (after (exec (.axisReplyTimeout 2) live)).isSome = true
    ∧ ({ dwelling 19 with motion := { live.motion with
        axes := tset live.motion.axes 2 { ring with mode := .spin 20000, v := 20000, measured := some 250 } } } : State).judge
          2 true = ⟨.pass, some 450, some 700⟩ := by decide +kernel

theorem test_VerifySwitched : (2 : Byte) ≠ 0 ∧ (2 : Byte) ≠ 1 ∧ live.verifier.enable = true
    ∧ ({ live with verifier := { live.verifier with enable := false } } : State).verifier.enable = false := by decide +kernel

/-- An exercise of the arm in a phase. -/
def exercised (p : ExercisePhase) (index : Fin 8) (dwell : Nat) : State := { live with
  exercise := some { Exercise.opened 3 ⟨.bounded (-90000) 90000, 20000, 5000, 10000, 400⟩ 1000 with
    phase := p, index := index, dwell := dwell } }

theorem test_ExerciseRuns : 11 < (12 : Byte).toNat ∧ (live.axis 0).config = none ∧ playing.claim 3 ≠ none
    ∧ live.claim 3 = none ∧ (inMode .listen).mode = .listen ∧ (live.axis 3).mode = .hold ∧ (live.axis 3).cmd = some 1000
    ∧ (live.axis 5).mode.enabled = false ∧ live.exercise = none
    ∧ (exercised .dwelling 7 19).exercise.map (·.phase) = some .dwelling
    ∧ (exercised .moving 0 0).exercise.map (·.index) = some 0 ∧ 18 + 1 < 20 ∧ 20 ≤ 19 + 1
    ∧ (live.axis 3).mode.moving = false := by decide +kernel

/-- The arm has come back to HOLD at its start position: the exercise completes, or is aborted first (R134). -/
def home : State := (exercised .returning 7 0).setClaim 3 (some .exercise)

/-- The end of an exercise: its verdict, the claim and the mode of the arm. -/
def exerciseEnd (t : State) : Option (Option ExerciseVerdict) × Option Owner × AxisMode :=
  (t.exercise.map (·.verdict), t.claim 3, (t.axis 3).mode)

theorem test_completion : (∃ e, ReturnEnded home e) ∧ Due.completeExercise ∈ home.dueNow
    ∧ Due.completeExercise ∉ (exercised .moving 0 0).dueNow
    ∧ (after (home.doDue .completeExercise)).map exerciseEnd = some (some (some .fail), none, .hold)
    ∧ (after (exec (.exerciseAbort 7) home)).map exerciseEnd = some (some (some (.aborted .host)), none, .hold) := by
  refine ⟨⟨_, rfl, by decide +kernel, by decide +kernel⟩, ?_⟩
  decide +kernel

/-- EXERCISE of the arm: the claim, the first move at a quarter of Vmax. -/
theorem test_exercise : (after (exec (.exercise 7 3) live)).map (fun t =>
    (t.claim 3, (t.axis 3).mode, t.exercise.map fun e => (e.phase, tget e.positions 1))) =
      some (some .exercise, .move (-90000) .short 5000, some (.moving, -64286)) := by decide +kernel

theorem test_ModeSet : 3 < (4 : Byte).toNat ∧ (1 : Byte) = OutputMode.code .live ∧ (inMode .safe).mode = .safe
    ∧ Unquiet live = 0 ∧ Unquiet playing = 1 ∧ OutputMode.live ≠ (inMode .rehearse).mode
    ∧ OutputMode.safe ≠ live.mode ∧ (live.axis 3).mode = .hold := by
  unfold Unquiet
  decide +kernel

/-- SAFE while lane 0 plays: the run ends with MODE, the arm is OFF, nothing is energised. -/
theorem test_setMode : (after (exec (.setMode 7 0) playing)).map (fun t =>
    ((t.lane 0).run, (t.lane 0).last.bind (·.outcome), (t.axis 3).mode, t.mode)) =
      some (none, some .mode, .off, .safe) := by decide +kernel

/-- A change to LISTEN cuts the frame that is driven. -/
theorem test_toListen : (after (exec (.setMode 7 3) { live with motion := { live.motion with line := some ⟨[], 90⟩ } })).map
    (fun t => (t.motion.line, (t.axis 3).mode)) = some (none, .off) := by decide +kernel

/-- The atrium input not clear for 19,999 µs, and for 20,000, with the debounced state CLOSED; and clear while OPEN. -/
def opening (s : State) (t : Instant) : State := at' { s with output := { s.output with atriumClear := false } } t

theorem test_InterlockDebounced : live.output.atriumClear = true
    ∧ before (opening live 19999).now ((opening live 19999).output.changedAt + 20000) = true
    ∧ before (opening live 20000).now ((opening live 20000).output.changedAt + 20000) = false
    ∧ (opening live 20000).output.atriumClear = false ∧ (opening live 20000).output.isOpen = false
    ∧ (opening live 20000).mode = .live ∧ (opening (inMode .rehearse) 20000).mode ≠ .live
    ∧ ({ live with output := ⟨.live, true, true, 0⟩ } : State).output.isOpen = true := by decide +kernel

/-- The interlock opens in REHEARSE: the latch is set and nothing else stops. -/
theorem test_atrium : (after (exec .atriumDebounceChange (opening (inMode .rehearse) 20000))).map (fun t =>
    (t.output.isOpen, t.port.latches.interlock, (t.axis 3).mode)) = some (true, true, .hold) := by decide +kernel

/-! ## The invariants hold of states that do something -/

theorem test_QueuesKept : full.withinCapacity ∧ full.sched.ordered
    ∧ (after (step { full with pending := [.play 7 1 5 5] })).isSome = true := by
  unfold State.withinCapacity Scheduler.ordered Request.precedes
  decide +kernel

theorem test_TimeKept : live.cal.time.inRange ∧ (after (step { live with pending := [.ppsEdge] })).isSome = true := by
  unfold MallTime.inRange
  decide +kernel

theorem test_StoreKept : (oneBlock ⟨.phrase, 5, 2⟩).lawful
    ∧ (after (step { live with store := oneBlock ⟨.phrase, 5, 2⟩, pending := [.showOpen 7 2 1 4 0 0] })).isSome = true :=
  ⟨test_lawfulOne _ (by decide) (by decide), by decide +kernel⟩

theorem stored_entry (i : Fin 64) :
    tget stored.directory i = if 1 = i then .ready ⟨.playable 0x008 60, 5, 2⟩ else .free := by
  unfold stored
  dsimp only
  rw [tget_tset]
  split
  · rfl
  · exact tget_replicate _ i

theorem test_lawfulStored : stored.lawful := by
  refine ⟨by decide +kernel, by decide +kernel, fun i c h => ?_, fun i j c d hij hc hd => ?_, fun i c h => ?_, fun _ => rfl⟩
  · rw [stored_entry] at h
    split at h
    · cases h; exact ⟨by decide, by decide⟩
    · cases h
  · rw [stored_entry] at hc hd
    split at hc
    · next hi =>
      split at hd
      · next hj => exact (hij (hi.symm.trans hj)).elim
      · cases hd
    · cases hc
  · rw [stored_entry] at h
    split at h <;> cases h

theorem playing_lane (n : LaneNo) : (playing.lane n).run = if n = 0 then some (run 5 4 0) else none := by
  revert n; decide +kernel

/-- Lane 0 runs show 1, its cursor in the show. -/
theorem test_CursorsKept : playing.store.lawful ∧ playing.cursorsInside
    ∧ (after (step { playing with pending := [.laneTimerExpiry 0], now := 750000 })).isSome = true := by
  refine ⟨test_lawfulStored, ⟨fun i b h j hj => ?_, fun n r h _ => ?_, fun h => absurd rfl h⟩, by decide +kernel⟩
  · have h : tget stored.directory i = .ready b := h
    rw [stored_entry] at h
    split at h
    · cases h
      have : j = 0 ∨ j = 1 := by have : j < 2 := hj; omega
      rcases this with rfl | rfl <;> decide +kernel
    · cases h
  · rw [playing_lane] at h
    split at h
    · cases h
      exact ⟨⟨1, ⟨.playable 0x008 60, 5, 2⟩, by decide +kernel, by decide, rfl, by decide +kernel⟩, .inl ⟨rfl, rfl⟩,
        by decide +kernel, by decide +kernel, fun _ _ h => nomatch h⟩
    · cases h

/-- A step that is no reset, and one whose reset does not act. -/
theorem test_ImpactsApart :
    (∀ cause baud rest, ({ live with pending := [.fireInstantArrival] } : State).pending = .hardReset cause baud :: rest →
      resetActs cause = false) ∧ resetActs (.pin 9) = false
    ∧ (after (step { live with pending := [.fireInstantArrival] })).isSome = true :=
  ⟨fun _ _ _ h => (nomatch (List.cons.inj h).1), by decide, by decide +kernel⟩

theorem test_StrikesOwned : (queued [strike 0 1000000 .scheduled]).strikesOwned
    ∧ (queued [strike 0 1000000 .scheduled, strike 1 1150000 .scheduled]).strikesOrdered
    ∧ (queued [strike 0 1000000 .scheduled, strike 1 1150000 .scheduled]).strikesNear := by
  refine ⟨fun k h => ?_, ?_, ?_⟩
  · rw [List.mem_singleton.mp h]
    exact .inr ⟨0, run 5 4 0, rfl, by decide +kernel⟩
  · unfold State.strikesOrdered; decide +kernel
  · unfold State.strikesNear; decide +kernel

theorem playing_claim (a : AxisNo) : playing.claim a = if a = 3 then some (.lane 0) else none := by
  revert a; decide +kernel

/-- Lane 0 owns axis 3; no exercise runs; no frame is driven. -/
theorem test_ClaimsKept : playing.claimsLawful ∧ live.busLawful
    ∧ (after (step { playing with pending := [.exercise 7 2] })).isSome = true := by
  refine ⟨⟨fun a n h => ?_, fun a => ⟨fun h => ?_, fun ⟨e, h, _⟩ => nomatch h⟩, fun a h => ?_⟩, ?_, by decide +kernel⟩
  · rw [playing_claim] at h
    split at h
    · cases h; exact ⟨run 5 4 0, by decide +kernel, by decide +kernel⟩
    · cases h
  · rw [playing_claim] at h; split at h <;> cases h
  · rw [playing_claim] at h; split at h <;> cases h
  · unfold State.busLawful; decide +kernel

theorem test_SupplyKept : (belled live .firing .pending).withinSupply
    ∧ (after (step { belled live .firing .pending with pending := [.strike 7 3 100 0] })).isSome = true := by
  unfold State.withinSupply
  decide +kernel

theorem test_StrikeQueueKept : (queued [strike 0 1000000 .scheduled, strike 1 1150000 .scheduled]).strikesSpaced
    ∧ (queued [strike 0 1000000 .scheduled, strike 1 1150000 .scheduled]).noStrikeDisabled
    ∧ (after (step { queued [strike 0 1000000 .scheduled] with pending := [.strike 7 3 100 100] })).isSome = true := by
  unfold State.strikesSpaced State.noStrikeDisabled
  decide +kernel

theorem live_axis : ∀ a, live.axis a = ring ∨ live.axis a = arm ∨ live.axis a = idle ∨ live.axis a = Axis.reset := by
  decide +kernel

theorem test_AxesKept : live.axesLawful ∧ (after (step { live with pending := [.axisUpdate 3] })).isSome = true := by
  refine ⟨fun a c h => ?_, by decide +kernel⟩
  rcases live_axis a with e | e | e | e <;> rw [e] at h ⊢ <;> cases h
  · exact ⟨by decide, trivial, by decide, by decide, by decide, by decide, by decide⟩
  · exact ⟨by decide, ⟨by decide, fun _ => ⟨1000, rfl, by decide, by decide⟩, fun _ _ _ h => nomatch h⟩, by decide, by decide,
      by decide, by decide, by decide⟩
  · exact ⟨by decide, trivial, by decide, by decide, by decide, by decide, by decide⟩

theorem test_TowerKeptSafe : (queued [strike 0 1000000 .scheduled]).towerSafe
    ∧ (after (step { queued [strike 0 1000000 .scheduled] with pending := [.setMode 7 0] })).isSome = true := by
  refine ⟨⟨fun h => ?_, ?_⟩, by decide +kernel⟩
  · exact absurd h (by decide +kernel)
  · unfold State.hammersGated
    decide +kernel

end Sys2Proof.Test
end

section
/-! SUPPORT. The idle step (log 1, 2, 6): what each test of an instant says, which things `State.dueNow` lists, and what one
microsecond advances. -/
namespace Sys2Proof.Machine

/-! ## What each due test says -/

theorem reached_iff (t now : Instant) : reached t now = true ↔ before now t = false := by
  simp [reached]

section DueTests

variable (s : State)

/-! The message port and the store. -/

theorem State.frameTakable_iff : s.frameTakable = true ↔ s.portReady = true ∧ s.port.rx ≠ [] := by
  simp [State.frameTakable]

theorem State.frameGone_iff : s.frameGone = true ↔ EventDue s .transmitFrameSent := by
  simp only [State.frameGone, EventDue]
  cases s.port.sentAt <;> simp [reached_iff]

theorem State.compactionDue_iff : s.compactionDue.isSome = true ↔ EventDue s .compactionEnd := by
  simp only [State.compactionDue, EventDue]
  cases s.store.compaction <;> simp [reached_iff]

theorem State.frameWaiting_iff : s.frameWaiting.isSome = true ↔ EventDue s .frameComplete := by
  simp only [State.frameWaiting, EventDue]
  cases s.port.receiver <;> simp

theorem State.gapPassed_iff : s.gapPassed = true ↔ EventDue s .frameGapTimeout := by
  simp only [State.gapPassed, EventDue]
  cases s.port.receiver <;> simp [reached_iff, micros, Config.frameGap]

/-! The calendar. -/

theorem MallTime.carryDue_iff (t : MallTime) : t.carryDue = true ↔ t.milli = 999 ∧ t.micro = 1000 := by
  simp [MallTime.carryDue]

theorem State.minuteDue_iff :
    (s.cal.time.carryDue && s.cal.time.second == 59) = true ↔ EventDue s .minuteBoundary := by
  simp [EventDue, MallTime.carryDue_iff, and_assoc]

theorem State.secondDue_iff :
    (s.cal.time.carryDue && s.cal.time.second != 59) = true ↔ EventDue s .timedPlayRelease := by
  simp [EventDue, MallTime.carryDue_iff, and_assoc]

theorem State.ppsLossDue_iff : s.ppsLossDue = true ↔ EventDue s .ppsLossDeadline := by
  simp [State.ppsLossDue, EventDue, reached_iff]

/-! The scheduler and the lanes. -/

theorem State.keyDue_iff (k : KeyNo) : s.keyDue k = true ↔ EventDue s (.keyPress k) := by
  simp [State.keyDue, EventDue, reached_iff, micros, Config.keyDebounce]

theorem State.requestDue_iff (id : Nat) :
    (∃ r ∈ s.sched.queue, r.grace = 0 ∧ id = r.id) ↔ EventDue s (.requestExpiry id) := by
  simp [EventDue, and_comm, eq_comm (a := id)]

theorem State.timerDue_iff (n : LaneNo) : s.timerDue n = true ↔ EventDue s (.laneTimerExpiry n) := by
  simp only [State.timerDue, EventDue]
  cases (s.lane n).run with
  | none => simp
  | some r => cases hp : r.phase <;> cases ht : r.timer <;> simp [hp, ht, reached_iff]

theorem State.deadlineDue_iff (n : LaneNo) : (s.deadlineDue n).isSome = true ↔ EventDue s (.waitDeadlineExpiry n) := by
  simp only [State.deadlineDue, EventDue]
  cases (s.lane n).run with
  | none => simp
  | some r => cases hp : r.phase <;> simp [hp, reached_iff]

theorem State.limitDue_iff (n : LaneNo) : s.limitDue n = true ↔ EventDue s (.runLimitExpiry n) := by
  simp only [State.limitDue, EventDue]
  cases (s.lane n).run <;> simp

/-! The strike unit. -/

theorem State.strikeDue_iff : s.strikeDue.isSome = true ↔ EventDue s .fireInstantArrival := by
  simp [State.strikeDue, EventDue, reached_iff]

theorem Strike.guardWaitOver_iff (k : Strike) (now : Instant) :
    k.guardWaitOver now = true ↔ ∃ wait, k.fire = .heldGuard wait ∧ before now wait = false := by
  unfold Strike.guardWaitOver
  cases k.fire <;> simp [reached_iff]

theorem State.guardWaitDue_iff (order : Nat) :
    (∃ k ∈ s.strikes.queue, k.guardWaitOver s.now = true ∧ order = k.order)
      ↔ EventDue s (.heldGuardWaitExpiry order) := by
  simp only [EventDue, Strike.guardWaitOver_iff, eq_comm (a := order), and_comm (b := _ = order)]

theorem State.guardOver_iff (b : BellNo) :
    (s.bell b).guardOver s.now = true ↔ EventDue s (.guardInstantExpiry b) := by
  simp only [Bell.guardOver, EventDue]
  cases (s.bell b).guardInstant <;> simp [reached_iff]

theorem State.pulseOver_iff (b : BellNo) :
    ((s.bell b).pulseOver s.now).isSome = true ↔ EventDue s (.pulseEnd b) := by
  simp only [Bell.pulseOver, EventDue]
  by_cases h : (s.bell b).state = .firing <;> cases (s.bell b).inFlight <;> simp [h, reached_iff]

theorem State.windowOver_iff (b : BellNo) :
    (s.windowOver b).isSome = true ↔ EventDue s (.impactWindowEnd b) := by
  simp only [State.windowOver, EventDue]
  by_cases h : s.mode = .live ∨ s.mode = .listen <;> cases (s.bell b).inFlight <;> simp [h, reached_iff]

theorem State.confirmedPassed_iff (b : BellNo) :
    (s.bell b).confirmedPassed s.now = true ↔ EventDue s (.confirmedWindowEndPasses b) := by
  simp only [Bell.confirmedPassed, EventDue]
  cases (s.bell b).confirmedEnd <;> simp

theorem State.impactDue_iff (b : BellNo) :
    (s.impactDue b).isSome = true ↔ EventDue s (.deemedImpact b) := by
  simp only [State.impactDue, EventDue]
  by_cases h : s.mode = .rehearse <;> cases (s.bell b).inFlight <;> simp [h, reached_iff]

/-! The motion unit and output control. -/

theorem State.slotDue_iff (a : AxisNo) : s.slotDue a = true ↔ EventDue s (.axisUpdate a) := by
  simp [State.slotDue, EventDue, Config.slotSpacing, and_assoc, Option.isSome_iff_ne_none]

theorem State.replyOverdue_iff (a : AxisNo) : s.replyOverdue a = true ↔ EventDue s (.axisReplyTimeout a) := by
  simp only [State.replyOverdue, EventDue]
  cases (s.axis a).awaiting <;> simp [reached_iff]

theorem State.atriumDue_iff : s.atriumDue = true ↔ EventDue s .atriumDebounceChange := by
  simp [State.atriumDue, EventDue, reached_iff, micros, Config.atriumDebounce]

/-- A done exercise runs no more, and one that is RETURNING is not done. -/
theorem State.exerciseHome_iff : s.exerciseHome.isSome = true ↔ ∃ e, ReturnEnded s e := by
  unfold State.exerciseHome State.exercising ReturnEnded
  cases s.exercise with
  | none => simp
  | some e => cases hp : e.phase <;> simp [hp]

end DueTests

/-! ## Which things are due -/

@[simp] theorem mem_dueIf_iff {b : Bool} {c : Instr} {d : Due} : d ∈ dueIf b c ↔ b = true ∧ d = .event c := by
  cases b <;> simp [dueIf]

@[simp] theorem mem_dueEach_iff {n : Nat} {p : Fin n → Bool} {c : Fin n → Instr} {d : Due} :
    d ∈ dueEach p c ↔ ∃ i, p i = true ∧ d = .event (c i) := by
  simp [dueEach, eq_comm (b := d)]

section DueLists

variable (s : State) (c : Instr)

theorem State.event_mem_duePort : Due.event c ∈ s.duePort ↔
    (s.frameGone = true ∧ c = .transmitFrameSent) ∨ (s.port.resetDue = true ∧ c = .softReset)
      ∨ (s.compactionDue.isSome = true ∧ c = .compactionEnd) ∨ (s.frameWaiting.isSome = true ∧ c = .frameComplete)
      ∨ (s.gapPassed = true ∧ c = .frameGapTimeout) := by
  simp [State.duePort]

theorem State.event_mem_dueCalendar : Due.event c ∈ s.dueCalendar ↔
    ((s.cal.time.carryDue && s.cal.time.second == 59) = true ∧ c = .minuteBoundary)
      ∨ ((s.cal.time.carryDue && s.cal.time.second != 59) = true ∧ c = .timedPlayRelease)
      ∨ (s.ppsLossDue = true ∧ c = .ppsLossDeadline) := by
  simp only [State.dueCalendar, List.mem_append, mem_dueIf_iff, Due.event.injEq, or_assoc]

theorem State.event_mem_dueScheduler : Due.event c ∈ s.dueScheduler ↔
    (∃ k, s.keyDue k = true ∧ c = .keyPress k)
      ∨ (∃ r ∈ s.sched.queue, r.grace = 0 ∧ c = .requestExpiry r.id)
      ∨ (∃ n, s.timerDue n = true ∧ c = .laneTimerExpiry n)
      ∨ (∃ n, (s.deadlineDue n).isSome = true ∧ c = .waitDeadlineExpiry n)
      ∨ (∃ n, s.limitDue n = true ∧ c = .runLimitExpiry n) := by
  simp [State.dueScheduler, and_assoc, eq_comm (b := c)]

theorem State.event_mem_dueStrikes : Due.event c ∈ s.dueStrikes ↔
    (s.strikeDue.isSome = true ∧ c = .fireInstantArrival)
      ∨ (∃ k ∈ s.strikes.queue, k.guardWaitOver s.now = true ∧ c = .heldGuardWaitExpiry k.order)
      ∨ (∃ b, (s.bell b).guardOver s.now = true ∧ c = .guardInstantExpiry b)
      ∨ (∃ b, ((s.bell b).pulseOver s.now).isSome = true ∧ c = .pulseEnd b)
      ∨ (∃ b, (s.windowOver b).isSome = true ∧ c = .impactWindowEnd b)
      ∨ (∃ b, (s.bell b).confirmedPassed s.now = true ∧ c = .confirmedWindowEndPasses b)
      ∨ (∃ b, (s.impactDue b).isSome = true ∧ c = .deemedImpact b) := by
  simp [State.dueStrikes, and_assoc, eq_comm (b := c)]

theorem State.event_mem_dueMotion : Due.event c ∈ s.dueMotion ↔
    (∃ a, s.slotDue a = true ∧ c = .axisUpdate a) ∨ (∃ a, s.replyOverdue a = true ∧ c = .axisReplyTimeout a)
      ∨ (s.atriumDue = true ∧ c = .atriumDebounceChange) := by
  simp [State.dueMotion]

theorem State.takeFrame_mem_dueNow : Due.takeFrame ∈ s.dueNow ↔ s.frameTakable = true := by
  simp [State.dueNow, State.duePort, State.dueCalendar, State.dueScheduler, State.dueStrikes, State.dueMotion]

theorem State.completeExercise_mem_dueNow : Due.completeExercise ∈ s.dueNow ↔ s.exerciseHome.isSome = true := by
  simp [State.dueNow, State.duePort, State.dueCalendar, State.dueScheduler, State.dueStrikes, State.dueMotion]

/-- A command is listed exactly where its instant has come: each timed event stands in the list of its own unit alone, and
a command from outside in none. -/
theorem State.event_mem_dueNow : Due.event c ∈ s.dueNow ↔ EventDue s c := by
  simp only [State.dueNow, List.mem_append, or_assoc, s.event_mem_duePort, s.event_mem_dueCalendar,
    s.event_mem_dueScheduler, s.event_mem_dueStrikes, s.event_mem_dueMotion]
  cases c
  case transmitFrameSent => simpa using s.frameGone_iff
  case softReset => simp [EventDue]
  case compactionEnd => simpa using s.compactionDue_iff
  case frameComplete => simpa using s.frameWaiting_iff
  case frameGapTimeout => simpa using s.gapPassed_iff
  case minuteBoundary => simpa using s.minuteDue_iff
  case timedPlayRelease => simpa using s.secondDue_iff
  case ppsLossDeadline => simpa using s.ppsLossDue_iff
  case keyPress k => simpa using s.keyDue_iff k
  case requestExpiry id => simpa using s.requestDue_iff id
  case laneTimerExpiry n => simpa using s.timerDue_iff n
  case waitDeadlineExpiry n => simpa using s.deadlineDue_iff n
  case runLimitExpiry n => simpa using s.limitDue_iff n
  case fireInstantArrival => simpa using s.strikeDue_iff
  case heldGuardWaitExpiry order => simpa using s.guardWaitDue_iff order
  case guardInstantExpiry b => simpa using s.guardOver_iff b
  case pulseEnd b => simpa using s.pulseOver_iff b
  case impactWindowEnd b => simpa using s.windowOver_iff b
  case confirmedWindowEndPasses b => simpa using s.confirmedPassed_iff b
  case deemedImpact b => simpa using s.impactDue_iff b
  case axisUpdate a => simpa using s.slotDue_iff a
  case axisReplyTimeout a => simpa using s.replyOverdue_iff a
  case atriumDebounceChange => simpa using s.atriumDue_iff
  -- the commands from outside
  all_goals simp [EventDue]

end DueLists

theorem dueNowHolds : DueNowHolds := fun s =>
  ⟨s.takeFrame_mem_dueNow.trans s.frameTakable_iff, s.completeExercise_mem_dueNow.trans s.exerciseHome_iff,
    s.event_mem_dueNow⟩

/-! ## One thing happens -/

theorem step_idle {s : State} (h : s.pending = []) : step s = s.idle := by
  simp [step, h]

/-- The free choice picks one of the things that are due. -/
theorem getD_mod_mem {α : Type} (d : α) (more : List α) (n : Nat) :
    (d :: more).getD (n % (more.length + 1)) d ∈ d :: more := by
  have hlt : n % (more.length + 1) < (d :: more).length := Nat.mod_lt n (Nat.succ_pos _)
  rw [List.getD_eq_getElem _ _ hlt]
  exact List.getElem_mem hlt

theorem State.idle_of_none {s : State} (h : s.dueNow = []) : s.idle = .next s.tick := by
  simp [State.idle, h]

theorem State.idle_of_one {s : State} {d : Due} (h : s.dueNow = [d]) : s.idle = s.doDue d := by
  simp [State.idle, h]

theorem State.idle_of_several {s : State} {d e : Due} {l : List Due} (h : s.dueNow = d :: e :: l) :
    ∃ x ∈ s.dueNow, s.idle = s.nextChoice.doDue x :=
  ⟨_, h ▸ getD_mod_mem d (e :: l) (Config.freePick s.choices), by simp [State.idle, h]⟩

theorem oneThingHappens : OneThingHappens := by
  intro s hp
  rw [step_idle hp]
  exact ⟨State.idle_of_none, fun _ => State.idle_of_one, fun _ _ _ => State.idle_of_several, fun _ => rfl⟩

/-! ## One microsecond -/

/-- A count of microseconds that stays below 1,000 when it advances. -/
theorem succ_lt_thousand_iff (n : Nat) : n + 1 < 1000 ↔ n < 999 := Nat.succ_lt_succ_iff

theorem MsCount.tick_eq (c : MsCount) : c.tick = if c.us < 999 then ⟨c.ms, c.us + 1⟩ else ⟨c.ms + 1, 0⟩ := by
  simp only [MsCount.tick, succ_lt_thousand_iff]

theorem MallTime.tick_eq (t : MallTime) : t.tick =
    if t.micro < 999 then { t with micro := t.micro + 1 }
    else if t.milli < 999 then { t with milli := t.milli + 1, micro := 0 }
    else { t with micro := 1000 } := by
  simp only [MallTime.tick, succ_lt_thousand_iff]

theorem Request.tick_eq (r : Request) : r.tick =
    if r.graceMicro < 999 then { r with graceMicro := r.graceMicro + 1 }
    else { r with grace := r.grace - 1, graceMicro := 0 } := by
  simp only [Request.tick, succ_lt_thousand_iff]

section Tick

variable (s : State)

theorem State.cycle_wraps_iff : Config.updateCycle ≤ s.cycle + 1 ↔ ¬ s.cycle < 9999 := by
  unfold Config.updateCycle
  omega

theorem State.tick_cycle : s.tick.cycle = if s.cycle < 9999 then s.cycle + 1 else 0 := by
  simp only [State.tick, s.cycle_wraps_iff, ite_not]

theorem State.tick_lane (n : LaneNo) : s.tick.lane n = (s.lane n).tick := tget_ofFn _ n

/-- A new cycle opens every slot again; inside a cycle a slot stays as it is. -/
theorem State.tick_axis (a : AxisNo) :
    s.tick.axis a = { s.axis a with slotTaken := (s.axis a).slotTaken && decide (s.cycle < 9999) } := by
  by_cases h : s.cycle < 9999
  · simp [State.tick, State.axis, Motion.tick, s.cycle_wraps_iff, h]
  · simp [State.tick, State.axis, Motion.tick, s.cycle_wraps_iff, h]

theorem State.tick_line (f : BusFrame) :
    s.tick.motion.line = some f ↔ s.motion.line = some f ∧ before s.tick.now f.endsAt = true :=
  Option.filter_eq_some_iff

end Tick

theorem tickPasses : TickPasses := by
  intro s
  refine ⟨rfl, s.tick_cycle, MallTime.tick_eq _, ?pps, ?graces, fun n => ?elapsed, s.tick_axis, s.tick_line, rfl⟩
  case pps => exact congrArg (s.cal.ppsSince.map ·) (funext MsCount.tick_eq)
  case graces => exact congrArg (s.sched.queue.map ·) (funext Request.tick_eq)
  case elapsed => simp only [s.tick_lane, Lane.tick, MsCount.tick_eq]

/-- Settles O2: the idle step does one due thing or a microsecond, the due things are those whose instant has come, and a
microsecond advances the counts that run on it and nothing else. -/
theorem idleStepDoesOneThing : Obligations.IdleStepDoesOneThing :=
  ⟨oneThingHappens, dueNowHolds, tickPasses⟩

end Sys2Proof.Machine
end

section
/-! SUPPORT. What a hard reset leaves of the capacities, the order of requests and the mall time; with the lemmas that every
move keeps them, every step does. -/
namespace Sys2Proof.Machine

theorem State.hardReset_withinCapacity (s : State) (baud : BitVec 2) : (s.hardReset baud).withinCapacity :=
  ⟨Nat.zero_le _, Nat.zero_le _, Nat.zero_le _, Nat.zero_le _, Nat.zero_le _⟩

theorem State.hardReset_ordered (s : State) (baud : BitVec 2) : (s.hardReset baud).sched.ordered :=
  Scheduler.ordered_empty rfl

theorem Calendar.reset_timeInRange : Calendar.reset.time.inRange := ⟨by decide, by decide, by decide⟩

/-- Settles O53: every move a step is made of keeps the capacities and the order of requests, and a hard reset empties every
queue. -/
theorem queuesKept : Obligations.QueuesKept := fun _ _ hcap hord h =>
  ⟨step_keeps_moves (I := State.withinCapacity) (fun _ _ hs => hs) (fun _ hs => hs) Move.withinCapacity
      State.hardReset_withinCapacity h hcap,
    step_keeps_moves (I := fun s => s.sched.ordered) (fun _ _ hs => hs) (fun _ hs => hs) Move.ordered
      State.hardReset_ordered h hord⟩

/-- Settles O54: a move that writes the calendar writes a time that exists, and a hard reset starts at 1 January 2000. -/
theorem timeKept : Obligations.TimeKept := fun _ _ hs h =>
  step_keeps_moves (I := fun s => s.cal.time.inRange) (fun _ _ hs => hs) (fun _ hs => hs) Move.timeInRange
    (fun _ _ => Calendar.reset_timeInRange) h hs

end Sys2Proof.Machine
end

section
/-! SUPPORT. A request that is taken does what its unit does, and a wire number names a table entry or none. -/
namespace Sys2Proof.Machine

theorem takeRequest_taken {c : Instr} {taken : State → State} {s : State} (h : s.takes = true) :
    takeRequest c taken s = taken s := by
  simp [takeRequest, h]

/-- A request whose meaning is `takeRequest`, where the port takes it. -/
theorem next_taken {c : Instr} {taken : State → State} {s : State} (h : s.takes = true) :
    (Host.Outcome.next (takeRequest c taken s) : Answer) = .next (taken s) := by
  rw [takeRequest_taken h]

theorem index?_of_lt {n x : Nat} (h : x < n) : index? n x = some ⟨x, h⟩ := dif_pos h

theorem index?_of_le {n x : Nat} (h : n ≤ x) : index? n x = none := dif_neg (Nat.not_lt.mpr h)

@[simp] theorem index?_val {n : Nat} (i : Fin n) : index? n i.val = some i := index?_of_lt i.isLt

end Sys2Proof.Machine
end

section
/-! SUPPORT. The queries (R19, R33, R55, R107, R125, R135): the reply each selector gives. -/
namespace Sys2Proof.Machine

variable (s : State) (tag : Byte)

/-! ## The records by number -/

theorem State.queryLane_eq (lane : Byte) : s.queryLane tag lane =
    if h : lane.toNat < 4 then s.reply tag 0x05 .ok (s.lane ⟨lane.toNat, h⟩).bytes else s.reply tag 0x05 .badArg := by
  by_cases h : lane.toNat < 4
  · simp [State.queryLane, index?_of_lt h, h]
  · simp [State.queryLane, index?_of_le (Nat.not_lt.mp h), h]

theorem State.queryBell_eq (bell : Byte) : s.queryBell tag bell =
    if h : bell.toNat < 32 then s.reply tag 0x05 .ok (s.bellBytes ⟨bell.toNat, h⟩) else s.reply tag 0x05 .badArg := by
  by_cases h : bell.toNat < 32
  · simp [State.queryBell, index?_of_lt h, h]
  · simp [State.queryBell, index?_of_le (Nat.not_lt.mp h), h]

theorem State.queryAxis_eq (axis : Byte) : s.queryAxis tag axis =
    if h : axis.toNat < 12 then s.reply tag 0x05 .ok (s.axisBytes ⟨axis.toNat, h⟩) else s.reply tag 0x05 .badArg := by
  by_cases h : axis.toNat < 12
  · simp [State.queryAxis, index?_of_lt h, h]
  · simp [State.queryAxis, index?_of_le (Nat.not_lt.mp h), h]

theorem recordsQueried : RecordsQueried := by
  intro s tag h
  refine ⟨fun lane => ?lane, next_taken h, fun bell => ?bell, fun axis => ?axis, next_taken h, next_taken h⟩
  case lane => exact (next_taken h).trans (congrArg _ (s.queryLane_eq tag lane))
  case bell => exact (next_taken h).trans (congrArg _ (s.queryBell_eq tag bell))
  case axis => exact (next_taken h).trans (congrArg _ (s.queryAxis_eq tag axis))

/-! ## The calendar -/

theorem exec_queryCalendar (sub index : Byte) (h : s.takes = true) :
    exec (.queryCalendar tag sub index) s = .next (s.queryCalendar tag sub.toNat index.toNat) := next_taken h

theorem State.queryCalendar_ok {sub index : Nat} {bytes : List Byte} (h : s.cal.queried sub index = some bytes) :
    s.queryCalendar tag sub index = s.reply tag 0x05 .ok bytes := by
  simp [State.queryCalendar, h]

theorem State.queryCalendar_badArg {sub index : Nat} (h : s.cal.queried sub index = none) :
    s.queryCalendar tag sub index = s.reply tag 0x05 .badArg := by
  simp [State.queryCalendar, h]

theorem Calendar.summaryBytes_eq (c : Calendar) : c.summaryBytes =
    [boolByte c.timeValid, c.ppsState.code, byteOf c.active.val,
      (match c.winner with | some i => byteOf i.val | none => 0xFF), boolByte c.quiet, byteOf c.level,
      byteOf c.timedPlays.length] := by
  unfold Calendar.summaryBytes
  cases c.winner <;> rfl

/-- A sub-selector beyond the table of R19, or an index beyond the table it selects, finds nothing. -/
theorem Calendar.queried_none (c : Calendar) {sub index : Nat}
    (h : 4 < sub ∨ (sub = 1 ∧ 16 ≤ index) ∨ (sub = 2 ∧ 16 ≤ index) ∨ (sub = 3 ∧ 96 ≤ index)) :
    c.queried sub index = none := by
  rcases h with h | ⟨rfl, h⟩ | ⟨rfl, h⟩ | ⟨rfl, h⟩
  · obtain ⟨k, rfl⟩ := Nat.exists_eq_add_of_le' (Nat.succ_le_of_lt h)
    rfl
  · simp [Calendar.queried, index?_of_le h]
  · simp [Calendar.queried, index?_of_le h]
  · simp [Calendar.queried, index?_of_le h]

theorem calendarQueried : CalendarQueried := by
  intro s tag sub index h
  simp only [exec_queryCalendar s tag sub index h, Host.Outcome.next.injEq]
  refine ⟨fun hs => ?summary, fun i hs hi => ?programme, fun i hs hi => ?season, fun i hs hi => ?trigger,
    fun hs => ?plays, fun hs => ?beyond⟩
  case summary =>
    rw [hs, s.queryCalendar_ok tag rfl, Calendar.summaryBytes_eq]
    rfl
  case programme => rw [hs, hi]; exact s.queryCalendar_ok tag (by simp [Calendar.queried])
  case season => rw [hs, hi]; exact s.queryCalendar_ok tag (by simp [Calendar.queried])
  case trigger => rw [hs, hi]; exact s.queryCalendar_ok tag (by simp [Calendar.queried])
  case plays => rw [hs]; exact s.queryCalendar_ok tag rfl
  case beyond => exact s.queryCalendar_badArg tag (s.cal.queried_none hs)

/-! ## The store -/

theorem storeListed : StoreListed := by
  intro s tag first h
  have hexec : exec (.storeList tag first) s = .next (s.storeList tag first.toNat) := next_taken h
  rw [hexec, State.storeList]
  refine ⟨fun hf => by rw [if_pos hf], fun hf => ?_⟩
  rw [if_neg (Nat.not_lt.mpr hf)]
  simp only [Bool.decide_and]
  rfl

/-- Settles O13: every query is a request whose whole effect is one reply. -/
theorem queriesChangeNothing : Obligations.QueriesChangeNothing := ⟨recordsQueried, calendarQueried, storeListed⟩

end Sys2Proof.Machine
end

section
/-! SUPPORT. Dates and carries (R2, R3): the number of a day and of the day after it, and the mall time at a tick. -/
namespace Sys2Proof.Machine

theorem monthLength_eq (y m : Nat) : monthLength y m =
    if m = 2 then (if y % 4 = 0 then 29 else 28) else if m = 4 ∨ m = 6 ∨ m = 9 ∨ m = 11 then 30 else 31 := by
  simp [monthLength, leap]

/-- A month that follows one of the same year begins as many days later as that one has. -/
theorem daysBeforeMonth_succ (y : Nat) {m : Nat} (h : 1 ≤ m) :
    daysBeforeMonth y (m + 1) = daysBeforeMonth y m + monthLength y m := by
  obtain ⟨k, rfl⟩ := Nat.exists_eq_add_of_le' h
  simp [daysBeforeMonth, List.range_succ]

theorem daysBeforeMonth_january (y : Nat) : daysBeforeMonth y 1 = 0 := rfl

theorem daysBeforeMonth_december (y : Nat) : daysBeforeMonth y 12 = if y % 4 = 0 then 335 else 334 := by
  by_cases h : y % 4 = 0 <;> simp [daysBeforeMonth, List.range_succ, monthLength_eq, h]

/-- The day after a date is one day further from 1 January 2000, but after 31 December 2099. -/
theorem Date.dayNumber_next {d : Date} (h : d.valid = true) (hlast : d ≠ ⟨2099, 12, 31⟩) :
    d.next.dayNumber = d.dayNumber + 1 := by
  obtain ⟨hy, hy', hm, hm', hd, hd'⟩ := d.valid_iff.mp h
  unfold Date.next
  split
  case isTrue => simp only [Date.dayNumber]; omega
  case isFalse hday =>
    have hend : d.day = monthLength d.year d.month := by omega
    split
    case isTrue => simp only [Date.dayNumber, daysBeforeMonth_succ d.year hm]; omega
    case isFalse hmonth =>
      have hdec : d.month = 12 := by omega
      have h31 : d.day = 31 := by rw [hend, hdec]; rfl
      split
      case isTrue =>
        simp only [Date.dayNumber, hdec, h31, daysBeforeMonth_january, daysBeforeMonth_december]
        split <;> omega
      case isFalse hyear =>
        have h2099 : d.year = 2099 := by omega
        refine absurd ?_ hlast
        cases d
        simp_all

theorem datesAdvance : DatesAdvance := by
  refine ⟨fun d h => ⟨Date.next_valid h, fun hlast => ?weekday⟩, rfl, by decide, Date.valid_iff, monthLength_eq,
    fun _ => rfl⟩
  case weekday =>
    simp only [Date.weekday, Date.dayNumber_next h hlast]
    omega

theorem secondsCarry : SecondsCarry := by
  refine ⟨fun _ => rfl, fun s h => ?micro, fun s h hm => ?milli, fun s h hm => ?second⟩
  case micro => exact (MallTime.tick_eq _).trans (if_pos h)
  case milli => exact (MallTime.tick_eq _).trans (by rw [if_neg (by omega), if_pos hm])
  case second =>
    have htick : s.tick.cal.time = { s.cal.time with micro := 1000 } :=
      (MallTime.tick_eq _).trans (by rw [if_neg (by omega), if_neg (by omega)])
    rw [MallTime.carryDue_iff, htick]
    exact ⟨hm, rfl⟩

/-- Settles O14: the day after is one further from 1 January 2000, and so one weekday on; the carries are the model's. -/
theorem timeAdvances : Obligations.TimeAdvances := ⟨datesAdvance, secondsCarry⟩

end Sys2Proof.Machine
end

section
/-! SUPPORT. The season that wins (R12), the quiet state and P (R10): which entry the fold over the season table finds, and
what each of the two evaluations writes. -/
namespace Sys2Proof.Machine

/-! ## The winning season -/

/-- Entry j gives way to entry i: a lower priority, or the same priority and a higher index (R12). -/
def Calendar.yields (c : Calendar) (i j : Fin 16) : Prop :=
  (tget c.seasons j).priority < (tget c.seasons i).priority
    ∨ ((tget c.seasons j).priority = (tget c.seasons i).priority ∧ i < j)

/-- Entry i matches the present date. -/
def Calendar.matching (c : Calendar) (i : Fin 16) : Prop := (tget c.seasons i).matchesDate c.time.date = true

/-- What the choice among some entries has found: none where none matches, else the matching one all others give way to. -/
def Calendar.Leads (c : Calendar) (l : List (Fin 16)) : Option (Fin 16) → Prop
  | none => ∀ j ∈ l, ¬c.matching j
  | some i => i ∈ l ∧ c.matching i ∧ ∀ j ∈ l, c.matching j → j ≠ i → c.yields i j

/-- The choice with one more entry looked at. -/
def Calendar.prefer (c : Calendar) (best : Option (Fin 16)) (i : Fin 16) : Option (Fin 16) :=
  if (tget c.seasons i).matchesDate c.time.date = true then
    match best with
    | none => some i
    | some j => if (tget c.seasons j).priority < (tget c.seasons i).priority then some i else best
  else best

theorem Calendar.seasonWinner_eq (c : Calendar) : c.seasonWinner = (indexes 16).foldl c.prefer none := rfl

variable {c : Calendar}

theorem Calendar.yields_trans {i j k : Fin 16} (h : c.yields i j) (h' : c.yields j k) : c.yields i k := by
  unfold Calendar.yields at *
  omega

theorem Calendar.yields_asymm {i j : Fin 16} (h : c.yields i j) : ¬c.yields j i := by
  unfold Calendar.yields at *
  omega

/-- The next entry in ascending order is looked at: it wins by a higher priority alone. -/
theorem Calendar.Leads.prefer {l : List (Fin 16)} {best : Option (Fin 16)} {k : Fin 16} (h : c.Leads l best)
    (hk : ∀ j ∈ l, j < k) : c.Leads (l ++ [k]) (c.prefer best k) := by
  unfold Calendar.prefer
  by_cases hm : (tget c.seasons k).matchesDate c.time.date = true
  case neg =>
    rw [if_neg hm]
    cases best with
    | none =>
      intro j hj
      rcases List.mem_append.mp hj with hj | hj
      · exact h j hj
      · exact List.mem_singleton.mp hj ▸ hm
    | some i =>
      obtain ⟨hi, him, hall⟩ := h
      refine ⟨List.mem_append_left _ hi, him, fun j hj hjm hne => ?_⟩
      rcases List.mem_append.mp hj with hj | hj
      · exact hall j hj hjm hne
      · exact absurd (List.mem_singleton.mp hj ▸ hjm) hm
  case pos =>
    rw [if_pos hm]
    cases best with
    | none =>
      refine ⟨by simp, hm, fun j hj hjm hne => ?_⟩
      rcases List.mem_append.mp hj with hj | hj
      · exact absurd hjm (h j hj)
      · exact absurd (List.mem_singleton.mp hj) hne
    | some i =>
      obtain ⟨hi, him, hall⟩ := h
      dsimp only
      split
      case isTrue hlt =>
        have hki : c.yields k i := .inl hlt
        refine ⟨by simp, hm, fun j hj hjm hne => ?_⟩
        rcases List.mem_append.mp hj with hj | hj
        · by_cases hji : j = i
          · exact hji ▸ hki
          · exact Calendar.yields_trans hki (hall j hj hjm hji)
        · exact absurd (List.mem_singleton.mp hj) hne
      case isFalse hle =>
        refine ⟨List.mem_append_left _ hi, him, fun j hj hjm hne => ?_⟩
        rcases List.mem_append.mp hj with hj | hj
        · exact hall j hj hjm hne
        · rw [List.mem_singleton.mp hj]
          exact (Nat.lt_or_eq_of_le (Nat.not_lt.mp hle)).imp id fun he => ⟨he, hk i hi⟩

theorem Calendar.Leads.foldl : ∀ {l done : List (Fin 16)} {best : Option (Fin 16)}, c.Leads done best →
    (done ++ l).Pairwise (· < ·) → c.Leads (done ++ l) (l.foldl c.prefer best)
  | [], done, _, h, _ => by simpa using h
  | k :: rest, done, best, h, hl => by
    have hk : ∀ j ∈ done, j < k := fun j hj => (List.pairwise_append.mp hl).2.2 j hj k List.mem_cons_self
    have hsplit : done ++ k :: rest = (done ++ [k]) ++ rest := by simp
    rw [List.foldl_cons, hsplit]
    exact Calendar.Leads.foldl (h.prefer hk) (hsplit ▸ hl)

theorem Calendar.seasonWinner_leads (c : Calendar) : c.Leads (indexes 16) c.seasonWinner := by
  rw [c.seasonWinner_eq]
  exact Calendar.Leads.foldl (done := []) (fun _ h => absurd h List.not_mem_nil) (List.pairwise_lt_finRange 16)

theorem Calendar.seasonWinner_some_iff (c : Calendar) (i : Fin 16) :
    c.seasonWinner = some i ↔ c.matching i ∧ ∀ j, c.matching j → j ≠ i → c.yields i j := by
  have hlead := c.seasonWinner_leads
  constructor
  · intro h
    rw [h] at hlead
    exact ⟨hlead.2.1, fun j => hlead.2.2 j (mem_indexes j)⟩
  · rintro ⟨hi, hall⟩
    cases h : c.seasonWinner with
    | none => rw [h] at hlead; exact absurd hi (hlead i (mem_indexes i))
    | some k =>
      rw [h] at hlead
      obtain ⟨_, hk, hkall⟩ := hlead
      by_cases hne : k = i
      · rw [hne]
      · exact absurd (hkall i (mem_indexes i) hi (Ne.symm hne)) (Calendar.yields_asymm (hall k hk hne))

theorem Calendar.seasonWinner_none (h : ∀ i, (tget c.seasons i).matchesDate c.time.date = false) :
    c.seasonWinner = none := by
  have hlead := c.seasonWinner_leads
  cases hw : c.seasonWinner with
  | none => rfl
  | some i =>
    rw [hw] at hlead
    exact absurd hlead.2.1 (by simp [Calendar.matching, h i])

/-! ## The choice -/

theorem Calendar.choice_invalid (h : c.timeValid = false) : c.choice = (none, 0) := by
  simp [Calendar.choice, h]

theorem Calendar.choice_winner (h : c.timeValid = true) : c.choice.1 = c.seasonWinner := by
  unfold Calendar.choice
  rw [if_pos h]
  cases c.seasonWinner <;> rfl

theorem Calendar.choice_cases (c : Calendar) : c.choice = (none, 0)
    ∨ ∃ i, c.choice = (some i, (index? 16 (tget c.seasons i).programme).getD 0) := by
  unfold Calendar.choice
  cases c.timeValid with
  | false => exact .inl rfl
  | true =>
    cases c.seasonWinner with
    | none => exact .inl rfl
    | some i => exact .inr ⟨i, rfl⟩

theorem Calendar.choice_some {i : Fin 16} (h : c.choice.1 = some i) :
    c.choice.2 = (index? 16 (tget c.seasons i).programme).getD 0 := by
  rcases c.choice_cases with hc | ⟨j, hc⟩
  · simp [hc] at h
  · rw [hc] at h ⊢
    cases h
    rfl

theorem Calendar.choice_none (h : c.choice.1 = none) : c.choice = (none, 0) := by
  rcases c.choice_cases with hc | ⟨j, hc⟩
  · exact hc
  · simp [hc] at h

/-- Programme 0 is in force while time is invalid or no season matches (R9, R12). -/
theorem Calendar.choice_default
    (h : c.timeValid = false ∨ ∀ i, (tget c.seasons i).matchesDate c.time.date = false) : c.choice = (none, 0) := by
  cases hv : c.timeValid with
  | false => exact Calendar.choice_invalid hv
  | true =>
    have hall := h.resolve_left (by simp [hv])
    exact Calendar.choice_none ((Calendar.choice_winner hv).trans (Calendar.seasonWinner_none hall))

theorem Season.matchesDate_iff (e : Season) (d : Date) : e.matchesDate d = true ↔
    e.inUse = true ∧ e.weekdays.getLsbD d.weekday = true ∧ e.rangeContains d = true := by
  simp [Season.matchesDate, and_assoc]

theorem Season.rangeContains_iff (e : Season) (d : Date) : e.rangeContains d = true ↔
    if e.startMonth * 100 + e.startDay ≤ e.endMonth * 100 + e.endDay then
      e.startMonth * 100 + e.startDay ≤ d.month * 100 + d.day ∧ d.month * 100 + d.day ≤ e.endMonth * 100 + e.endDay
    else
      e.startMonth * 100 + e.startDay ≤ d.month * 100 + d.day ∨ d.month * 100 + d.day ≤ e.endMonth * 100 + e.endDay := by
  unfold Season.rangeContains
  dsimp only
  split <;> simp

theorem seasonWins : SeasonWins := by
  intro c
  refine ⟨Calendar.choice_invalid, fun hv i => ?winner, fun h => congrArg Prod.snd (Calendar.choice_none h),
    fun i hi hlt => ?programme, fun e d => ?range⟩
  case winner =>
    rw [Calendar.choice_winner hv]
    exact c.seasonWinner_some_iff i
  case programme => rw [Calendar.choice_some hi, index?_of_lt hlt]; rfl
  case range => rw [e.matchesDate_iff, e.rangeContains_iff]

/-! ## The quiet state and P -/

theorem Programme.quietAt_iff (p : Programme) (m : Nat) : p.quietAt m = true ↔ InWindow p m := by
  unfold Programme.quietAt InWindow
  split
  case isTrue h => simp [h, Nat.lt_asymm h]
  case isFalse h =>
    split
    case isTrue h' => simp [h, h']
    case isFalse h' => simp [h, h']

theorem Calendar.relevel_levelled (c : Calendar) : Levelled c.relevel := by
  refine ⟨?_, rfl⟩
  show (c.timeValid && (tget c.programmes c.active).quietAt c.time.minuteOfDay) = true ↔ _
  rw [Bool.and_eq_true, Programme.quietAt_iff]
  rfl

theorem State.reviewLevel_levelled (s : State) : Levelled s.reviewLevel.cal := s.cal.relevel_levelled

theorem State.reviewLevel_eq (s : State) : s.reviewLevel =
    { s with cal := { s.cal with quiet := s.reviewLevel.cal.quiet, level := s.reviewLevel.cal.level } } := rfl

/-! ## The programme evaluated again -/

theorem State.reviewProgramme_same {s : State} (h : s.cal.choice.2 = s.cal.active) :
    s.reviewProgramme = { s with cal := { s.cal with winner := s.cal.choice.1 } } := by
  simp [State.reviewProgramme, h]

theorem State.reviewProgramme_new {s : State} (h : s.cal.choice.2 ≠ s.cal.active) :
    s.reviewProgramme =
      { s with cal := { s.cal with winner := s.cal.choice.1, active := s.cal.choice.2 }.relevel }.notice
        (.programme s.cal.active.val s.cal.choice.2.val) := by
  simp [State.reviewProgramme, h]

/-- Evaluating the programme again writes the winner, the active programme, the quiet state and P, and may send a notice. -/
theorem State.reviewProgramme_eq (s : State) : s.reviewProgramme =
    { s with
      cal := { s.cal with
        winner := s.cal.choice.1, active := s.cal.choice.2
        quiet := s.reviewProgramme.cal.quiet, level := s.reviewProgramme.cal.level }
      port := s.reviewProgramme.port } := by
  by_cases h : s.cal.choice.2 = s.cal.active
  · rw [State.reviewProgramme_same h, h]
  · rw [State.reviewProgramme_new h]
    rfl

theorem State.reviewProgramme_cal (s : State) : s.reviewProgramme.cal = { s.cal with
    winner := s.cal.choice.1, active := s.cal.choice.2
    quiet := s.reviewProgramme.cal.quiet, level := s.reviewProgramme.cal.level } :=
  congrArg State.cal s.reviewProgramme_eq

/-- The choice reads the time, TIME_VALID and the season table alone, so what is written on it does not change it. -/
theorem State.reviewProgramme_chosen (s : State) : Chosen s.reviewProgramme.cal := by
  rw [s.reviewProgramme_cal]
  exact ⟨rfl, rfl⟩

theorem State.reviewProgramme_levelled {s : State} (h : s.reviewProgramme.cal.active ≠ s.cal.active) :
    Levelled s.reviewProgramme.cal := by
  have hne : s.cal.choice.2 ≠ s.cal.active := by
    rw [s.reviewProgramme_cal] at h
    exact h
  rw [State.reviewProgramme_new hne]
  exact Calendar.relevel_levelled _

theorem programmeReviewed : ProgrammeReviewed := by
  intro s
  refine ⟨s.reviewProgramme_chosen, State.reviewProgramme_same, fun h => ⟨?levelled, ?notice, s.reviewProgramme_cal⟩⟩
  case levelled => rw [State.reviewProgramme_new h]; exact Calendar.relevel_levelled _
  case notice => rw [State.reviewProgramme_new h]; rfl

/-- Settles O15: the fold over the season table keeps the entry to which every other matching one gives way, and a
re-evaluation records it. -/
theorem programmeChosen : Obligations.ProgrammeChosen := ⟨seasonWins, programmeReviewed⟩

end Sys2Proof.Machine
end

section
/-! SUPPORT. The programme, season and trigger tables (R9, R11, R13). -/
namespace Sys2Proof.Machine

variable {s : State} (tag : Byte)

/-! ## The programme table -/

theorem Programme.inRange_iff (p : Programme) : p.inRange = true ↔
    p.openLevel ≤ 100 ∧ p.quietLevel ≤ 100 ∧ p.quietStart ≤ 1439 ∧ p.quietEnd ≤ 1439 := by
  simp [Programme.inRange, and_assoc]

theorem State.writeProgramme_ok (i : Fin 16) {p : Programme} (h : p.inRange = true) : s.writeProgramme tag i.val p =
    ({ s with cal := { s.cal with programmes := tset s.cal.programmes i p } }.reviewLevel).reply tag 0x0A .ok := by
  simp [State.writeProgramme, h]

theorem State.writeProgramme_badArg {n : Nat} {p : Programme} (h : ¬(n < 16 ∧ p.inRange = true)) :
    s.writeProgramme tag n p = s.reply tag 0x0A .badArg := by
  by_cases hn : n < 16
  · have hp : p.inRange ≠ true := fun hp => h ⟨hn, hp⟩
    simp [State.writeProgramme, index?_of_lt hn, hp]
  · simp [State.writeProgramme, index?_of_le (Nat.not_lt.mp hn)]

theorem programmeWritten : ProgrammeWritten := by
  intro s tag programme openLevel quietLevel quietStart quietEnd h
  have hexec : exec (.setProgramme tag programme openLevel quietLevel quietStart quietEnd) s =
    .next (s.writeProgramme tag programme.toNat
      ⟨openLevel.toNat, quietLevel.toNat, quietStart.toNat, quietEnd.toNat⟩) := next_taken h
  rw [hexec]
  refine ⟨fun hbad => ?refused, fun i hi h1 h2 h3 h4 => ?written⟩
  case refused =>
    rw [State.writeProgramme_badArg tag fun ⟨hn, hp⟩ => hbad ⟨Nat.le_of_lt_succ hn, (Programme.inRange_iff _).mp hp⟩]
  case written =>
    rw [hi, State.writeProgramme_ok tag i ((Programme.inRange_iff _).mpr ⟨h1, h2, h3, h4⟩)]
    exact ⟨_, rfl, rfl, State.reviewLevel_levelled _⟩

theorem programmesReset : ProgrammesReset :=
  ⟨fun _ _ i => tget_replicate _ i, fun _ => rfl, fun _ => Calendar.choice_default⟩

/-- Settles O17: SET_PROGRAMME writes one entry and evaluates the level again. -/
theorem setProgrammeWrites : Obligations.SetProgrammeWrites := ⟨programmeWritten, programmesReset⟩

/-! ## The season table -/

theorem weekdayBeyond_iff (m : Byte) : weekdayBeyond m = true ↔ 128 ≤ m.toNat := by
  simp [weekdayBeyond, BitVec.msb_eq_decide]

theorem dayExists_iff (month day : Nat) : dayExists month day = true ↔
    1 ≤ month ∧ month ≤ 12 ∧ 1 ≤ day ∧ day ≤ monthLength 2000 month := by
  simp [dayExists, and_assoc]

theorem Season.inRange_iff (e : Season) : e.inRange = true ↔
    1 ≤ e.startMonth ∧ e.startMonth ≤ 12 ∧ 1 ≤ e.startDay ∧ e.startDay ≤ monthLength 2000 e.startMonth
      ∧ 1 ≤ e.endMonth ∧ e.endMonth ≤ 12 ∧ 1 ≤ e.endDay ∧ e.endDay ≤ monthLength 2000 e.endMonth
      ∧ 1 ≤ e.programme ∧ e.programme ≤ 15 ∧ e.priority ≤ 15 := by
  simp only [Season.inRange, Bool.and_eq_true, dayExists_iff, decide_eq_true_eq, and_assoc]

theorem State.writeSeason_ok (i : Fin 16) {e : Season} {mask : Byte} (h : e.inRange = true) (hm : mask.toNat < 128) :
    s.writeSeason tag i.val e mask = ((s.reply tag 0x0B .ok).setSeasonEntry i e).reviewProgramme := by
  have hw : weekdayBeyond mask = false := by
    rw [← Bool.not_eq_true, weekdayBeyond_iff]
    omega
  simp [State.writeSeason, h, hw]

theorem State.writeSeason_badArg {n : Nat} {e : Season} {mask : Byte}
    (h : ¬(n < 16 ∧ e.inRange = true ∧ mask.toNat < 128)) : s.writeSeason tag n e mask = s.reply tag 0x0B .badArg := by
  by_cases hn : n < 16
  · have hbad : ¬(e.inRange = true ∧ (!weekdayBeyond mask) = true) := by
      rw [Bool.not_eq_true', ← Bool.not_eq_true, weekdayBeyond_iff, Nat.not_le]
      exact fun he => h ⟨hn, he⟩
    simp only [State.writeSeason, index?_of_lt hn, if_neg hbad]
  · simp [State.writeSeason, index?_of_le (Nat.not_lt.mp hn)]

/-- What a season entry written, with the evaluation that follows it, leaves. -/
theorem State.seasonEntry_reviewed (u : State) (i : Fin 16) (e : Season) :
    let t := (u.setSeasonEntry i e).reviewProgramme
    t.cal.seasons = tset u.cal.seasons i e ∧ Chosen t.cal ∧ (t.cal.active ≠ u.cal.active → Levelled t.cal)
      ∧ t = { u with port := t.port, cal := { u.cal with
          seasons := t.cal.seasons, winner := t.cal.winner, active := t.cal.active, quiet := t.cal.quiet
          level := t.cal.level } } := by
  refine ⟨?seasons, State.reviewProgramme_chosen _, State.reviewProgramme_levelled (s := u.setSeasonEntry i e), ?frame⟩
  case seasons => rw [State.reviewProgramme_cal]; rfl
  case frame => rw [State.reviewProgramme_eq]; rfl

theorem seasonTableWritten : SeasonTableWritten := by
  intro s tag entry h
  refine ⟨fun startMonth startDay endMonth endDay weekdays programme priority => ?set, fun hlt => ?beyond,
    fun i hi => ?clear⟩
  case set =>
    have hexec : exec (.setSeason tag entry startMonth startDay endMonth endDay weekdays programme priority) s =
      .next (s.writeSeason tag entry.toNat ⟨true, startMonth.toNat, startDay.toNat, endMonth.toNat, endDay.toNat,
        weekdaysOf weekdays, programme.toNat, priority.toNat⟩ weekdays) := next_taken h
    rw [hexec]
    intro good
    have hgood : good ↔ Season.inRange ⟨true, startMonth.toNat, startDay.toNat, endMonth.toNat, endDay.toNat,
        weekdaysOf weekdays, programme.toNat, priority.toNat⟩ = true ∧ weekdays.toNat < 128 := by
      simp only [good, Season.inRange_iff, and_assoc]
    refine ⟨fun hbad => ?refused, fun i hi hok => ?written⟩
    case refused =>
      exact congrArg _ (State.writeSeason_badArg tag fun ⟨hn, hr⟩ => hbad ⟨Nat.le_of_lt_succ hn, hgood.mpr hr⟩)
    case written =>
      obtain ⟨hr, hw⟩ := hgood.mp hok
      rw [hi, State.writeSeason_ok tag i hr hw]
      exact ⟨_, rfl, rfl, State.seasonEntry_reviewed (s.reply tag 0x0B .ok) i _⟩
  case beyond =>
    have hexec : exec (.clearSeason tag entry) s = .next (s.clearSeason tag entry.toNat) := next_taken h
    rw [hexec, State.clearSeason, index?_of_le hlt]
  case clear =>
    have hexec : exec (.clearSeason tag entry) s = .next (s.clearSeason tag entry.toNat) := next_taken h
    rw [hexec, State.clearSeason, hi, index?_val]
    exact ⟨_, rfl, rfl, State.seasonEntry_reviewed (s.reply tag 0x0C .ok) i _⟩

/-! ## The trigger table -/

theorem selectorOf_some {selector : Byte} (h : selector = 0xFF ∨ selector.toNat ≤ 15) :
    selectorOf selector = some (if selector = 0xFF then none else some selector.toNat) := by
  unfold selectorOf
  split
  case isTrue => rfl
  case isFalse hne => rw [if_pos (h.resolve_left hne)]

theorem selectorOf_none {selector : Byte} (h : ¬(selector = 0xFF ∨ selector.toNat ≤ 15)) :
    selectorOf selector = none := by
  rw [not_or] at h
  rw [selectorOf, if_neg h.1, if_neg h.2]

theorem triggerInRange_iff (minute weekdays showNo priority : Byte) :
    triggerInRange minute weekdays showNo priority = true ↔
      minute.toNat ≤ 59 ∧ showNo.toNat ≤ 63 ∧ priority.toNat ≤ 15 ∧ weekdays.toNat < 128 := by
  have hmask : (!weekdayBeyond weekdays) = true ↔ weekdays.toNat < 128 := by
    rw [Bool.not_eq_true', ← Bool.not_eq_true, weekdayBeyond_iff, Nat.not_le]
  simp only [triggerInRange, Bool.and_eq_true, decide_eq_true_eq, hmask]
  tauto

theorem State.writeTrigger_badArg {entry selector minute weekdays showNo priority : Byte} (hours : BitVec 24)
    (grace : Byte) (h : ¬(entry.toNat < 96 ∧ (selector = 0xFF ∨ selector.toNat ≤ 15)
      ∧ triggerInRange minute weekdays showNo priority = true)) :
    s.writeTrigger tag entry selector hours minute weekdays showNo priority grace = s.reply tag 0x0D .badArg := by
  by_cases hn : entry.toNat < 96
  case neg => simp [State.writeTrigger, index?_of_le (Nat.not_lt.mp hn)]
  case pos =>
    by_cases hs : selector = 0xFF ∨ selector.toNat ≤ 15
    case neg => simp [State.writeTrigger, selectorOf_none hs]
    case pos =>
      have hr : triggerInRange minute weekdays showNo priority ≠ true := fun hr => h ⟨hn, hs, hr⟩
      simp [State.writeTrigger, index?_of_lt hn, selectorOf_some hs, hr]

theorem triggerTableWritten : TriggerTableWritten := by
  intro s tag entry h
  refine ⟨fun selector hours minute weekdays showNo priority grace => ?set, fun hlt => ?beyond, fun i hi => ?clear⟩
  case set =>
    have hexec : exec (.setTrigger tag entry selector hours minute weekdays showNo priority grace) s =
      .next (s.writeTrigger tag entry selector hours minute weekdays showNo priority grace) := next_taken h
    rw [hexec]
    intro good
    have hgood : good ↔ (selector = 0xFF ∨ selector.toNat ≤ 15)
        ∧ triggerInRange minute weekdays showNo priority = true := by
      simp only [good, triggerInRange_iff]
    refine ⟨fun hbad => ?refused, fun i hi hok => ?written⟩
    case refused =>
      exact congrArg _ (State.writeTrigger_badArg tag hours grace fun ⟨hn, hr⟩ =>
        hbad ⟨Nat.le_of_lt_succ hn, hgood.mpr hr⟩)
    case written =>
      obtain ⟨hs, hr⟩ := hgood.mp hok
      rw [State.writeTrigger, hi, index?_val, selectorOf_some hs]
      dsimp only
      rw [if_pos hr]
      rfl
  case beyond =>
    have hexec : exec (.clearTrigger tag entry) s = .next (s.clearTrigger tag entry.toNat) := next_taken h
    rw [hexec, State.clearTrigger, index?_of_le hlt]
  case clear =>
    have hexec : exec (.clearTrigger tag entry) s = .next (s.clearTrigger tag entry.toNat) := next_taken h
    rw [hexec, State.clearTrigger, hi, index?_val]
    rfl

/-- Settles O18: each command checks its fields, writes one entry, and for a season evaluates the programme again. -/
theorem tablesWritten : Obligations.TablesWritten := ⟨seasonTableWritten, triggerTableWritten⟩

end Sys2Proof.Machine
end

section
/-! SUPPORT. What the scheduler leaves: admission of a request, the walk, starts and ends of runs touch neither the calendar
nor the show store. -/
namespace Sys2Proof.Machine

/-- The calendar and the show store stand. -/
def BooksStand (s t : State) : Prop := t.cal = s.cal ∧ t.store = s.store

namespace BooksStand

theorem refl (s : State) : BooksStand s s := ⟨rfl, rfl⟩

theorem trans {s t u : State} (h : BooksStand s t) (h' : BooksStand t u) : BooksStand s u :=
  ⟨h'.1.trans h.1, h'.2.trans h.2⟩

theorem foldl {β : Type} (f : State → β → State) (h : ∀ s x, BooksStand s (f s x)) (l : List β) (s : State) :
    BooksStand s (l.foldl f s) :=
  foldl_rel BooksStand refl trans f h l s

variable (s : State)

/-! ## Ends of runs -/

theorem stopAxis (a : AxisNo) (dv : Nat) : BooksStand s (s.stopAxis a dv).1 := by
  unfold State.stopAxis State.disturb
  dsimp only
  split
  · split <;> exact ⟨rfl, rfl⟩
  · exact refl s

theorem stopEnded (a : AxisNo) : BooksStand s (s.stopEnded a) := by
  unfold State.stopEnded
  dsimp only
  split
  · exact stopAxis s _ _
  · exact stopAxis s _ _
  · exact stopAxis s _ _
  · exact refl s

theorem releaseKey (o : Source) (id : Nat) : BooksStand s (s.releaseKey o id) := by
  unfold State.releaseKey
  split
  · dsimp only
    split <;> exact ⟨rfl, rfl⟩
  · exact refl s

theorem holdKey (o : Source) (id : Nat) : BooksStand s (s.holdKey o id) := by
  unfold State.holdKey
  split <;> exact ⟨rfl, rfl⟩

theorem finalise (n : LaneNo) (r : Run) (o : RunOutcome) : BooksStand s (s.finalise n r o) :=
  trans ⟨rfl, rfl⟩ (releaseKey _ _ _)

theorem endRun (n : LaneNo) (o : RunOutcome) : BooksStand s (s.endRun n o) := by
  unfold State.endRun
  split
  · exact refl s
  · dsimp only
    refine trans ?_ (trans ⟨rfl, rfl⟩ (finalise _ _ _ _))
    split
    · exact trans ⟨rfl, rfl⟩ (foldl _ stopEnded _ _)
    · exact ⟨rfl, rfl⟩

/-! ## Starts and the walk -/

theorem startRun (n : LaneNo) (r : Request) (b : Block) (m : BitVec 12) (limit : Nat) :
    BooksStand s (s.startRun n r b m limit) := ⟨rfl, rfl⟩

theorem tryStart (r : Request) : BooksStand s (s.tryStart r) := by
  refine ⟨?_, s.tryStart_store r⟩
  unfold State.tryStart
  split
  · rfl
  · dsimp only
    split
    · rfl
    · split
      · rfl
      · split
        · rfl
        · split
          · have hends := (foldl (fun s n => s.endRun n .preempted) (fun s n => endRun s n _) (s.blocking ‹_›) s).1
            split <;> exact hends
          · rfl

theorem walk : BooksStand s s.walk := by
  unfold State.walk
  split
  · exact refl s
  · exact foldl _ tryStart _ _

/-! ## Admission -/

theorem dropRequest (id showNo : Nat) (o : Source) (r : DropReason) : BooksStand s (s.dropRequest id showNo o r) :=
  trans ⟨rfl, rfl⟩ (releaseKey _ _ _)

theorem dropQueued (r : Request) (why : DropReason) : BooksStand s (s.dropQueued r why) :=
  trans ⟨rfl, rfl⟩ (dropRequest _ _ _ _ _)

theorem expireUnstarted (id : Nat) : BooksStand s (s.expireUnstarted id) := by
  unfold State.expireUnstarted
  split
  · split
    · exact dropQueued s _ _
    · exact refl s
  · exact refl s

theorem enterRequest (w : Wish) (e : Option Request) : BooksStand s (s.enterRequest w e) := by
  refine trans ?_ (trans (holdKey _ _ _) (trans (walk _) (expireUnstarted _ _)))
  cases e with
  | none => exact ⟨rfl, rfl⟩
  | some x => exact trans (dropQueued s x .evicted) ⟨rfl, rfl⟩

theorem enterWish (w : Wish) : BooksStand s (s.enterWish w) := by
  unfold State.enterWish
  split
  · exact dropRequest s _ _ _ _
  · split
    · exact enterRequest s _ _
    · exact dropRequest s _ _ _ _

end BooksStand

end Sys2Proof.Machine
end

section
/-! SUPPORT. The timed-play list (R17, R18): which plays an act takes out of it, and what the programme and the level evaluated
together make of the calendar. -/
namespace Sys2Proof.Machine

/-! ## The list without the plays of some ids -/

/-- The list without every entry whose id is that of one of `gone`. -/
def withoutPlays (gone l : List TimedPlay) : List TimedPlay := l.filter fun p => gone.all fun q => p.id != q.id

@[simp] theorem withoutPlays_nil (l : List TimedPlay) : withoutPlays [] l = l := by simp [withoutPlays]

theorem withoutPlays_cons (q : TimedPlay) (gone l : List TimedPlay) :
    withoutPlays gone (withoutPlay q.id l) = withoutPlays (q :: gone) l := by
  simp [withoutPlays, withoutPlay, List.filter_filter, Bool.and_comm]

theorem mem_withoutPlays {gone l : List TimedPlay} {p : TimedPlay} :
    p ∈ withoutPlays gone l ↔ p ∈ l ∧ ∀ q ∈ gone, p.id ≠ q.id := by
  simp [withoutPlays]

theorem withoutPlays_self (l : List TimedPlay) : withoutPlays l l = [] :=
  List.eq_nil_iff_forall_not_mem.mpr fun p hp => (mem_withoutPlays.mp hp).2 p (mem_withoutPlays.mp hp).1 rfl

/-! ## The plays that have come -/

/-- The timed plays whose start is not later than the present date and second (R18). -/
def Calendar.comePlays (c : Calendar) : List TimedPlay := c.timedPlays.filter fun p => p.start.hasCome c.time.dateTime

theorem State.duePlays_eq (s : State) : s.duePlays = s.cal.comePlays := rfl

/-- The calendar with every play that has come, and every other of its id, out of the list. -/
def Calendar.released (c : Calendar) : Calendar := { c with timedPlays := withoutPlays c.comePlays c.timedPlays }

variable {c : Calendar} {p : TimedPlay}

theorem Calendar.mem_released (h : p ∈ c.released.timedPlays) :
    p ∈ c.timedPlays ∧ p.start.hasCome c.time.dateTime = false := by
  obtain ⟨hp, hne⟩ := mem_withoutPlays.mp h
  refine ⟨hp, ?_⟩
  cases hc : p.start.hasCome c.time.dateTime with
  | false => rfl
  | true => exact absurd rfl (hne p (List.mem_filter.mpr ⟨hp, hc⟩))

theorem Calendar.released_mem (hp : p ∈ c.timedPlays)
    (h : ∀ q ∈ c.timedPlays, q.id = p.id → q.start.hasCome c.time.dateTime = false) : p ∈ c.released.timedPlays := by
  refine mem_withoutPlays.mpr ⟨hp, fun q hq he => ?_⟩
  obtain ⟨hq, hcome⟩ := List.mem_filter.mp hq
  rw [h q hq he.symm] at hcome
  cases hcome

/-! ## Drops and releases -/

/-- Plays dropped leave the list; only the port changes with it. -/
theorem State.foldl_dropPlay_eq (why : DropReason) : ∀ (l : List TimedPlay) (s : State),
    l.foldl (fun s p => s.dropPlay p why) s =
      { s with
        cal := { s.cal with timedPlays := withoutPlays l s.cal.timedPlays }
        port := (l.foldl (fun s p => s.dropPlay p why) s).port }
  | [], s => by rw [withoutPlays_nil]; rfl
  | p :: rest, s => by
    rw [← withoutPlays_cons]
    exact State.foldl_dropPlay_eq why rest (s.dropPlay p why)

theorem State.foldl_releasePlay_books : ∀ (l : List TimedPlay) (s : State),
    (l.foldl State.releasePlay s).cal = { s.cal with timedPlays := withoutPlays l s.cal.timedPlays }
      ∧ (l.foldl State.releasePlay s).store = s.store
  | [], s => by rw [withoutPlays_nil]; exact ⟨rfl, rfl⟩
  | p :: rest, s => by
    rw [← withoutPlays_cons]
    obtain ⟨hcal, hstore⟩ := State.foldl_releasePlay_books rest (s.releasePlay p)
    obtain ⟨ecal, estore⟩ := BooksStand.enterWish (s.setPlays (withoutPlay p.id s.cal.timedPlays))
      ⟨p.id, p.showNo, p.priority, p.grace, .link⟩
    have hone : (s.releasePlay p).cal = { s.cal with timedPlays := withoutPlay p.id s.cal.timedPlays } := ecal
    refine ⟨?_, hstore.trans estore⟩
    rw [List.foldl_cons, hcal, hone]

theorem State.expirePlays_eq (s : State) : s.expirePlays = { s with cal := s.cal.released, port := s.expirePlays.port } :=
  State.foldl_dropPlay_eq .expired s.duePlays s

theorem State.releasePlays_cal (s : State) : s.releasePlays.cal = s.cal.released :=
  (State.foldl_releasePlay_books s.duePlays s).1

theorem State.releasePlays_store (s : State) : s.releasePlays.store = s.store :=
  (State.foldl_releasePlay_books s.duePlays s).2

/-! ## The programme and then the level -/

/-- The calendar with the programme and then the level evaluated again (R10, R12). -/
def Calendar.reviewed (c : Calendar) : Calendar :=
  { c with winner := c.choice.1, active := c.choice.2 }.relevel

theorem Calendar.reviewed_chosen (c : Calendar) : Chosen c.reviewed := ⟨rfl, rfl⟩

theorem Calendar.reviewed_levelled (c : Calendar) : Levelled c.reviewed := Calendar.relevel_levelled _

theorem State.reviewed_eq (s : State) : s.reviewProgramme.reviewLevel =
    { s with cal := s.cal.reviewed, port := s.reviewProgramme.port } := by
  conv_lhs => rw [s.reviewProgramme_eq]
  rfl

theorem Calendar.released_chosen (h : Chosen c) : Chosen c.released := h

theorem Calendar.released_levelled (h : Levelled c) : Levelled c.released := h

theorem State.reviewed_cal (s : State) : s.reviewProgramme.reviewLevel.cal = s.cal.reviewed :=
  congrArg State.cal s.reviewed_eq

theorem State.reviewProgramme_store (s : State) : s.reviewProgramme.store = s.store := by
  rw [s.reviewProgramme_eq]

theorem State.reviewed_store (s : State) : s.reviewProgramme.reviewLevel.store = s.store := by
  rw [s.reviewed_eq]

/-! ## SET_TIME -/

theorem MallTime.settable_iff (t : MallTime) : (t.dateTime.valid = true ∧ t.milli ≤ 999) ↔
    t.date.valid = true ∧ t.hour ≤ 23 ∧ t.minute ≤ 59 ∧ t.second ≤ 59 ∧ t.milli ≤ 999 := by
  rw [DateTime.valid_iff]
  simp only [MallTime.dateTime, and_assoc]

theorem boolOf_bit {b : Byte} (h : b = 0 ∨ b = 1) : boolOf b = some (decide (b = 1)) := by
  rcases h with rfl | rfl <;> rfl

theorem boolOf_none {b : Byte} (h : ¬(b = 0 ∨ b = 1)) : boolOf b = none := by
  rw [not_or] at h
  rw [boolOf, if_neg h.1, if_neg h.2]

variable {s : State} (tag : Byte)

theorem State.setTime_badArg {t : MallTime} {pps : Byte}
    (h : ¬(t.date.valid = true ∧ t.hour ≤ 23 ∧ t.minute ≤ 59 ∧ t.second ≤ 59 ∧ t.milli ≤ 999
      ∧ (pps = 0 ∨ pps = 1))) :
    s.setTime tag t pps = s.reply tag 0x08 .badArg := by
  by_cases hp : pps = 0 ∨ pps = 1
  · have ht : ¬(t.dateTime.valid = true ∧ t.milli ≤ 999) := by
      rw [MallTime.settable_iff]
      exact fun ⟨h1, h2, h3, h4, h5⟩ => h ⟨h1, h2, h3, h4, h5, hp⟩
    simp only [State.setTime, boolOf_bit hp, if_neg ht]
  · simp [State.setTime, boolOf_none hp]

theorem State.setTime_ok {t : MallTime} {pps : Byte} (ht : t.dateTime.valid = true ∧ t.milli ≤ 999)
    (hp : pps = 0 ∨ pps = 1) : s.setTime tag t pps =
      ((s.reply tag 0x08 .ok).loadTime t (decide (pps = 1))).reviewProgramme.reviewLevel.expirePlays := by
  simp only [State.setTime, boolOf_bit hp, if_pos ht]

theorem Calendar.ppsAfterSet_eq (c : Calendar) (p : Prop) [Decidable p] :
    c.ppsAfterSet (decide p) = if p ∧ c.ppsEnable = true then c.ppsState else .none := by
  simp [Calendar.ppsAfterSet]

/-- Programme and level evaluated again, and the plays that have come dropped, write the calendar and the port alone. -/
theorem State.reviewed_expired_eq (s : State) : s.reviewProgramme.reviewLevel.expirePlays =
    { s with cal := s.cal.reviewed.released, port := s.reviewProgramme.reviewLevel.expirePlays.port } := by
  rw [s.reviewed_eq]
  exact State.expirePlays_eq _

theorem State.reviewed_expired_cal (s : State) :
    s.reviewProgramme.reviewLevel.expirePlays.cal = s.cal.reviewed.released := congrArg State.cal s.reviewed_expired_eq

theorem State.loadTime_eq (s : State) (t : MallTime) (p : Prop) [Decidable p] : s.loadTime t (decide p) =
    { s with cal := { s.cal with
      time := t, timeValid := true, ppsEnable := decide p
      ppsState := if p ∧ s.cal.ppsEnable = true then s.cal.ppsState else .none } } := by
  rw [State.loadTime, Calendar.ppsAfterSet_eq]

/-- Settles O16: an accepted SET_TIME is the time loaded, the two evaluations and the drop of the plays that have come. -/
theorem setTimeLoads : Obligations.SetTimeLoads := by
  intro s tag year month day hour minute second milli pps h
  have hexec : exec (.setTime tag year month day hour minute second milli pps) s =
    .next (s.setTime tag (mallTimeOf year month day hour minute second milli) pps) := next_taken h
  simp only [hexec]
  refine ⟨fun hbad => congrArg _ (State.setTime_badArg tag hbad), fun hd hh hm hs hmilli hp => ?_⟩
  have hrange := (MallTime.settable_iff (mallTimeOf year month day hour minute second milli)).mpr
    ⟨hd, hh, hm, hs, hmilli⟩
  obtain ⟨t, ht⟩ : ∃ t, s.setTime tag (mallTimeOf year month day hour minute second milli) pps = t := ⟨_, rfl⟩
  have hdone := ht.symm
  rw [State.setTime_ok tag hrange hp, State.loadTime_eq] at hdone
  refine ⟨_, t, rfl, hdone, congrArg _ ht, ?_⟩
  have hcal := (congrArg State.cal hdone).trans (State.reviewed_expired_cal _)
  have hframe : t = { s with cal := t.cal, port := t.port } := by rw [hdone, State.reviewed_expired_eq]; rfl
  rw [hcal] at hframe ⊢
  exact ⟨rfl, rfl, decide_eq_true_iff, rfl, rfl, rfl, rfl, rfl, rfl,
    Calendar.released_chosen (Calendar.reviewed_chosen _), Calendar.released_levelled (Calendar.reviewed_levelled _),
    fun _ hp => (Calendar.mem_released hp :), fun _ hp h => Calendar.released_mem hp h, hframe⟩

end Sys2Proof.Machine
end

section
/-! SUPPORT. Triggers and the carry into a new second (R3, R4, R14 … R16, R18). -/
namespace Sys2Proof.Machine

/-! ## Triggers -/

theorem triggersQualify : TriggersQualify := by
  rintro ⟨inUse, selector, hours, minute, weekdays, showNo, priority, grace, lastFired⟩ c
  cases selector with
  | none => cases lastFired <;> simp [Trigger.firesAt, and_assoc]
  | some p => cases lastFired <;> simp [Trigger.firesAt, and_assoc]

/-- An entry that has recorded the present date-minute does not qualify in it (law 12). -/
theorem Trigger.firesAt_recorded (t : Trigger) (c : Calendar) :
    ({ t with lastFired := some c.time.dateMinute } : Trigger).firesAt c = false := by
  simp [Trigger.firesAt]

/-- The calendar after entry i has recorded the present date-minute. -/
def Calendar.recorded (c : Calendar) (i : Fin 96) : Calendar :=
  { c with triggers := tset c.triggers i { tget c.triggers i with lastFired := some c.time.dateMinute } }

theorem Calendar.recorded_firesAt (c : Calendar) (i : Fin 96) :
    (tget (c.recorded i).triggers i).firesAt (c.recorded i) = false := by
  have hentry : tget (c.recorded i).triggers i =
    { tget c.triggers i with lastFired := some (c.recorded i).time.dateMinute } := tget_tset_self _ _ _
  rw [hentry]
  exact Trigger.firesAt_recorded _ _

variable {s : State}

theorem State.testTrigger_skips {i : Fin 96} (h : (tget s.cal.triggers i).firesAt s.cal = false) :
    s.testTrigger i = s := by
  simp [State.testTrigger, h]

theorem State.testTrigger_fires {i : Fin 96} (h : (tget s.cal.triggers i).firesAt s.cal = true) :
    let e := tget s.cal.triggers i
    let u := { s with cal := s.cal.recorded i }
    s.testTrigger i = { u with sched := { u.sched with lastId := u.nextId } }.enterWish
      ⟨u.nextId, e.showNo, e.priority, e.grace, .trigger i⟩ :=
  if_pos h

theorem State.testTrigger_cal {i : Fin 96} (h : (tget s.cal.triggers i).firesAt s.cal = true) :
    (s.testTrigger i).cal = s.cal.recorded i := by
  rw [State.testTrigger_fires h]
  exact (BooksStand.enterWish _ _).1

theorem State.fireTriggers_invalid (h : s.cal.timeValid = false) : s.fireTriggers = s := by
  simp [State.fireTriggers, h]

theorem triggersFire : TriggersFire := by
  refine ⟨fun s i => ⟨State.testTrigger_skips, fun h => ⟨State.testTrigger_fires h, State.testTrigger_cal h, ?_⟩⟩,
    fun s => ⟨State.fireTriggers_invalid, fun h => if_pos h⟩⟩
  rw [State.testTrigger_cal h]
  exact s.cal.recorded_firesAt i

/-- Settles O19: an entry that fires records the present date-minute, and so qualifies no more in that minute. -/
theorem triggerFiresOnceAMinute : Obligations.TriggerFiresOnceAMinute := ⟨triggersQualify, triggersFire⟩

/-- Some entries of the trigger table are written, and the store stands. -/
def TriggersRecorded (s t : State) : Prop := (∃ x, t.cal = { s.cal with triggers := x }) ∧ t.store = s.store

theorem TriggersRecorded.refl (s : State) : TriggersRecorded s s := ⟨⟨s.cal.triggers, rfl⟩, rfl⟩

theorem TriggersRecorded.trans {s t u : State} : TriggersRecorded s t → TriggersRecorded t u → TriggersRecorded s u := by
  rintro ⟨⟨x, hx⟩, hs⟩ ⟨⟨y, hy⟩, ht⟩
  exact ⟨⟨y, by rw [hy, hx]⟩, ht.trans hs⟩

theorem State.testTrigger_recorded (s : State) (i : Fin 96) : TriggersRecorded s (s.testTrigger i) := by
  cases h : (tget s.cal.triggers i).firesAt s.cal with
  | false => rw [State.testTrigger_skips h]; exact .refl s
  | true =>
    refine ⟨⟨_, State.testTrigger_cal h⟩, ?_⟩
    rw [State.testTrigger_fires h]
    exact (BooksStand.enterWish _ _).2

theorem State.fireTriggers_recorded (s : State) : TriggersRecorded s s.fireTriggers := by
  unfold State.fireTriggers
  split
  · exact foldl_rel TriggersRecorded .refl .trans _ State.testTrigger_recorded _ s
  · exact .refl s

/-! ## TIME_VALID lost -/

/-- The calendar when TIME_VALID is lost: the PPS state NONE, programme and level evaluated again, no timed play. -/
def Calendar.invalidated (c : Calendar) : Calendar :=
  { ({ c with timeValid := false, ppsState := .none } : Calendar).reviewed with timedPlays := [] }

theorem Calendar.invalidated_active (c : Calendar) : c.invalidated.active = 0 :=
  congrArg Prod.snd (Calendar.choice_invalid (c := { c with timeValid := false, ppsState := .none }) rfl)

/-- The evaluations, the latch and the drops of `State.invalidateTime`, before the drops. -/
def State.timeLost (s : State) : State :=
  ({ s with cal := { s.cal with timeValid := false, ppsState := .none } }.reviewProgramme.reviewLevel).latch fun l =>
    { l with timeInvalid := true }

theorem State.invalidateTime_eq (s : State) :
    s.invalidateTime = s.timeLost.cal.timedPlays.foldl (fun s p => s.dropPlay p .expired) s.timeLost := rfl

theorem State.timeLost_cal (s : State) :
    s.timeLost.cal = ({ s.cal with timeValid := false, ppsState := .none } : Calendar).reviewed :=
  State.reviewed_cal _

theorem State.timeLost_store (s : State) : s.timeLost.store = s.store :=
  State.reviewed_store _

theorem State.invalidateTime_cal (s : State) : s.invalidateTime.cal = s.cal.invalidated := by
  rw [s.invalidateTime_eq, State.foldl_dropPlay_eq]
  dsimp only
  rw [withoutPlays_self, s.timeLost_cal]
  rfl

theorem State.invalidateTime_store (s : State) : s.invalidateTime.store = s.store := by
  rw [s.invalidateTime_eq, State.foldl_dropPlay_eq]
  exact s.timeLost_store

/-- A notice leaves the TIME_INVALID latch. -/
theorem Port.enterNotice_timeInvalid (p : Port) (now : Instant) (n : Notice) :
    (p.enterNotice now n).latches.timeInvalid = p.latches.timeInvalid := by
  unfold Port.enterNotice
  split
  · split <;> rfl
  · rfl

theorem State.foldl_dropPlay_timeInvalid (why : DropReason) : ∀ (l : List TimedPlay) (s : State),
    (l.foldl (fun s p => s.dropPlay p why) s).port.latches.timeInvalid = s.port.latches.timeInvalid
  | [], _ => rfl
  | p :: rest, s =>
    (State.foldl_dropPlay_timeInvalid why rest (s.dropPlay p why)).trans (Port.enterNotice_timeInvalid _ _ _)

theorem State.invalidateTime_latch (s : State) : s.invalidateTime.port.latches.timeInvalid = true := by
  rw [s.invalidateTime_eq, State.foldl_dropPlay_timeInvalid]
  rfl

/-! ## The carry -/

/-- The state with the mall time at the next second. -/
def State.atNextSecond (s : State) : State := { s with cal := { s.cal with time := s.cal.time.nextSecond } }

/-- The carry's next second lies in an earlier year: the carry out of 2099 (R4). -/
def MallTime.yearFalls (t : MallTime) : Prop := t.nextSecond.date.year < t.date.year

theorem MallTime.nextSecond_date {t : MallTime} (h : t.second ≤ 59) (h' : t.second ≠ 59) : t.nextSecond.date = t.date := by
  have hlt : t.second < 59 := by omega
  simp [MallTime.nextSecond, hlt]

theorem MallTime.not_yearFalls {t : MallTime} (h : t.nextSecond.date = t.date) : ¬t.yearFalls := by
  simp [MallTime.yearFalls, h]

theorem State.minuteBoundary_year {old : MallTime} (h : s.cal.time.date.year < old.date.year) :
    s.minuteBoundary old = s.invalidateTime.reviewLevel.fireTriggers := by
  simp [State.minuteBoundary, MallTime.isYearCarry, h]

theorem State.minuteBoundary_date {old : MallTime} (h : ¬s.cal.time.date.year < old.date.year)
    (hd : old.date ≠ s.cal.time.date) : s.minuteBoundary old = s.reviewProgramme.reviewLevel.fireTriggers := by
  simp [State.minuteBoundary, MallTime.isYearCarry, h, hd]

theorem State.minuteBoundary_minute {old : MallTime} (hd : old.date = s.cal.time.date) :
    s.minuteBoundary old = s.reviewLevel.fireTriggers := by
  simp [State.minuteBoundary, MallTime.isYearCarry, hd]

theorem State.carry_second (h : s.cal.time.second ≠ 59) : s.carry = s.atNextSecond.releasePlays := by
  simp [State.carry, h, State.atNextSecond]

theorem State.carry_minute (h : s.cal.time.second = 59) :
    s.carry = (s.atNextSecond.minuteBoundary s.cal.time).releasePlays := by
  simp [State.carry, h, State.atNextSecond]

/-- With TIME_VALID lost no trigger is tested, and no timed play is left to release. -/
theorem State.carry_year (h : s.cal.time.second = 59) (hy : s.cal.time.yearFalls) :
    s.carry = s.atNextSecond.invalidateTime.reviewLevel := by
  have hcal : s.atNextSecond.invalidateTime.reviewLevel.cal = s.atNextSecond.cal.invalidated.relevel :=
    congrArg Calendar.relevel s.atNextSecond.invalidateTime_cal
  have hplays : s.atNextSecond.invalidateTime.reviewLevel.duePlays = [] := by
    rw [State.duePlays_eq, hcal]
    rfl
  rw [State.carry_minute h, State.minuteBoundary_year (s := s.atNextSecond) hy,
    State.fireTriggers_invalid (by rw [hcal]; rfl), State.releasePlays, hplays]
  rfl

/-- What a carry makes of a calendar, by whether it reaches a minute boundary, and whether the year falls, the date changes or
neither. The entries of the trigger table that fire are left open. -/
inductive CarriedTo (c : Calendar) : Calendar → Prop
  | second (h : c.time.second ≠ 59) : CarriedTo c ({ c with time := c.time.nextSecond } : Calendar).released
  | year (h : c.time.second = 59) (hy : c.time.yearFalls) :
      CarriedTo c ({ c with time := c.time.nextSecond } : Calendar).invalidated.relevel
  | date (h : c.time.second = 59) (hy : ¬c.time.yearFalls) (hd : c.time.nextSecond.date ≠ c.time.date)
      (x : Vector Trigger 96) :
      CarriedTo c ({ ({ c with time := c.time.nextSecond } : Calendar).reviewed with triggers := x } : Calendar).released
  | minute (h : c.time.second = 59) (hd : c.time.nextSecond.date = c.time.date) (x : Vector Trigger 96) :
      CarriedTo c ({ ({ c with time := c.time.nextSecond } : Calendar).relevel with triggers := x } : Calendar).released

theorem State.carry_cal (s : State) : CarriedTo s.cal s.carry.cal := by
  by_cases h : s.cal.time.second = 59
  case neg =>
    rw [State.carry_second h, State.releasePlays_cal]
    exact .second h
  case pos =>
    by_cases hy : s.cal.time.yearFalls
    case pos =>
      rw [State.carry_year h hy]
      show CarriedTo _ s.atNextSecond.invalidateTime.cal.relevel
      rw [State.invalidateTime_cal]
      exact .year h hy
    case neg =>
      rw [State.carry_minute h, State.releasePlays_cal]
      by_cases hd : s.cal.time.nextSecond.date = s.cal.time.date
      case pos =>
        rw [State.minuteBoundary_minute (s := s.atNextSecond) hd.symm]
        obtain ⟨⟨x, hx⟩, _⟩ := s.atNextSecond.reviewLevel.fireTriggers_recorded
        rw [hx]
        exact .minute h hd x
      case neg =>
        rw [State.minuteBoundary_date (s := s.atNextSecond) hy (Ne.symm hd)]
        obtain ⟨⟨x, hx⟩, _⟩ := s.atNextSecond.reviewProgramme.reviewLevel.fireTriggers_recorded
        rw [hx, State.reviewed_eq]
        exact .date h hy hd x

theorem State.minuteBoundary_store (s : State) (old : MallTime) : (s.minuteBoundary old).store = s.store := by
  refine (State.fireTriggers_recorded _).2.trans ?_
  split
  · exact s.invalidateTime_store
  · split
    · exact s.reviewProgramme_store
    · rfl

theorem State.carry_store (s : State) : s.carry.store = s.store := by
  unfold State.carry
  dsimp only
  rw [State.releasePlays_store]
  split
  · exact State.minuteBoundary_store _ _
  · rfl

/-! ## What a carry leaves of the calendar -/

namespace CarriedTo

variable {c d : Calendar}

theorem time_eq (h : CarriedTo c d) : d.time = c.time.nextSecond := by
  cases h <;> rfl

theorem after_2099 (h : CarriedTo c d) (hs : c.time.second ≤ 59) (hy : c.time.yearFalls) :
    d = ({ c with time := c.time.nextSecond } : Calendar).invalidated.relevel := by
  cases h with
  | second h => exact absurd hy (MallTime.not_yearFalls (MallTime.nextSecond_date hs h))
  | year => rfl
  | date _ hn => exact absurd hy hn
  | minute _ hd => exact absurd hy (MallTime.not_yearFalls hd)

theorem timeValid_kept (h : CarriedTo c d) (hy : ¬c.time.yearFalls) :
    d.timeValid = c.timeValid ∧ d.ppsState = c.ppsState := by
  cases h with
  | year _ hy' => exact absurd hy' hy
  | _ => exact ⟨rfl, rfl⟩

theorem chosen (h : CarriedTo c d) (hs : c.time.second ≤ 59) (hd : c.time.nextSecond.date ≠ c.time.date) : Chosen d := by
  cases h with
  | second h => exact absurd (MallTime.nextSecond_date hs h) hd
  | year => exact Calendar.reviewed_chosen { c with time := c.time.nextSecond, timeValid := false, ppsState := .none }
  | date => exact Calendar.reviewed_chosen { c with time := c.time.nextSecond }
  | minute _ he => exact absurd he hd

theorem active_kept (h : CarriedTo c d) (hd : c.time.nextSecond.date = c.time.date) :
    d.active = c.active ∧ d.winner = c.winner := by
  cases h with
  | year _ hy => exact absurd hy (MallTime.not_yearFalls hd)
  | date _ _ hn => exact absurd hd hn
  | _ => exact ⟨rfl, rfl⟩

theorem levelled (h : CarriedTo c d) (hs : c.time.second = 59) : Levelled d := by
  cases h with
  | second h => exact absurd hs h
  | year => exact Calendar.relevel_levelled _
  | date => exact Calendar.reviewed_levelled { c with time := c.time.nextSecond }
  | minute => exact Calendar.relevel_levelled { c with time := c.time.nextSecond }

theorem level_kept (h : CarriedTo c d) (hs : c.time.second ≠ 59) :
    d.quiet = c.quiet ∧ d.level = c.level ∧ d.triggers = c.triggers := by
  cases h with
  | second => exact ⟨rfl, rfl, rfl⟩
  | _ h => exact absurd h hs

theorem plays_waiting (h : CarriedTo c d) {p : TimedPlay} (hp : p ∈ d.timedPlays) :
    p ∈ c.timedPlays ∧ p.start.hasCome d.time.dateTime = false := by
  cases h with
  | year => exact absurd hp List.not_mem_nil
  | _ => exact (Calendar.mem_released hp :)

theorem plays_kept (h : CarriedTo c d) (hy : ¬c.time.yearFalls) {p : TimedPlay} (hp : p ∈ c.timedPlays)
    (hq : ∀ q ∈ c.timedPlays, q.id = p.id → q.start.hasCome d.time.dateTime = false) : p ∈ d.timedPlays := by
  cases h with
  | year _ hy' => exact absurd hy' hy
  | _ => exact Calendar.released_mem hp hq

theorem tables_kept (h : CarriedTo c d) :
    d.programmes = c.programmes ∧ d.seasons = c.seasons ∧ d.ppsEnable = c.ppsEnable := by
  cases h <;> exact ⟨rfl, rfl, rfl⟩

end CarriedTo

/-! ## The events of a carry -/

theorem MallTime.minuteDue_iff (t : MallTime) : (t.carryDue = true ∧ t.second = 59)
    ↔ t.milli = 999 ∧ t.micro = 1000 ∧ t.second = 59 := by
  rw [t.carryDue_iff, and_assoc]

theorem MallTime.secondDue_iff (t : MallTime) : (t.carryDue = true ∧ t.second ≠ 59)
    ↔ t.milli = 999 ∧ t.micro = 1000 ∧ t.second ≠ 59 := by
  rw [t.carryDue_iff, and_assoc]

theorem carryActs : CarryActs := by
  refine ⟨fun s => ⟨fun h => ?minuteDue, fun h => ?minuteNot, fun h => ?secondDue, fun h => ?secondNot⟩,
    fun s => ⟨State.carry_second, State.carry_minute⟩,
    fun s old => ⟨State.minuteBoundary_year, State.minuteBoundary_date, State.minuteBoundary_minute⟩,
    fun _ => rfl, fun s => ⟨s.reviewLevel_levelled, s.reviewLevel_eq⟩, fun _ => rfl⟩
  case minuteDue => exact congrArg _ (if_pos ((MallTime.minuteDue_iff _).mpr h))
  case minuteNot => exact congrArg _ (if_neg fun hd => h ((MallTime.minuteDue_iff _).mp hd))
  case secondDue => exact congrArg _ (if_pos ((MallTime.secondDue_iff _).mpr h))
  case secondNot => exact congrArg _ (if_neg fun hd => h ((MallTime.secondDue_iff _).mp hd))

/-- Either event of a carry, at its instant, is the carry. -/
theorem exec_carry {c : Instr} (hmilli : s.cal.time.milli = 999) (hmicro : s.cal.time.micro = 1000)
    (hc : c = if s.cal.time.second = 59 then .minuteBoundary else .timedPlayRelease) : exec c s = .next s.carry := by
  obtain ⟨hminute, _, hsecond, _⟩ := carryActs.1 s
  by_cases h : s.cal.time.second = 59
  · rw [hc, if_pos h]
    exact hminute ⟨hmilli, hmicro, h⟩
  · rw [hc, if_neg h]
    exact hsecond ⟨hmilli, hmicro, h⟩

theorem carryLeaves : CarryLeaves := by
  intro s c hr hmilli hmicro hc
  obtain ⟨_, _, _, hs, _⟩ := (MallTime.inRange_iff _).mp hr
  have h := s.carry_cal
  refine ⟨s.carry, exec_carry hmilli hmicro hc, h.time_eq, ?_⟩
  rw [h.time_eq]
  refine ⟨fun hy => ?year, h.timeValid_kept, h.chosen hs, h.active_kept, h.levelled, h.level_kept,
    fun p hp => h.time_eq ▸ h.plays_waiting hp, fun hy p hp hq => h.plays_kept hy hp (h.time_eq ▸ hq),
    h.tables_kept.1, h.tables_kept.2.1, h.tables_kept.2.2, s.carry_store, (Chain.carry s).output_eq⟩
  case year =>
    have h59 : s.cal.time.second = 59 := by
      by_contra hne
      exact MallTime.not_yearFalls (MallTime.nextSecond_date hs hne) hy
    rw [h.after_2099 hs hy, State.carry_year h59 hy]
    exact ⟨rfl, rfl, Calendar.invalidated_active _, rfl, s.atNextSecond.invalidateTime_latch⟩

/-- Settles O20: the carry is split by what its next second is, and each part of the calendar follows from that. -/
theorem carryByRunning : Obligations.CarryByRunning := ⟨carryActs, carryLeaves⟩

end Sys2Proof.Machine
end

section
/-! SUPPORT. PPS edges (R7, R8): which edge is accepted, the time aligned to it, and the state it leaves. -/
namespace Sys2Proof.Machine

variable {s : State}

/-! ## Edges accepted -/

theorem Calendar.acceptsEdge_iff (c : Calendar) : c.acceptsEdge = true ↔ c.ppsEnable = true ∧ c.timeValid = true
    ∧ (c.ppsSince = none ∨ ∃ e, c.ppsSince = some e ∧ 500 ≤ e.ms) := by
  unfold Calendar.acceptsEdge
  cases c.ppsSince <;> simp [and_assoc]

theorem exec_ppsEdge_ignored (h : ¬s.cal.acceptsEdge = true) : exec .ppsEdge s = .next s :=
  congrArg Host.Outcome.next (if_neg h)

theorem exec_ppsEdge_accepted (h : s.cal.acceptsEdge = true) : exec .ppsEdge s = .next s.alignTime.lockPps :=
  congrArg Host.Outcome.next (if_pos h)

/-! ## The state after an edge -/

/-- The calendar after an accepted edge, whose alignment has left `c`. -/
def Calendar.locked (c : Calendar) (now : Instant) : Calendar :=
  { c with
    ppsSince := some ⟨0, 0⟩, ppsDeadline := now + 2500000
    ppsState := if c.timeValid = true then .locked else .none }

theorem State.lockPps_eq (s : State) : s.lockPps =
    if s.cal.timeValid = true ∧ s.cal.ppsState = .lost then
      ({ s with cal := s.cal.locked s.now } : State).notice (.time true)
    else { s with cal := s.cal.locked s.now } := rfl

theorem State.lockPps_cal (s : State) : s.lockPps.cal = s.cal.locked s.now := by
  rw [s.lockPps_eq]
  split <;> rfl

theorem State.alignTime_back (h : s.cal.time.milli < 500) :
    s.alignTime = { s with cal := { s.cal with time := { s.cal.time with milli := 0, micro := 0 } } } := if_pos h

theorem State.alignTime_forward (h : 500 ≤ s.cal.time.milli) : s.alignTime = s.carry := if_neg (Nat.not_lt.mpr h)

/-! ## What a carry leaves of TIME_VALID and the PPS state -/

theorem State.carry_timeValid (hs : s.cal.time.second ≤ 59) (hv : s.cal.timeValid = true) :
    s.carry.cal.timeValid = false ↔ s.cal.time.yearFalls := by
  have h := s.carry_cal
  constructor
  · intro hf
    by_contra hy
    rw [(h.timeValid_kept hy).1, hv] at hf
    cases hf
  · intro hy
    rw [h.after_2099 hs hy]
    rfl

theorem State.carry_ppsState (hs : s.cal.time.second ≤ 59) (hv : s.cal.timeValid = true)
    (hu : s.carry.cal.timeValid = true) : s.carry.cal.ppsState = s.cal.ppsState := by
  refine (s.carry_cal.timeValid_kept fun hy => ?_).2
  rw [(State.carry_timeValid hs hv).mpr hy] at hu
  cases hu

theorem ppsEdgeAligns : PpsEdgeAligns := by
  intro s hr
  obtain ⟨_, _, _, hs, _⟩ := (MallTime.inRange_iff _).mp hr
  refine ⟨fun h => exec_ppsEdge_ignored fun ha => ?ignored, fun he hv hsince => ?accepted⟩
  case ignored =>
    obtain ⟨he, hv, hsince⟩ := (Calendar.acceptsEdge_iff _).mp ha
    rcases h with h | h | ⟨e, h, hlt⟩
    · simp [he] at h
    · simp [hv] at h
    · rcases hsince with hn | ⟨x, hx, hle⟩
      · simp [hn] at h
      · rw [hx] at h
        cases h
        omega
  case accepted =>
    rw [exec_ppsEdge_accepted ((Calendar.acceptsEdge_iff _).mpr ⟨he, hv, hsince⟩)]
    refine ⟨fun hback => ?back, fun hforward => ⟨_, rfl, ?forward⟩⟩
    case back =>
      rw [State.alignTime_back hback, State.lockPps_eq]
      simp only [Calendar.locked, hv, true_and, if_true]
    case forward =>
      have hnow : s.carry.now = s.now := (Chain.carry s).now_eq
      have hlost : (s.carry.cal.timeValid = true ∧ s.carry.cal.ppsState = .lost)
          ↔ (s.cal.ppsState = .lost ∧ s.carry.cal.timeValid = true) := by
        rw [and_comm]
        exact and_congr_left fun hu => by rw [State.carry_ppsState hs hv hu]
      have hcal : s.carry.lockPps.cal = s.carry.cal.locked s.now := by rw [s.carry.lockPps_cal, hnow]
      rw [State.alignTime_forward hforward]
      refine ⟨?result, ?_⟩
      case result =>
        have hlocked : s.carry.cal.locked s.carry.now = s.carry.cal.locked s.now := by rw [hnow]
        rw [State.lockPps_eq, hlocked]
        simp only [hlost]
        rfl
      rw [hcal]
      exact ⟨s.carry_cal.time_eq, rfl, rfl, fun hu => if_pos hu, State.carry_timeValid hs hv⟩

/-! ## The loss -/

theorem State.lossDue_iff (s : State) :
    s.ppsLossDue = true ↔ s.cal.ppsState = .locked ∧ before s.now s.cal.ppsDeadline = false := by
  simp [State.ppsLossDue, reached_iff]

theorem ppsLossReported : PpsLossReported := by
  intro s
  refine ⟨fun h => congrArg Host.Outcome.next (if_neg fun hd => ?_),
    fun hl hb => congrArg Host.Outcome.next (if_pos (s.lossDue_iff.mpr ⟨hl, hb⟩))⟩
  obtain ⟨hl, hb⟩ := s.lossDue_iff.mp hd
  rcases h with h | h
  · exact h hl
  · rw [hb] at h
    cases h

/-- Settles O21: an edge is accepted by the three tests of R7; the alignment forward is a carry, whose TIME_VALID decides the
PPS state. -/
theorem ppsFollowed : Obligations.PpsFollowed := ⟨ppsEdgeAligns, ppsLossReported⟩

end Sys2Proof.Machine
end

section
/-! SUPPORT. PLAY with a start time (R17) and CANCEL (R42). -/
namespace Sys2Proof.Machine

variable {s : State} {tag : Byte}

/-! ## PLAY with a start time -/

/-- The fields of a timed PLAY are in range (R17 step 1). -/
def timedPlayInRange (showNo priority : Byte) (start : DateTime) : Prop :=
  ¬(63 < showNo.toNat ∨ 15 < priority.toNat ∨ (!start.valid) = true)

theorem timedPlayInRange_iff (showNo priority : Byte) (start : DateTime) : timedPlayInRange showNo priority start ↔
    showNo.toNat ≤ 63 ∧ priority.toNat ≤ 15 ∧ start.date.valid = true ∧ start.hour ≤ 23 ∧ start.minute ≤ 59
      ∧ start.second ≤ 59 := by
  simp only [timedPlayInRange, not_or, Nat.not_lt, Bool.not_eq_true', Bool.not_eq_false, DateTime.valid_iff]

theorem DateTime.hasCome_iff (t now : DateTime) : t.hasCome now = true ↔ t.key ≤ now.key := decide_eq_true_iff

section
variable {showNo priority grace : Byte} {start : DateTime}

theorem State.playTimed_badArg (h : ¬timedPlayInRange showNo priority start) :
    s.playTimed tag showNo priority grace start = s.reply tag 0x20 .badArg := if_pos (Classical.not_not.mp h)

theorem State.playTimed_noTime (h : timedPlayInRange showNo priority start) (hv : s.cal.timeValid = false) :
    s.playTimed tag showNo priority grace start = s.reply tag 0x20 .noTime := by
  rw [State.playTimed, if_neg h, hv]
  rfl

theorem State.playTimed_notFound (h : timedPlayInRange showNo priority start) (hv : s.cal.timeValid = true)
    (hp : s.store.playable showNo.toNat = none) :
    s.playTimed tag showNo priority grace start = s.reply tag 0x20 .notFound := by
  rw [State.playTimed, if_neg h, hv, hp]
  rfl

/-- Past its first three checks, a timed PLAY is decided by its start time and the room in the list (R17 steps 4 to 6). -/
theorem State.playTimed_playable (h : timedPlayInRange showNo priority start) (hv : s.cal.timeValid = true)
    (hp : s.store.playable showNo.toNat ≠ none) : s.playTimed tag showNo priority grace start =
      if start.hasCome s.cal.time.dateTime = true then s.playNow tag showNo priority grace
      else if 8 ≤ s.cal.timedPlays.length then s.reply tag 0x20 .full
      else s.listPlay tag showNo priority grace start := by
  have hsome : ¬(s.store.playable showNo.toNat).isNone = true := by simpa using hp
  rw [State.playTimed, if_neg h, hv, if_neg (by decide), if_neg hsome]
  rfl

end

theorem timedPlaysListed : TimedPlaysListed := by
  intro s tag showNo priority grace year month day hour minute second h
  have hexec : exec (.playTimed tag showNo priority grace year month day hour minute second) s =
    .next (s.playTimed tag showNo priority grace
      ⟨⟨year.toNat, month.toNat, day.toNat⟩, hour.toNat, minute.toNat, second.toNat⟩) := next_taken h
  have hplay : exec (.play tag showNo priority grace) s = .next (s.playNow tag showNo priority grace) := next_taken h
  simp only [hexec, hplay, Host.Outcome.next.injEq]
  refine ⟨fun hbad => State.playTimed_badArg fun hg => hbad ((timedPlayInRange_iff ..).mp hg),
    fun hg => State.playTimed_noTime ((timedPlayInRange_iff ..).mpr hg),
    fun hg => State.playTimed_notFound ((timedPlayInRange_iff ..).mpr hg), fun hg hv hp => ?_⟩
  rw [State.playTimed_playable ((timedPlayInRange_iff ..).mpr hg) hv hp]
  simp only [← DateTime.hasCome_iff, ← Nat.not_le (b := DateTime.key _)]
  refine ⟨fun hcome => if_pos hcome, fun hlater hfull => ?full, fun hlater hroom => ?listed⟩
  case full => rw [if_neg hlater, if_pos hfull]
  case listed =>
    rw [if_neg hlater, if_neg (Nat.not_le.mpr hroom)]
    rfl

/-! ## Where an id is -/

theorem State.queued_none {id : Nat} (h : ∀ r ∈ s.sched.queue, r.id ≠ id) : s.queued id = none := by
  simpa [State.queued] using h

theorem State.timedPlay_none {id : Nat} (h : ∀ p ∈ s.cal.timedPlays, p.id ≠ id) : s.timedPlay id = none := by
  simpa [State.timedPlay] using h

/-- The first index of a table that has a property. -/
theorem find?_finRange {n : Nat} {p : Fin n → Bool} {i : Fin n} (hi : p i = true) (hfirst : ∀ j, j < i → p j = false) :
    (List.finRange n).find? p = some i := by
  rw [List.find?_eq_some_iff_getElem]
  refine ⟨hi, i.val, by simp, by simp, fun j hj => ?_⟩
  simpa using hfirst ⟨j, hj.trans i.isLt⟩ hj

/-- What `State.laneOf` asks of a lane. -/
def Lane.runs (id : Nat) (l : Lane) : Bool :=
  match l.run with
  | some r => r.id == id
  | none => false

theorem Lane.runs_iff (id : Nat) (l : Lane) : l.runs id = true ↔ ∃ r, l.run = some r ∧ r.id = id := by
  unfold Lane.runs
  cases l.run <;> simp

theorem State.laneOf_eq (s : State) (id : Nat) : s.laneOf id = (indexes 4).find? fun n => (s.lane n).runs id := rfl

theorem State.laneOf_some {id : Nat} {n : LaneNo} {r : Run} (hr : (s.lane n).run = some r) (hid : r.id = id)
    (hfirst : ∀ m x, m < n → (s.lane m).run = some x → x.id ≠ id) : s.laneOf id = some n := by
  rw [State.laneOf_eq]
  refine find?_finRange ((Lane.runs_iff _ _).mpr ⟨r, hr, hid⟩) fun m hm => ?_
  rw [← Bool.not_eq_true, Lane.runs_iff]
  exact fun ⟨x, hx, hxid⟩ => hfirst m x hm hx hxid

theorem State.laneOf_none {id : Nat} (h : ∀ n r, (s.lane n).run = some r → r.id ≠ id) : s.laneOf id = none := by
  rw [State.laneOf_eq, List.find?_eq_none]
  intro n _
  rw [Lane.runs_iff]
  exact fun ⟨r, hr, hid⟩ => h n r hr hid

/-! ## CANCEL -/

theorem cancelFindsId : CancelFindsId := by
  intro s tag id h
  have hexec : exec (.cancel tag id) s = .next (s.cancel tag id.toNat) := next_taken h
  have hne : id ≠ 0 → id.toNat ≠ 0 := fun hid h0 => hid (BitVec.eq_of_toNat_eq h0)
  simp only [hexec, Host.Outcome.next.injEq, State.cancel]
  refine ⟨fun h0 => by rw [h0]; rfl, fun r hid hr => ?queued,
    fun hid hq => ⟨fun p hp => ?timed, fun hp => ⟨?lane, ?nowhere⟩⟩⟩
  case queued =>
    have hqueued : s.queued id.toNat = some r := hr
    rw [if_neg (hne hid), hqueued]
    rfl
  case timed =>
    have htimed : s.timedPlay id.toNat = some p := hp
    rw [if_neg (hne hid), State.queued_none hq, htimed]
    rfl
  case lane =>
    intro n r hr hrid hfirst
    rw [if_neg (hne hid), State.queued_none hq, State.timedPlay_none hp, State.laneOf_some hr hrid hfirst]
    rfl
  case nowhere =>
    intro hl
    rw [if_neg (hne hid), State.queued_none hq, State.timedPlay_none hp, State.laneOf_none hl]

/-- Settles O30: the checks of R17 in their order, and CANCEL by the first place that holds the id. -/
theorem timedAndCancelled : Obligations.TimedAndCancelled := ⟨timedPlaysListed, cancelFindsId⟩

end Sys2Proof.Machine
end

section
/-! SUPPORT. The empty store satisfies the law of the store (R21) and law 10 (R76), and so every step keeps both. -/
namespace Sys2Proof.Machine

/-! ## The store after a hard reset -/

theorem Store.reset_entry (i : Fin 64) : tget Store.reset.directory i = .free := tget_replicate _ i

theorem Store.reset_lawful : Store.reset.lawful := by
  have noBlock : ∀ i b, (tget Store.reset.directory i).block ≠ some b := fun i b h => by
    rw [Store.reset_entry] at h
    cases h
  exact ⟨rfl, fun _ h => (List.not_mem_nil h).elim, fun i b h => (noBlock i b h).elim,
    fun i _ b _ _ h => (noBlock i b h).elim, fun i b h => (noBlock i b (DirEntry.block_opened h)).elim, fun _ => rfl⟩

theorem State.hardReset_lane (s : State) (baud : BitVec 2) (n : LaneNo) : ((s.hardReset baud).lane n).run = none :=
  (State.hardReset_rest s baud).1.1 n

theorem State.hardReset_cursorsInside (s : State) (baud : BitVec 2) : (s.hardReset baud).cursorsInside := by
  refine ⟨fun i b h => ?_, fun n r h => ?_, fun h => (h rfl).elim⟩
  · rw [show tget (s.hardReset baud).store.directory i = .free from Store.reset_entry i] at h
    cases h
  · rw [State.hardReset_lane] at h
    cases h

/-! ## Every step -/

theorem storeLawKept : StoreLawKept := fun _ _ hs h =>
  step_keeps_moves (I := fun s => s.store.lawful) (fun _ _ hs => hs) (fun _ hs => hs) Move.storeLawful
    (fun _ _ => Store.reset_lawful) h hs

/-- Law 10 is kept together with the law of the store, which the moves that write the store need. -/
theorem cursorsKept : CursorsKept := fun _ _ hl hs h =>
  (step_keeps_moves (I := fun s => s.store.lawful ∧ s.cursorsInside) (fun _ _ hs => hs) (fun _ hs => hs)
    Move.storeAndCursors (fun s baud => ⟨Store.reset_lawful, s.hardReset_cursorsInside baud⟩) h ⟨hl, hs⟩).2

/-- Settles O55: each move that writes the store or a lane's run keeps both laws, and a hard reset leaves an empty store with
every lane IDLE. -/
theorem storeKept : Obligations.StoreKept := ⟨storeLawKept, cursorsKept⟩

end Sys2Proof.Machine
end

section
/-! SUPPORT. Free runs (R22): the free slots are covered by the gaps between ascending blocks, the gaps are maximal, and so
first fit takes the lowest place with enough free slots. -/
namespace Sys2Proof.Machine

/-! ## Gaps between ascending blocks -/

variable {b : Block} {rest : List Block} {pos : Nat} {r : Nat × Nat}

/-- A slot of a free run or of the gap it stands for. -/
def InRun (r : Nat × Nat) (x : Nat) : Prop := r.1 ≤ x ∧ x < r.1 + r.2

/-- A slot of a block. -/
def Block.holds (b : Block) (x : Nat) : Prop := b.first ≤ x ∧ x < b.first + b.count

theorem Chained.tail (h : Chained (b :: rest)) : Chained rest :=
  ⟨fun c hc => h.1 c (List.mem_cons_of_mem _ hc), (List.pairwise_cons.mp h.2).2⟩

/-- Every block after the first begins at or above the end of the first. -/
theorem Chained.above (h : Chained (b :: rest)) : ∀ c ∈ rest, b.first + b.count ≤ c.first := (List.pairwise_cons.mp h.2).1

theorem Chained.head (h : Chained (b :: rest)) : 1 ≤ b.count ∧ b.first + b.count ≤ Config.stepSlots :=
  h.1 b List.mem_cons_self

theorem mem_gapsFrom_nil : r ∈ gapsFrom pos [] ↔ pos < Config.stepSlots ∧ r = (pos, Config.stepSlots - pos) := by
  simp [gapsFrom]

theorem mem_gapsFrom_cons : r ∈ gapsFrom pos (b :: rest) ↔
    (pos < b.first ∧ r = (pos, b.first - pos)) ∨ r ∈ gapsFrom (b.first + b.count) rest := by
  simp [gapsFrom]

theorem gapsFrom_length_pos : ∀ {l : List Block} {pos : Nat}, ∀ r ∈ gapsFrom pos l, 1 ≤ r.2
  | [], pos, r, hr => by
    obtain ⟨hlt, rfl⟩ := mem_gapsFrom_nil.mp hr
    exact Nat.sub_pos_of_lt hlt
  | b :: rest, pos, r, hr => by
    rcases mem_gapsFrom_cons.mp hr with ⟨hlt, rfl⟩ | hr
    · exact Nat.sub_pos_of_lt hlt
    · exact gapsFrom_length_pos r hr

/-- The slots of the gaps are those from `pos` on that no block holds. -/
theorem gapsFrom_cover : ∀ (l : List Block) (pos : Nat), Chained l → (∀ b ∈ l, pos ≤ b.first) → ∀ x,
    (∃ r ∈ gapsFrom pos l, InRun r x) ↔ pos ≤ x ∧ x < Config.stepSlots ∧ ∀ b ∈ l, ¬b.holds x
  | [], pos, _, _, x => by
    simp only [mem_gapsFrom_nil, and_assoc, exists_and_left, exists_eq_left, List.not_mem_nil, false_imp_iff, implies_true,
      and_true, InRun]
    omega
  | b :: rest, pos, hc, hp, x => by
    have hpos := hp b List.mem_cons_self
    obtain ⟨hcount, hend⟩ := hc.head
    have habove : x < b.first → ∀ c ∈ rest, ¬c.holds x := fun hx c hm hh => by
      have := hc.above c hm
      have := hh.1
      omega
    have ih := gapsFrom_cover rest (b.first + b.count) hc.tail hc.above x
    simp only [mem_gapsFrom_cons, or_and_right, exists_or, ih, List.forall_mem_cons]
    constructor
    · rintro (⟨r, ⟨hlt, rfl⟩, hx⟩ | ⟨hx, hslot, hfree⟩)
      · simp only [InRun] at hx
        exact ⟨hx.1, by omega, fun hh => by have := hh.1; omega, habove (by omega)⟩
      · exact ⟨by omega, hslot, fun hh => by have := hh.2; omega, hfree⟩
    · rintro ⟨hx, hslot, hb, hfree⟩
      by_cases hlt : x < b.first
      · exact .inl ⟨(pos, b.first - pos), ⟨by omega, rfl⟩, hx, by dsimp only; omega⟩
      · exact .inr ⟨by by_contra hn; exact hb ⟨by omega, by omega⟩, hslot, hfree⟩

/-- A gap ends below the one after it: a block stands between them. -/
theorem gapsFrom_pairwise : ∀ (l : List Block) (pos : Nat), Chained l → (∀ b ∈ l, pos ≤ b.first) →
    (gapsFrom pos l).Pairwise fun p q => p.1 + p.2 < q.1
  | [], pos, _, _ => by
    unfold gapsFrom
    split
    · exact List.pairwise_singleton _ _
    · exact .nil
  | b :: rest, pos, hc, _ => by
    have ih := gapsFrom_pairwise rest (b.first + b.count) hc.tail hc.above
    unfold gapsFrom
    split
    · refine List.pairwise_cons.mpr ⟨fun q hq => ?_, ih⟩
      have hq := (gapsFrom_spec rest _ hc.tail hc.above q hq).1
      have := hc.head.1
      dsimp only
      omega
    · exact ih

/-! ## Free runs of a lawful store -/

variable {st : Store}

theorem Store.lawful_chained (h : st.lawful) : Chained st.blocks := by
  obtain ⟨_, _, hinside, hapart, _⟩ := h
  exact Store.blocks_chained hinside hapart

theorem slotFree_iff (st : Store) (x : Nat) : SlotFree st x ↔ x < Config.stepSlots ∧ ∀ b ∈ st.blocks, ¬b.holds x := by
  refine and_congr_right fun _ => ⟨fun h b hb => ?_, fun h i b hb => h b ((st.mem_blocks b).mpr ⟨i, hb⟩)⟩
  obtain ⟨i, hi⟩ := (st.mem_blocks b).mp hb
  exact h i b hi

theorem Store.freeRuns_cover (h : st.lawful) (x : Nat) : (∃ r ∈ st.freeRuns, InRun r x) ↔ SlotFree st x := by
  rw [slotFree_iff, Store.freeRuns, gapsFrom_cover _ _ (Store.lawful_chained h) fun _ _ => Nat.zero_le _]
  exact and_iff_right (Nat.zero_le x)

theorem Store.freeRuns_pairwise (h : st.lawful) : st.freeRuns.Pairwise fun p q => p.1 + p.2 < q.1 :=
  gapsFrom_pairwise _ _ (Store.lawful_chained h) fun _ _ => Nat.zero_le _

/-- Slots `lower` to `lower + n - 1` are all free. -/
def FreeFrom (st : Store) (n lower : Nat) : Prop := ∀ x, lower ≤ x → x < lower + n → SlotFree st x

theorem freeFrom_of_run (h : st.lawful) (hr : r ∈ st.freeRuns) {n : Nat} (hn : n ≤ r.2) : FreeFrom st n r.1 :=
  fun x hx hlt => (Store.freeRuns_cover h x).mp ⟨r, hr, hx, by omega⟩

/-- The slot after a free run is not free: free runs are maximal. -/
theorem Store.freeRuns_maximal (h : st.lawful) (hr : r ∈ st.freeRuns) : ¬SlotFree st (r.1 + r.2) := by
  rw [← Store.freeRuns_cover h]
  rintro ⟨q, hq, hle, hlt⟩
  have hne : r ≠ q := by
    rintro rfl
    exact Nat.lt_irrefl _ hlt
  have hsplit : r.1 + r.2 < q.1 ∨ q.1 + q.2 < r.1 :=
    pairwise_mem Or.symm ((Store.freeRuns_pairwise h).imp Or.inl) hr hq hne
  omega

/-- Free slots one after another lie in one free run. -/
theorem run_of_freeFrom (h : st.lawful) {n lower : Nat} (hn : 1 ≤ n) (hfree : FreeFrom st n lower) :
    ∃ r ∈ st.freeRuns, r.1 ≤ lower ∧ lower + n ≤ r.1 + r.2 := by
  obtain ⟨r, hr, hle, hlt⟩ := (Store.freeRuns_cover h lower).mpr (hfree lower (Nat.le_refl _) (by omega))
  refine ⟨r, hr, hle, ?_⟩
  by_contra hshort
  exact Store.freeRuns_maximal h hr (hfree _ (by omega) (by omega))

/-! ## First fit -/

/-- First fit takes the start of a free run, and no run below it is long enough. -/
theorem Store.firstFit_run (h : st.lawful) {n first : Nat} (hfit : st.firstFit n = some first) :
    ∃ r ∈ st.freeRuns, r.1 = first ∧ n ≤ r.2 ∧ ∀ q ∈ st.freeRuns, q.1 < first → q.2 < n := by
  obtain ⟨r, hr, rfl⟩ := Option.map_eq_some_iff.mp hfit
  obtain ⟨hn, before, after, hsplit, hshort⟩ := List.find?_eq_some_iff_append.mp hr
  have hpw := Store.freeRuns_pairwise h
  refine ⟨r, List.mem_of_find?_eq_some hr, rfl, by simpa using hn, fun q hq hlt => ?_⟩
  rw [hsplit] at hq hpw
  rcases List.mem_append.mp hq with hq | hq
  · simpa using hshort q hq
  · rcases List.mem_cons.mp hq with rfl | hq
    · exact absurd hlt (Nat.lt_irrefl _)
    · have : r.1 + r.2 < q.1 := (List.pairwise_cons.mp (List.pairwise_append.mp hpw).2.1).1 q hq
      omega

theorem Store.firstFit_isSome (hr : r ∈ st.freeRuns) {n : Nat} (hn : n ≤ r.2) : ∃ first, st.firstFit n = some first := by
  cases hfit : st.firstFit n with
  | some first => exact ⟨first, rfl⟩
  | none =>
    have := List.find?_eq_none.mp (Option.map_eq_none_iff.mp hfit) r hr
    exact absurd (decide_eq_true hn) this

/-- First fit gives a place with `n` free slots, and there is none below it. -/
theorem Store.firstFit_lowest (h : st.lawful) {n first : Nat} (hn : 1 ≤ n) (hfit : st.firstFit n = some first) :
    FreeFrom st n first ∧ ∀ lower, lower < first → ¬FreeFrom st n lower := by
  obtain ⟨r, hr, rfl, hle, hshort⟩ := Store.firstFit_run h hfit
  refine ⟨freeFrom_of_run h hr hle, fun lower hlt hfree => ?_⟩
  obtain ⟨q, hq, hqle, hqn⟩ := run_of_freeFrom h hn hfree
  have := hshort q hq (by omega)
  omega

theorem Store.firstFit_iff (h : st.lawful) {n first : Nat} (hn : 1 ≤ n) : st.firstFit n = some first ↔
    FreeFrom st n first ∧ ∀ lower, lower < first → ¬FreeFrom st n lower := by
  refine ⟨Store.firstFit_lowest h hn, fun ⟨hfree, hlowest⟩ => ?_⟩
  obtain ⟨r, hr, hle, hlen⟩ := run_of_freeFrom h hn hfree
  obtain ⟨found, hfit⟩ := Store.firstFit_isSome hr (by omega : n ≤ r.2)
  obtain ⟨hfound, hbelow⟩ := Store.firstFit_lowest h hn hfit
  have hup : ¬found < first := fun hlt => hlowest found hlt hfound
  have hdown : ¬first < found := fun hlt => hbelow first hlt hfree
  rw [hfit, Nat.le_antisymm (Nat.not_lt.mp hdown) (Nat.not_lt.mp hup)]

theorem not_freeFrom_iff (n lower : Nat) : ¬FreeFrom st n lower ↔ ∃ x, lower ≤ x ∧ x < lower + n ∧ ¬SlotFree st x := by
  simp [FreeFrom]

/-! ## The largest free run -/

/-- The length 0, with which the search begins, or the length of a run; no run is longer. -/
theorem Store.largestRun_spec (st : Store) : (st.largestRun = 0 ∨ ∃ r ∈ st.freeRuns, r.2 = st.largestRun)
    ∧ ∀ r ∈ st.freeRuns, r.2 ≤ st.largestRun := by
  have hmax : (0 :: st.freeRuns.map (·.2)).max? = some st.largestRun := List.max?_cons'
  obtain ⟨hmem, hle⟩ := List.max?_eq_some_iff.mp hmax
  refine ⟨(List.mem_cons.mp hmem).imp id List.mem_map.mp, fun r hr => ?_⟩
  exact hle r.2 (List.mem_cons_of_mem _ (List.mem_map_of_mem hr))

/-- Settles O22: the gaps between the ascending blocks are the maximal ranges of free slots. -/
theorem firstFitAllocates : Obligations.FirstFitAllocates := by
  intro st h
  refine ⟨Store.freeRuns_cover h, gapsFrom_length_pos, Store.freeRuns_pairwise h, fun n first hn => ?fit,
    st.largestRun_spec.2, st.largestRun_spec.1⟩
  case fit =>
    simp only [Store.firstFit_iff h hn, not_freeFrom_iff]
    rfl

end Sys2Proof.Machine
end

section
/-! SUPPORT. SHOW_OPEN (R23): what is open already, which fields are accepted, and the answers in the order they are
examined. -/
namespace Sys2Proof.Machine

variable {s : State}

theorem Store.otherOpened_iff (st : Store) (i : Fin 64) :
    st.otherOpened i = true ↔ ∃ j, j ≠ i ∧ (tget st.directory j).isOpened = true := by
  simp [Store.otherOpened]

/-! ## The fields of SHOW_OPEN -/

theorem maskBeyond_iff (m : Half) : maskBeyond m = true ↔ 4096 ≤ m.toNat := by
  have hbits : (m.extractLsb' 12 4).toNat = m.toNat / 4096 := by
    rw [BitVec.extractLsb'_toNat, Nat.shiftRight_eq_div_pow]
    have := m.isLt
    omega
  have hzero : m.extractLsb' 12 4 = 0 ↔ m.toNat / 4096 = 0 := by rw [← BitVec.toNat_inj, hbits]; rfl
  simp only [maskBeyond, bne_iff_ne, ne_eq, hzero]
  omega

theorem axisMaskOf_eq (m : Half) : axisMaskOf m = m.setWidth 12 := BitVec.eq_of_toNat_eq rfl

/-- The fields of a SHOW_OPEN are accepted (R23 step 4). -/
def OpenInRange (kind : Byte) (count claims limit : Half) : Prop :=
  1 ≤ count.toNat ∧ count.toNat ≤ 8192
    ∧ ((kind = 0 ∧ claims.toNat < 4096 ∧ 1 ≤ limit.toNat ∧ limit.toNat ≤ 3600) ∨ kind = 1)

/-- The kind of an entry whose fields are accepted. -/
def openedKind (kind : Byte) (claims limit : Half) : EntryKind :=
  if kind = 0 then .playable (claims.setWidth 12) limit.toNat else .phrase

variable {tag showNo kind : Byte} {count claims limit : Half}

theorem openKind_eq (kind : Byte) (count claims limit : Half) : openKind kind count claims limit =
    if count.toNat < 1 ∨ 8192 < count.toNat then none
    else if kind = 0 then
      (if 4096 ≤ claims.toNat ∨ limit.toNat < 1 ∨ 3600 < limit.toNat then none else some (openedKind kind claims limit))
    else if kind = 1 then some (openedKind kind claims limit) else none := by
  unfold openKind openedKind
  simp only [Bool.or_eq_true, maskBeyond_iff, decide_eq_true_eq, or_assoc, axisMaskOf_eq]
  refine if_congr Iff.rfl rfl ?_
  split
  · rfl
  · rfl

theorem openKind_accepted (h : OpenInRange kind count claims limit) :
    openKind kind count claims limit = some (openedKind kind claims limit) := by
  obtain ⟨hlo, hhi, hkind⟩ := h
  rw [openKind_eq, if_neg (by omega)]
  rcases hkind with ⟨rfl, hc, hl, hu⟩ | rfl
  · rw [if_pos rfl, if_neg (by omega)]
  · rfl

theorem openKind_refused (h : ¬OpenInRange kind count claims limit) : openKind kind count claims limit = none := by
  rw [openKind_eq]
  by_cases hcount : count.toNat < 1 ∨ 8192 < count.toNat
  · rw [if_pos hcount]
  · rw [if_neg hcount]
    by_cases hshow : kind = 0
    · rw [if_pos hshow, if_pos]
      by_contra hfields
      exact h ⟨by omega, by omega, .inl ⟨hshow, by omega⟩⟩
    · rw [if_neg hshow, if_neg fun hphrase => h ⟨by omega, by omega, .inr hphrase⟩]

/-! ## The answers, in order -/

variable {i : Fin 64}

theorem State.showOpen_beyond (h : 63 < showNo.toNat) :
    s.showOpen tag showNo kind count claims limit = s.reply tag 0x12 .badArg := by
  rw [State.showOpen, index?_of_le h]

/-- Settles O23: the checks in the order of R23, each of which the next ones find passed. -/
theorem showOpened : Obligations.ShowOpened := by
  intro s tag showNo kind count claims limit h
  have hexec : exec (.showOpen tag showNo kind count claims limit) s =
    .next (s.showOpen tag showNo kind count claims limit) := next_taken h
  simp only [hexec, Host.Outcome.next.injEq]
  refine ⟨State.showOpen_beyond, fun i hi => ?_⟩
  simp only [State.showOpen, hi, index?_val, ← Store.otherOpened_iff]
  refine ⟨fun ho => if_pos ho, fun ho hf => ?inUse, fun ho hf => ?free⟩
  case inUse => rw [if_neg ho, if_pos hf]
  case free =>
    rw [if_neg ho, if_neg (not_not.mpr hf)]
    refine ⟨fun hbad => ?_, fun hgood hfit => ?_, fun first hgood hfit => ?_⟩
    · rw [openKind_refused hbad]
    · rw [openKind_accepted hgood, hfit]
    · rw [openKind_accepted hgood, hfit]
      rfl

end Sys2Proof.Machine
end

section
/-! SUPPORT. SHOW_DATA (R24): the bytes of the slots written (log 7), and the answers in the order they are examined. -/
namespace Sys2Proof.Machine

/-! ## Records read back -/

namespace Memory

/-- Bytes written one after another from an address on: each reads as written, where its offset is listed. -/
theorem readByte_foldl_writeByte (f : Nat → Byte) (base i : Nat) : ∀ (l : List Nat) {m : Memory}, m.wf = true →
    (l.foldl (fun acc k => acc.writeByte (base + k) (f k)) m).readByte (base + i)
      = if i ∈ l then f i else m.readByte (base + i)
  | [], _, _ => by simp
  | k :: rest, m, h => by
    rw [List.foldl_cons, readByte_foldl_writeByte f base i rest (writeByte_wf _ _ h)]
    by_cases hik : i = k
    · subst hik
      simp [readByte_writeByte_self _ _ h]
    · rw [readByte_writeByte_of_ne _ (by omega)]
      simp [hik]

/-- A byte of a slot written is that byte of the record. -/
theorem readByte_writeSlot_self {m : Memory} (h : m.wf = true) (slot : Nat) (w : StepWord) {i : Nat} (hi : i < 8) :
    (m.writeSlot slot w).readByte (8 * slot + i) = stepByte w i := by
  rw [writeSlot, readByte_foldl_writeByte (stepByte w) (8 * slot) i _ h, if_pos (List.mem_range.mpr hi)]

/-- Byte i of record j, j slots on. -/
theorem readByte_writeSlots {i : Nat} (hi : i < 8) : ∀ (ws : List StepWord) {m : Memory} (slot : Nat), m.wf = true →
    ∀ {j : Nat} {w : StepWord}, ws[j]? = some w →
      (m.writeSlots slot ws).readByte (8 * (slot + j) + i) = stepByte w i
  | [], _, _, _, _, _, hw => by cases hw
  | x :: rest, m, slot, h, 0, w, hw => by
    cases hw
    rw [writeSlots, readByte_writeSlots_of_outside _ _ _ _ (by omega)]
    exact readByte_writeSlot_self h slot x hi
  | x :: rest, m, slot, h, j + 1, w, hw => by
    rw [writeSlots, (by omega : slot + (j + 1) = slot + 1 + j)]
    exact readByte_writeSlots hi rest (slot + 1) (writeSlot_wf slot x h) hw

/-- Record j reads back from the j-th slot written. -/
theorem readSlot_writeSlots {m : Memory} (h : m.wf = true) (slot : Nat) {ws : List StepWord} {j : Nat} {w : StepWord}
    (hw : ws[j]? = some w) : (m.writeSlots slot ws).readSlot (slot + j) = w :=
  (stepOfBytes_congr fun _ hi => readByte_writeSlots hi ws slot h hw).trans (stepOfBytes_stepByte w)

end Memory

/-! ## The answers, in order -/

variable {s : State} {tag showNo : Byte} {start : Half} {records : List StepWord} {i : Fin 64} {b : Block} {cursor : Nat}

theorem State.showData_beyond (h : 63 < showNo.toNat) :
    s.showData tag showNo start records = s.reply tag 0x13 .badArg := by
  rw [State.showData, index?_of_le h]

theorem State.showData_notFound (h : showNo.toNat = i.val) (ho : (tget s.store.directory i).isOpened = false) :
    s.showData tag showNo start records = s.reply tag 0x13 .notFound := by
  simp only [State.showData, h, index?_val]
  cases he : tget s.store.directory i with
  | free => rfl
  | opened b => exact absurd he (DirEntry.not_opened ho b)
  | ready b => rfl

/-- Into an OPEN entry, records are written from the cursor on and within the count. -/
theorem State.showData_opened (h : showNo.toNat = i.val) (ho : tget s.store.directory i = .opened b)
    (hc : s.store.cursor = some cursor) : s.showData tag showNo start records =
      if start.toNat ≠ cursor then s.reply tag 0x13 .sequence (twoOf cursor)
      else if b.count < start.toNat + records.length then s.reply tag 0x13 .badArg
      else (s.setStore { s.store with
        mem := s.store.mem.writeSlots (b.first + start.toNat) records
        cursor := some (cursor + records.length) }).reply tag 0x13 .ok (twoOf (cursor + records.length)) := by
  simp only [State.showData, h, index?_val, ho, hc, Option.getD_some]

/-- Settles O24: the records written read back byte by byte, and the slots outside them are not touched. -/
theorem showDataWritten : Obligations.ShowDataWritten := by
  intro s tag showNo start records h
  have hexec : exec (.showData tag showNo start records) s = .next (s.showData tag showNo start records) := next_taken h
  simp only [hexec, Host.Outcome.next.injEq]
  refine ⟨State.showData_beyond, fun i hi => ⟨State.showData_notFound hi, fun b cursor ho hc => ?opened⟩⟩
  rw [State.showData_opened hi ho hc]
  refine ⟨fun hne => if_pos hne, fun heq hlong => ?beyond, fun heq hfits hwf => ?written⟩
  case beyond => rw [if_neg (not_not.mpr heq), if_pos (by omega)]
  case written =>
    rw [if_neg (not_not.mpr heq), if_neg (by omega), heq]
    exact ⟨_, rfl,
      fun j w hw => ⟨Memory.readSlot_writeSlots hwf _ hw, fun k hk => Memory.readByte_writeSlots hk _ _ hwf hw⟩,
      fun a ha => Memory.readByte_writeSlots_of_outside a _ _ _ ha, Memory.writeSlots_wf _ _ hwf⟩

end Sys2Proof.Machine
end

section
/-! SUPPORT. SHOW_CLOSE (R25) and the checks of a step (R26, R27): each check as the condition it is, the first that fails, and
the answers in the order they are examined. -/
namespace Sys2Proof.Machine

/-! ## BRANCH conditions -/

/-- The code of a BRANCH condition (section 11.5). -/
def Condition.code : Condition → Nat
  | .flag => 0 | .programme => 1 | .quiet => 2 | .settled => 3 | .axisFault => 4 | .bellOk => 5 | .waitTimeout => 6
  | .rehearsal => 7 | .hour => 8 | .count => 9

theorem conditionOf_code (x : Condition) : conditionOf x.code = some x := by cases x <;> rfl

theorem Condition.code_le (x : Condition) : x.code ≤ 9 := by cases x <;> decide

theorem conditionOf_eq_some {n : Nat} {x : Condition} : conditionOf n = some x ↔ n = x.code := by
  refine ⟨fun h => ?_, fun h => h ▸ conditionOf_code x⟩
  unfold conditionOf at h
  split at h <;> cases h <;> rfl

theorem conditionOf_of_gt {n : Nat} (h : 9 < n) : conditionOf n = none := by
  cases hc : conditionOf n with
  | none => rfl
  | some x =>
    have := x.code_le
    have := conditionOf_eq_some.mp hc
    omega

theorem conditionOf_of_le {n : Nat} (h : n ≤ 9) : ∃ x : Condition, conditionOf n = some x := by
  interval_cases n <;> exact ⟨_, rfl⟩

/-! ## Each check as the condition it is -/

variable (c : StepContext) (st : Step)

theorem failsKind_iff : failsKind st = true ↔ FailsCheck c st 1 := by
  cases st <;> simp [failsKind, FailsCheck]

theorem failsBell_iff : failsBell st = true ↔ FailsCheck c st 2 := by
  cases st <;> simp [failsBell, FailsCheck, conditionOf_eq_some, Condition.code]

theorem failsVelocity_iff : failsVelocity st = true ↔ FailsCheck c st 3 := by
  cases st with
  | strike bell velocity => simp [failsVelocity, FailsCheck, -not_and, not_and_or]
  | _ => simp [failsVelocity, FailsCheck]

theorem failsAxis_iff : failsAxis st = true ↔ FailsCheck c st 4 := by
  cases st <;> simp [failsAxis, FailsCheck, Step.commandAxis, conditionOf_eq_some, Condition.code, maskBeyond_iff]

theorem failsClaim_iff : failsClaim c st = true ↔ FailsCheck c st 5 := by
  unfold failsClaim FailsCheck
  cases c.kind <;> cases st.commandAxis <;> simp [ClaimedBy]

theorem failsTarget_iff : failsTarget st = true ↔ FailsCheck c st 6 := by
  cases st with
  | move axis wrap direction target rate =>
    cases wrap <;> simp [failsTarget, FailsCheck, -not_and, not_and_or]
  | _ => simp [failsTarget, FailsCheck]

theorem failsRate_iff : failsRate st = true ↔ FailsCheck c st 7 := by
  cases st with
  | move axis wrap direction target rate => simp [failsRate, FailsCheck, -not_and, not_and_or]
  | spin axis rate => simp [failsRate, FailsCheck, -not_and, not_and_or]
  | _ => simp [failsRate, FailsCheck]

theorem failsFollow_iff : failsFollow st = true ↔ FailsCheck c st 8 := by
  cases st with
  | follow axis leader numerator denominator offset =>
    simp [failsFollow, followOutOfRange, FailsCheck, -not_and, not_and_or, or_assoc]
  | _ => simp [failsFollow, FailsCheck]

theorem failsTimeout_iff : failsTimeout st = true ↔ FailsCheck c st 9 := by
  cases st <;> simp [failsTimeout, FailsCheck]

theorem failsFlag_iff : failsFlag st = true ↔ FailsCheck c st 10 := by
  cases st with
  | setFlag flag value => simp [failsFlag, FailsCheck, -not_and, not_and_or]
  | _ => simp [failsFlag, FailsCheck, conditionOf_eq_some, Condition.code]

theorem failsCount_iff : failsCount st = true ↔ FailsCheck c st 11 := by
  cases st <;> simp [failsCount, FailsCheck]

theorem failsCondition_branch (sense condition target : Nat) (argument : Half) :
    failsCondition (.branch sense condition argument target) = true ↔
      1 < sense ∨ 9 < condition ∨ (condition = 1 ∧ 15 < argument.toNat) ∨ (condition = 8 ∧ 23 < argument.toNat) := by
  by_cases hgt : 9 < condition
  · simp [failsCondition, conditionOf_of_gt hgt, hgt]
  · obtain ⟨x, hx⟩ := conditionOf_of_le (Nat.not_lt.mp hgt)
    obtain rfl := conditionOf_eq_some.mp hx
    simp only [failsCondition, conditionOf_code]
    cases x <;> simp [Condition.code]

theorem failsCondition_iff : failsCondition st = true ↔ FailsCheck c st 12 := by
  cases st with
  | branch sense condition argument target => simp [failsCondition_branch, FailsCheck]
  | _ => simp [failsCondition, FailsCheck]

theorem failsBranchTarget_iff : failsBranchTarget c st = true ↔ FailsCheck c st 13 := by
  cases st <;> simp [failsBranchTarget, FailsCheck]

theorem failsCallTarget_iff : failsCallTarget st = true ↔ FailsCheck c st 14 := by
  cases st <;> simp [failsCallTarget, FailsCheck]

theorem failsPlacement_iff : failsPlacement c st = true ↔ FailsCheck c st 15 := by
  cases st <;> simp [failsPlacement, FailsCheck]

theorem failsLast_iff : failsLast c st = true ↔ FailsCheck c st 16 := by
  unfold failsLast
  cases hk : c.kind <;> simp [FailsCheck, hk]

/-! ## The first check that fails -/

theorem failsCheck_inRange {c : StepContext} {st : Step} {n : Nat} (h : FailsCheck c st n) : 1 ≤ n ∧ n ≤ 16 := by
  refine ⟨Nat.one_le_iff_ne_zero.mpr ?low, Nat.not_lt.mp fun hgt => ?high⟩
  case low =>
    rintro rfl
    exact h
  case high =>
    obtain ⟨k, rfl⟩ := Nat.exists_eq_add_of_lt hgt
    rw [(by omega : 16 + k + 1 = k + 17)] at h
    exact h

/-- The checks are numbered 1 to 16, each with whether it fails. -/
theorem stepChecks_eq [DecidablePred (FailsCheck c st)] : stepChecks c st = (List.range' 1 16).map fun n => (n, decide (FailsCheck c st n)) := by
  simp only [stepChecks, List.range', List.map, Nat.reduceAdd, ← failsKind_iff, ← failsBell_iff, ← failsVelocity_iff,
    ← failsAxis_iff, ← failsClaim_iff, ← failsTarget_iff, ← failsRate_iff, ← failsFollow_iff, ← failsTimeout_iff, ← failsFlag_iff,
    ← failsCount_iff, ← failsCondition_iff, ← failsBranchTarget_iff, ← failsCallTarget_iff, ← failsPlacement_iff,
    ← failsLast_iff, Bool.decide_eq_true]

theorem stepFailure_eq_find [DecidablePred (FailsCheck c st)] :
    stepFailure c st = (List.range' 1 16).find? fun n => decide (FailsCheck c st n) := by
  rw [stepFailure, stepChecks_eq, List.find?_map, Option.map_map]
  exact congrFun Option.map_id _

variable {c st}

theorem stepFailure_eq_none : stepFailure c st = none ↔ ∀ n, ¬FailsCheck c st n := by
  classical
  rw [stepFailure_eq_find, List.find?_range'_eq_none]
  simp only [Bool.not_eq_true', decide_eq_false_iff_not]
  exact ⟨fun h n hf => h n (failsCheck_inRange hf).1 (Nat.lt_succ_of_le (failsCheck_inRange hf).2) hf, fun h n _ _ => h n⟩

theorem stepFailure_eq_some {n : Nat} :
    stepFailure c st = some n ↔ FailsCheck c st n ∧ ∀ m, m < n → ¬FailsCheck c st m := by
  classical
  rw [stepFailure_eq_find, List.find?_range'_eq_some]
  simp only [decide_eq_true_eq, Bool.not_eq_true', decide_eq_false_iff_not, List.mem_range'_1]
  exact and_congr_right fun hf => ⟨fun ⟨_, hfirst⟩ m hm hfm => hfirst m (failsCheck_inRange hfm).1 hm hfm,
    fun hfirst => ⟨⟨(failsCheck_inRange hf).1, Nat.lt_succ_of_le (failsCheck_inRange hf).2⟩, fun m _ hm => hfirst m hm⟩⟩

/-! ## The steps that pass -/

theorem stepPasses_iff : StepPasses c.kind c.count st ↔ ∀ n ∈ List.range' 1 15, ¬FailsCheck c st n := by
  simp only [List.range', List.forall_mem_cons, Nat.reduceAdd]
  cases st with
  | move axis wrap direction target rate => cases wrap <;> simp [StepPasses, FailsCheck, Step.commandAxis]
  | branch sense condition argument target =>
    simp [StepPasses, FailsCheck, Step.commandAxis]
    tauto
  | _ => simp [StepPasses, FailsCheck, Step.commandAxis]

/-- The check LAST, where it is passed. -/
theorem not_failsCheck_last : ¬FailsCheck c st 16 ↔
    (c.index + 1 = c.count → st = if c.kind = .phrase then .returnStep else .endStep) := by
  simp [FailsCheck]

theorem stepsChecked : StepsChecked := by
  refine ⟨fun c st => ?_, fun c st n => stepFailure_eq_some⟩
  rw [stepFailure_eq_none, stepPasses_iff, ← not_failsCheck_last]
  refine ⟨fun h => ⟨fun n _ => h n, h 16⟩, fun ⟨hfields, hlast⟩ n hf => ?_⟩
  obtain ⟨hlow, hhigh⟩ := failsCheck_inRange hf
  rcases Nat.lt_or_eq_of_le hhigh with hlt | rfl
  · exact hfields n (List.mem_range'_1.mpr ⟨hlow, hlt⟩) hf
  · exact hlast hf

/-! ## The answers, in order -/

variable {s : State} {tag showNo : Byte} {i : Fin 64} {b : Block} {cursor : Nat}

/-- The reason code of the first check that step j of a block fails. -/
def Memory.failure (m : Memory) (b : Block) (j : Nat) : Option Nat :=
  stepFailure ⟨b.kind, b.count, j⟩ (decodeStep (m.readSlot (b.first + j)))

theorem Memory.firstInvalid_none {m : Memory} (h : ∀ j, j < b.count → m.failure b j = none) :
    m.firstInvalid b = none := by
  rw [Memory.firstInvalid, List.findSome?_eq_none_iff]
  exact fun j hj => Option.map_eq_none_iff.mpr (h j (List.mem_range.mp hj))

theorem findSome?_range_first {α : Type} {f : Nat → Option α} {n j : Nat} {x : α} (hj : j < n) (hf : f j = some x)
    (hfirst : ∀ k, k < j → f k = none) : (List.range n).findSome? f = some x := by
  obtain ⟨k, rfl⟩ := Nat.exists_eq_add_of_lt hj
  rw [Nat.add_assoc, List.range_add, List.range_succ_eq_map, List.map_cons, List.findSome?_eq_some_iff]
  exact ⟨_, _, _, rfl, hf, fun m hm => hfirst m (List.mem_range.mp hm)⟩

theorem Memory.firstInvalid_some {m : Memory} {j reason : Nat} (hj : j < b.count) (hf : m.failure b j = some reason)
    (hfirst : ∀ k, k < j → m.failure b k = none) : m.firstInvalid b = some (j, reason) :=
  findSome?_range_first hj (Option.map_eq_some_iff.mpr ⟨reason, hf, rfl⟩)
    fun k hk => Option.map_eq_none_iff.mpr (hfirst k hk)

theorem State.showClose_beyond (h : 63 < showNo.toNat) : s.showClose tag showNo = s.reply tag 0x14 .badArg := by
  rw [State.showClose, index?_of_le h]

theorem State.showClose_notFound (h : showNo.toNat = i.val) (ho : (tget s.store.directory i).isOpened = false) :
    s.showClose tag showNo = s.reply tag 0x14 .notFound := by
  simp only [State.showClose, h, index?_val]
  cases he : tget s.store.directory i with
  | free => rfl
  | opened b => exact absurd he (DirEntry.not_opened ho b)
  | ready b => rfl

theorem State.showClose_incomplete (h : showNo.toNat = i.val) (ho : tget s.store.directory i = .opened b)
    (hc : s.store.cursor = some cursor) (hlt : cursor < b.count) :
    s.showClose tag showNo = s.reply tag 0x14 .incomplete (twoOf cursor) := by
  simp only [State.showClose, h, index?_val, ho, hc, Option.getD_some, if_pos hlt]

/-- With every record loaded, the steps are checked. -/
theorem State.showClose_loaded (h : showNo.toNat = i.val) (ho : tget s.store.directory i = .opened b)
    (hc : s.store.cursor = some cursor) (hle : b.count ≤ cursor) :
    (∀ j reason, s.store.mem.firstInvalid b = some (j, reason) →
        s.showClose tag showNo = s.reply tag 0x14 .invalidStep (twoOf j ++ [byteOf reason]))
      ∧ (s.store.mem.firstInvalid b = none → s.showClose tag showNo =
          (s.setStore { s.store.setEntry i (.ready b) with cursor := none }).reply tag 0x14 .ok) := by
  have hgt : ¬cursor < b.count := Nat.not_lt.mpr hle
  simp only [State.showClose, h, index?_val, ho, hc, Option.getD_some, if_neg hgt]
  exact ⟨fun j reason hv => by rw [hv], fun hv => by rw [hv]⟩

theorem showClosed : ShowClosed := by
  intro s tag showNo h
  have hexec : exec (.showClose tag showNo) s = .next (s.showClose tag showNo) := next_taken h
  simp only [hexec, Host.Outcome.next.injEq]
  refine ⟨State.showClose_beyond, fun i hi => ⟨State.showClose_notFound hi, fun b cursor ho hc =>
    ⟨State.showClose_incomplete hi ho hc, fun j reason hle hj hf hfirst => ?invalid, fun hle hall => ?ready⟩⟩⟩
  case invalid => exact (State.showClose_loaded hi ho hc hle).1 j reason (Memory.firstInvalid_some hj hf hfirst)
  case ready => exact (State.showClose_loaded hi ho hc hle).2 (Memory.firstInvalid_none hall)

/-- Settles O25: the checks are decided in the order of their codes, and the steps in the order of their indexes. -/
theorem showsClosed : Obligations.ShowsClosed := ⟨stepsChecked, showClosed⟩

end Sys2Proof.Machine
end

section
/-! SUPPORT. SHOW_ERASE (R28 … R30): an entry in use, the requests dropped one after another, and the answers in the order they
are examined. -/
namespace Sys2Proof.Machine

variable {s t u : State}

/-! ## In use (R29) -/

theorem Run.uses_iff (r : Run) (n : Nat) : r.uses n = true ↔
    r.showNo = n ∨ (r.phase ≠ .draining ∧ r.executing.phrase = true ∧ r.executing.number = n) := by
  simp [Run.uses, and_assoc]

theorem State.inUse_iff (s : State) (n : Nat) : s.inUse n = true ↔ InUse s n := by
  simp only [State.inUse, InUse, List.any_eq_true, mem_indexes, true_and, ← Run.uses_iff]
  refine exists_congr fun l => ?_
  cases (s.lane l).run <;> simp

/-! ## Drops (R30) -/

theorem Port.enterReply_requestDropped (p : Port) (now : Instant) (f : TxFrame) :
    (p.enterReply now f).latches.requestDropped = p.latches.requestDropped := by
  unfold Port.enterReply Port.makeRoom
  split
  · next q hq =>
    split at hq
    · cases hq; rfl
    · split at hq
      · cases hq
      · obtain ⟨_, _, rfl⟩ := Option.map_eq_some_iff.mp hq
        rfl
  · rfl

/-- The requests `gone` have been dropped: their ids have left the queue, the keys that held them are released, the latch is
presented where there was one; the rest of the state but the port stands. -/
structure DroppedFrom (gone : List Request) (s t : State) : Prop where
  rest : t = { s with
    port := t.port
    sched := { s.sched with queue := t.sched.queue, inputs := t.sched.inputs } }
  queue : t.sched.queue = s.sched.queue.filter fun r => !gone.any fun q => q.id == r.id
  inputs : ∀ k, tget t.sched.inputs k =
    if ∃ q ∈ gone, q.source = .key k ∧ (tget s.sched.inputs k).held = some q.id then
      { tget s.sched.inputs k with held := none }
    else tget s.sched.inputs k
  latch : t.port.latches.requestDropped = true ↔ s.port.latches.requestDropped = true ∨ ∃ q, q ∈ gone

theorem DroppedFrom.nil (s : State) : DroppedFrom [] s s where
  rest := rfl
  queue := by simp
  inputs := by simp
  latch := by simp

theorem State.releaseKey_rest (s : State) (o : Source) (id : Nat) : s.releaseKey o id =
    { s with sched := { s.sched with inputs := (s.releaseKey o id).sched.inputs } } := by
  unfold State.releaseKey
  split
  · dsimp only
    split <;> rfl
  · rfl

/-- A key is released where it is the source and holds the id. -/
theorem State.releaseKey_inputs (s : State) (o : Source) (id : Nat) (k : KeyNo) :
    tget (s.releaseKey o id).sched.inputs k =
      if o = .key k ∧ (tget s.sched.inputs k).held = some id then { tget s.sched.inputs k with held := none }
      else tget s.sched.inputs k := by
  cases o with
  | key j =>
    by_cases hj : j = k
    · subst hj
      by_cases hheld : (tget s.sched.inputs j).held = some id <;> simp [State.releaseKey, hheld]
    · have hne : tget (s.releaseKey (.key j) id).sched.inputs k = tget s.sched.inputs k := by
        simp only [State.releaseKey]
        split
        · exact tget_tset_of_ne _ _ hj
        · rfl
      simp [hne, hj]
  | trigger e => simp [State.releaseKey]
  | link => simp [State.releaseKey]

/-- One queued request is dropped. -/
theorem State.dropQueued_one (s : State) (r : Request) (why : DropReason) : DroppedFrom [r] s (s.dropQueued r why) := by
  refine ⟨?rest, ?queue, fun k => ?inputs, ?latch⟩
  case rest =>
    rw [State.dropQueued, State.dropRequest, State.releaseKey_rest]
    rfl
  case queue =>
    rw [(s.dropQueued_spec r why).2.1, withoutId]
    exact List.filter_congr fun x _ => by simp [bne, Bool.beq_comm]
  case inputs =>
    rw [State.dropQueued, State.dropRequest, State.releaseKey_inputs]
    exact if_congr (by simp) rfl rfl
  case latch =>
    rw [State.dropQueued, State.dropRequest, State.releaseKey_rest]
    simp

theorem DroppedFrom.cons {r : Request} {gone : List Request} (h1 : DroppedFrom [r] s u) (h2 : DroppedFrom gone u t) :
    DroppedFrom (r :: gone) s t where
  rest := by
    rw [h2.rest, h1.rest]
  queue := by
    rw [h2.queue, h1.queue, List.filter_filter]
    refine List.filter_congr fun x _ => ?_
    simp [Bool.and_comm]
  inputs k := by
    rw [h2.inputs, h1.inputs]
    by_cases hr : r.source = .key k ∧ (tget s.sched.inputs k).held = some r.id
    · simp [hr]
    · simp [hr]
  latch := by
    rw [h2.latch, h1.latch]
    simp

theorem State.foldl_dropQueued (why : DropReason) : ∀ (gone : List Request) (s : State),
    DroppedFrom gone s (gone.foldl (fun u r => u.dropQueued r why) s)
  | [], s => DroppedFrom.nil s
  | r :: rest, s => (s.dropQueued_one r why).cons (State.foldl_dropQueued why rest (s.dropQueued r why))

/-! ## The answers, in order -/

variable {tag showNo : Byte} {i : Fin 64} {b : Block}

theorem State.showErase_beyond (h : 63 < showNo.toNat) : s.showErase tag showNo = s.reply tag 0x15 .badArg := by
  rw [State.showErase, index?_of_le h]

theorem State.showErase_free (h : showNo.toNat = i.val) (hf : tget s.store.directory i = .free) :
    s.showErase tag showNo = s.reply tag 0x15 .notFound := by
  simp only [State.showErase, h, index?_val, hf]

theorem State.showErase_opened (h : showNo.toNat = i.val) (ho : tget s.store.directory i = .opened b) :
    s.showErase tag showNo = (s.setStore { s.store.setEntry i .free with cursor := none }).reply tag 0x15 .ok := by
  simp only [State.showErase, h, index?_val, ho]

/-- A READY entry is refused while in use, and freed otherwise; for a SHOW the requests that name it are dropped. -/
theorem State.showErase_ready (h : showNo.toNat = i.val) (hr : tget s.store.directory i = .ready b) :
    s.showErase tag showNo =
      if s.inUse i.val then s.reply tag 0x15 .inUse
      else if b.kind = .phrase then (s.setStore (s.store.setEntry i .free)).reply tag 0x15 .ok
      else ((s.setStore (s.store.setEntry i .free)).reply tag 0x15 .ok).dropForShow i.val := by
  simp only [State.showErase, h, index?_val, hr]

/-- Settles O26: the drops of one SHOW_ERASE are a fold over the requests that name the show. -/
theorem showErased : Obligations.ShowErased := by
  intro s tag showNo h
  have hexec : exec (.showErase tag showNo) s = .next (s.showErase tag showNo) := next_taken h
  simp only [hexec, Host.Outcome.next.injEq]
  refine ⟨State.showErase_beyond, fun i hi => ⟨State.showErase_free hi, fun b => State.showErase_opened hi,
    fun b hr huse => ?inUse, fun b hr huse => ?ready⟩⟩
  case inUse => rw [State.showErase_ready hi hr, if_pos ((s.inUse_iff _).mpr huse)]
  case ready =>
    rw [State.showErase_ready hi hr, if_neg fun hu => huse ((s.inUse_iff _).mp hu)]
    refine ⟨fun hk => if_pos hk, fun hk => ⟨_, if_neg hk, rfl, ?_⟩⟩
    obtain ⟨hrest, hqueue, hinputs, hlatch⟩ := State.foldl_dropQueued .noShow
      (s.sched.queue.filter fun r => r.showNo == i.val) ((s.setStore (s.store.setEntry i .free)).reply tag 0x15 .ok)
    refine ⟨hqueue.trans ?_, fun k => (hinputs k).trans ?_, hlatch.trans ?_, hrest⟩
    · simp [List.any_filter, State.setStore]
    · simp [State.setStore, and_assoc]
    · simp [State.setStore, Port.enterReply_requestDropped]

end Sys2Proof.Machine
end

section
/-! SUPPORT. STORE_COMPACT (R31, R32): where a compaction packs each block, how many slots it moves, the one free run it leaves,
and the answers in the order they are examined. -/
namespace Sys2Proof.Machine

/-! ## The packed entries -/

/-- The entries of a list with their blocks placed one after another from slot `pos` on. -/
def packedFrom : Nat → List (Fin 64 × Block) → List (Fin 64 × Block)
  | _, [] => []
  | pos, (i, b) :: rest => (i, { b with first := pos }) :: packedFrom (pos + b.count) rest

theorem ChainedEntries.tail {e : Fin 64 × Block} {rest : List (Fin 64 × Block)} (h : ChainedEntries (e :: rest)) :
    ChainedEntries rest :=
  ⟨fun f hf => h.1 f (List.mem_cons_of_mem _ hf), (List.pairwise_cons.mp h.2).2⟩

theorem packedFrom_numbers : ∀ (l : List (Fin 64 × Block)) (pos : Nat), (packedFrom pos l).map Prod.fst = l.map Prod.fst
  | [], _ => rfl
  | (i, b) :: rest, pos => congrArg (i :: ·) (packedFrom_numbers rest (pos + b.count))

/-- Packed blocks begin at `pos` or above. -/
theorem packedFrom_above : ∀ (l : List (Fin 64 × Block)) (pos : Nat), ∀ e ∈ packedFrom pos l, pos ≤ e.2.first
  | [], _, _, h => (List.not_mem_nil h).elim
  | (i, b) :: rest, pos, e, h => by
    rcases List.mem_cons.mp h with rfl | h
    · exact Nat.le_refl pos
    · exact Nat.le_trans (Nat.le_add_right _ _) (packedFrom_above rest (pos + b.count) e h)

theorem packedFrom_ascending : ∀ {l : List (Fin 64 × Block)} (pos : Nat), ChainedEntries l →
    (packedFrom pos l).Pairwise fun e f => e.2.first < f.2.first
  | [], _, _ => .nil
  | (i, b) :: rest, pos, h => by
    refine List.pairwise_cons.mpr ⟨fun e he => ?_, packedFrom_ascending (pos + b.count) h.tail⟩
    have hcount : 1 ≤ b.count := (h.1 (i, b) List.mem_cons_self).1
    exact Nat.lt_of_lt_of_le (Nat.lt_add_of_pos_right hcount) (packedFrom_above rest (pos + b.count) e he)

/-- Packed blocks leave no gap but the one above them. -/
theorem gapsFrom_packedFrom : ∀ (l : List (Fin 64 × Block)) (pos : Nat), gapsFrom pos ((packedFrom pos l).map Prod.snd) =
    gapsFrom (pos + (((packedFrom pos l).map Prod.snd).map Block.count).sum) []
  | [], _ => rfl
  | (i, b) :: rest, pos => by
    simp only [packedFrom, List.map_cons, List.sum_cons, ← Nat.add_assoc]
    rw [← gapsFrom_packedFrom rest (pos + b.count), gapsFrom, if_neg (Nat.lt_irrefl pos), List.nil_append]

/-- The move of one block to slot `pos` writes its entry and no other. -/
theorem Store.moved_entry {st : Store} {i : Fin 64} {b : Block} (pos : Nat) (h : tget st.directory i = .ready b)
    (j : Fin 64) : tget (if b.first = pos then st
      else { st.setEntry i (.ready { b with first := pos }) with mem := st.mem.moveSlots b.first pos b.count }).directory j
      = if i = j then .ready { b with first := pos } else tget st.directory j := by
  split
  · next hstays =>
    subst hstays
    split
    · next hij => rw [← hij, h]
    · rfl
  · exact Store.setEntry_get _ _ _ _

/-- A compaction of a list from slot `pos` on leaves every entry of it packed. -/
theorem compactFrom_packed : ∀ (l : List (Fin 64 × Block)) (pos : Nat) (st : Store), ChainedEntries l →
    (∀ e ∈ l, pos ≤ e.2.first) → (∀ e ∈ l, tget st.directory e.1 = .ready e.2) →
    ∀ e ∈ packedFrom pos l, tget (compactFrom pos l st).directory e.1 = .ready e.2
  | [], _, _, _, _, _, _, h => (List.not_mem_nil h).elim
  | (i, b) :: rest, pos, st, hc, hp, hr, e, he => by
    have hpos : pos ≤ b.first := hp (i, b) List.mem_cons_self
    obtain ⟨hapart, _⟩ := List.pairwise_cons.mp hc.2
    have hentry := Store.moved_entry pos (hr (i, b) List.mem_cons_self)
    have habove : ∀ f ∈ rest, pos + b.count ≤ f.2.first := fun f hf =>
      Nat.le_trans (Nat.add_le_add_right hpos _) (hapart f hf).2
    have hready := fun f hf => (hentry f.1).trans
      ((if_neg (hapart f hf).1).trans (hr f (List.mem_cons_of_mem _ hf)))
    rw [compactFrom]
    rcases List.mem_cons.mp he with rfl | he
    · rw [(compactFrom_spec rest (pos + b.count) _ hc.tail habove hready).1 i fun f hf => ((hapart f hf).1).symm]
      exact (hentry i).trans (if_pos rfl)
    · exact compactFrom_packed rest (pos + b.count) _ hc.tail habove hready e he

/-! ## The store after a compaction -/

theorem Store.readyEntries_ready (st : Store) : ∀ e ∈ st.readyEntries, tget st.directory e.1 = .ready e.2 :=
  fun e he => (st.mem_readyEntries e.1 e.2).mp he

section
variable {st : Store} {i : Fin 64} {b : Block} (hlaw : st.lawful)
include hlaw

theorem Store.lawful_readyEntries : ChainedEntries st.readyEntries := by
  obtain ⟨_, _, hinside, hapart, _⟩ := hlaw
  exact Store.readyEntries_chained hinside hapart

theorem Store.compacted_packed : ∀ e ∈ packedFrom 0 st.readyEntries, tget st.compacted.directory e.1 = .ready e.2 :=
  compactFrom_packed _ 0 st (Store.lawful_readyEntries hlaw) (fun _ _ => Nat.zero_le _)
    st.readyEntries_ready

theorem Store.compacted_free (h : tget st.directory i = .free) : tget st.compacted.directory i = .free := by
  have hstays := (compactFrom_spec st.readyEntries 0 st (Store.lawful_readyEntries hlaw) (fun _ _ => Nat.zero_le _)
    st.readyEntries_ready).1
  refine (hstays i fun e he hei => ?_).trans h
  have := st.readyEntries_ready e he
  rw [hei, h] at this
  cases this

/-- A place for each READY entry: not above its old one, in the old order, with the steps of the old one. -/
theorem Store.compacted_places : ∃ place : Fin 64 → Nat,
    (∀ i b, tget st.directory i = .ready b → place i ≤ b.first
      ∧ tget st.compacted.directory i = .ready { b with first := place i }
      ∧ ∀ j, j < b.count → st.compacted.mem.readSlot (place i + j) = st.mem.readSlot (b.first + j))
    ∧ ∀ i j b c, tget st.directory i = .ready b → tget st.directory j = .ready c → b.first < c.first →
        place i < place j := by
  have hchain := Store.lawful_readyEntries hlaw
  obtain ⟨_, place, hplace, hpw⟩ := compactFrom_spec st.readyEntries 0 st hchain (fun _ _ => Nat.zero_le _)
    st.readyEntries_ready
  obtain ⟨_, hslots⟩ := compactFrom_slots st.readyEntries 0 st hchain (fun _ _ => Nat.zero_le _)
    st.readyEntries_ready hlaw.1
  refine ⟨place, fun i b hi => ?moved, fun i j b c hi hj hlt => ?ordered⟩
  case moved =>
    have hmem := (st.mem_readyEntries i b).mpr hi
    obtain ⟨hdir, _, hle⟩ := hplace _ hmem
    obtain ⟨first, hfirst, hread⟩ := hslots _ hmem
    obtain rfl : place i = first := by
      rw [hdir] at hfirst
      cases hfirst
      rfl
    exact ⟨hle, hdir, hread⟩
  case ordered =>
    have hmono : st.readyEntries.Pairwise fun e f =>
        (e.2.first < f.2.first → place e.1 < place f.1) ∧ (f.2.first < e.2.first → place f.1 < place e.1) :=
      (hchain.2.and hpw).imp_of_mem fun {e f} he hf ⟨⟨_, hbelow⟩, hpacked⟩ => by
        have := (hchain.1 e he).1
        exact ⟨fun _ => by omega, fun h => by omega⟩
    have hne : (i, b) ≠ (j, c) := by
      rintro ⟨⟩
      exact Nat.lt_irrefl _ hlt
    exact (pairwise_mem And.symm hmono ((st.mem_readyEntries i b).mpr hi) ((st.mem_readyEntries j c).mpr hj) hne).1 hlt

/-- The blocks of a compacted store are the packed ones. -/
theorem Store.compacted_blocks (ho : ∀ i, (tget st.directory i).isOpened = false) :
    st.compacted.blocks = (packedFrom 0 st.readyEntries).map Prod.snd := by
  have hpacked := Store.compacted_packed hlaw
  have hlawful : st.compacted.blocks.Pairwise fun b c => b.first < c.first :=
    (Store.lawful_chained (Store.lawful_compacted hlaw ho)).2.imp_of_mem fun {b c} hb _ h => by
      have := ((Store.lawful_chained (Store.lawful_compacted hlaw ho)).1 b hb).1
      omega
  have : Std.Antisymm fun b c : Block => b.first < c.first := ⟨fun b c h h' => absurd h (Nat.lt_asymm h')⟩
  have : Std.Irrefl fun b c : Block => b.first < c.first := ⟨fun b => Nat.lt_irrefl _⟩
  refine hlawful.eq_of_mem_iff
    (List.pairwise_map.mpr (packedFrom_ascending 0 (Store.lawful_readyEntries hlaw))) fun c => ?_
  rw [Store.mem_blocks, List.mem_map]
  constructor
  · rintro ⟨i, hc⟩
    cases hi : tget st.directory i with
    | free =>
      rw [Store.compacted_free hlaw hi] at hc
      cases hc
    | opened b => exact absurd hi (DirEntry.not_opened (ho i) b)
    | ready b =>
      have hnum : i ∈ (packedFrom 0 st.readyEntries).map Prod.fst := by
        rw [packedFrom_numbers]
        exact List.mem_map.mpr ⟨(i, b), (st.mem_readyEntries i b).mpr hi, rfl⟩
      obtain ⟨e, he, rfl⟩ := List.mem_map.mp hnum
      rw [hpacked e he] at hc
      cases hc
      exact ⟨e, he, rfl⟩
  · rintro ⟨e, he, rfl⟩
    exact ⟨e.1, DirEntry.block_ready (hpacked e he)⟩

theorem Store.compacted_freeRuns (ho : ∀ i, (tget st.directory i).isOpened = false) :
    ∀ r ∈ st.compacted.freeRuns, r = (8192 - st.compacted.freeTotal, st.compacted.freeTotal) := by
  intro r hr
  rw [Store.freeRuns, Store.compacted_blocks hlaw ho, gapsFrom_packedFrom, mem_gapsFrom_nil] at hr
  obtain ⟨hlt, rfl⟩ := hr
  rw [Store.freeTotal, Store.compacted_blocks hlaw ho]
  simp only [Config.stepSlots, Nat.zero_add] at hlt ⊢
  rw [Nat.sub_sub_self (Nat.le_of_lt hlt)]

end

/-! ## The slots moved -/

/-- How many slots of an entry a compaction moves, where it leaves the directory `d`. -/
def movedOf (d : Vector DirEntry 64) (e : Fin 64 × Block) : Nat :=
  match tget d e.1 with
  | .ready c => if e.2.first = c.first then 0 else e.2.count
  | _ => 0

theorem slotsMoved_eq (d : Vector DirEntry 64) : ∀ (l : List (Fin 64 × Block)) (pos : Nat),
    (∀ e ∈ packedFrom pos l, tget d e.1 = .ready e.2) → slotsMoved pos l = (l.map (movedOf d)).sum
  | [], _, _ => rfl
  | (i, b) :: rest, pos, h => by
    have hhead : movedOf d (i, b) = if b.first = pos then 0 else b.count := by
      have hi : tget d i = .ready { b with first := pos } := h _ List.mem_cons_self
      simp only [movedOf, hi]
    rw [slotsMoved, List.map_cons, List.sum_cons, hhead,
      slotsMoved_eq d rest _ fun e he => h e (List.mem_cons_of_mem _ he)]

/-- The READY entry of a number, with the number. -/
def Store.readyAt (st : Store) (i : Fin 64) : Option (Fin 64 × Block) :=
  match tget st.directory i with
  | .ready b => some (i, b)
  | _ => none

theorem Store.readyEntries_eq (st : Store) :
    st.readyEntries = ((indexes 64).filterMap st.readyAt).foldr insertEntry [] := rfl

theorem sum_map_filterMap {α β : Type} (f : α → Option β) (h : β → Nat) : ∀ l : List α,
    ((l.filterMap f).map h).sum = (l.map fun x => ((f x).map h).getD 0).sum
  | [] => rfl
  | x :: rest => by
    have ih := sum_map_filterMap f h rest
    cases hx : f x <;> simp [hx, ih]

theorem movedSlots_eq (st : Store) : movedSlots st = (st.readyEntries.map (movedOf st.compacted.directory)).sum := by
  rw [Store.readyEntries_eq, ((foldr_insertEntry_perm _).map _).sum_eq, sum_map_filterMap, movedSlots]
  congr 1
  refine List.map_congr_left fun i _ => ?_
  unfold Store.readyAt
  cases tget st.directory i with
  | ready b => cases hc : tget st.compacted.directory i <;> simp [movedOf, hc]
  | free => rfl
  | opened b => rfl

theorem slotsMoved_readyEntries {st : Store} (hlaw : st.lawful) : slotsMoved 0 st.readyEntries = movedSlots st := by
  rw [movedSlots_eq, slotsMoved_eq st.compacted.directory _ _ (Store.compacted_packed hlaw)]

/-! ## The answers, in order -/

variable {s : State} {tag : Byte}

theorem Store.opened_isSome_iff (st : Store) : st.opened.isSome = true ↔ ∃ i, (tget st.directory i).isOpened = true := by
  simp [Store.opened]

theorem State.exercising_isSome_iff (s : State) :
    s.exercising.isSome = true ↔ ∃ e, s.exercise = some e ∧ e.phase ≠ .done := by
  refine ⟨fun h => ?_, fun ⟨e, he, hp⟩ => by rw [State.exercising_of_phase he hp]; rfl⟩
  obtain ⟨e, he⟩ := Option.isSome_iff_exists.mp h
  exact ⟨e, State.exercising_spec he⟩

theorem State.compactBusy_iff (s : State) : s.compactBusy = true ↔ (∃ n, (s.lane n).run ≠ none)
    ∨ (∃ i, (tget s.store.directory i).isOpened = true) ∨ ∃ e, s.exercise = some e ∧ e.phase ≠ .done := by
  simp only [State.compactBusy, Bool.or_eq_true, Store.opened_isSome_iff, State.exercising_isSome_iff, List.any_eq_true,
    mem_indexes, true_and, ← Option.isSome_iff_ne_none, or_assoc]

theorem State.storeCompact_free (h : ¬s.compactBusy = true) (hlaw : s.store.lawful) : s.storeCompact tag =
    if movedSlots s.store = 0 then s.endCompaction tag
    else s.setStore { s.store with compaction := some ⟨tag, s.now + micros (5 * movedSlots s.store)⟩ } := by
  simp only [State.storeCompact, if_neg h, slotsMoved_readyEntries hlaw, Config.compactTime, Nat.mul_comm 5]

/-- COMPACTION_END acts on a compaction whose end has come, and on no other. -/
theorem exec_compactionEnd_of_none (h : s.compactionDue = none) : exec .compactionEnd s = .next s := by
  show execCompactionEnd s = _
  rw [execCompactionEnd, h]

theorem exec_compactionEnd_of_some {c : Compaction} (h : s.compactionDue = some c) :
    exec .compactionEnd s = .next (s.endCompaction c.tag) := by
  show execCompactionEnd s = _
  rw [execCompactionEnd, h]

theorem State.compactionDue_eq {c : Compaction} (h : s.store.compaction = some c) :
    s.compactionDue = if before s.now c.endsAt = false then some c else none := by
  simp [State.compactionDue, h, Option.filter, reached_iff]

/-- Settles O27: a compaction packs the blocks in their order from slot 0 on. -/
theorem storeCompacted : Obligations.StoreCompacted := by
  refine ⟨fun s tag h => ?requested, fun s h => ?idle, fun s c h => ⟨fun hb => ?early, fun hb => ?ended⟩,
    fun st hlaw ho => ⟨fun i => Store.compacted_free hlaw, ?kept, ?ordered, Store.compacted_freeRuns hlaw ho⟩⟩
  case requested =>
    have hexec : exec (.storeCompact tag) s = .next (s.storeCompact tag) := next_taken h
    simp only [← State.compactBusy_iff, hexec, Host.Outcome.next.injEq]
    refine ⟨fun hbusy => if_pos hbusy, fun hfree hlaw hnone => ?_, fun hfree hlaw hsome => ?_⟩
    · rw [State.storeCompact_free hfree hlaw, if_pos hnone]
      rfl
    · rw [State.storeCompact_free hfree hlaw, if_neg hsome]
      rfl
  case idle => exact exec_compactionEnd_of_none (by rw [State.compactionDue, h]; rfl)
  case early => exact exec_compactionEnd_of_none (by rw [State.compactionDue_eq h, hb]; rfl)
  case ended => exact exec_compactionEnd_of_some (by rw [State.compactionDue_eq h, if_pos hb])
  case kept =>
    intro i b hi
    obtain ⟨place, hplace, _⟩ := Store.compacted_places hlaw
    obtain ⟨hle, hdir, hread⟩ := hplace i b hi
    exact ⟨place i, hle, hdir, hread⟩
  case ordered =>
    intro i j b c b' c' hi hj hlt hi' hj'
    obtain ⟨place, hplace, hmono⟩ := Store.compacted_places hlaw
    rw [(hplace i b hi).2.1] at hi'
    rw [(hplace j c hj).2.1] at hj'
    cases hi'
    cases hj'
    exact hmono i j b c hi hj hlt

end Sys2Proof.Machine
end

section
/-! SUPPORT. A run starts, drains and ends (R50 … R53, R75): the run and the claims a start makes, and field by field what an
end does. -/
namespace Sys2Proof.Machine

/-! ## Starts -/

/-- A step is ready early where its record has the kind of a STRIKE. -/
theorem readyInstant_decodeStep (w : StepWord) (due : Instant) :
    readyInstant (decodeStep w) due = if w.extractLsb' 60 4 = 1 then due - 250000 else due := by
  have hkind : w.extractLsb' 60 4 = 1 ↔ (w.extractLsb' 60 4).toNat = 1 :=
    ⟨fun h => by rw [h]; rfl, fun h => BitVec.eq_of_toNat_eq h⟩
  simp only [hkind, decodeStep]
  generalize (w.extractLsb' 60 4).toNat = kind
  split
  case h_1 => rfl
  case h_2 =>
    simp only [decodeMove]
    split <;> rfl
  case h_13 hstrike _ _ _ _ _ _ _ _ _ _ _ => exact (if_neg hstrike).symm
  all_goals rfl

theorem State.claimFor_claim (s : State) (n : LaneNo) (mask : BitVec 12) (a : AxisNo) :
    (s.claimFor n mask).claim a = if mask.getLsbD a.val = true then some (.lane n) else s.claim a :=
  tget_ofFn _ _

/-- What a start writes before its notice: the request leaves the queue, its run is on the lane and its axes are claimed. -/
def State.started (s : State) (n : LaneNo) (r : Request) (b : Block) (mask : BitVec 12) (limit : Nat) : State :=
  (({ s with sched := { s.sched with
      queue := withoutId r.id s.sched.queue, startSeq := s.sched.startSeq + 1 } } : State).setRun n
        (s.newRun r b limit)).claimFor n mask

theorem State.startRun_eq (s : State) (n : LaneNo) (r : Request) (b : Block) (mask : BitVec 12) (limit : Nat) :
    s.startRun n r b mask limit = (s.started n r b mask limit).notice
      (.showStarted n r.id r.showNo r.priority r.source s.cal.time.dateTime) := rfl

theorem State.started_claim (s : State) (n : LaneNo) (r : Request) (b : Block) (mask : BitVec 12) (limit : Nat)
    (a : AxisNo) : (s.started n r b mask limit).claim a =
      if mask.getLsbD a.val = true then some (.lane n) else s.claim a :=
  State.claimFor_claim _ n mask a

theorem State.newRun_timer (s : State) (r : Request) (b : Block) (limit : Nat) :
    let word := s.store.mem.readSlot b.first
    let due := s.now + micros (stepDelta word * 1000)
    (s.newRun r b limit).timer = some (if word.extractLsb' 60 4 = 1 then due - 250000 else due) :=
  congrArg some (readyInstant_decodeStep _ _)

theorem runStarts : RunStarts := by
  intro s n r b mask limit word due
  exact ⟨s.started n r b mask limit, s.newRun r b limit, s.startRun_eq n r b mask limit, rfl,
    s.started_claim n r b mask limit, rfl, rfl, rfl, rfl, rfl, rfl, rfl, rfl, rfl, rfl, rfl, rfl, rfl, rfl, rfl, rfl,
    s.newRun_timer r b limit, rfl⟩

/-! ## The stops of an end -/

/-- An axis after the end of the run that owned it (R51 step 3). -/
def Axis.ended (x : Axis) : Axis := if x.mode.commanded = true then (x.stop x.dv).1 else x

/-- Only axes and the disturbance of a dwell differ. -/
def AxesAlone (s t : State) : Prop :=
  t = { s with
    motion := { s.motion with axes := t.motion.axes }
    verifier := { s.verifier with disturbed := t.verifier.disturbed } }

theorem AxesAlone.refl (s : State) : AxesAlone s s := rfl

theorem AxesAlone.trans {s t u : State} (h : AxesAlone s t) (h' : AxesAlone t u) : AxesAlone s u := by
  unfold AxesAlone at h h' ⊢
  rw [h', h]

theorem State.stopAxis_alone (s : State) (a : AxisNo) (dv : Nat) : AxesAlone s (s.stopAxis a dv).1 := by
  unfold State.stopAxis State.disturb
  dsimp only
  split
  · split <;> rfl
  · rfl

/-- An axis in MOVE, SPIN or FOLLOW is stopped, any other is left. -/
theorem State.stopEnded_eq (s : State) (a : AxisNo) :
    s.stopEnded a = if (s.axis a).mode.commanded = true then (s.stopAxis a (s.axis a).dv).1 else s := by
  unfold State.stopEnded
  dsimp only
  cases (s.axis a).mode <;> rfl

theorem State.stopEnded_alone (s : State) (a : AxisNo) : AxesAlone s (s.stopEnded a) := by
  rw [State.stopEnded_eq]
  split
  · exact s.stopAxis_alone a _
  · exact .refl s

theorem State.stopEnded_axis (s : State) (a c : AxisNo) :
    (s.stopEnded a).axis c = if a = c then (s.axis c).ended else s.axis c := by
  rw [State.stopEnded_eq]
  by_cases hac : a = c
  · subst hac
    by_cases hm : (s.axis a).mode.commanded = true
    · simp [Axis.ended, hm, State.stopAxis_axis, AxisMode.commanded_moving hm]
    · simp [Axis.ended, hm]
  · split
    · simp [State.stopAxis_axis, hac]
    · rfl

theorem State.foldl_stopEnded_axis (c : AxisNo) : ∀ (l : List AxisNo) (s : State), l.Nodup →
    (l.foldl State.stopEnded s).axis c = if c ∈ l then (s.axis c).ended else s.axis c
  | [], _, _ => by simp
  | a :: rest, s, hl => by
    obtain ⟨ha, hrest⟩ := List.nodup_cons.mp hl
    rw [List.foldl_cons, State.foldl_stopEnded_axis c rest _ hrest, State.stopEnded_axis]
    by_cases hac : a = c
    · subst hac
      simp [ha]
    · simp [hac, Ne.symm hac]

theorem State.mem_owned (s : State) (o : Owner) (a : AxisNo) : a ∈ s.owned o ↔ s.claim a = some o := by
  simp [State.owned]

theorem State.owned_nodup (s : State) (o : Owner) : (s.owned o).Nodup := (List.nodup_finRange 12).filter _

theorem RunOutcome.stopsAxes_iff (o : RunOutcome) : o.stopsAxes = true ↔ o ≠ .interlock ∧ o ≠ .mode := by
  cases o <;> decide

/-- The axes of a lane stopped, where its end stops them. -/
def State.stopOwned (s : State) (n : LaneNo) (o : RunOutcome) : State :=
  if o.stopsAxes = true then (s.owned (.lane n)).foldl State.stopEnded s else s

theorem State.stopOwned_alone (s : State) (n : LaneNo) (o : RunOutcome) : AxesAlone s (s.stopOwned n o) := by
  unfold State.stopOwned
  split
  · exact foldl_rel AxesAlone .refl .trans _ State.stopEnded_alone _ s
  · exact .refl s

theorem State.stopOwned_axis (s : State) (n : LaneNo) (o : RunOutcome) (a : AxisNo) :
    (s.stopOwned n o).axis a = if s.claim a = some (.lane n) ∧ (s.axis a).mode.commanded = true
      ∧ o ≠ .interlock ∧ o ≠ .mode then ((s.axis a).stop (s.axis a).dv).1 else s.axis a := by
  unfold State.stopOwned
  by_cases ho : o.stopsAxes = true
  case pos =>
    rw [if_pos ho, State.foldl_stopEnded_axis a _ s (s.owned_nodup _), Axis.ended, ← ite_and]
    exact if_congr (by simp [State.mem_owned, (RunOutcome.stopsAxes_iff o).mp ho]) rfl rfl
  case neg => rw [if_neg ho, if_neg fun h => ho ((RunOutcome.stopsAxes_iff o).mpr h.2.2)]

/-! ## Ends -/

/-- The record of a run that has ended. -/
def Run.closed (r : Run) (o : RunOutcome) : RunRecord := { r.record with outcome := some o }

theorem State.endRun_of_run {s : State} {n : LaneNo} {r : Run} (h : (s.lane n).run = some r) (o : RunOutcome) :
    s.endRun n o = ((((s.setQueue (s.strikes.queue.filter fun k => k.owner != .lane n)).stopOwned n o).releaseClaims
      (.lane n)).finalise n r o) := by
  unfold State.endRun
  rw [h]
  rfl

/-- What the finalising of a lane writes: the lane, the port and the key inputs. -/
theorem State.finalise_rest (s : State) (n : LaneNo) (r : Run) (o : RunOutcome) :
    s.finalise n r o = { s with
      lanes := tset s.lanes n ⟨none, some (r.closed o)⟩
      port := (s.notice (.showEnded n (r.closed o))).port
      sched := { s.sched with inputs := (s.finalise n r o).sched.inputs } } :=
  State.releaseKey_rest _ _ _

theorem State.finalise_inputs (s : State) (n : LaneNo) (r : Run) (o : RunOutcome) (k : KeyNo) :
    tget (s.finalise n r o).sched.inputs k =
      if r.source = .key k ∧ (tget s.sched.inputs k).held = some r.id then
        { tget s.sched.inputs k with held := none }
      else tget s.sched.inputs k :=
  State.releaseKey_inputs _ _ _ _

variable {s : State} {n : LaneNo} {r : Run}

/-- What an end writes, the axes, the claims and the key inputs given apart. -/
theorem State.endRun_rest (h : (s.lane n).run = some r) (o : RunOutcome) :
    let t := s.endRun n o
    t = { s with
      lanes := tset s.lanes n ⟨none, some (r.closed o)⟩
      strikes := { s.strikes with queue := s.strikes.queue.filter fun k => k.owner != .lane n }
      port := (s.notice (.showEnded n (r.closed o))).port
      motion := { s.motion with axes := t.motion.axes }
      verifier := { s.verifier with disturbed := t.verifier.disturbed }
      sched := { s.sched with claims := t.sched.claims, inputs := t.sched.inputs } } := by
  dsimp only
  rw [State.endRun_of_run h, State.finalise_rest]
  have hstop := (s.setQueue (s.strikes.queue.filter fun k => k.owner != .lane n)).stopOwned_alone n o
  generalize (s.setQueue (s.strikes.queue.filter fun k => k.owner != .lane n)).stopOwned n o = u at hstop ⊢
  unfold AxesAlone at hstop
  rw [hstop]
  rfl

theorem State.stopOwned_sched (s : State) (n : LaneNo) (o : RunOutcome) : (s.stopOwned n o).sched = s.sched := by
  rw [s.stopOwned_alone n o]

theorem State.endRun_lanes (h : (s.lane n).run = some r) (o : RunOutcome) :
    (s.endRun n o).lanes = tset s.lanes n ⟨none, some (r.closed o)⟩ :=
  congrArg State.lanes (State.endRun_rest h o)

theorem State.endRun_port (h : (s.lane n).run = some r) (o : RunOutcome) :
    (s.endRun n o).port = (s.notice (.showEnded n (r.closed o))).port := by
  rw [State.endRun_rest h o]

theorem State.endRun_lane_self (h : (s.lane n).run = some r) (o : RunOutcome) :
    (s.endRun n o).lane n = ⟨none, some (r.closed o)⟩ := by
  rw [State.lane, State.endRun_lanes h o, tget_tset_self]

theorem State.endRun_lane_of_ne (h : (s.lane n).run = some r) (o : RunOutcome) {m : LaneNo} (hm : m ≠ n) :
    (s.endRun n o).lane m = s.lane m := by
  rw [State.lane, State.endRun_lanes h o, tget_tset_of_ne _ _ (Ne.symm hm)]
  rfl

theorem State.endRun_claim (h : (s.lane n).run = some r) (o : RunOutcome) (a : AxisNo) :
    (s.endRun n o).claim a = if s.claim a = some (.lane n) then none else s.claim a := by
  rw [State.endRun_of_run h, State.claim, (State.finalise_kept _ n r o).2]
  refine (State.releaseClaims_claim _ _ a).trans ?_
  rw [State.claim, State.stopOwned_sched]
  rfl

theorem State.endRun_inputs (h : (s.lane n).run = some r) (o : RunOutcome) (k : KeyNo) :
    tget (s.endRun n o).sched.inputs k =
      if r.source = .key k ∧ (tget s.sched.inputs k).held = some r.id then
        { tget s.sched.inputs k with held := none }
      else tget s.sched.inputs k := by
  have hinputs (u : State) : (u.releaseClaims (.lane n)).sched.inputs = u.sched.inputs := rfl
  rw [State.endRun_of_run h, State.finalise_inputs, hinputs, State.stopOwned_sched]
  rfl

theorem State.endRun_axis (h : (s.lane n).run = some r) (o : RunOutcome) (a : AxisNo) :
    (s.endRun n o).axis a = if s.claim a = some (.lane n) ∧ (s.axis a).mode.commanded = true
      ∧ o ≠ .interlock ∧ o ≠ .mode then ((s.axis a).stop (s.axis a).dv).1 else s.axis a := by
  rw [State.endRun_of_run h, State.axis, State.finalise, (State.releaseKey_fields _ _ _).2.2.1]
  exact State.stopOwned_axis (s.setQueue (s.strikes.queue.filter fun k => k.owner != .lane n)) n o a

/-! ## A drain -/

theorem State.ownsStrike_iff (s : State) (n : LaneNo) : s.ownsStrike n = true ↔
    (∃ k ∈ s.strikes.queue, k.owner = .lane n) ∨ ∃ b f, (s.bell b).inFlight = some f ∧ f.owner = .lane n := by
  simp only [State.ownsStrike, Bool.or_eq_true, List.any_eq_true, beq_iff_eq, mem_indexes, true_and]
  refine or_congr_right (exists_congr fun b => ?_)
  cases (s.bell b).inFlight <;> simp

theorem State.drainCheck_stays (h : (s.lane n).run = some r) (hd : r.phase ≠ .draining ∨ s.ownsStrike n = true) :
    s.drainCheck n = s := by
  unfold State.drainCheck
  rw [h]
  refine if_neg fun hends => ?_
  simp only [Bool.and_eq_true, beq_iff_eq, Bool.not_eq_true'] at hends
  rcases hd with hd | hd
  · exact hd hends.1
  · rw [hends.2] at hd
    cases hd

theorem State.drainCheck_ends (h : (s.lane n).run = some r) (hd : r.phase = .draining) (ho : ¬s.ownsStrike n = true) :
    s.drainCheck n = (s.finalise n r .complete).walk := by
  simp [State.drainCheck, h, hd, ho]

theorem runsEnd : RunsEnd := by
  refine ⟨fun s n r o h => ?ends, fun s n r h => ?drains, fun s n => ?limit⟩
  case ends =>
    refine ⟨State.endRun_lane_self h o, fun m => State.endRun_lane_of_ne h o, congrArg State.strikes (State.endRun_rest h o),
      State.endRun_claim h o, State.endRun_axis h o, State.endRun_inputs h o, State.endRun_port h o, ?frame⟩
    case frame =>
      have hrest := State.endRun_rest h o
      dsimp only at hrest ⊢
      rw [hrest]
  case drains =>
    have howns := s.ownsStrike_iff n
    exact ⟨fun hd => State.drainCheck_stays h (hd.imp_right howns.mpr),
      fun hd ho => State.drainCheck_ends h hd fun hw => ho (howns.mp hw)⟩
  case limit =>
    refine ⟨fun hbelow => congrArg Host.Outcome.next (if_neg ?_), fun r hr hle => congrArg Host.Outcome.next (if_pos ?_)⟩
    · rw [State.limitDue_iff]
      rintro ⟨r, hr, hle⟩
      exact Nat.not_le.mpr (hbelow r hr) hle
    · exact (s.limitDue_iff n).mpr ⟨r, hr, hle⟩

/-- Settles O34: a start writes the new run and its claims and then tells of it; an end stops the axes its lane owns one by
one, and finalises the lane. -/
theorem runsStartAndEnd : Obligations.RunsStartAndEnd := ⟨runStarts, runsEnd⟩

end Sys2Proof.Machine
end

section
/-! SUPPORT. The id assigned next (R38): the counter runs through 1 … 255 in turn, and of its next 21 values one is not held,
as at most 20 ids are held at once; and the effects of a drop (R43). -/
namespace Sys2Proof.Machine

/-! ## The ids held -/

variable {s : State}

theorem State.heldId_eq (s : State) (id : Nat) : s.heldId id = (s.sched.queue.any (·.id == id)
    || s.cal.timedPlays.any (·.id == id) || (indexes 4).any fun n => (s.lane n).runs id) := rfl

theorem State.heldId_iff (s : State) (id : Nat) : s.heldId id = true ↔ (∃ r ∈ s.sched.queue, r.id = id)
    ∨ (∃ p ∈ s.cal.timedPlays, p.id = id) ∨ ∃ n r, (s.lane n).run = some r ∧ r.id = id := by
  simp [State.heldId_eq, Lane.runs_iff, or_assoc]

/-- The ids held, one for each holder. -/
def State.heldIds (s : State) : List Nat :=
  s.sched.queue.map Request.id ++ s.cal.timedPlays.map TimedPlay.id
    ++ (indexes 4).filterMap fun n => (s.lane n).run.map Run.id

theorem State.mem_heldIds (id : Nat) : id ∈ s.heldIds ↔ s.heldId id = true := by
  simp [State.heldIds, State.heldId_iff]

theorem State.heldIds_length (h : s.withinCapacity) : s.heldIds.length ≤ 20 := by
  obtain ⟨hqueue, hplays, _⟩ := h
  have hlanes : ((indexes 4).filterMap fun n => (s.lane n).run.map Run.id).length ≤ 4 := List.length_filterMap_le _ _
  simp only [State.heldIds, List.length_append, List.length_map]
  simp only [Config.requestCapacity, Config.timedPlayCapacity] at hqueue hplays
  omega

/-! ## The counter -/

theorem advanceId_range (id : Nat) : 1 ≤ advanceId id ∧ advanceId id ≤ 255 := by
  unfold advanceId
  split <;> omega

/-- After its first advance the counter goes round 1 … 255. -/
theorem advanceId_iterate (id k : Nat) : advanceId^[k + 1] id = (advanceId id - 1 + k) % 255 + 1 := by
  induction k with
  | zero =>
    have := advanceId_range id
    simp only [Nat.zero_add, Function.iterate_one]
    omega
  | succ k ih =>
    rw [Function.iterate_succ_apply', ih, advanceId]
    split <;> omega

theorem advanceId_iterate_range {id k : Nat} (hk : 1 ≤ k) : 1 ≤ advanceId^[k] id ∧ advanceId^[k] id ≤ 255 := by
  obtain ⟨k, rfl⟩ := Nat.exists_eq_add_of_le' hk
  rw [advanceId_iterate]
  omega

/-- The next 21 values of the counter. -/
def nextIds (id : Nat) : List Nat := (List.range 21).map fun j => advanceId^[j + 1] id

theorem nextIds_nodup (id : Nat) : (nextIds id).Nodup := by
  refine (List.nodup_map_iff_inj_on List.nodup_range).mpr fun j hj k hk h => ?_
  rw [List.mem_range] at hj hk
  rw [advanceId_iterate, advanceId_iterate] at h
  omega

/-- Of 21 distinct ids one is not among 20. -/
theorem State.exists_free (h : s.withinCapacity) (id : Nat) :
    ∃ k, 1 ≤ k ∧ k ≤ 21 ∧ s.heldId (advanceId^[k] id) = false := by
  by_contra hall
  have hsub : nextIds id ⊆ s.heldIds := by
    intro x hx
    obtain ⟨j, hj, rfl⟩ := List.mem_map.mp hx
    rw [List.mem_range] at hj
    rw [State.mem_heldIds, ← Bool.not_eq_false]
    exact fun hfree => hall ⟨j + 1, by omega, by omega, hfree⟩
  have hle := (List.subperm_of_subset (nextIds_nodup id) hsub).length_le
  have hlen := State.heldIds_length h
  simp only [nextIds, List.length_map, List.length_range] at hle
  omega

/-! ## The id found -/

/-- Value k of the counter is the first that is not held. -/
def State.FirstFree (s : State) (id k : Nat) : Prop :=
  1 ≤ k ∧ s.heldId (advanceId^[k] id) = false ∧ ∀ j, 1 ≤ j → j < k → s.heldId (advanceId^[j] id) = true

theorem State.freeIdFrom_firstFree : ∀ {fuel id k : Nat}, s.FirstFree id k → k ≤ fuel →
    s.freeIdFrom fuel id = advanceId^[k] id
  | 0, _, _, ⟨hk, _⟩, hle => by omega
  | fuel + 1, id, 0, ⟨hk, _⟩, _ => by omega
  | fuel + 1, id, 1, ⟨_, hfree, _⟩, _ => if_neg (by simpa using hfree)
  | fuel + 1, id, k + 2, ⟨_, hfree, hheld⟩, hle => by
    have hnext : s.heldId (advanceId id) = true := hheld 1 (by omega) (by omega)
    have hrest : s.FirstFree (advanceId id) (k + 1) :=
      ⟨by omega, hfree, fun j _ hlt => hheld (j + 1) (by omega) (by omega)⟩
    exact (if_pos hnext).trans (State.freeIdFrom_firstFree hrest (by omega))

theorem State.exists_firstFree (h : s.withinCapacity) (id : Nat) : ∃ k, k ≤ 21 ∧ s.FirstFree id k := by
  classical
  have hex := State.exists_free h id
  obtain ⟨h1, h21, hfree⟩ := Nat.find_spec hex
  refine ⟨Nat.find hex, h21, h1, hfree, fun j hj hlt => ?_⟩
  rw [← Bool.not_eq_false]
  exact fun hf => Nat.find_min hex hlt ⟨hj, by omega, hf⟩

theorem State.nextId_firstFree (h : s.withinCapacity) :
    ∃ k, k ≤ 21 ∧ s.FirstFree s.sched.lastId k ∧ s.nextId = advanceId^[k] s.sched.lastId := by
  obtain ⟨k, hle, hk⟩ := State.exists_firstFree h s.sched.lastId
  exact ⟨k, hle, hk, State.freeIdFrom_firstFree hk (by omega)⟩

/-- The id assigned next depends on the counter and on the ids held. -/
theorem State.nextId_congr {t : State} (hheld : ∀ id, t.heldId id = s.heldId id)
    (hlast : t.sched.lastId = s.sched.lastId) : t.nextId = s.nextId := by
  have hfrom : ∀ fuel id, t.freeIdFrom fuel id = s.freeIdFrom fuel id := by
    intro fuel
    induction fuel with
    | zero => exact fun _ => rfl
    | succ fuel ih => exact fun id => by rw [State.freeIdFrom, State.freeIdFrom, hheld, ih]
  rw [State.nextId, State.nextId, hlast, hfrom]

/-! ## Ids and drops -/

/-- Settles O28: the counter goes round 1 … 255 and finds the first id not held; a drop is its notice, its latch and the
release of its key. -/
theorem idsAndDrops : Obligations.IdsAndDrops := by
  refine ⟨State.heldId_iff, ⟨rfl, fun id h => if_neg (by omega)⟩, fun s h => ?assigned,
    fun s id showNo source reason => ⟨?port, State.releaseKey_inputs _ source id, ?frame⟩⟩
  case assigned =>
    obtain ⟨k, hle, ⟨h1, hfree, hheld⟩, hnext⟩ := State.nextId_firstFree h
    obtain ⟨hlow, hhigh⟩ := advanceId_iterate_range (id := s.sched.lastId) h1
    rw [hnext]
    exact ⟨hlow, hhigh, hfree, k, h1, hle, rfl, hheld⟩
  case port =>
    rw [State.dropRequest, State.releaseKey_rest]
    rfl
  case frame =>
    rw [State.dropRequest, State.releaseKey_rest]
    rfl

end Sys2Proof.Machine
end

section
/-! SUPPORT. Admission to the request queue (R39), PLAY (R40) and expiry (R41): which request a full queue gives up, and where
a request goes by the room there is. -/
namespace Sys2Proof.Machine

/-! ## The weakest request -/

/-- Request x goes before request r where the queue is full: a lower priority, or the same and a later arrival (R39 step 3). -/
def Request.weaker (x r : Request) : Prop :=
  x.priority < r.priority ∨ (x.priority = r.priority ∧ r.arrival < x.arrival)

/-- The weaker of the best so far and one more request. -/
def weakerOf (best : Option Request) (r : Request) : Option Request :=
  match best with
  | none => some r
  | some x => if r.priority < x.priority || (r.priority == x.priority && x.arrival < r.arrival) then some r else best

theorem lowestQueued_eq (q : List Request) : lowestQueued q = q.foldl weakerOf none := rfl

theorem weakerOf_some (x r : Request) [Decidable (r.weaker x)] :
    weakerOf (some x) r = if r.weaker x then some r else some x := by
  have hiff : r.weaker x ↔ (r.priority < x.priority || (r.priority == x.priority && x.arrival < r.arrival)) = true := by
    simp [Request.weaker]
  simp only [weakerOf, hiff]

theorem Request.weaker_asymm {x r : Request} (h : x.weaker r) : ¬r.weaker x := by
  unfold Request.weaker at *
  omega

/-- Once found, the weakest stays. -/
theorem foldl_weakerOf_keeps {x : Request} : ∀ {l : List Request}, (∀ r ∈ l, r ≠ x → x.weaker r) →
    l.foldl weakerOf (some x) = some x
  | [], _ => rfl
  | r :: rest, h => by
    classical
    have hstays : weakerOf (some x) r = some x := by
      rw [weakerOf_some]
      by_cases hr : r = x
      · rw [hr, ite_self]
      · exact if_neg (Request.weaker_asymm (h r List.mem_cons_self hr))
    rw [List.foldl_cons, hstays]
    exact foldl_weakerOf_keeps fun y hy => h y (List.mem_cons_of_mem _ hy)

/-- The weakest is found, whatever stronger request was best before. -/
theorem foldl_weakerOf_finds {x : Request} : ∀ {l : List Request} {best : Option Request}, x ∈ l →
    (∀ r ∈ l, r ≠ x → x.weaker r) → (∀ y, best = some y → y ≠ x → x.weaker y) → l.foldl weakerOf best = some x
  | r :: rest, best, hx, h, hbest => by
    classical
    have hrest : ∀ y ∈ rest, y ≠ x → x.weaker y := fun y hy => h y (List.mem_cons_of_mem _ hy)
    rw [List.foldl_cons]
    by_cases hr : r = x
    case pos =>
      have htakes : weakerOf best r = some x := by
        subst hr
        cases best with
        | none => rfl
        | some y =>
          rw [weakerOf_some]
          by_cases hy : y = r
          · rw [hy, ite_self]
          · exact if_pos (hbest y rfl hy)
      rw [htakes]
      exact foldl_weakerOf_keeps hrest
    case neg =>
      refine foldl_weakerOf_finds ((List.mem_cons.mp hx).resolve_left (Ne.symm hr)) hrest fun y hy hne => ?_
      cases best with
      | none =>
        cases hy
        exact h r List.mem_cons_self hr
      | some z =>
        rw [weakerOf_some] at hy
        split at hy
        · cases hy
          exact h r List.mem_cons_self hr
        · exact hbest y hy hne

theorem lowestQueued_of_weakest {s : State} {x : Request} (h : Weakest s x) : lowestQueued s.sched.queue = some x :=
  foldl_weakerOf_finds h.1 h.2 fun _ hy => nomatch hy

/-! ## Room -/

variable {s : State} {priority : Nat}

theorem State.roomFor_room (h : s.sched.queue.length < 8) : s.roomFor priority = some none := if_pos h

theorem State.roomFor_evicts {x : Request} (hfull : 8 ≤ s.sched.queue.length) (hx : Weakest s x)
    (hlt : x.priority < priority) : s.roomFor priority = some (some x) := by
  have hnot : ¬s.sched.queue.length < Config.requestCapacity := Nat.not_lt.mpr hfull
  simp [State.roomFor, hnot, lowestQueued_of_weakest hx, hlt]

theorem State.roomFor_none (hfull : 8 ≤ s.sched.queue.length) (hall : ∀ r ∈ s.sched.queue, priority ≤ r.priority) :
    s.roomFor priority = none := by
  have hnot : ¬s.sched.queue.length < Config.requestCapacity := Nat.not_lt.mpr hfull
  cases hlow : lowestQueued s.sched.queue with
  | none => simp [State.roomFor, hnot, hlow]
  | some x => simp [State.roomFor, hnot, hlow, hall x (mem_of_lowestQueued hlow)]

/-! ## Entry -/

theorem State.enterRequest_none (s : State) (w : Wish) : s.enterRequest w none = Entered s w := rfl

theorem State.enterRequest_some (s : State) (w : Wish) (x : Request) :
    s.enterRequest w (some x) = Entered (s.dropQueued x .evicted) w := rfl

theorem State.enterWish_noShow {w : Wish} (h : s.store.playable w.showNo = none) :
    s.enterWish w = s.dropRequest w.id w.showNo w.source .noShow := by
  simp [State.enterWish, h]

theorem State.enterWish_admitted {w : Wish} {evicted : Option Request} (h : s.store.playable w.showNo ≠ none)
    (hroom : s.roomFor w.priority = some evicted) : s.enterWish w = s.enterRequest w evicted := by
  simp [State.enterWish, h, hroom]

theorem State.enterWish_full {w : Wish} (h : s.store.playable w.showNo ≠ none) (hroom : s.roomFor w.priority = none) :
    s.enterWish w = s.dropRequest w.id w.showNo w.source .full := by
  simp [State.enterWish, h, hroom]

/-! ## PLAY -/

variable {tag showNo p grace : Byte}

theorem State.playNow_badArg (h : 63 < showNo.toNat ∨ 15 < p.toNat) :
    s.playNow tag showNo p grace = s.reply tag 0x20 .badArg := if_pos h

theorem State.playNow_notFound (h1 : showNo.toNat ≤ 63) (h2 : p.toNat ≤ 15)
    (h : s.store.playable showNo.toNat = none) : s.playNow tag showNo p grace = s.reply tag 0x20 .notFound := by
  rw [State.playNow, if_neg (by omega), h]
  rfl

theorem State.playNow_playable (h1 : showNo.toNat ≤ 63) (h2 : p.toNat ≤ 15)
    (h : s.store.playable showNo.toNat ≠ none) : s.playNow tag showNo p grace = s.playAdmitted tag showNo p grace := by
  rw [State.playNow, if_neg (by omega), if_neg (by simpa using h)]

theorem State.assigned_roomFor (s : State) (id n : Nat) : (s.assigned id).roomFor n = s.roomFor n := rfl

theorem State.playAdmitted_admitted {evicted : Option Request} (h : s.roomFor p.toNat = some evicted) :
    s.playAdmitted tag showNo p grace = ((s.assigned s.nextId).reply tag 0x20 .ok [byteOf s.nextId]).enterRequest
      ⟨s.nextId, showNo.toNat, p.toNat, grace.toNat, .link⟩ evicted := by
  rw [State.playAdmitted, State.assigned_roomFor, h]

theorem State.playAdmitted_full (h : s.roomFor p.toNat = none) :
    s.playAdmitted tag showNo p grace = (s.assigned s.nextId).reply tag 0x20 .full := by
  rw [State.playAdmitted, State.assigned_roomFor, h]

/-! ## Expiry -/

theorem exec_requestExpiry_none {id : Nat} (h : s.queued id = none) : exec (.requestExpiry id) s = .next s := by
  show execRequestExpiry id s = _
  rw [execRequestExpiry, h]

theorem exec_requestExpiry_some {id : Nat} {r : Request} (h : s.queued id = some r) :
    exec (.requestExpiry id) s = .next (if r.grace = 0 then s.dropQueued r .expired else s) := by
  show execRequestExpiry id s = _
  rw [execRequestExpiry, h]

/-- Settles O29: admission by the room there is; PLAY is answered before its request enters; an expiry drops the request
whose grace has run out. -/
theorem requestsAdmitted : Obligations.RequestsAdmitted := by
  refine ⟨fun s w => ⟨State.enterWish_noShow, fun hp => ⟨fun hroom => ?room, fun x hfull hx hlt => ?evicts,
    fun hfull hall => ?full⟩⟩, fun s tag showNo p grace htakes => ?play, fun s r reason => rfl,
    fun s id => ⟨exec_requestExpiry_none, fun r hr => ⟨fun hg => ?waits, fun hg => ?expires⟩⟩⟩
  case room => rw [State.enterWish_admitted hp (State.roomFor_room hroom), State.enterRequest_none]
  case evicts => rw [State.enterWish_admitted hp (State.roomFor_evicts hfull hx hlt), State.enterRequest_some]
  case full => exact State.enterWish_full hp (State.roomFor_none hfull hall)
  case play =>
    have hexec : exec (.play tag showNo p grace) s = .next (s.playNow tag showNo p grace) := next_taken htakes
    simp only [hexec, Host.Outcome.next.injEq]
    refine ⟨State.playNow_badArg, State.playNow_notFound, fun h1 h2 hp => ?_⟩
    rw [State.playNow_playable h1 h2 hp]
    refine ⟨fun hroom => ?_, fun x hfull hx hlt => ?_,
      fun hfull hall => State.playAdmitted_full (State.roomFor_none hfull hall)⟩
    · rw [State.playAdmitted_admitted (State.roomFor_room hroom), State.enterRequest_none]
      rfl
    · rw [State.playAdmitted_admitted (State.roomFor_evicts hfull hx hlt), State.enterRequest_some]
      rfl
  case waits => rw [exec_requestExpiry_some hr, if_neg hg]
  case expires => rw [exec_requestExpiry_some hr, if_pos hg]

end Sys2Proof.Machine
end

section
/-! SUPPORT. The show keys: the key table and SET_KEY (R45), the debounce and the press (R44). -/
namespace Sys2Proof.Machine

variable {s : State}

/-! ## SET_KEY -/

section
variable {tag key enabled showNo priority grace : Byte}

/-- The fields of SET_KEY that name no key are in range (R45). -/
def keyFieldsInRange (enabled showNo priority : Byte) : Prop :=
  (enabled = 0 ∨ enabled = 1) ∧ showNo.toNat ≤ 63 ∧ priority.toNat ≤ 15

theorem State.writeKey_ok {k : KeyNo} (hk : key.toNat = k.val) (h : keyFieldsInRange enabled showNo priority) :
    s.writeKey tag key enabled showNo priority grace = ({ s with sched := { s.sched with
      keys := tset s.sched.keys k ⟨decide (enabled = 1), showNo.toNat, priority.toNat, grace.toNat⟩ } } : State).reply
        tag 0x23 .ok := by
  rw [State.writeKey, hk, index?_val, boolOf_bit h.1]
  exact if_pos h.2

theorem State.writeKey_badArg (h : ¬(key.toNat ≤ 3 ∧ keyFieldsInRange enabled showNo priority)) :
    s.writeKey tag key enabled showNo priority grace = s.reply tag 0x23 .badArg := by
  by_cases hk : key.toNat < 4
  case neg => rw [State.writeKey, index?_of_le (Nat.not_lt.mp hk)]
  case pos =>
    by_cases he : enabled = 0 ∨ enabled = 1
    case neg => rw [State.writeKey, index?_of_lt hk, boolOf_none he]
    case pos =>
      rw [State.writeKey, index?_of_lt hk, boolOf_bit he]
      exact if_neg fun hrest => h ⟨Nat.le_of_lt_succ hk, he, hrest⟩

end

/-! ## A press -/

theorem State.press_ignored {k : KeyNo} (h : (tget s.sched.keys k).enabled = false ∨ (tget s.sched.inputs k).held ≠ none) :
    s.press k = s := by
  refine if_neg fun ⟨he, hn⟩ => ?_
  rcases h with h | h
  · rw [he] at h
    cases h
  · exact h hn

theorem State.press_wishes {k : KeyNo} (he : (tget s.sched.keys k).enabled = true)
    (hn : (tget s.sched.inputs k).held = none) :
    let e := tget s.sched.keys k
    s.press k = (s.assigned s.nextId).enterWish ⟨s.nextId, e.showNo, e.priority, e.grace, .key k⟩ := if_pos ⟨he, hn⟩

/-- Settles O31: SET_KEY is examined field by field and writes one entry; a press makes a wish, and one for a show that is
not playable is dropped. -/
theorem setKeyWrites : Obligations.SetKeyWrites := by
  refine ⟨fun _ _ k => tget_replicate _ k, fun _ => rfl, fun s tag key enabled showNo priority grace htakes => ?set,
    fun s k he hn hp => ?press⟩
  case set =>
    have hexec : exec (.setKey tag key enabled showNo priority grace) s =
      .next (s.writeKey tag key enabled showNo priority grace) := next_taken htakes
    rw [hexec]
    exact ⟨fun hbad => congrArg _ (State.writeKey_badArg hbad),
      fun k hk hgood => congrArg _ (State.writeKey_ok hk hgood.2)⟩
  case press =>
    rw [State.press_wishes he hn]
    exact State.enterWish_noShow hp

/-! ## The debounce -/

theorem State.keyChange_same {k : KeyNo} {level : Bool} (h : (tget s.sched.inputs k).level = level) :
    s.keyChange k level = s := if_pos h

theorem State.keyChange_new {k : KeyNo} {level : Bool} (h : (tget s.sched.inputs k).level ≠ level) :
    s.keyChange k level =
      s.setInput k { tget s.sched.inputs k with level := level, changedAt := s.now } := if_neg h

theorem exec_keyPress_early {k : KeyNo} (h : ¬s.keyDue k = true) : exec (.keyPress k) s = .next s :=
  congrArg Host.Outcome.next (if_neg h)

theorem exec_keyPress_due {k : KeyNo} (h : s.keyDue k = true) : exec (.keyPress k) s = .next (s.debounceKey k) :=
  congrArg Host.Outcome.next (if_pos h)

/-- A key input whose debounced level has followed its level. -/
def KeyInput.settled (x : KeyInput) : KeyInput := { x with debounced := x.level }

theorem State.setInput_nextId (s : State) (k : KeyNo) (x : KeyInput) : (s.setInput k x).nextId = s.nextId :=
  State.nextId_congr (fun _ => rfl) rfl

theorem State.debounceKey_low {k : KeyNo} (h : (tget s.sched.inputs k).level = false) :
    s.debounceKey k = s.setInput k (tget s.sched.inputs k).settled := if_neg (by simp [h])

theorem State.debounceKey_high {k : KeyNo} (h : (tget s.sched.inputs k).level = true) :
    s.debounceKey k = (s.setInput k (tget s.sched.inputs k).settled).press k := if_pos h

theorem State.setInput_held (s : State) (k : KeyNo) :
    (tget (s.setInput k (tget s.sched.inputs k).settled).sched.inputs k).held = (tget s.sched.inputs k).held := by
  simp [State.setInput, KeyInput.settled]

theorem State.debounceKey_ignored {k : KeyNo} (h : (tget s.sched.inputs k).level = false
    ∨ (tget s.sched.keys k).enabled = false ∨ (tget s.sched.inputs k).held ≠ none) :
    s.debounceKey k = s.setInput k (tget s.sched.inputs k).settled := by
  cases hl : (tget s.sched.inputs k).level with
  | false => exact State.debounceKey_low hl
  | true =>
    rw [State.debounceKey_high hl]
    refine State.press_ignored ?_
    rw [State.setInput_held]
    exact h.resolve_left (by simp [hl])

theorem State.debounceKey_pressed {k : KeyNo} (hl : (tget s.sched.inputs k).level = true)
    (he : (tget s.sched.keys k).enabled = true) (hn : (tget s.sched.inputs k).held = none) :
    let e := tget s.sched.keys k
    s.debounceKey k = ((s.setInput k (tget s.sched.inputs k).settled).assigned s.nextId).enterWish
      ⟨s.nextId, e.showNo, e.priority, e.grace, .key k⟩ := by
  have hpress := State.press_wishes (s := s.setInput k (tget s.sched.inputs k).settled) he (by rw [State.setInput_held, hn])
  rw [State.setInput_nextId] at hpress
  exact (State.debounceKey_high hl).trans hpress

/-- Settles O32: the debounced level follows where the count has run out, and a rise makes a wish unless the press is
ignored. -/
theorem keysPressed : Obligations.KeysPressed := by
  refine ⟨fun s k level => ⟨fun h => congrArg Host.Outcome.next (State.keyChange_same h),
    fun h => congrArg Host.Outcome.next (State.keyChange_new h)⟩, fun s k => ⟨fun h => ?early, fun hne hb => ?due⟩⟩
  case early =>
    refine exec_keyPress_early fun hdue => ?_
    obtain ⟨hne, hb⟩ := (s.keyDue_iff k).mp hdue
    rcases h with h | h
    · exact hne h
    · rw [hb] at h
      cases h
  case due =>
    rw [exec_keyPress_due ((s.keyDue_iff k).mpr ⟨hne, hb⟩)]
    exact ⟨fun h => congrArg Host.Outcome.next (State.debounceKey_ignored h),
      fun hl he hn => congrArg Host.Outcome.next (State.debounceKey_pressed hl he hn)⟩

end Sys2Proof.Machine
end

section
/-! SUPPORT. The walk (R48) and the test of one request in it (R49): the lowest IDLE lane, the victim, the blocking set, and
where each test of a request leads. -/
namespace Sys2Proof.Machine

variable {s : State}

/-! ## The walk -/

theorem State.walkHeld_iff (s : State) : s.walkHeld = true ↔ WalkHeld s := by
  simp [State.walkHeld, WalkHeld, State.stopped, or_assoc, Option.isSome_iff_ne_none]

theorem State.walk_held (h : WalkHeld s) : s.walk = s := if_pos ((s.walkHeld_iff).mpr h)

theorem State.walk_free (h : ¬WalkHeld s) : s.walk = s.sched.queue.foldl State.tryStart s :=
  if_neg fun hw => h ((s.walkHeld_iff).mp hw)

/-! ## The lowest IDLE lane -/

theorem State.idleLane_of_lowestIdle {n : LaneNo} (h : LowestIdle s n) : s.idleLane = some n :=
  find?_finRange (by simp [h.1]) fun m hm => by simpa [Option.isSome_iff_ne_none] using h.2 m hm

/-- Where a lane is IDLE, one of them is the lowest. -/
theorem State.exists_lowestIdle {m : LaneNo} (h : (s.lane m).run = none) : ∃ n, LowestIdle s n := by
  obtain ⟨n, hn, hmin⟩ := wellFounded_lt.has_min {n : LaneNo | (s.lane n).run = none} ⟨m, h⟩
  exact ⟨n, hn, fun k hk hidle => hmin k hidle hk⟩

theorem State.lowestIdle_of_idleLane {n : LaneNo} (h : s.idleLane = some n) : LowestIdle s n := by
  obtain ⟨k, hk⟩ := State.exists_lowestIdle (s := s) (m := n) (by simpa using List.find?_some h)
  rw [State.idleLane_of_lowestIdle hk] at h
  cases h
  exact hk

theorem State.idleLane_none_iff (s : State) : s.idleLane = none ↔ ∀ n, (s.lane n).run ≠ none := by
  simp [State.idleLane]

/-! ## The victim -/

theorem State.activeRun_iff (s : State) (n : LaneNo) (r : Run) : s.activeRun n = some r ↔ Active s n r := by
  unfold State.activeRun Active
  cases (s.lane n).run with
  | none => simp
  | some x =>
    by_cases hx : x.phase = .draining
    · simp only [hx, beq_self_eq_true, if_true, Option.some.injEq, reduceCtorEq, false_iff]
      rintro ⟨rfl, hr⟩
      exact hr hx
    · simp only [beq_iff_eq, hx, if_false, Option.some.injEq]
      exact ⟨fun h => ⟨h, h ▸ hx⟩, And.left⟩

theorem active_unique {n : LaneNo} {r x : Run} (h : Active s n r) (h' : Active s n x) : r = x :=
  Option.some.inj (h.1.symm.trans h'.1)

/-- Run b is taken as the victim before run a: a lower priority, or the same and a later start (R49). -/
def Run.yields (b a : Run) : Prop :=
  b.priority < a.priority ∨ (b.priority = a.priority ∧ a.startSeq < b.startSeq)

theorem Run.victimBefore_iff (b a : Run) : b.victimBefore a = true ↔ b.yields a := by
  simp [Run.victimBefore, Run.yields]

theorem Run.yields_trans {a b c : Run} (h : a.yields b) (h' : b.yields c) : a.yields c := by
  unfold Run.yields at *
  omega

theorem Run.yields_asymm {a b : Run} (h : a.yields b) : ¬b.yields a := by
  unfold Run.yields at *
  omega

theorem Run.yields_of_not {a b : Run} (hne : a.startSeq ≠ b.startSeq) (h : ¬a.yields b) : b.yields a := by
  unfold Run.yields at *
  omega

/-- The choice of a victim with one more lane looked at. -/
def State.preferVictim (s : State) (best : Option (LaneNo × Run)) (n : LaneNo) : Option (LaneNo × Run) :=
  match s.activeRun n, best with
  | none, _ => best
  | some r, none => some (n, r)
  | some r, some (_, q) => if r.victimBefore q then some (n, r) else best

theorem State.victim_eq (s : State) : s.victim = ((indexes 4).foldl s.preferVictim none).map (·.1) := rfl

/-- What the choice among some lanes has found: none where none is active, else the active one before all others. -/
def State.VictimAmong (s : State) (l : List LaneNo) : Option (LaneNo × Run) → Prop
  | none => ∀ m ∈ l, ∀ x, ¬Active s m x
  | some (n, r) => n ∈ l ∧ Active s n r ∧ ∀ m ∈ l, ∀ x, m ≠ n → Active s m x → r.yields x

/-- Active lanes have distinct start sequences (R47). -/
def State.StartsApart (s : State) : Prop :=
  ∀ m n x y, m ≠ n → Active s m x → Active s n y → x.startSeq ≠ y.startSeq

section
variable {l : List LaneNo} {best : Option (LaneNo × Run)} {k : LaneNo} {r : Run}

theorem mem_append_one {m : LaneNo} (h : m ∈ l ++ [k]) : m ∈ l ∨ m = k := by simpa using h

/-- A lane that is not active changes nothing. -/
theorem State.VictimAmong.skip (h : s.VictimAmong l best) (hk : ∀ x, ¬Active s k x) : s.VictimAmong (l ++ [k]) best := by
  cases best with
  | none =>
    intro m hm
    rcases mem_append_one hm with hm | rfl
    · exact h m hm
    · exact hk
  | some b =>
    obtain ⟨hn, hr, hall⟩ := h
    refine ⟨List.mem_append_left _ hn, hr, fun m hm x hne hx => ?_⟩
    rcases mem_append_one hm with hm | rfl
    · exact hall m hm x hne hx
    · exact absurd hx (hk x)

/-- An active lane is taken where its run goes before every one looked at. -/
theorem State.VictimAmong.take (hr : Active s k r) (hall : ∀ m ∈ l, ∀ x, Active s m x → r.yields x) :
    s.VictimAmong (l ++ [k]) (some (k, r)) :=
  ⟨by simp, hr, fun m hm x hne hx => hall m ((mem_append_one hm).resolve_right hne) x hx⟩

/-- The best so far stays where its run goes before that of the next lane. -/
theorem State.VictimAmong.stay {n : LaneNo} {q : Run} (h : s.VictimAmong l (some (n, q))) (hr : Active s k r)
    (hqr : q.yields r) : s.VictimAmong (l ++ [k]) (some (n, q)) := by
  obtain ⟨hn, hq, hall⟩ := h
  refine ⟨List.mem_append_left _ hn, hq, fun m hm x hne hx => ?_⟩
  rcases mem_append_one hm with hm | rfl
  · exact hall m hm x hne hx
  · rwa [active_unique hx hr]

theorem State.VictimAmong.prefer (hs : s.StartsApart) (h : s.VictimAmong l best) (hk : k ∉ l) :
    s.VictimAmong (l ++ [k]) (s.preferVictim best k) := by
  unfold State.preferVictim
  cases hact : s.activeRun k with
  | none => exact h.skip fun x hx => by simp [(s.activeRun_iff k x).mpr hx] at hact
  | some r =>
    have hr := (s.activeRun_iff k r).mp hact
    cases best with
    | none => exact .take hr fun m hm x hx => absurd hx (h m hm x)
    | some b =>
      obtain ⟨n, q⟩ := b
      obtain ⟨hn, hq, hall⟩ := id h
      dsimp only
      split
      case isTrue hbefore =>
        have hrq := (Run.victimBefore_iff r q).mp hbefore
        refine .take hr fun m hm x hx => ?_
        by_cases hmn : m = n
        · subst hmn
          rwa [active_unique hx hq]
        · exact Run.yields_trans hrq (hall m hm x hmn hx)
      case isFalse hnot =>
        rw [Run.victimBefore_iff] at hnot
        have hkn : k ≠ n := fun he => hk (he ▸ hn)
        exact h.stay hr (Run.yields_of_not (hs k n r q hkn hr hq) hnot)

end

theorem State.VictimAmong.foldl (hs : s.StartsApart) : ∀ {l done : List LaneNo} {best : Option (LaneNo × Run)},
    s.VictimAmong done best → (done ++ l).Nodup → s.VictimAmong (done ++ l) (l.foldl s.preferVictim best)
  | [], done, _, h, _ => by simpa using h
  | k :: rest, done, best, h, hl => by
    have hsplit : done ++ k :: rest = (done ++ [k]) ++ rest := by simp
    have hk : k ∉ done := fun hmem => (List.nodup_append.mp hl).2.2 k hmem k List.mem_cons_self rfl
    rw [List.foldl_cons, hsplit]
    exact State.VictimAmong.foldl hs (h.prefer hs hk) (hsplit ▸ hl)

theorem State.victimAmong_all (hs : s.StartsApart) :
    s.VictimAmong (indexes 4) ((indexes 4).foldl s.preferVictim none) :=
  State.VictimAmong.foldl (done := []) hs (fun _ h => absurd h List.not_mem_nil) (List.nodup_finRange 4)

/-- The victim is the active lane whose run all other active runs come after. -/
theorem State.victim_some_iff (hs : s.StartsApart) (n : LaneNo) : s.victim = some n ↔
    ∃ r, Active s n r ∧ ∀ m x, m ≠ n → Active s m x → r.yields x := by
  have hall := State.victimAmong_all hs
  rw [State.victim_eq]
  generalize (indexes 4).foldl s.preferVictim none = best at hall ⊢
  cases best with
  | none => exact ⟨nofun, fun ⟨r, hr, _⟩ => absurd hr (hall n (mem_indexes n) r)⟩
  | some b =>
    obtain ⟨k, q⟩ := b
    obtain ⟨_, hq, hfirst⟩ := hall
    simp only [Option.map_some, Option.some.injEq]
    constructor
    · rintro rfl
      exact ⟨q, hq, fun m => hfirst m (mem_indexes m)⟩
    · rintro ⟨r, hr, hrall⟩
      by_contra hne
      exact Run.yields_asymm (hfirst n (mem_indexes n) r (Ne.symm hne) hr) (hrall k q hne hq)

theorem State.victim_none_iff (hs : s.StartsApart) : s.victim = none ↔ ∀ n r, ¬Active s n r := by
  have hall := State.victimAmong_all hs
  rw [State.victim_eq]
  generalize (indexes 4).foldl s.preferVictim none = best at hall ⊢
  cases best with
  | none => exact ⟨fun _ n => hall n (mem_indexes n), fun _ => rfl⟩
  | some b => exact ⟨nofun, fun h => absurd hall.2.1 (h b.1 b.2)⟩

/-! ## The blocking set -/

theorem State.ownsNeeded_iff (s : State) (mask : BitVec 12) (n : LaneNo) : s.ownsNeeded mask n = true ↔
    (∃ r, Active s n r) ∧ ∃ a : AxisNo, mask.getLsbD a.val = true ∧ s.claim a = some (.lane n) := by
  simp [State.ownsNeeded, Option.isSome_iff_exists, State.activeRun_iff, mem_maskAxes, inMask]

theorem State.isVictim_iff (hs : s.StartsApart) (n : LaneNo) :
    IsVictim s n ↔ s.idleLane = none ∧ s.victim = some n := by
  rw [State.idleLane_none_iff, State.victim_some_iff hs]
  rfl

theorem State.mem_blocking (hs : s.StartsApart) (mask : BitVec 12) (n : LaneNo) :
    n ∈ s.blocking mask ↔ Blocks s mask n := by
  simp only [State.blocking, List.mem_filter, mem_indexes, true_and, Bool.or_eq_true, State.ownsNeeded_iff,
    Bool.and_eq_true, Option.isNone_iff_eq_none, beq_iff_eq, Blocks, State.isVictim_iff hs]

theorem State.blocking_pairwise (s : State) (mask : BitVec 12) : (s.blocking mask).Pairwise (· < ·) :=
  (List.pairwise_lt_finRange 4).filter _

/-- Every lane of the blocking set is RUNNING or WAITING. -/
theorem active_of_blocks {mask : BitVec 12} {n : LaneNo} (h : Blocks s mask n) : ∃ r, Active s n r := by
  rcases h with ⟨hr, _⟩ | ⟨_, r, hr, _⟩
  · exact hr
  · exact ⟨r, hr⟩

theorem State.below_iff {n : LaneNo} {x : Run} (h : (s.lane n).run = some x) (p : Nat) :
    s.below p n = true ↔ x.priority < p := by
  simp [State.below, h]

/-! ## Ends of the blocking set -/

/-- The runs of some lanes ended PREEMPTED one after another. -/
def State.preempt (s : State) (lanes : List LaneNo) : State := lanes.foldl (fun u m => u.endRun m .preempted) s

theorem State.preempt_lane (m : LaneNo) : ∀ (lanes : List LaneNo) (s : State),
    ((s.preempt lanes).lane m).run = if m ∈ lanes then none else (s.lane m).run
  | [], _ => by simp [State.preempt]
  | n :: rest, s => by
    have hrest : s.preempt (n :: rest) = (s.endRun n .preempted).preempt rest := rfl
    rw [hrest, State.preempt_lane m rest, State.endRun_lane]
    by_cases hm : m ∈ rest
    · simp [hm]
    · simp [hm, eq_comm (a := n)]

/-! ## The test of one request -/

variable {r : Request} {b : Block} {mask : BitVec 12} {limit : Nat}

/-- Every needed axis is unclaimed. -/
def State.AxesFree (s : State) (mask : BitVec 12) : Prop := ∀ a : AxisNo, mask.getLsbD a.val = true → s.claim a = none

/-- The exercise owns a needed axis. -/
def State.ExerciseHolds (s : State) (mask : BitVec 12) : Prop :=
  ∃ a : AxisNo, mask.getLsbD a.val = true ∧ s.claim a = some .exercise

theorem State.axesFree_iff (s : State) (mask : BitVec 12) :
    ((maskAxes mask).all fun a => (s.claim a).isNone) = true ↔ s.AxesFree mask := by
  simp [State.AxesFree, mem_maskAxes, inMask]

theorem State.exerciseHolds_iff (s : State) (mask : BitVec 12) :
    ((maskAxes mask).any fun a => s.claim a == some .exercise) = true ↔ s.ExerciseHolds mask := by
  simp [State.ExerciseHolds, mem_maskAxes, inMask]

theorem State.tryStart_free {n : LaneNo} (hp : s.store.playable r.showNo = some (b, mask, limit)) (hn : LowestIdle s n)
    (hf : s.AxesFree mask) : s.tryStart r = s.startRun n r b mask limit := by
  simp only [State.tryStart, hp, State.idleLane_of_lowestIdle hn, (s.axesFree_iff mask).mpr hf]

/-- The start on the lowest IDLE lane that the ends have left. -/
def State.startIdle (s : State) (r : Request) (b : Block) (mask : BitVec 12) (limit : Nat) : State :=
  match s.idleLane with
  | some n => s.startRun n r b mask limit
  | none => s

theorem State.startIdle_of {n : LaneNo} (h : LowestIdle s n) :
    s.startIdle r b mask limit = s.startRun n r b mask limit := by
  rw [State.startIdle, State.idleLane_of_lowestIdle h]

/-- Past the start on an IDLE lane, a request is tested against the exercise, the victim and the blocking set. -/
theorem State.tryStart_blocked (hp : s.store.playable r.showNo = some (b, mask, limit))
    (hb : ∀ n, LowestIdle s n → ¬s.AxesFree mask) : s.tryStart r =
      if ((maskAxes mask).any fun a => s.claim a == some .exercise) = true then s
      else if (s.idleLane.isNone && s.victim.isNone) = true then s
      else if (s.blocking mask).all (s.below r.priority) = true then
        (s.preempt (s.blocking mask)).startIdle r b mask limit
      else s := by
  simp only [State.tryStart, hp]
  split
  case h_1 n hidle hfree =>
    exact absurd ((s.axesFree_iff mask).mp hfree) (hb n (State.lowestIdle_of_idleLane hidle))
  case h_2 => rfl

theorem State.tryStart_exercise (hp : s.store.playable r.showNo = some (b, mask, limit)) (hx : s.ExerciseHolds mask) :
    s.tryStart r = s := by
  have hb (n : LaneNo) (_ : LowestIdle s n) (hf : s.AxesFree mask) : False := by
    obtain ⟨a, ha, hc⟩ := hx
    rw [hf a ha] at hc
    cases hc
  rw [State.tryStart_blocked hp hb, if_pos ((s.exerciseHolds_iff mask).mpr hx)]

/-- Where every lane is DRAINING there is no victim. -/
theorem State.tryStart_draining (hs : s.StartsApart) (hp : s.store.playable r.showNo = some (b, mask, limit))
    (hd : ∀ n, ∃ x, (s.lane n).run = some x ∧ x.phase = .draining) : s.tryStart r = s := by
  have hbusy (n : LaneNo) : (s.lane n).run ≠ none := by
    obtain ⟨x, hx, _⟩ := hd n
    rw [hx]
    exact nofun
  have hidle : s.idleLane = none := s.idleLane_none_iff.mpr hbusy
  have hvictim : s.victim = none := (State.victim_none_iff hs).mpr fun n y hy => by
    obtain ⟨x, hx, hphase⟩ := hd n
    exact hy.2 (Option.some.inj (hx.symm.trans hy.1) ▸ hphase)
  rw [State.tryStart_blocked hp fun n hn => absurd hn.1 (hbusy n), hidle, hvictim]
  exact ite_self s

theorem State.tryStart_outranked (hp : s.store.playable r.showNo = some (b, mask, limit))
    (hb : ∀ n, LowestIdle s n → ¬s.AxesFree mask) (hall : ¬(s.blocking mask).all (s.below r.priority) = true) :
    s.tryStart r = s := by
  rw [State.tryStart_blocked hp hb, if_neg hall, ite_self, ite_self]

theorem State.tryStart_preempts {n : LaneNo} (hp : s.store.playable r.showNo = some (b, mask, limit))
    (hb : ∀ n, LowestIdle s n → ¬s.AxesFree mask) (hx : ¬s.ExerciseHolds mask)
    (hv : s.idleLane = none → s.victim ≠ none) (hall : (s.blocking mask).all (s.below r.priority) = true)
    (hn : LowestIdle (s.preempt (s.blocking mask)) n) :
    s.tryStart r = (s.preempt (s.blocking mask)).startRun n r b mask limit := by
  have hsome : ¬(s.idleLane.isNone && s.victim.isNone) = true := by
    simpa [Option.isSome_iff_ne_none] using hv
  rw [State.tryStart_blocked hp hb, if_neg (mt (s.exerciseHolds_iff mask).mp hx), if_neg hsome, if_pos hall,
    State.startIdle_of hn]

/-- Settles O33: the walk folds the test of one request over the queue, and each test of R49 decides where the one before it
does not. -/
theorem walkStartsRequests : Obligations.WalkStartsRequests := by
  refine ⟨fun s => State.walk_held, fun s => State.walk_free, fun s r b mask limit hp hs => ?_⟩
  refine ⟨fun n hn hf => State.tryStart_free hp hn hf, State.tryStart_exercise hp, State.tryStart_draining hs hp,
    fun n x hb hblocks hrun hle => ?outranked, fun hb hx hsome hall => ?preempts⟩
  case outranked =>
    refine State.tryStart_outranked hp hb fun hbelow => ?_
    have hlt := List.all_eq_true.mp hbelow n ((State.mem_blocking hs mask n).mpr hblocks)
    rw [State.below_iff hrun] at hlt
    omega
  case preempts =>
    obtain ⟨m, hm⟩ := hsome
    obtain ⟨y, hy⟩ := active_of_blocks hm
    have hbelow : (s.blocking mask).all (s.below r.priority) = true := by
      refine List.all_eq_true.mpr fun k hk => ?_
      have hk := (State.mem_blocking hs mask k).mp hk
      obtain ⟨x, hx⟩ := active_of_blocks hk
      exact (State.below_iff hx.1 _).mpr (hall k x hk hx.1)
    have hended : ((s.preempt (s.blocking mask)).lane m).run = none := by
      rw [State.preempt_lane, if_pos ((State.mem_blocking hs mask m).mpr hm)]
    obtain ⟨n, hn⟩ := State.exists_lowestIdle hended
    exact ⟨s.blocking mask, s.preempt (s.blocking mask), n, State.mem_blocking hs mask, s.blocking_pairwise mask, rfl, hn,
      State.tryStart_preempts hp hb (fun ⟨a, ha, hc⟩ => hx a ha hc)
        (fun _ hnone => (State.victim_none_iff hs).mp hnone m y hy) hbelow hn⟩

end Sys2Proof.Machine
end

section
/-! SUPPORT. What takes a lane on (R60, R64, R65, R73): the timer, what the lane finds at its cursor, the wait deadline, and the
axes of a wait at rest. -/
namespace Sys2Proof.Machine

/-! ## Counts and axes at rest -/

theorem satInc_of_lt {n : Nat} (h : n < 65535) : satInc n = n + 1 := if_pos h

theorem satInc_top : satInc 65535 = 65535 := if_neg (Nat.lt_irrefl _)

theorem Axis.isFault_iff (x : Axis) : x.isFault = true ↔ ∃ c, x.mode = .fault c := by
  unfold Axis.isFault Axis.faultCause
  cases x.mode <;> simp

theorem State.allAtRest_iff (s : State) (set : BitVec 12) :
    s.allAtRest set = true ↔ ∀ a : AxisNo, set.getLsbD a.val = true → (s.axis a).mode.moving = false := by
  simp [State.allAtRest, AxisMode.atRest, mem_maskAxes, inMask]

/-- An axis of a set is in FAULT. -/
def State.AnyFault (s : State) (set : BitVec 12) : Prop :=
  ∃ (a : AxisNo) (c : AxisFaultCause), set.getLsbD a.val = true ∧ (s.axis a).mode = .fault c

theorem State.anyFault_iff (s : State) (set : BitVec 12) :
    ((maskAxes set).any fun a => (s.axis a).isFault) = true ↔ s.AnyFault set := by
  simp [State.AnyFault, mem_maskAxes, inMask, Axis.isFault_iff]

theorem State.restResult_faulted {s : State} {set : BitVec 12} (h : s.AnyFault set) : s.restResult set = .faulted :=
  if_pos ((s.anyFault_iff set).mpr h)

theorem State.restResult_ok {s : State} {set : BitVec 12} (h : ¬s.AnyFault set) : s.restResult set = .ok :=
  if_neg (mt (s.anyFault_iff set).mp h)

theorem State.restResult_faulted_iff (s : State) (set : BitVec 12) :
    s.restResult set = .faulted ↔ s.AnyFault set := by
  refine ⟨fun hfaulted => by_contra fun hnone => ?_, State.restResult_faulted⟩
  rw [State.restResult_ok hnone] at hfaulted
  cases hfaulted

/-! ## What the lane finds at its cursor -/

theorem ite_reached {α : Type} (t now : Instant) (a b : α) :
    (if reached t now = true then a else b) = if before now t = true then b else a := by
  cases hb : before now t <;> simp [reached, hb]

theorem nextReady_eq (s : State) (r : Run) : readyInstant (NextStep s r) (NextDue s r) = NextReady s r :=
  readyInstant_decodeStep _ _

/-- A step not ready sets the timer; the 64th of delta 0 in a row ends the run; any other ready step is taken. -/
theorem State.lookStep_running {s : State} {n : LaneNo} {r : Run} (h : (s.lane n).run = some r) (hp : r.phase = .running) :
    s.lookStep n =
      if before s.now (NextReady s r) = true then
        (s.setRun n { r with due := NextDue s r, timer := some (NextReady s r) }, false)
      else if NextDelta s r = 0 ∧ 63 ≤ r.zeroCount then ((s.endRun n .badStep).walk, false)
      else s.takeStep n { r with
        due := NextDue s r, base := NextDue s r
        zeroCount := if NextDelta s r = 0 then r.zeroCount + 1 else 0 } (NextStep s r) (NextDue s r) := by
  have hguard : NextDelta s r = 0 ∧ 64 ≤ r.zeroCount + 1 ↔ NextDelta s r = 0 ∧ 63 ≤ r.zeroCount :=
    and_congr_right fun _ => Nat.succ_le_succ_iff
  rw [← nextReady_eq, ← if_congr hguard rfl rfl]
  simp only [State.lookStep, h]
  rw [if_pos hp]
  exact ite_reached _ _ _ _

/-- One more step: the lane goes on from what it finds, or stops there. -/
theorem State.stepTimes_succ (s : State) (n : LaneNo) (more : Nat) : s.stepTimes n (more + 1) =
    if (s.lookStep n).2 = true then (s.lookStep n).1.stepTimes n more else (s.lookStep n).1 := by
  rw [State.stepTimes]
  split
  · next hlook => rw [hlook]; rfl
  · next hlook => rw [hlook]; rfl

/-! ## The timer -/

theorem exec_laneTimerExpiry_early {s : State} {n : LaneNo} (h : ¬EventDue s (.laneTimerExpiry n)) :
    exec (.laneTimerExpiry n) s = .next s :=
  congrArg Host.Outcome.next (if_neg (mt (s.timerDue_iff n).mp h))

theorem exec_laneTimerExpiry_due {s : State} {n : LaneNo} (h : EventDue s (.laneTimerExpiry n)) :
    exec (.laneTimerExpiry n) s = .next (s.runSteps n) :=
  congrArg Host.Outcome.next (if_pos ((s.timerDue_iff n).mpr h))

theorem laneTimers : LaneTimers := by
  refine ⟨fun s n => ⟨fun hearly => ?early, fun r t hrun hp ht hdue => ?due⟩, fun s n => rfl,
    fun s n r more hrun hp => ⟨fun hearly => ?notReady, fun hready hzero hcount => ?runaway, fun hready hfew => ?taken⟩⟩
  case early =>
    refine exec_laneTimerExpiry_early ?_
    rintro ⟨r, t, hrun, hp, ht, hdue⟩
    rw [hearly r t hrun hp ht] at hdue
    cases hdue
  case due => exact exec_laneTimerExpiry_due ⟨r, t, hrun, hp, ht, hdue⟩
  case notReady => simp [State.stepTimes_succ, State.lookStep_running hrun hp, hearly]
  case runaway => simp [State.stepTimes_succ, State.lookStep_running hrun hp, hready, hzero, hcount]
  case taken =>
    have hlook := State.lookStep_running hrun hp
    rw [hready, if_neg Bool.false_ne_true, if_neg hfew] at hlook
    rw [State.stepTimes_succ, hlook]

/-! ## Waits -/

section Waits

variable {s : State} {n : LaneNo} {r : Run} {set : BitVec 12} {deadline : Instant}

theorem State.deadlineDue_none (h : ¬EventDue s (.waitDeadlineExpiry n)) : s.deadlineDue n = none :=
  Option.not_isSome_iff_eq_none.mp (mt (s.deadlineDue_iff n).mp h)

theorem State.deadlineDue_some (h : (s.lane n).run = some r) (hp : r.phase = .waiting set deadline)
    (hdue : before s.now deadline = false) : s.deadlineDue n = some r := by
  simp [State.deadlineDue, h, hp, reached_iff, hdue]

theorem State.waitReview_waiting (h : (s.lane n).run = some r) (hp : r.phase = .waiting set deadline) (a : AxisNo) :
    s.waitReview a n =
      if set.getLsbD a.val = true ∧ s.allAtRest set = true then s.endWait n r (s.restResult set) else s := by
  simp only [State.waitReview, h, hp]
  rfl

end Waits

theorem laneWaits : LaneWaits := by
  refine ⟨fun s n => ⟨fun hearly => ?early, fun r set deadline hrun hp hdue => ?timeout⟩, fun n => satInc_of_lt, satInc_top,
    fun s n a r set deadline hrun hp => ?review⟩
  case early =>
    have hnot : ¬EventDue s (.waitDeadlineExpiry n) := by
      rintro ⟨r, set, deadline, hrun, hp, hdue⟩
      rw [hearly r set deadline hrun hp] at hdue
      cases hdue
    simp only [exec, execWaitDeadlineExpiry, State.deadlineDue_none hnot]
  case timeout =>
    simp only [exec, execWaitDeadlineExpiry, State.deadlineDue_some hrun hp hdue]
    rfl
  case review =>
    rw [State.waitReview_waiting hrun hp]
    refine ⟨fun hstays => if_neg ?stays, fun hin hrested => ⟨s.restResult set, ?faulted, fun hok => ?ok,
      if_pos ⟨hin, (s.allAtRest_iff set).mpr hrested⟩⟩⟩
    case stays =>
      rintro ⟨hin, hrested⟩
      rcases hstays with hout | hmoving
      · rw [hin] at hout
        cases hout
      · exact hmoving ((s.allAtRest_iff set).mp hrested)
    case faulted => exact s.restResult_faulted_iff set
    case ok => exact State.restResult_ok (mt State.restResult_faulted hok)

/-- Settles O35: the timer and the deadline act when they are due, and each step is what the lane finds at its cursor; a wait
reviewed ends when every axis of its set is at rest. -/
theorem lanesStep : Obligations.LanesStep := ⟨laneTimers, laneWaits⟩

end Sys2Proof.Machine
end

section
/-! SUPPORT. What a lane does with each kind of step (R61 … R72): axis steps given or skipped, the wait set, the flags, the
conditions of BRANCH; and SET_FLAGS (R56). -/
namespace Sys2Proof.Machine

/-! ## The mask of the axes with a property -/

/-- The number whose bits are the values of p. -/
def bitSum {n : Nat} (p : Fin n → Bool) : Nat :=
  (indexes n).foldl (fun acc a => if p a then acc + 2 ^ a.val else acc) 0

theorem maskOf_eq (p : AxisNo → Bool) : maskOf p = BitVec.ofNat 12 (bitSum p) := rfl

theorem bitSum_succ {n : Nat} (p : Fin (n + 1) → Bool) :
    bitSum p = if p (Fin.last n) then 2 ^ n + bitSum (fun i => p i.castSucc) else bitSum fun i => p i.castSucc := by
  simp [bitSum, indexes, List.finRange_succ_last, List.foldl_map, Nat.add_comm]

theorem bitSum_lt : ∀ {n : Nat} (p : Fin n → Bool), bitSum p < 2 ^ n
  | 0, _ => Nat.one_pos
  | n + 1, p => by
    have hlow := bitSum_lt fun i => p i.castSucc
    rw [bitSum_succ, Nat.pow_succ]
    split <;> omega

theorem testBit_bitSum : ∀ {n : Nat} (p : Fin n → Bool) (i : Fin n), (bitSum p).testBit i.val = p i
  | n + 1, p, i => by
    have hlow := bitSum_lt fun i => p i.castSucc
    rw [bitSum_succ]
    cases i using Fin.lastCases with
    | last =>
      cases hp : p (Fin.last n) with
      | true => simp [Nat.testBit_two_pow_add_eq, Nat.testBit_lt_two_pow hlow]
      | false => simp [Nat.testBit_lt_two_pow hlow]
    | cast i =>
      have ih := testBit_bitSum (fun i => p i.castSucc) i
      split
      · exact (Nat.testBit_two_pow_add_gt i.isLt _).trans ih
      · exact ih

theorem inMask_maskOf (p : AxisNo → Bool) (a : AxisNo) : inMask (maskOf p) a = p a := by
  rw [inMask, maskOf_eq, BitVec.getLsbD_ofNat, testBit_bitSum]
  simp [a.isLt]

theorem inMask_axisMaskOf (m : Half) (a : AxisNo) : inMask (axisMaskOf m) a = m.getLsbD a.val := by
  rw [inMask, axisMaskOf_eq, BitVec.getLsbD_setWidth]
  simp [a.isLt]

theorem State.mem_waitSet (s : State) (n : LaneNo) (mask : Half) (a : AxisNo) :
    (s.waitSet n (axisMaskOf mask)).getLsbD a.val = true ↔ mask.getLsbD a.val = true ∧ s.claim a = some (.lane n) := by
  change inMask (s.waitSet n (axisMaskOf mask)) a = true ↔ _
  simp [State.waitSet, inMask_maskOf, inMask_axisMaskOf]

/-! ## A wire number as a table index -/

theorem index?_eq_some_iff {n x : Nat} {i : Fin n} : index? n x = some i ↔ i.val = x := by
  refine ⟨fun h => ?_, fun h => h ▸ index?_val i⟩
  by_cases hx : x < n
  · rw [index?_of_lt hx] at h
    cases h
    rfl
  · rw [index?_of_le (Nat.not_lt.mp hx)] at h
    cases h

theorem index?_eq_none_iff {n x : Nat} : index? n x = none ↔ ∀ i : Fin n, i.val ≠ x := by
  simp [Option.eq_none_iff_forall_ne_some, index?_eq_some_iff]

/-! ## BRANCH -/

theorem Bell.isDisabled_false_iff (b : Bell) : b.isDisabled = false ↔ ∀ c, b.state ≠ .disabled c := by
  unfold Bell.isDisabled
  cases b.state <;> simp

/-- The condition is tested on the counter as it is after the decrement (R69, R70). -/
theorem State.holds_iff (s : State) (r : Run) (counter : Nat) (argument : Half) (x : Condition) :
    s.holds { r with counter := counter } (some x) argument = true ↔ Holds s r counter argument x := by
  cases x with
  | settled => simp [State.holds, Holds, mem_maskAxes, inMask_axisMaskOf]
  | axisFault =>
    simp only [State.holds, Holds]
    split
    · next a ha => simp [← index?_eq_some_iff, ha, Axis.isFault_iff]
    · next hnone => simp [index?_eq_none_iff.mp hnone]
  | bellOk =>
    simp only [State.holds, Holds]
    split
    · next b hb => simp [← index?_eq_some_iff, hb, Bell.isDisabled_false_iff]
    · next hnone => simp [index?_eq_none_iff.mp hnone]
  | _ => simp [State.holds, Holds]

theorem followed_iff (sense : Nat) (b : Bool) :
    followed sense b = true ↔ (sense = 0 ∧ b = true) ∨ (sense ≠ 0 ∧ ¬b = true) := by
  unfold followed
  split <;> simp [*]

theorem State.followed_holds_iff (s : State) (r : Run) (counter sense : Nat) (argument : Half) (x : Condition) :
    followed sense (s.holds { r with counter := counter } (some x) argument) = true ↔
      (sense = 0 ∧ Holds s r counter argument x) ∨ (sense ≠ 0 ∧ ¬Holds s r counter argument x) := by
  rw [followed_iff, State.holds_iff]

section Steps

variable (s : State) (n : LaneNo) (r : Run) (due : Instant)

theorem State.takeStep_branch {code : Nat} {x : Condition} (hx : conditionOf code = some x) (sense : Nat) (argument : Half)
    (target : Nat) :
    let counter := if x = .count then r.counter - 1 else r.counter
    s.takeStep n r (.branch sense code argument target) due = (s.setRun n { r with
      counter := counter
      cursor := if followed sense (s.holds { r with counter := counter } (some x) argument) then r.executing.first + target
        else r.cursor + 1 }, true) := by
  simp [State.takeStep, hx, counterAfter]

/-! ## Axis steps -/

section AxisSteps

variable {s n} {a : AxisNo} {form : Option Bool} {m : Option MotionCommand}

theorem State.laneCommand_some (s : State) (n : LaneNo) (a : AxisNo) (form : Option Bool) (c : MotionCommand) :
    s.laneCommand n a.val form (some c) =
      if s.claim a = some (.lane n) ∧ (s.axis a).mode.enabled = true ∧ (s.axis a).fitsForm form = true then
        (s.commandAxis a c).map fun answer => (answer.1, answer.2.1)
      else none := by
  simp only [State.laneCommand, index?_val]

theorem State.laneCommand_given {c : MotionCommand} {t : State} {limited settled : Bool}
    (howns : s.claim a = some (.lane n)) (henabled : (s.axis a).mode.enabled = true)
    (hfits : (s.axis a).fitsForm form = true) (hc : s.commandAxis a c = some (t, limited, settled)) :
    s.laneCommand n a.val form (some c) = some (t, limited) := by
  rw [State.laneCommand_some, if_pos ⟨howns, henabled, hfits⟩, hc]
  rfl

theorem State.laneCommand_skipped (h : s.claim a ≠ some (.lane n) ∨ (s.axis a).mode.enabled = false
    ∨ (s.axis a).fitsForm form = false ∨ m = none ∨ ∃ c, m = some c ∧ s.commandAxis a c = none) :
    s.laneCommand n a.val form m = none := by
  cases m with
  | none => simp only [State.laneCommand, index?_val]
  | some c =>
    rw [State.laneCommand_some]
    refine ite_eq_right_iff.mpr ?_
    rintro ⟨howns, henabled, hfits⟩
    have hrefused : s.commandAxis a c = none := by simpa [howns, henabled, hfits] using h
    rw [hrefused]
    rfl

variable {r due} {step : Step} {axis : Nat}

theorem State.takeStep_given (h : axisStep step = some (axis, form, m)) {t : State} {limited : Bool}
    (hc : s.laneCommand n axis form m = some (t, limited)) : s.takeStep n r step due = (t.setRun n { r with
      cursor := r.cursor + 1
      record := if limited then { r.record with targetsLimited := satInc r.record.targetsLimited } else r.record },
      true) := by
  cases step with
  | move | spin | stop | follow =>
    simp only [State.takeStep, h, hc]
    rfl
  | _ => cases h

theorem State.takeStep_skipped (h : axisStep step = some (axis, form, m)) (hc : s.laneCommand n axis form m = none) :
    s.takeStep n r step due = (s.setRun n { r with
      cursor := r.cursor + 1, record := { r.record with axisSkipped := satInc r.record.axisSkipped } }, true) := by
  cases step with
  | move | spin | stop | follow =>
    simp only [State.takeStep, h, hc]
    rfl
  | _ => cases h

end AxisSteps

/-! ## WAIT_AXIS -/

theorem State.takeStep_waitAxis_moving {mask : Half}
    (h : ∃ a : AxisNo, (s.waitSet n (axisMaskOf mask)).getLsbD a.val = true ∧ (s.axis a).mode.moving = true)
    (timeout : Nat) : s.takeStep n r (.waitAxis mask timeout) due = (s.setRun n { r with
      phase := .waiting (s.waitSet n (axisMaskOf mask)) (due + micros (timeout * 1000))
      timer := none, zeroCount := 0 }, false) := by
  have hnot : ¬s.allAtRest (s.waitSet n (axisMaskOf mask)) = true := fun hrest => by
    obtain ⟨a, hin, hmoving⟩ := h
    rw [(s.allAtRest_iff _).mp hrest a hin] at hmoving
    cases hmoving
  simp only [State.takeStep]
  exact if_neg hnot

theorem State.takeStep_waitAxis_rested {mask : Half}
    (h : ∀ a : AxisNo, (s.waitSet n (axisMaskOf mask)).getLsbD a.val = true → (s.axis a).mode.moving = false)
    (timeout : Nat) : s.takeStep n r (.waitAxis mask timeout) due = (s.setRun n { r with
      lastWait := s.restResult (s.waitSet n (axisMaskOf mask)), base := due, phase := .running
      cursor := r.cursor + 1 }, true) := by
  simp only [State.takeStep]
  exact if_pos ((s.allAtRest_iff _).mpr h)

/-! ## SET_FLAG and COUNT_SET -/

/-- The flags with one of them set or cleared (R66). -/
def flagsWith (flags : BitVec 8) (flag value : Nat) : BitVec 8 :=
  if value = 0 then flags &&& ~~~(1#8 <<< flag) else flags ||| 1#8 <<< flag

theorem State.takeStep_setFlag (flag value : Nat) : s.takeStep n r (.setFlag flag value) due =
    ({ s.setRun n { r with cursor := r.cursor + 1 } with
        sched := { s.sched with flags := flagsWith s.sched.flags flag value } }, true) := rfl

theorem getLsbD_flagsWith (flags : BitVec 8) (flag : Fin 8) (value : Nat) (i : Fin 8) :
    (flagsWith flags flag.val value).getLsbD i.val = if i = flag then decide (value ≠ 0) else flags.getLsbD i.val := by
  have hbit : (1#8 <<< flag.val).getLsbD i.val = decide (i = flag) := by
    revert flag i
    decide
  unfold flagsWith
  split
  · next hv =>
    rw [BitVec.getLsbD_and, BitVec.getLsbD_not, hbit]
    by_cases hi : i = flag <;> simp [hi, hv, i.isLt]
  · next hv =>
    rw [BitVec.getLsbD_or, hbit]
    by_cases hi : i = flag <;> simp [hi, hv]

theorem State.takeStep_countSet {source value counter : Nat}
    (h : countValue s.cal.time source value r.counter = counter) : s.takeStep n r (.countSet source value) due =
      (s.setRun n { r with cursor := r.cursor + 1, counter := counter }, true) := by
  subst h
  rfl

/-! ## CALL and RETURN -/

variable {s r}

theorem State.takeStep_call_some {entry : Nat} {b : Block} (h : s.store.phrase entry = some b) :
    s.takeStep n r (.call entry) due = (s.setRun n { r with
      returnPoint := some (r.cursor + 1), executing := ⟨entry, true, b.first, b.count⟩, cursor := b.first }, true) := by
  simp only [State.takeStep, h]

theorem State.takeStep_call_none {entry : Nat} (h : s.store.phrase entry = none) :
    s.takeStep n r (.call entry) due = (((s.setRun n r).endRun n .noPhrase).walk, false) := by
  simp only [State.takeStep, h]
  rfl

theorem State.takeStep_return {back : Nat} (h : r.returnPoint = some back) : s.takeStep n r .returnStep due =
    (s.setRun n { r with cursor := back, executing := r.shown, returnPoint := none }, true) := by
  simp only [State.takeStep, h]

end Steps

/-- Settles O36: each kind of step by its own lemma; an END releases the claims, and walks the queue once after the lane is
DRAINING or IDLE. -/
theorem stepsTaken : Obligations.StepsTaken := by
  refine ⟨fun s n r due => ?steps, State.releaseClaims_claim, fun s tag flags htakes => next_taken htakes⟩
  refine ⟨fun b velocity => ?strike, fun axis form m step hstep howns hen hfits t limited settled hc =>
      State.takeStep_given hstep (State.laneCommand_given howns hen hfits hc),
    fun axis form m step hstep hskip => State.takeStep_skipped hstep (State.laneCommand_skipped hskip),
    fun mask timeout => ⟨s.waitSet n (axisMaskOf mask), s.mem_waitSet n mask,
      fun hmoving => s.takeStep_waitAxis_moving n r due hmoving timeout,
      fun hrested => ⟨fun hfault => ?faulted, fun hnone => ?ok⟩⟩,
    fun flag value => ⟨_, s.takeStep_setFlag n r due flag.val value, getLsbD_flagsWith s.sched.flags flag value⟩,
    fun source value counter hsource => s.takeStep_countSet n r due ?counted,
    fun sense code x argument target hx => ?branch,
    fun entry => ⟨fun b hb => State.takeStep_call_some n due hb, State.takeStep_call_none n due⟩,
    fun back hback => State.takeStep_return n due hback, rfl⟩
  case strike => simp only [State.takeStep, index?_val, Run.advanced]
  case faulted =>
    rw [s.takeStep_waitAxis_rested n r due hrested, State.restResult_faulted hfault]
  case ok =>
    have hok : ¬s.AnyFault (s.waitSet n (axisMaskOf mask)) := fun ⟨a, c, hin, hfault⟩ => hnone a c hin hfault
    rw [s.takeStep_waitAxis_rested n r due hrested, State.restResult_ok hok]
  case counted => rcases hsource with ⟨rfl, rfl⟩ | ⟨rfl, rfl⟩ | ⟨rfl, rfl⟩ | ⟨rfl, rfl⟩ <;> rfl
  case branch =>
    dsimp only
    rw [s.takeStep_branch n r due hx, ← s.followed_holds_iff]
    exact ⟨fun hgoes => by rw [if_pos hgoes], fun hstays => by rw [if_neg hstays]⟩

end Sys2Proof.Machine
end

section
/-! SUPPORT. Strike arithmetic (R77 to R81): the values a strike is given, and the ranges in which they lie. -/
namespace Sys2Proof.Machine

/-- A share e / n of d, rounded by adding r before the division, is at most d. -/
theorem roundedShare_le {d e r n : Nat} (he : e ≤ n) (hr : r < n) : (d * e + r) / n ≤ d := by
  refine Nat.le_of_lt_succ ((Nat.div_lt_iff_lt_mul (by omega)).mpr ?_)
  calc d * e + r ≤ d * n + r := Nat.add_le_add_right (Nat.mul_le_mul_left d he) r
    _ < d * n + n := Nat.add_lt_add_left hr _
    _ = (d + 1) * n := (Nat.succ_mul d n).symm

theorem curvePoint_val (curve : Vector Nat 17) (i : Fin 17) : curvePoint curve i.val = tget curve i := by
  simp only [curvePoint, index?_val]

theorem loudness_eq (curve : Vector Nat 17) {ve : Nat} {i j : Fin 17} (hi : i.val = ve / 128) (hj : j.val = i.val + 1) :
    loudness curve ve = tget curve i + ((tget curve j - tget curve i) * (ve % 128) + 64) / 128 := by
  simp only [loudness, ← hi, ← hj, curvePoint_val]

/-- On a lawful curve E lies between two of its points, and so within the scale. -/
theorem loudness_le {curve : Vector Nat 17} {ve : Nat} (hve : ve < 2048) (htop : ∀ i, tget curve i ≤ 4096)
    (hrise : ∀ i j, i ≤ j → tget curve i ≤ tget curve j) : loudness curve ve ≤ 4096 := by
  obtain ⟨i, hi⟩ : ∃ i : Fin 17, i.val = ve / 128 := ⟨⟨ve / 128, by omega⟩, rfl⟩
  obtain ⟨j, hj⟩ : ∃ j : Fin 17, j.val = i.val + 1 := ⟨⟨i.val + 1, by omega⟩, rfl⟩
  have hij : tget curve i ≤ tget curve j := hrise i j (Fin.le_def.mpr (by omega))
  have hshare : ((tget curve j - tget curve i) * (ve % 128) + 64) / 128 ≤ tget curve j - tget curve i :=
    roundedShare_le (Nat.le_of_lt (Nat.mod_lt ve (by decide))) (by decide)
  have hj' := htop j
  rw [loudness_eq curve hi hj]
  omega

theorem pulseWidth_bounds {b : Bell} {e : Nat} (hb : b.pmin ≤ b.pmax) (he : e ≤ 4096) :
    b.pmin ≤ pulseWidth b e ∧ pulseWidth b e ≤ b.pmax := by
  have hshare : ((b.pmax - b.pmin) * e + 2048) / 4096 ≤ b.pmax - b.pmin := roundedShare_le he (by decide)
  unfold pulseWidth
  omega

theorem flightTime_eq (k ve : Nat) : flightTime k ve = max 1000 (min 100000 (k * 16 / ve)) := by
  unfold flightTime flightQuotient
  generalize k * 16 / ve = q
  dsimp only
  split
  · omega
  · split <;> omega

theorem flightClipped_iff (k ve : Nat) : flightClipped k ve = true ↔ k * 16 / ve < 1000 ∨ 100000 < k * 16 / ve := by
  rw [flightClipped, Bool.or_eq_true, decide_eq_true_eq, decide_eq_true_eq]
  rfl

/-- The level product is at most 10,000 and v at most 127, so ve16 is at most 16 times 127. -/
theorem effectiveVelocity_le {level master v : Nat} (hl : level ≤ 100) (hm : master ≤ 100) (hv : v ≤ 127) :
    effectiveVelocity v (level * master) ≤ 2032 := by
  have hproduct : v * (level * master) ≤ 127 * (100 * 100) := Nat.mul_le_mul hv (Nat.mul_le_mul hl hm)
  unfold effectiveVelocity
  omega

theorem StrikeUnit.compute_suppressed {u : StrikeUnit} {level : Nat} {b : Bell} {v : Nat}
    (h : effectiveVelocity v (level * u.master) < 16) : u.compute level b v = none := if_pos h

theorem StrikeUnit.compute_sounding {u : StrikeUnit} {level : Nat} {b : Bell} {v : Nat}
    (h : 16 ≤ effectiveVelocity v (level * u.master)) :
    let ve := effectiveVelocity v (level * u.master)
    u.compute level b v = some ⟨pulseWidth b (loudness u.curve ve), flightTime b.k ve, flightClipped b.k ve⟩ :=
  if_neg (Nat.not_lt.mpr h)

/-- Settles O37: the values are computed as R77 to R81 say; W lies in its range because E is on the scale, and T because its
quotient is bounded. -/
theorem strikeValues : Obligations.StrikeValues := by
  intro u level b v ve
  refine ⟨StrikeUnit.compute_suppressed, fun hve => ⟨_, StrikeUnit.compute_sounding hve, fun i j hi hj => ?pulse,
    flightTime_eq b.k ve, flightClipped_iff b.k ve, ?least, ?most, fun hlow hb htop hrise => ?range⟩,
    effectiveVelocity_le⟩
  case pulse => exact congrArg (pulseWidth b) (loudness_eq u.curve hi hj)
  case least => exact (StrikeUnit.compute_flight (StrikeUnit.compute_sounding hve)).1
  case most => exact (StrikeUnit.compute_flight (StrikeUnit.compute_sounding hve)).2
  case range => exact pulseWidth_bounds hb (loudness_le hlow htop hrise)

end Sys2Proof.Machine
end

section
/-! SUPPORT. The curve and the three settings of the strike unit (R89, R90): SET_CURVE and SET_LEVEL. -/
namespace Sys2Proof.Machine

variable {s : State}

/-! ## The resets -/

theorem State.hardReset_strikes (s : State) (baud : BitVec 2) : (s.hardReset baud).strikes = StrikeUnit.reset := rfl

theorem State.softReset_strikes (s : State) : s.softReset.strikes = s.strikes.softReset := rfl

/-! ## SET_CURVE -/

/-- The neighbours of a list are its pairs of entries i and i + 1. -/
theorem mem_zip_tail_iff {α : Type} {l : List α} {x y : α} :
    (x, y) ∈ l.zip l.tail ↔ ∃ i : Nat, l[i]? = some x ∧ l[i + 1]? = some y := by
  simp only [List.mem_iff_getElem?, List.getElem?_zip_eq_some, List.getElem?_tail]

theorem curveInRange_iff (points : List Half) : curveInRange (points.map BitVec.toNat) = true ↔
    (∀ p ∈ points, p.toNat ≤ 4096)
      ∧ ∀ (i : Nat) (p q : Half), points[i]? = some p → points[i + 1]? = some q → p.toNat ≤ q.toNat := by
  have hneighbours : (points.map BitVec.toNat).zip (points.map BitVec.toNat).tail
      = (points.zip points.tail).map fun x => (x.1.toNat, x.2.toNat) := by
    rw [← List.map_tail, List.zip_map]
    rfl
  simp only [curveInRange, Bool.and_eq_true, hneighbours, List.all_map, List.all_eq_true, Function.comp_apply,
    decide_eq_true_eq, Prod.forall, mem_zip_tail_iff]
  exact and_congr_right fun _ => ⟨fun h i p q hp hq => h p q ⟨i, hp, hq⟩, fun h p q ⟨i, hp, hq⟩ => h i p q hp hq⟩

/-- The curve that seventeen points spell. -/
def curveOf (points : List Half) : Vector Nat 17 := Vector.ofFn fun i => (points.map BitVec.toNat).getD i.val 0

theorem tget_curveOf {points : List Half} {i : Fin 17} {p : Half} (h : points[i.val]? = some p) :
    tget (curveOf points) i = p.toNat := by
  simp [curveOf, h]

theorem State.writeCurve_ok (tag : Byte) {points : List Half} (h : curveInRange (points.map BitVec.toNat) = true) :
    s.writeCurve tag (points.map BitVec.toNat) =
      { s with strikes := { s.strikes with curve := curveOf points } }.reply tag 0x2B .ok := if_pos h

theorem State.writeCurve_badArg (tag : Byte) {points : List Half}
    (h : ¬curveInRange (points.map BitVec.toNat) = true) :
    s.writeCurve tag (points.map BitVec.toNat) = s.reply tag 0x2B .badArg := if_neg h

/-- Settles O42: the test of SET_CURVE is R89's on the points and on each two neighbours, and the curve written is the one
the points spell. -/
theorem curveWritten : Obligations.CurveWritten := by
  refine ⟨fun s baud i => ?hard, fun s => ?soft,
    fun s tag points htakes _ => ?set⟩
  case hard => rw [State.hardReset_strikes]; exact tget_ofFn _ i
  case soft => rw [State.softReset_strikes, StrikeUnit.softReset]
  case set =>
    have hexec : exec (.setCurve tag points) s = .next (s.writeCurve tag (points.map BitVec.toNat)) := next_taken htakes
    rw [hexec, ← curveInRange_iff]
    exact ⟨fun hbad => congrArg _ (State.writeCurve_badArg tag hbad),
      fun hgood => ⟨_, congrArg _ (State.writeCurve_ok tag hgood), fun _ _ => tget_curveOf⟩⟩

/-! ## SET_LEVEL -/

section
variable {tag : Byte} {master emax tau : Nat}

/-- The three settings are in range (R90). -/
def levelInRange (master emax tau : Nat) : Prop := master ≤ 100 ∧ 1 ≤ emax ∧ emax ≤ 8 ∧ tau ≤ 100000

theorem levelOutOfRange_iff : (100 < master ∨ emax < 1 ∨ 8 < emax ∨ 100000 < tau) ↔ ¬levelInRange master emax tau := by
  unfold levelInRange
  omega

/-- The settings written, with the reply. -/
def State.withLevel (s : State) (tag : Byte) (master emax tau : Nat) : State :=
  { s with strikes := { s.strikes with master := master, emax := emax, tau := tau } }.reply tag 0x2C .ok

theorem State.writeLevel_badArg (h : ¬levelInRange master emax tau) :
    s.writeLevel tag master emax tau = s.reply tag 0x2C .badArg := if_pos (levelOutOfRange_iff.mpr h)

theorem State.writeLevel_busy (h : levelInRange master emax tau) (hfiring : emax < s.strikes.firing) :
    s.writeLevel tag master emax tau = s.reply tag 0x2C .busy := by
  rw [State.writeLevel, if_neg fun hout => levelOutOfRange_iff.mp hout h, if_pos hfiring]

theorem State.writeLevel_ok (h : levelInRange master emax tau) (hfiring : s.strikes.firing ≤ emax) :
    s.writeLevel tag master emax tau =
      if s.strikes.emax < emax then (s.withLevel tag master emax tau).serve else s.withLevel tag master emax tau := by
  rw [State.writeLevel, if_neg fun hout => levelOutOfRange_iff.mp hout h, if_neg (Nat.not_lt.mpr hfiring)]
  rfl

end

/-- Settles O43: SET_LEVEL is examined in the order of R90, and serves the waiting strikes where Emax is raised. -/
theorem levelWritten : Obligations.LevelWritten := by
  refine ⟨fun s baud => ?hard, fun s => ?soft, fun s tag master emax tau htakes => ?set⟩
  case hard => rw [State.hardReset_strikes]; exact ⟨rfl, rfl, rfl⟩
  case soft => rw [State.softReset_strikes, StrikeUnit.softReset]; exact ⟨rfl, rfl, rfl⟩
  case set =>
    have hexec : exec (.setLevel tag master emax tau) s =
      .next (s.writeLevel tag master.toNat emax.toNat tau.toNat) := next_taken htakes
    rw [hexec]
    exact ⟨fun hbad => congrArg _ (State.writeLevel_badArg hbad),
      fun hgood hfew => congrArg _ (State.writeLevel_busy hgood hfew),
      fun hgood hroom hraised => congrArg _ ((State.writeLevel_ok hgood hroom).trans (if_pos hraised)),
      fun hgood hroom hkept => congrArg _ ((State.writeLevel_ok hgood hroom).trans (if_neg (Nat.not_lt.mpr hkept)))⟩

end Sys2Proof.Machine
end

section
/-! SUPPORT. The bells (R88, R104, R105): SET_BELL, BELL_ENABLE, and what disabling a bell removes and leaves. -/
namespace Sys2Proof.Machine

variable {s : State}

/-! ## Counts of owners and removals -/

/-- A count writes the record of a run and nothing else. -/
theorem State.countFor_eq (s : State) (o : Owner) (f : RunRecord → RunRecord) :
    s.countFor o f = { s with lanes := (s.countFor o f).lanes } := by
  unfold State.countFor
  split
  · split <;> rfl
  · rfl

theorem foldl_countFor_eq (f : Strike → RunRecord → RunRecord) : ∀ (l : List Strike) (s : State),
    let t := l.foldl (fun s k => s.countFor k.owner (f k)) s
    t = { s with lanes := t.lanes }
  | [], _ => rfl
  | k :: rest, s => by
    have hrest := foldl_countFor_eq f rest (s.countFor k.owner (f k))
    rw [List.foldl_cons]
    exact hrest.trans (by rw [s.countFor_eq k.owner (f k)])

theorem State.removeForBell_eq (s : State) (b : BellNo) : s.removeForBell b =
    { s.setQueue (s.strikes.queue.filter fun k => k.bell != b) with lanes := (s.removeForBell b).lanes } :=
  foldl_countFor_eq (fun _ r => { r with droppedDisabled := satInc r.droppedDisabled }) _ _

/-! ## A disabling -/

/-- All that a disabling writes: the counts of the strikes removed, the strike unit, and one latch. -/
theorem State.disableBell_eq (s : State) (b : BellNo) (cause : DisableCause) : s.disableBell b cause =
    { s with
      lanes := (s.removeForBell b).lanes
      strikes := { s.strikes with
        bells := tset s.strikes.bells b ((s.bell b).finish (.disabled cause))
        queue := s.strikes.queue.filter fun k => k.bell != b
        hammers := s.strikes.hammers &&& ~~~(hammerBit b) }
      port := { s.port with latches := { s.port.latches with
        bells := tset s.port.latches.bells b { tget s.port.latches.bells b with disabled := true } } } } := by
  unfold State.disableBell
  rw [s.removeForBell_eq]
  rfl

/-! ## SET_BELL -/

theorem bellInRange_iff (k : Long) (pmin pmax guard : Half) (window missLimit : Byte) :
    bellInRange k pmin pmax guard window missLimit = true ↔
      1000 ≤ k.toNat ∧ k.toNat ≤ 4000000 ∧ 200 ≤ pmin.toNat ∧ pmin.toNat ≤ pmax.toNat ∧ pmax.toNat ≤ 40000
        ∧ 20 ≤ guard.toNat ∧ guard.toNat ≤ 2000 ∧ 2 ≤ window.toNat ∧ window.toNat ≤ 50 ∧ missLimit.toNat ≤ 7 := by
  simp only [bellInRange, Bool.and_eq_true, decide_eq_true_eq]
  omega

section
variable {tag bell : Byte} {b : BellNo} {k : Long} {pmin pmax guard : Half} {window missLimit : Byte}

/-- R is raised over strikes that are queued for the bell (R88 step 2). -/
def State.raisesGuard (s : State) (b : BellNo) (guard : Nat) : Prop :=
  (s.bell b).guardMs < guard ∧ ∃ x ∈ s.strikes.queue, x.bell = b

theorem State.raisesGuard_iff (s : State) (b : BellNo) (guard : Nat) :
    ((s.bell b).guardMs < guard ∧ s.strikes.queue.any (·.bell == b) = true) ↔ s.raisesGuard b guard := by
  simp only [State.raisesGuard, List.any_eq_true, beq_iff_eq]

theorem State.writeBell_badArg (h : ¬(bell.toNat ≤ 31 ∧ bellInRange k pmin pmax guard window missLimit = true)) :
    s.writeBell tag bell k pmin pmax guard window missLimit = s.reply tag 0x29 .badArg := by
  by_cases hb : bell.toNat < 32
  case neg => rw [State.writeBell, index?_of_le (Nat.not_lt.mp hb)]
  case pos =>
    have hfields : (!bellInRange k pmin pmax guard window missLimit) = true :=
      Bool.not_eq_true' _ ▸ Bool.eq_false_iff.mpr fun hgood => h ⟨Nat.le_of_lt_succ hb, hgood⟩
    rw [State.writeBell, index?_of_lt hb]
    exact if_pos hfields

/-- SET_BELL for a bell that exists, with fields in range. -/
theorem State.writeBell_eq (hb : bell.toNat = b.val) (h : bellInRange k pmin pmax guard window missLimit = true) :
    s.writeBell tag bell k pmin pmax guard window missLimit =
      if (s.bell b).guardMs < guard.toNat ∧ s.strikes.queue.any (·.bell == b) = true then s.reply tag 0x29 .busy
      else (s.setBell b ((s.bell b).calibrated k pmin pmax guard window missLimit).enabled).reply tag 0x29 .ok := by
  rw [State.writeBell, hb, index?_val, h]
  rfl

theorem State.writeBell_busy (hb : bell.toNat = b.val) (h : bellInRange k pmin pmax guard window missLimit = true)
    (hraised : s.raisesGuard b guard.toNat) :
    s.writeBell tag bell k pmin pmax guard window missLimit = s.reply tag 0x29 .busy :=
  (State.writeBell_eq hb h).trans (if_pos ((s.raisesGuard_iff b _).mpr hraised))

theorem State.writeBell_ok (hb : bell.toNat = b.val) (h : bellInRange k pmin pmax guard window missLimit = true)
    (hraised : ¬s.raisesGuard b guard.toNat) : s.writeBell tag bell k pmin pmax guard window missLimit =
      (s.setBell b ((s.bell b).calibrated k pmin pmax guard window missLimit).enabled).reply tag 0x29 .ok :=
  (State.writeBell_eq hb h).trans (if_neg fun hr => hraised ((s.raisesGuard_iff b _).mp hr))

end

/-! ## BELL_ENABLE -/

section
variable {tag bell on : Byte} {b : BellNo}

theorem State.bellEnable_badArg (h : ¬(bell.toNat ≤ 31 ∧ (on = 0 ∨ on = 1))) :
    s.bellEnable tag bell on = s.reply tag 0x2A .badArg := by
  by_cases hb : bell.toNat < 32
  case neg => rw [State.bellEnable, index?_of_le (Nat.not_lt.mp hb)]
  case pos => rw [State.bellEnable, index?_of_lt hb, boolOf_none fun hon => h ⟨Nat.le_of_lt_succ hb, hon⟩]

theorem State.bellEnable_on (hb : bell.toNat = b.val) :
    s.bellEnable tag bell 1 = (s.setBell b (s.bell b).enabled).reply tag 0x2A .ok := by
  rw [State.bellEnable, hb, index?_val]
  rfl

theorem State.bellEnable_off (hb : bell.toNat = b.val) : s.bellEnable tag bell 0 =
    if (s.bell b).isDisabled then s.reply tag 0x2A .ok
    else ((s.reply tag 0x2A .ok).disableBell b .host).afterDisable ((s.bell b).state == .firing) := by
  rw [State.bellEnable, hb, index?_val]
  rfl

end

/-- Settles O41: SET_BELL and BELL_ENABLE case by case; what a disabling writes is read off `State.disableBell_eq`, and the
finishes after it are reported to the four lanes in turn. -/
theorem bellsConfigured : Obligations.BellsConfigured := by
  refine ⟨fun s tag bell k pmin pmax guard window missLimit htakes => ?set, fun s tag bell on htakes => ?enable,
    fun s b cause => ?disabling, fun s => ⟨rfl, rfl, rfl⟩⟩
  case set =>
    have hexec : exec (.setBell tag bell k pmin pmax guard window missLimit) s =
      .next (s.writeBell tag bell k pmin pmax guard window missLimit) := next_taken htakes
    rw [hexec, ← bellInRange_iff]
    exact ⟨fun hbad => congrArg _ (State.writeBell_badArg hbad), fun b hb hgood =>
      ⟨fun hraised => congrArg _ (State.writeBell_busy hb hgood hraised),
        fun hraised => congrArg _ (State.writeBell_ok hb hgood hraised)⟩⟩
  case enable =>
    have hexec : ∀ on, exec (.bellEnable tag bell on) s = .next (s.bellEnable tag bell on) := fun _ => next_taken htakes
    simp only [hexec, Host.Outcome.next.injEq]
    exact ⟨State.bellEnable_badArg, fun b hb => ⟨State.bellEnable_on hb,
      fun hdisabled => (State.bellEnable_off hb).trans (if_pos hdisabled),
      fun henabled => (State.bellEnable_off hb).trans (if_neg (Bool.eq_false_iff.mp henabled))⟩⟩
  case disabling =>
    rw [State.disableBell_eq]
    refine ⟨rfl, tget_tset_self _ _ _, fun c hc => tget_tset_of_ne _ _ hc.symm, rfl, ?latch, rfl⟩
    exact congrArg BellLatches.disabled (tget_tset_self _ _ _)

end Sys2Proof.Machine
end

section
/-! SUPPORT. The absorbing strike (R92 step 2): of the queued strikes for a bell the nearest, and the earlier of two that are
equally near. -/
namespace Sys2Proof.Machine

/-! ## Instants at one distance -/

theorem before_self (a : Instant) : before a a = false := by
  simp [before]

theorem before_asymm {a b : Instant} (h : before a b = true) : before b a = false := by
  rw [before_iff] at h
  rw [Bool.eq_false_iff, Ne, before_iff]
  simp only [BitVec.toNat_sub] at h ⊢
  have ha := a.isLt
  have hb := b.isLt
  omega

/-- Only two instants lie at one distance from an instant: one before it and one after it. -/
theorem eq_of_distance (a due : Instant) :
    a = due - micros (distance a due) ∨ a = due + micros (distance a due) := by
  unfold distance micros
  split
  · exact .inl (by rw [BitVec.ofNat_toNat, BitVec.setWidth_eq, sub_sub_cancel])
  · exact .inr (by rw [BitVec.ofNat_toNat, BitVec.setWidth_eq, add_sub_cancel])

/-- Of three values that are each one of two, two are the same. -/
theorem eq_of_two_values {α : Type} {p q a b c : α} (ha : a = p ∨ a = q) (hb : b = p ∨ b = q) (hc : c = p ∨ c = q) :
    a = b ∨ b = c ∨ c = a := by
  rcases ha with rfl | rfl
  · rcases hb with rfl | rfl
    · exact .inl rfl
    · rcases hc with rfl | rfl
      · exact .inr (.inr rfl)
      · exact .inr (.inl rfl)
  · rcases hb with rfl | rfl
    · rcases hc with rfl | rfl
      · exact .inr (.inl rfl)
      · exact .inr (.inr rfl)
    · exact .inl rfl

/-- Of three instants at one distance two are the same. -/
theorem eq_of_three_distances {a b c due : Instant} (hb : distance b due = distance a due)
    (hc : distance c due = distance a due) : a = b ∨ b = c ∨ c = a := by
  have ha' := eq_of_distance a due
  have hb' := eq_of_distance b due
  have hc' := eq_of_distance c due
  rw [hb] at hb'
  rw [hc] at hc'
  exact eq_of_two_values ha' hb' hc'

/-! ## The order of candidates -/

/-- Strike x is taken before y for an instant: it is nearer, or as near and not after it. -/
def Strike.leads (due : Instant) (x y : Strike) : Prop :=
  distance x.due due ≤ distance y.due due
    ∧ (distance y.due due = distance x.due due → before y.due x.due = false)

theorem Strike.leads_refl (due : Instant) (x : Strike) : x.leads due x := ⟨Nat.le_refl _, fun _ => before_self _⟩

theorem Strike.leads_of_lt {due : Instant} {x y : Strike} (h : distance x.due due < distance y.due due) :
    x.leads due y := ⟨Nat.le_of_lt h, fun he => absurd he (Nat.ne_of_gt h)⟩

/-- The instants of R1 have no transitive order, but two of any three at one distance are the same. -/
theorem Strike.leads.trans {due : Instant} {x y z : Strike} (h : x.leads due y) (h' : y.leads due z) :
    x.leads due z := by
  refine ⟨Nat.le_trans h.1 h'.1, fun hzx => ?_⟩
  have hyx : distance y.due due = distance x.due due := Nat.le_antisymm (hzx ▸ h'.1) h.1
  rcases eq_of_three_distances hyx hzx with hsame | hsame | hsame
  · rw [hsame]; exact h'.2 (hzx.trans hyx.symm)
  · rw [← hsame]; exact h.2 hyx
  · rw [hsame]; exact before_self _

theorem nearer_leads (due : Instant) (a b : Strike) :
    (nearer due a b).leads due a ∧ (nearer due a b).leads due b := by
  unfold nearer
  split
  case isTrue h =>
    refine ⟨?_, b.leads_refl due⟩
    simp only [Bool.or_eq_true, decide_eq_true_eq, Bool.and_eq_true, beq_iff_eq] at h
    rcases h with hlt | ⟨heq, hb⟩
    · exact Strike.leads_of_lt hlt
    · exact ⟨Nat.le_of_eq heq, fun _ => before_asymm hb⟩
  case isFalse h =>
    refine ⟨a.leads_refl due, ?_⟩
    simp only [Bool.or_eq_true, decide_eq_true_eq, Bool.and_eq_true, beq_iff_eq, not_or, not_and,
      Bool.not_eq_true] at h
    exact ⟨Nat.not_lt.mp h.1, h.2⟩

theorem foldl_nearer_leads (due : Instant) : ∀ (l : List Strike) (k : Strike),
    (l.foldl (nearer due) k).leads due k ∧ ∀ y ∈ l, (l.foldl (nearer due) k).leads due y
  | [], k => ⟨k.leads_refl due, fun _ hy => absurd hy List.not_mem_nil⟩
  | x :: rest, k => by
    obtain ⟨hfirst, hrest⟩ := foldl_nearer_leads due rest (nearer due k x)
    obtain ⟨hk, hx⟩ := nearer_leads due k x
    refine ⟨hfirst.trans hk, fun y hy => ?_⟩
    rcases List.mem_cons.mp hy with rfl | hy
    · exact hfirst.trans hx
    · exact hrest y hy

/-! ## The absorber -/

variable {u : StrikeUnit} {b : BellNo} {due : Instant}

/-- The absorbing strike is taken before every other for its bell: before those within the repeat guard by the search, before
the others because it lies within the guard itself. -/
theorem StrikeUnit.absorber_leads {x : Strike} (h : u.absorber b due = some x) :
    ∀ y ∈ u.queue, y.bell = b → x.leads due y := by
  intro y hy hbell
  by_cases hguard : distance y.due due < (tget u.bells b).guardMs * 1000
  case neg =>
    obtain ⟨_, _, hnear⟩ := StrikeUnit.absorber_spec h
    exact Strike.leads_of_lt (by omega)
  case pos =>
    have hwithin : y ∈ u.within b due := by
      simp only [StrikeUnit.within, List.mem_filter, hy, hbell, hguard, beq_self_eq_true, decide_true, Bool.and_self,
        and_self]
    unfold StrikeUnit.absorber at h
    split at h
    · cases h
    · next k rest hsplit =>
      cases h
      rw [hsplit] at hwithin
      rcases List.mem_cons.mp hwithin with rfl | hrest
      · exact (foldl_nearer_leads due rest y).1
      · exact (foldl_nearer_leads due rest k).2 y hrest

theorem StrikeUnit.absorber_none_iff : u.absorber b due = none ↔
    ∀ x ∈ u.queue, x.bell = b → (tget u.bells b).guardMs * 1000 ≤ distance x.due due := by
  refine ⟨StrikeUnit.absorber_none, fun hfar => Option.eq_none_iff_forall_ne_some.mpr fun k hk => ?_⟩
  obtain ⟨hmem, hbell, hnear⟩ := StrikeUnit.absorber_spec hk
  exact Nat.not_lt.mpr (hfar k hmem hbell) hnear

end Sys2Proof.Machine
end

section
/-! SUPPORT. Lateness at entry and merging (R83, R86, R93): what entry makes of a fire instant, and the absorbing strike
after a merge. -/
namespace Sys2Proof.Machine

/-! ## Lateness at entry -/

section
variable {now original : Instant} {tau : Nat}

theorem entryFire_onTime (tau : Nat) (h : lateness original now = 0) :
    entryFire now original tau = some (original, false) := if_pos h

theorem entryFire_late (h : 0 < lateness original now) (htau : lateness original now ≤ tau) :
    entryFire now original tau = some (now, true) :=
  (if_neg (Nat.ne_of_gt h)).trans (if_pos htau)

theorem entryFire_dropped (h : tau < lateness original now) : entryFire now original tau = none :=
  (if_neg (by omega)).trans (if_neg (Nat.not_le.mpr h))

theorem entryFire_within (h : lateness original now ≤ tau) :
    ∃ fireAt late, entryFire now original tau = some (fireAt, late) := by
  rcases Nat.eq_zero_or_pos (lateness original now) with hzero | hpos
  · exact ⟨_, _, entryFire_onTime tau hzero⟩
  · exact ⟨_, _, entryFire_late hpos h⟩

end

/-! ## The absorbing strike -/

/-- A fire state after a merge: a HELD_GUARD wait is formed again from the guard instant and the flight time (R93). -/
def FireState.regarded (f : FireState) (b : Bell) (flight : Nat) : FireState :=
  match f, b.guardInstant with
  | .heldGuard _, some g => .heldGuard (g - micros flight)
  | _, _ => f

theorem regard_eq (b : Bell) (k : Strike) : regard b k = { k with fire := k.fire.regarded b k.flight } := by
  obtain ⟨bell, velocity, owner, due, flight, pulse, fireAt, late, clipped, merged, fire, order⟩ := k
  cases fire with
  | heldGuard wait =>
    unfold regard FireState.regarded
    cases b.guardInstant <;> rfl
  | scheduled | heldBell | heldSupply => rfl

section
variable {u : StrikeUnit} {level : Nat} {now : Instant} {k : Strike} {v : Nat}

/-- The absorbing strike where no candidate is applied. -/
theorem mergedWith_kept (h : v ≤ k.velocity ∨ raisedBy u level now k v = none) : mergedWith u level now k v =
    { k with merged := true, fire := k.fire.regarded (tget u.bells k.bell) k.flight } := by
  unfold mergedWith
  rw [regard_eq]
  rcases h with hnot | hnone
  · rw [if_neg (Nat.not_lt.mpr hnot)]
  · rw [hnone, Option.getD_none, ite_self]

theorem raisedBy_none (h : u.compute level (tget u.bells k.bell) v = none) : raisedBy u level now k v = none := by
  simp only [raisedBy, h]

theorem raisedBy_dropped {c : Computed} (hc : u.compute level (tget u.bells k.bell) v = some c)
    (hlate : u.tau < lateness (k.due - micros c.flight) now) : raisedBy u level now k v = none := by
  simp only [raisedBy, hc, entryFire_dropped hlate, Option.map_none]

/-- The absorbing strike where the candidate of a raised velocity is applied. -/
theorem mergedWith_applied {c : Computed} {fireAt : Instant} {late : Bool} (hv : k.velocity < v)
    (hc : u.compute level (tget u.bells k.bell) v = some c)
    (he : entryFire now (k.due - micros c.flight) u.tau = some (fireAt, late)) : mergedWith u level now k v =
      { k with
        velocity := v, flight := c.flight, pulse := c.pulse, clipped := c.clipped, fireAt := fireAt
        late := k.late || late, merged := true
        fire := if before now fireAt then .scheduled else k.fire.regarded (tget u.bells k.bell) c.flight } := by
  unfold mergedWith
  rw [regard_eq, if_pos hv]
  simp only [raisedBy, hc, he, Option.map_some, Option.getD_some]
  cases before now fireAt <;> rfl

end

theorem strikesMerge : StrikesMerge := by
  refine ⟨fun u b due => ⟨StrikeUnit.absorber_none_iff, fun x hx => ?absorber⟩, fun u level now k v => ?merge⟩
  case absorber =>
    obtain ⟨hmem, hbell, hnear⟩ := StrikeUnit.absorber_spec hx
    have hleads := StrikeUnit.absorber_leads hx
    exact ⟨hmem, hbell, hnear, fun y hy hb => (hleads y hy hb).1, fun y hy hb => (hleads y hy hb).2⟩
  case merge =>
    obtain ⟨horder, hbell, hdue, howner⟩ := mergedWith_spec u level now k v
    dsimp only
    refine ⟨?merged, hbell, howner, hdue, horder, fun hnot => ?kept,
      fun c hv hc => ⟨fun hlate => ?late, fun htau => ?applied⟩⟩
    case merged => rw [mergedWith, regard_eq]
    case kept =>
      rw [mergedWith_kept (hnot.imp_right raisedBy_none)]
      exact ⟨rfl, rfl, rfl, rfl, rfl, rfl, rfl⟩
    case late =>
      rw [mergedWith_kept (.inr (raisedBy_dropped hc hlate))]
      exact ⟨rfl, rfl, rfl, rfl, rfl, rfl, rfl⟩
    case applied =>
      rcases Nat.eq_zero_or_pos (lateness (k.due - micros c.flight) now) with hzero | hpos
      · rw [mergedWith_applied hv hc (entryFire_onTime u.tau hzero)]
        exact ⟨rfl, rfl, rfl, rfl, fun _ => ⟨rfl, Bool.or_false _⟩, fun hpos => absurd hzero (Nat.ne_of_gt hpos), rfl⟩
      · rw [mergedWith_applied hv hc (entryFire_late hpos htau)]
        exact ⟨rfl, rfl, rfl, rfl, fun hzero => absurd hzero (Nat.ne_of_gt hpos), fun _ => ⟨rfl, Bool.or_true _⟩, rfl⟩

end Sys2Proof.Machine
end

section
/-! SUPPORT. Strikes entering the queue (R84, R85, R92, R93): what the queue makes of a strike, what that leaves, and the
examinations of a STRIKE message and of a lane's strike before it. -/
namespace Sys2Proof.Machine

variable {s : State}

/-! ## Counts for owners (R54) -/

theorem State.countFor_link (s : State) (f : RunRecord → RunRecord) : s.countFor .link f = s := rfl

theorem State.countFor_lane {n : LaneNo} {r : Run} (h : (s.lane n).run = some r) (f : RunRecord → RunRecord) :
    s.countFor (.lane n) f = s.setRun n { r with record := f r.record } := by
  simp only [State.countFor, h]

theorem State.countFor_idle {n : LaneNo} (h : (s.lane n).run = none) (f : RunRecord → RunRecord) :
    s.countFor (.lane n) f = s := by
  simp only [State.countFor, h]

theorem ownersCounted : OwnersCounted := by
  refine fun s o f => ⟨fun n r ho hr => ho ▸ State.countFor_lane hr f, fun hnone => ?_⟩
  cases o with
  | lane n =>
    exact State.countFor_idle (Option.eq_none_iff_forall_ne_some.mpr fun r => hnone n r rfl) f
  | link | exercise => rfl

/-! ## The entry guard (R92 step 1) -/

theorem Bell.guards_eq_some_iff (b : Bell) (due g : Instant) : b.guards due = some g ↔ Guards b due g := by
  unfold Bell.guards Guards
  cases b.guardRunning
  case false => simp
  case true =>
    cases b.guardInstant with
    | none => simp
    | some h =>
      simp only [Option.ite_none_right_eq_some, Option.some.injEq, true_and]
      exact ⟨fun ⟨hb, he⟩ => ⟨he, he ▸ hb⟩, fun ⟨he, hb⟩ => ⟨he ▸ hb, he⟩⟩

theorem Bell.guards_eq_none_iff (b : Bell) (due : Instant) : b.guards due = none ↔ ∀ g, ¬Guards b due g := by
  simp only [Option.eq_none_iff_forall_ne_some, ne_eq, Bell.guards_eq_some_iff]

/-! ## What the queue makes of a strike (R92) -/

section
variable {k x : Strike}

theorem State.examineEntry_guarded {g : Instant} (h : Guards (s.bell k.bell) k.due g) :
    s.examineEntry k = .guarded g := by
  rw [← Bell.guards_eq_some_iff] at h
  simp only [State.examineEntry, h]

theorem State.examineEntry_merged (hg : ∀ g, ¬Guards (s.bell k.bell) k.due g)
    (hx : s.strikes.absorber k.bell k.due = some x) :
    s.examineEntry k = .merged (mergedWith s.strikes s.cal.level s.now x k.velocity) := by
  rw [← Bell.guards_eq_none_iff] at hg
  simp only [State.examineEntry, hg, hx]

theorem State.examineEntry_full (hg : ∀ g, ¬Guards (s.bell k.bell) k.due g)
    (hx : s.strikes.absorber k.bell k.due = none) (h : 64 ≤ s.strikes.queue.length) : s.examineEntry k = .full := by
  rw [← Bell.guards_eq_none_iff] at hg
  simp only [State.examineEntry, hg, hx]
  exact if_pos h

theorem State.examineEntry_queued (hg : ∀ g, ¬Guards (s.bell k.bell) k.due g)
    (hx : s.strikes.absorber k.bell k.due = none) (h : s.strikes.queue.length < 64) :
    s.examineEntry k = .queued { k with order := s.strikes.orderCount } := by
  rw [← Bell.guards_eq_none_iff] at hg
  simp only [State.examineEntry, hg, hx]
  exact if_neg (Nat.not_le.mpr h)

end

/-- A strike that stands in the queue on its own. -/
def State.queueStrike (s : State) (k : Strike) : State :=
  { s with strikes := { s.strikes with
    queue := insertStrike k s.strikes.queue, orderCount := s.strikes.orderCount + 1 } }

/-- What follows a merge at once (R93). -/
theorem State.examineMerged_merged (s : State) (m : Strike) : s.examineMerged (.merged m) = MergeSettled m s := by
  cases hf : m.fire with
  | heldGuard wait =>
    cases hb : before s.now wait <;> simp [State.examineMerged, Strike.guardWaitOver, MergeSettled, hf, reached, hb]
  | scheduled | heldBell | heldSupply => simp [State.examineMerged, Strike.guardWaitOver, MergeSettled, hf]

/-! ## STRIKE (R85) -/

section
variable {tag bell velocity : Byte} {delay : Half} {b : BellNo}

/-- The velocity and the delay of a STRIKE are in range. -/
def strikeInRange (velocity : Byte) (delay : Half) : Prop :=
  1 ≤ velocity.toNat ∧ velocity.toNat ≤ 127 ∧ delay.toNat ≤ 60000

theorem strikeOutOfRange_iff :
    (velocity.toNat < 1 ∨ 127 < velocity.toNat ∨ 60000 < delay.toNat) ↔ ¬strikeInRange velocity delay := by
  unfold strikeInRange
  omega

/-- A STRIKE in range, from the test of the bell on (R85 steps 4 to 6). -/
def State.strikeBell (s : State) (tag : Byte) (b : BellNo) (velocity delay : Nat) : State :=
  if (s.bell b).isDisabled then s.reply tag 0x28 .disabled
  else
    match s.strikes.compute s.cal.level (s.bell b) velocity with
    | none => s.reply tag 0x28 .ok [3]
    | some c =>
      let e := s.examineEntry (messageStrike s.now b velocity delay c)
      ((s.enterStrike .link e).replyEntry tag e).examineMerged e

theorem State.stopped_iff (s : State) : s.stopped = true ↔ s.mode = .live ∧ s.output.isOpen = true := by
  simp only [State.stopped, Bool.and_eq_true, beq_iff_eq]

theorem State.strikeMessage_badArg (h : ¬(bell.toNat ≤ 31 ∧ strikeInRange velocity delay)) :
    s.strikeMessage tag bell velocity delay = s.reply tag 0x28 .badArg := by
  by_cases hb : bell.toNat < 32
  case neg => rw [State.strikeMessage, index?_of_le (Nat.not_lt.mp hb)]
  case pos =>
    rw [State.strikeMessage, index?_of_lt hb]
    exact if_pos (strikeOutOfRange_iff.mpr fun hin => h ⟨Nat.le_of_lt_succ hb, hin⟩)

/-- R85 from step 2 on. -/
theorem State.strikeMessage_inRange (hb : bell.toNat = b.val) (h : strikeInRange velocity delay) :
    s.strikeMessage tag bell velocity delay =
      if s.mode = .safe then s.reply tag 0x28 .mode
      else if s.stopped then s.reply tag 0x28 .interlock
      else s.strikeBell tag b velocity.toNat delay.toNat := by
  rw [State.strikeMessage, hb, index?_val]
  exact if_neg fun hout => strikeOutOfRange_iff.mp hout h

theorem State.strikeMessage_safe (hb : bell.toNat = b.val) (h : strikeInRange velocity delay) (hm : s.mode = .safe) :
    s.strikeMessage tag bell velocity delay = s.reply tag 0x28 .mode := by
  rw [State.strikeMessage_inRange hb h, if_pos hm]

theorem State.strikeMessage_interlock (hb : bell.toNat = b.val) (h : strikeInRange velocity delay) (hm : s.mode = .live)
    (ho : s.output.isOpen = true) : s.strikeMessage tag bell velocity delay = s.reply tag 0x28 .interlock := by
  have hsafe : ¬s.mode = .safe := fun hs => by rw [hm] at hs; cases hs
  rw [State.strikeMessage_inRange hb h, if_neg hsafe, if_pos ((s.stopped_iff).mpr ⟨hm, ho⟩)]

theorem State.strikeMessage_bell (hb : bell.toNat = b.val) (h : strikeInRange velocity delay) (hm : s.mode ≠ .safe)
    (ho : ¬(s.mode = .live ∧ s.output.isOpen = true)) :
    s.strikeMessage tag bell velocity delay = s.strikeBell tag b velocity.toNat delay.toNat := by
  rw [State.strikeMessage_inRange hb h, if_neg hm, if_neg (mt s.stopped_iff.mp ho)]

end

section
variable {tag : Byte} {b : BellNo} {v delay : Nat} {c : Computed}

theorem State.strikeBell_disabled (h : (s.bell b).isDisabled = true) :
    s.strikeBell tag b v delay = s.reply tag 0x28 .disabled := if_pos h

theorem State.strikeBell_suppressed (h : (s.bell b).isDisabled = false)
    (hc : s.strikes.compute s.cal.level (s.bell b) v = none) :
    s.strikeBell tag b v delay = s.reply tag 0x28 .ok [3] := by
  simp only [State.strikeBell, h, hc, Bool.false_eq_true, if_false]

theorem State.strikeBell_entered {e : Entry} (h : (s.bell b).isDisabled = false)
    (hc : s.strikes.compute s.cal.level (s.bell b) v = some c)
    (he : s.examineEntry (messageStrike s.now b v delay c) = e) :
    s.strikeBell tag b v delay = ((s.enterStrike .link e).replyEntry tag e).examineMerged e := by
  simp only [State.strikeBell, h, hc, he, Bool.false_eq_true, if_false]

/-- A message strike that is merged: LINK has no record to count it in. -/
theorem State.strikeBell_merged {m : Strike} (h : (s.bell b).isDisabled = false)
    (hc : s.strikes.compute s.cal.level (s.bell b) v = some c)
    (he : s.examineEntry (messageStrike s.now b v delay c) = .merged m) : s.strikeBell tag b v delay =
      MergeSettled m (((s.setQueue (replaceStrike m s.strikes.queue)).countIfLate m.owner
        (m.late && !(s.strikes.queue.any fun y => y.order == m.order && y.late))).reply
          tag 0x28 .ok (1 :: m.replyBytes)) := by
  rw [State.strikeBell_entered h hc he, State.examineMerged_merged]
  rfl

end

theorem strikeRequested : StrikeRequested := by
  intro s tag bell velocity delay htakes
  have hexec : exec (.strike tag bell velocity delay) s = .next (s.strikeMessage tag bell velocity delay) :=
    next_taken htakes
  rw [hexec]
  refine ⟨fun hbad => congrArg _ (State.strikeMessage_badArg hbad), fun ⟨hbell, hin⟩ hm => ?safe,
    fun ⟨hbell, hin⟩ hm ho => ?interlock, fun b hb ⟨_, hin⟩ hm ho => ?bell⟩
  case safe =>
    exact congrArg _ (State.strikeMessage_safe (b := ⟨bell.toNat, Nat.lt_succ_of_le hbell⟩) rfl hin hm)
  case interlock =>
    exact congrArg _ (State.strikeMessage_interlock (b := ⟨bell.toNat, Nat.lt_succ_of_le hbell⟩) rfl hin hm ho)
  case bell =>
    rw [State.strikeMessage_bell hb hin hm ho]
    refine ⟨fun hdis => congrArg _ (State.strikeBell_disabled hdis),
      fun hen => ⟨fun hc => congrArg _ (State.strikeBell_suppressed hen hc), fun c hc => ?entered⟩⟩
    refine ⟨fun g hg => congrArg _ (State.strikeBell_entered hen hc (State.examineEntry_guarded hg)),
      fun hg => ⟨fun x hx => congrArg _ (State.strikeBell_merged hen hc (State.examineEntry_merged hg hx)),
        fun hx hfull => congrArg _ (State.strikeBell_entered hen hc (State.examineEntry_full hg hx hfull)),
        fun hx hroom => congrArg _ (State.strikeBell_entered hen hc (State.examineEntry_queued hg hx hroom))⟩⟩

/-! ## A strike from a lane (R84) -/

section
variable {n : LaneNo} {b : BellNo} {v : Nat} {due : Instant} {c : Computed}

theorem State.laneStrike_disabled (h : (s.bell b).isDisabled = true) : s.laneStrike n b v due =
    s.countFor (.lane n) fun r => { r with droppedDisabled := satInc r.droppedDisabled } := if_pos h

theorem State.laneStrike_suppressed (h : (s.bell b).isDisabled = false)
    (hc : s.strikes.compute s.cal.level (s.bell b) v = none) : s.laneStrike n b v due =
      s.countFor (.lane n) fun r => { r with suppressed := satInc r.suppressed } := by
  simp only [State.laneStrike, h, hc, Bool.false_eq_true, if_false]

theorem State.laneStrike_late (h : (s.bell b).isDisabled = false)
    (hc : s.strikes.compute s.cal.level (s.bell b) v = some c)
    (hlate : s.strikes.tau < lateness (due - micros c.flight) s.now) : s.laneStrike n b v due =
      s.countFor (.lane n) fun r => { r with droppedLate := satInc r.droppedLate } := by
  simp only [State.laneStrike, h, hc, entryFire_dropped hlate, Bool.false_eq_true, if_false]

theorem State.laneStrike_entered {fireAt : Instant} {late : Bool} {e : Entry} (h : (s.bell b).isDisabled = false)
    (hc : s.strikes.compute s.cal.level (s.bell b) v = some c)
    (hf : entryFire s.now (due - micros c.flight) s.strikes.tau = some (fireAt, late))
    (he : s.examineEntry (strikeOf b v (.lane n) due c fireAt late) = e) :
    s.laneStrike n b v due = (s.enterStrike (.lane n) e).examineMerged e := by
  simp only [State.laneStrike, h, hc, hf, he, Bool.false_eq_true, if_false]

theorem State.laneStrike_guarded {g : Instant} (h : (s.bell b).isDisabled = false)
    (hc : s.strikes.compute s.cal.level (s.bell b) v = some c)
    (hin : lateness (due - micros c.flight) s.now ≤ s.strikes.tau) (hg : Guards (s.bell b) due g) :
    s.laneStrike n b v due = s.countFor (.lane n) fun r => { r with droppedGuard := satInc r.droppedGuard } := by
  obtain ⟨fireAt, late, hf⟩ := entryFire_within hin
  exact State.laneStrike_entered h hc hf (State.examineEntry_guarded hg)

theorem State.laneStrike_queued {fireAt : Instant} {late : Bool} (h : (s.bell b).isDisabled = false)
    (hc : s.strikes.compute s.cal.level (s.bell b) v = some c)
    (hf : entryFire s.now (due - micros c.flight) s.strikes.tau = some (fireAt, late))
    (hg : ∀ g, ¬Guards (s.bell b) due g) (hx : s.strikes.absorber b due = none)
    (hroom : s.strikes.queue.length < 64) : s.laneStrike n b v due =
      (s.queueStrike ⟨b, v, .lane n, due, c.flight, c.pulse, fireAt, late, c.clipped, false, .scheduled,
        s.strikes.orderCount⟩).countIfLate (.lane n) late :=
  State.laneStrike_entered h hc hf (State.examineEntry_queued hg hx hroom)

theorem State.laneStrike_full (h : (s.bell b).isDisabled = false)
    (hc : s.strikes.compute s.cal.level (s.bell b) v = some c)
    (hin : lateness (due - micros c.flight) s.now ≤ s.strikes.tau) (hg : ∀ g, ¬Guards (s.bell b) due g)
    (hx : s.strikes.absorber b due = none) (hfull : 64 ≤ s.strikes.queue.length) :
    s.laneStrike n b v due = s.countFor (.lane n) fun r => { r with droppedFull := satInc r.droppedFull } := by
  obtain ⟨fireAt, late, hf⟩ := entryFire_within hin
  exact State.laneStrike_entered h hc hf (State.examineEntry_full hg hx hfull)

end

theorem laneStrikes : LaneStrikes := by
  intro s n b v due r hr
  refine ⟨fun hdis => (State.laneStrike_disabled hdis).trans (State.countFor_lane hr _),
    fun hen hc => (State.laneStrike_suppressed hen hc).trans (State.countFor_lane hr _),
    fun c hen hc => ⟨fun hlate => (State.laneStrike_late hen hc hlate).trans (State.countFor_lane hr _),
      fun hin g hg => ?guarded, fun x hin hg hx => ?merged, fun hin hg hx => ⟨fun hfull => ?full,
        fun hroom hzero => ?onTime, fun hroom hpos => ?late⟩⟩⟩
  case guarded =>
    exact (State.laneStrike_guarded hen hc hin hg).trans (State.countFor_lane hr _)
  case merged =>
    obtain ⟨fireAt, late, hf⟩ := entryFire_within hin
    rw [State.laneStrike_entered hen hc hf (State.examineEntry_merged hg hx), State.examineMerged_merged]
    rfl
  case full =>
    exact (State.laneStrike_full hen hc hin hg hx hfull).trans (State.countFor_lane hr _)
  case onTime => exact State.laneStrike_queued hen hc (entryFire_onTime _ hzero) hg hx hroom
  case late =>
    exact (State.laneStrike_queued hen hc (entryFire_late hpos hin) hg hx hroom).trans
      (State.countFor_lane (s := s.queueStrike _) hr countLate)

/-- Settles O38: a STRIKE and a lane's strike meet the tests of R85 and R84 in turn; what the queue makes of one that passes
is one of four entries, and a merge is that of `strikesMerge`. -/
theorem strikesEnterQueue : Obligations.StrikesEnterQueue :=
  ⟨strikeRequested, strikesMerge, laneStrikes, ownersCounted⟩

end Sys2Proof.Machine
end

section
/-! SUPPORT. What every step keeps of the tower (laws 1, 2, 3, 5, 7 and 8, R91): a hard reset leaves an empty queue, no bell in
FIRING and no output high, and the moves of every other step keep the laws. -/
namespace Sys2Proof.Machine

/-! ## Law 1 -/

theorem StrikeUnit.reset_bell (n : BellNo) : tget StrikeUnit.reset.bells n = Bell.reset := tget_replicate _ n

theorem State.hardReset_withinSupply (s : State) (baud : BitVec 2) : (s.hardReset baud).withinSupply := by
  have hnone : StrikeUnit.reset.firing = 0 := by
    unfold StrikeUnit.firing
    simp only [StrikeUnit.reset_bell]
    rfl
  exact hnone.trans_le (Nat.zero_le _)

theorem firingKept : FiringKept := fun _ _ hs h =>
  step_keeps_moves (I := State.withinSupply) (fun _ _ hs => hs) (fun _ hs => hs) Move.withinSupply
    State.hardReset_withinSupply h hs

/-! ## Law 2 -/

/-- The spacing of a bell over one command that stands between chains that leave the strike unit. -/
theorem OneCommand.guardKept {s t : State} (h : OneCommand s t) (b : BellNo) :
    GuardKept s.now (s.bell b) (t.bell b) := by
  obtain ⟨u, c, v, ⟨hu, hsu⟩, hnot, hexec, _, hvt⟩ := h
  have hbefore : u.bell b = s.bell b := congrArg (fun x : StrikeUnit => tget x.bells b) hsu
  have hafter : t.bell b = v.bell b := congrArg (fun x : StrikeUnit => tget x.bells b) hvt
  have hkept := exec_guardKept hexec (fun cause baud hc => absurd hc (hnot cause baud)) b
  rwa [hu.now_eq, hbefore, ← hafter] at hkept

theorem impactsApart : ImpactsApart := by
  intro s t hnot h b
  unfold step at h
  split at h
  case h_1 c rest hpending =>
    exact exec_guardKept (s := { s with pending := rest }) h
      (fun cause baud hc => hnot cause baud rest (hc ▸ hpending)) b
  case h_2 =>
    rcases idle_spec h with rfl | hcalm | hone
    · exact .inl .refl
    · exact .inl (hcalm.guardAct b)
    · exact hone.guardKept b

/-- Settles O56: a move fires a strike only where a place is free and no running guard bars its impact; a hard reset leaves no
bell in FIRING. -/
theorem supplyKept : Obligations.SupplyKept := ⟨firingKept, impactsApart⟩

/-! ## Laws 3 and 5, and the order of R91 -/

theorem State.strikesSpaced_of_empty {s : State} (h : s.strikes.queue = []) : s.strikesSpaced := by
  simp [State.strikesSpaced, h]

theorem State.hardReset_queue (s : State) (baud : BitVec 2) : (s.hardReset baud).strikes.queue = [] := rfl

theorem State.not_mem_hardReset_queue (s : State) (baud : BitVec 2) (k : Strike) :
    k ∉ (s.hardReset baud).strikes.queue := List.not_mem_nil

theorem spacingKept : SpacingKept := fun _ _ hs h =>
  step_keeps_moves (I := State.strikesSpaced) (fun _ _ hs => hs) (fun _ hs => hs) Move.strikesSpaced
    (fun s baud => State.strikesSpaced_of_empty (s.hardReset_queue baud)) h hs

theorem noStrikeForDisabledKept : NoStrikeForDisabledKept := fun _ _ hs h =>
  step_keeps_moves (I := State.noStrikeDisabled) (fun _ _ hs => hs) (fun _ hs => hs) Move.noStrikeDisabled
    (fun s baud k hk => absurd hk (s.not_mem_hardReset_queue baud k)) h hs

theorem strikesOwnedKept : StrikesOwnedKept := fun _ _ hs h =>
  step_keeps_moves (I := State.strikesOwned) (fun _ _ hs => hs) (fun _ hs => hs) Move.strikesOwned
    (fun s baud k hk => absurd hk (s.not_mem_hardReset_queue baud k)) h hs

theorem State.hardReset_queueLawful (s : State) (baud : BitVec 2) : (s.hardReset baud).queueLawful :=
  ⟨State.strikesSpaced_of_empty (s.hardReset_queue baud), fun k hk => absurd hk (s.not_mem_hardReset_queue baud k),
    List.Pairwise.nil⟩

/-- A command keeps the lawful queue. -/
theorem exec_queueLawful {c : Instr} {s t : State} (h : exec c s = .next t) (hs : s.queueLawful) : t.queueLawful := by
  rcases exec_trace h with hchain | ⟨_, baud, _, _, rfl⟩
  · exact Chain.keeps Move.queueLawful hchain hs
  · exact s.hardReset_queueLawful baud

/-- A microsecond moves now, on which the order of the queue does not depend; every other step is made of moves, which keep the
order together with the spacing of law 3. -/
theorem queueOrderKept : QueueOrderKept := by
  intro s t hspaced hnear hordered h
  have hs : s.queueLawful := State.queueLawful_of hspaced hnear hordered
  rcases step_keeps_or_tick (I := State.queueLawful) (fun _ _ hs => hs) (fun hc => Chain.keeps Move.queueLawful hc)
    exec_queueLawful h hs with ⟨_, _, hpairwise⟩ | rfl
  · exact hpairwise
  · exact hordered

/-- Settles O57: each law is kept by every move, and a hard reset leaves an empty queue. -/
theorem strikeQueueKept : Obligations.StrikeQueueKept :=
  ⟨spacingKept, noStrikeForDisabledKept, strikesOwnedKept, queueOrderKept⟩

/-! ## Laws 7 and 8 -/

/-- A request keeps laws 7 and 8 where what it does when taken keeps them. -/
theorem takeRequest_towerSafe {c : Instr} {taken : State → State} {s : State} (h : s.towerSafe → (taken s).towerSafe)
    (hs : s.towerSafe) : (Machine.takeRequest c taken s).towerSafe := by
  unfold Machine.takeRequest
  split
  · exact h hs
  · split
    · exact Chain.towerSafe (Chain.offer s _) hs
    · exact hs

theorem State.askMode_towerSafe {s : State} (tag mode : Byte) (hs : s.towerSafe) : (s.askMode tag mode).towerSafe := by
  unfold State.askMode
  split
  · exact Chain.towerSafe (Chain.reply _ _ _ _ _) hs
  · exact State.changeMode_towerSafe _ _ hs

theorem State.softReset_towerSafe (s : State) : s.softReset.towerSafe :=
  State.towerSafe_of_rest s.softReset_rest.1 s.softReset_rest.2

theorem State.hardReset_towerSafe (s : State) (baud : BitVec 2) : (s.hardReset baud).towerSafe :=
  State.towerSafe_of_rest (s.hardReset_rest baud).1 (s.hardReset_rest baud).2

/-- A command keeps laws 7 and 8: one that leaves output control alone is a chain of calm moves, and each of the five others
either stops the tower or changes a tower that is safe in the new mode and interlock state. -/
theorem exec_towerSafe {c : Instr} {s t : State} (h : exec c s = .next t) (hs : s.towerSafe) : t.towerSafe := by
  by_cases hc : leavesOutput c = true
  case pos => exact Chain.keeps Move.towerSafe (exec_calm hc h) hs
  case neg =>
    cases c
    case setMode tag mode =>
      cases h
      exact takeRequest_towerSafe (State.askMode_towerSafe tag mode) hs
    case softReset =>
      cases h
      exact s.softReset_towerSafe
    case hardReset cause baud =>
      cases h
      split
      · exact s.hardReset_towerSafe baud
      · exact hs
    case atriumDebounceChange =>
      cases h
      split
      · split
        · exact State.closeInterlock_towerSafe hs
        · exact State.openInterlock_towerSafe hs
      · exact hs
    case atriumClearChange level =>
      cases h
      exact State.atriumChange_towerSafe level hs
    all_goals exact absurd rfl hc

/-- Settles O59: calm moves and every command keep laws 7 and 8 together, and the clock is no part of them. -/
theorem towerKeptSafe : Obligations.TowerKeptSafe := fun _ _ hs h =>
  step_keeps (I := State.towerSafe) (fun _ _ hs => hs) (fun _ hs => hs) Chain.towerSafe exec_towerSafe h hs

end Sys2Proof.Machine
end

section
/-! SUPPORT. Strikes at fire (R95, R97, R98): what an examination makes of a strike, what firing writes, and which strike the two
events of the queue examine. -/
namespace Sys2Proof.Machine

variable {s : State} {k : Strike}

/-! ## The examination at fire (R95, R97) -/

/-- The guard at fire stands where no guard holds the impact back. -/
theorem guardWait_eq_none (h : ∀ g, ¬Guards (s.bell k.bell) (s.now + micros k.flight) g) :
    guardWait (s.bell k.bell) s.now k.flight = none :=
  Option.map_eq_none_iff.mpr ((Bell.guards_eq_none_iff _ _).mpr h)

theorem guardWait_eq_some {g : Instant} (h : Guards (s.bell k.bell) (s.now + micros k.flight) g) :
    guardWait (s.bell k.bell) s.now k.flight = some (g - micros k.flight) :=
  Option.map_eq_some_iff.mpr ⟨g, (Bell.guards_eq_some_iff _ _ _).mpr h, rfl⟩

theorem State.examine_heldBell (h : (s.bell k.bell).state ≠ .ready) : s.examine k = s.holdStrike k .heldBell :=
  if_pos h

theorem State.examine_heldGuard {g : Instant} (h : (s.bell k.bell).state = .ready)
    (hg : Guards (s.bell k.bell) (s.now + micros k.flight) g) :
    s.examine k = s.holdStrike k (.heldGuard (g - micros k.flight)) := by
  simp only [State.examine, guardWait_eq_some hg, if_neg (not_not_intro h)]

/-- A strike that neither its bell nor its guard holds: the supply first, then its lateness. -/
theorem State.examine_unheld (h : (s.bell k.bell).state = .ready)
    (hg : ∀ g, ¬Guards (s.bell k.bell) (s.now + micros k.flight) g) : s.examine k =
      if s.strikes.emax ≤ s.strikes.firing then
        (s.holdStrike k .heldSupply).latch fun l => { l with supplyDeferred := true }
      else if s.strikes.tau < lateness k.original s.now then
        ((s.setQueue (withoutOrder k.order s.strikes.queue)).countFor k.owner fun r =>
          { r with droppedLate := satInc r.droppedLate }).finished k.owner
      else (s.fire k).countIfLate k.owner (0 < lateness k.original s.now && !k.late) := by
  simp only [State.examine, guardWait_eq_none hg, if_neg (not_not_intro h)]

/-! ## Firing (R98) -/

/-- The strike unit after a strike has fired: the output is driven in LIVE alone. -/
def StrikeUnit.fired (u : StrikeUnit) (k : Strike) (live : Bool) (now : Instant) : StrikeUnit :=
  { u with
    bells := tset u.bells k.bell ((tget u.bells k.bell).firedWith k now)
    queue := withoutOrder k.order u.queue
    hammers := if live then (u.drive k.bell).hammers else u.hammers }

/-- All that firing writes: the strike unit, and the count of its owner. -/
theorem State.fire_eq_countFor (s : State) (k : Strike) : s.fire k =
    ({ s with strikes := s.strikes.fired k (s.mode == .live) s.now } : State).countFor k.owner fun r =>
      { r with fired := satInc r.fired } := by
  have hmode : (s.setQueue (withoutOrder k.order s.strikes.queue)).mode = s.mode := rfl
  unfold State.fire
  dsimp only
  rw [hmode]
  by_cases hlive : s.mode = .live
  case pos =>
    rw [if_pos hlive, hlive]
    rfl
  case neg =>
    rw [if_neg hlive, StrikeUnit.fired, beq_eq_false_iff_ne.mpr hlive]
    rfl

theorem State.fire_eq (s : State) (k : Strike) : s.fire k =
    { s with lanes := (s.fire k).lanes, strikes := s.strikes.fired k (s.mode == .live) s.now } := by
  rw [State.fire_eq_countFor]
  exact State.countFor_eq _ _ _

theorem State.fire_strikes (s : State) (k : Strike) :
    (s.fire k).strikes = s.strikes.fired k (s.mode == .live) s.now := congrArg State.strikes (s.fire_eq k)

theorem State.fire_bell_self (s : State) (k : Strike) :
    (s.fire k).bell k.bell = (s.bell k.bell).firedWith k s.now := by
  unfold State.bell
  rw [State.fire_strikes]
  exact tget_tset_self _ _ _

theorem State.fire_bell_of_ne (s : State) {k : Strike} {c : BellNo} (h : c ≠ k.bell) :
    (s.fire k).bell c = s.bell c := by
  unfold State.bell
  rw [State.fire_strikes]
  exact tget_tset_of_ne _ _ h.symm

theorem State.fire_energised (s : State) (k : Strike) (c : BellNo) : (s.fire k).energised c =
    if c = k.bell then s.energised c || s.mode == .live else s.energised c := by
  unfold State.energised
  rw [State.fire_strikes, StrikeUnit.fired]
  cases s.mode == .live
  case false => simp
  case true =>
    dsimp only
    rw [if_pos rfl, StrikeUnit.drive_hammers]
    by_cases hc : c = k.bell
    · simp [hc]
    · simp [hc, Ne.symm hc]

/-! ## The events that examine a strike -/

theorem find?_append_cons {α : Type} {p : α → Bool} {front back : List α} {x : α} (hx : p x = true)
    (hfront : ∀ y ∈ front, p y = false) : (front ++ x :: back).find? p = some x :=
  List.find?_eq_some_iff_append.mpr ⟨hx, front, back, rfl, fun y hy => by rw [hfront y hy]; rfl⟩

/-- A SCHEDULED strike whose fire instant has come. -/
theorem Strike.fireDue_iff (k : Strike) (now : Instant) :
    (k.fire == .scheduled && reached k.fireAt now) = true ↔ k.fire = .scheduled ∧ before now k.fireAt = false := by
  rw [Bool.and_eq_true, beq_iff_eq, reached_iff]

theorem fireInstantArrival_none (h : ∀ k ∈ s.strikes.queue, k.fire = .scheduled → before s.now k.fireAt = true) :
    exec .fireInstantArrival s = .next s := by
  have hnone : s.strikeDue = none := List.find?_eq_none.mpr fun k hk hdue => by
    obtain ⟨hscheduled, hcome⟩ := (k.fireDue_iff s.now).mp hdue
    rw [h k hk hscheduled] at hcome
    cases hcome
  simp only [exec, execFireInstantArrival, hnone]

theorem fireInstantArrival_first {front back : List Strike} (hq : s.strikes.queue = front ++ k :: back)
    (hk : k.fire = .scheduled) (hcome : before s.now k.fireAt = false)
    (hfront : ∀ j ∈ front, j.fire = .scheduled → before s.now j.fireAt = true) :
    exec .fireInstantArrival s = .next (s.examine k) := by
  have hdue : s.strikeDue = some k := by
    rw [State.strikeDue, hq]
    refine find?_append_cons ((k.fireDue_iff s.now).mpr ⟨hk, hcome⟩) fun j hj => Bool.eq_false_iff.mpr fun hjdue => ?_
    obtain ⟨hscheduled, hjcome⟩ := (j.fireDue_iff s.now).mp hjdue
    rw [hfront j hj hscheduled] at hjcome
    cases hjcome
  simp only [exec, execFireInstantArrival, hdue]

theorem heldGuardWaitExpiry_none {order : Nat}
    (h : ∀ k ∈ s.strikes.queue, k.order = order → ∀ w, k.fire = .heldGuard w → before s.now w = true) :
    exec (.heldGuardWaitExpiry order) s = .next s := by
  have hnone : s.guardHeld order = none := List.find?_eq_none.mpr fun k hk hover => by
    rw [Bool.and_eq_true, beq_iff_eq, Strike.guardWaitOver_iff] at hover
    obtain ⟨horder, w, hheld, hcome⟩ := hover
    rw [h k hk horder w hheld] at hcome
    cases hcome
  simp only [exec, execHeldGuardWaitExpiry, hnone]

theorem heldGuardWaitExpiry_found {order : Nat} {front back : List Strike} {w : Instant}
    (hq : s.strikes.queue = front ++ k :: back) (ho : k.order = order) (hk : k.fire = .heldGuard w)
    (hcome : before s.now w = false) (hfront : ∀ j ∈ front, j.order ≠ order) :
    exec (.heldGuardWaitExpiry order) s = .next (s.examine k) := by
  have hheld : s.guardHeld order = some k := by
    rw [State.guardHeld, hq]
    refine find?_append_cons ?_ fun j hj => ?_
    · rw [Bool.and_eq_true, beq_iff_eq, Strike.guardWaitOver_iff]
      exact ⟨ho, w, hk, hcome⟩
    · rw [beq_eq_false_iff_ne.mpr (hfront j hj), Bool.false_and]
  simp only [exec, execHeldGuardWaitExpiry, hheld]

theorem strikesFire : StrikesFire := by
  refine ⟨fun s k => ⟨State.examine_heldBell, fun g => State.examine_heldGuard, fun hready hfree => ?unheld⟩,
    fun s k => ⟨congrArg StrikeUnit.queue (s.fire_strikes k), s.fire_bell_self k, fun c => s.fire_bell_of_ne,
      s.fire_energised k, fun n r howner hrun => ?counted, ?frame⟩,
    fun s => ⟨fireInstantArrival_none, fun front k back => fireInstantArrival_first⟩,
    fun s order => ⟨heldGuardWaitExpiry_none, fun front k back w => heldGuardWaitExpiry_found⟩⟩
  case unheld =>
    rw [State.examine_unheld hready hfree]
    refine ⟨fun hfull => ?_, fun hplace hlate => ?_, fun hplace hlate => ?_⟩
    · exact if_pos hfull
    · exact (if_neg (Nat.not_le.mpr hplace)).trans (if_pos hlate)
    · exact (if_neg (Nat.not_le.mpr hplace)).trans (if_neg (Nat.not_lt.mpr hlate))
  case counted =>
    rw [State.fire_eq_countFor, howner,
      State.countFor_lane (s := { s with strikes := s.strikes.fired k (s.mode == .live) s.now }) hrun]
    exact State.setRun_run_self _ _ _
  case frame =>
    rw [State.fire_strikes]
    exact s.fire_eq k

end Sys2Proof.Machine
end

section
/-! SUPPORT. The supply arbiter (R96): whom it serves first, and that among original fire instants near each other no waiting
strike comes before that one. -/
namespace Sys2Proof.Machine

/-! ## The first of the waiting set -/

/-- The one of two waiting strikes that is served first. -/
def Strike.firstServed (best x : Strike) : Strike := if x.servedBefore best then x else best

variable {u : StrikeUnit}

theorem StrikeUnit.firstWaiting_of_waiting {k : Strike} {rest : List Strike} (h : u.waiting = k :: rest) :
    u.firstWaiting = some (rest.foldl Strike.firstServed k) := by
  simp only [StrikeUnit.firstWaiting, h]
  rfl

theorem StrikeUnit.mem_waiting {k : Strike} : k ∈ u.waiting ↔ k ∈ u.queue ∧ k.fire = .heldSupply := by
  rw [StrikeUnit.waiting, List.mem_filter, beq_iff_eq]

theorem StrikeUnit.firstWaiting_eq_none_iff : u.firstWaiting = none ↔ ∀ k ∈ u.queue, k.fire ≠ .heldSupply := by
  cases h : u.waiting with
  | nil =>
    have hempty : ∀ k ∈ u.queue, k.fire ≠ .heldSupply := fun k hk hheld =>
      absurd (StrikeUnit.mem_waiting.mpr ⟨hk, hheld⟩) (h ▸ List.not_mem_nil)
    simp only [StrikeUnit.firstWaiting, h, true_iff]
    exact hempty
  | cons k rest =>
    obtain ⟨hk, hheld⟩ := StrikeUnit.mem_waiting.mp (h ▸ List.mem_cons_self : k ∈ u.waiting)
    rw [StrikeUnit.firstWaiting_of_waiting h]
    exact iff_of_false (Option.some_ne_none _) fun hempty => hempty k hk hheld

/-! ## The order of R96 among instants near each other -/

theorem Strike.servedBefore_iff (a b : Strike) : a.servedBefore b = true ↔
    before a.original b.original = true
      ∨ (a.original = b.original ∧ (a.bell < b.bell ∨ (a.bell = b.bell ∧ a.order < b.order))) := by
  simp only [Strike.servedBefore, Bool.or_eq_true, Bool.and_eq_true, beq_iff_eq, decide_eq_true_eq]

/-- The original fire instant lies within 1,000 seconds of an instant. -/
def Strike.originNear (now : Instant) (k : Strike) : Prop := distance k.original now ≤ 1000000000

/-- The order of R96 by places: original fire instant, bell, entry order. -/
theorem Strike.servedBefore_iff_place {now : Instant} {a b : Strike} (ha : a.originNear now) (hb : b.originNear now) :
    a.servedBefore b = true ↔ Instant.place a.original now < Instant.place b.original now
      ∨ (Instant.place a.original now = Instant.place b.original now
        ∧ (a.bell.val < b.bell.val ∨ (a.bell.val = b.bell.val ∧ a.order < b.order))) := by
  have hsame : a.original = b.original ↔ Instant.place a.original now = Instant.place b.original now :=
    ⟨fun h => by rw [h], Instant.place_inj⟩
  rw [Strike.servedBefore_iff, before_iff_place ha hb, hsame, Fin.lt_def, Fin.ext_iff]

theorem Strike.not_servedBefore_self (a : Strike) : a.servedBefore a = false := by
  simp [Strike.servedBefore, before_self]

/-- What is not served before b, and b not before c, is not served before c. -/
theorem Strike.not_servedBefore_trans {now : Instant} {a b c : Strike} (ha : a.originNear now) (hb : b.originNear now)
    (hc : c.originNear now) (hab : a.servedBefore b = false) (hbc : b.servedBefore c = false) :
    a.servedBefore c = false := by
  rw [Bool.eq_false_iff, Ne, Strike.servedBefore_iff_place ha hb] at hab
  rw [Bool.eq_false_iff, Ne, Strike.servedBefore_iff_place hb hc] at hbc
  rw [Bool.eq_false_iff, Ne, Strike.servedBefore_iff_place ha hc]
  omega

theorem Strike.firstServed_spec {now : Instant} {a b : Strike} (ha : a.originNear now) (hb : b.originNear now) :
    (a.firstServed b).originNear now ∧ a.servedBefore (a.firstServed b) = false
      ∧ b.servedBefore (a.firstServed b) = false := by
  unfold Strike.firstServed
  split
  case isTrue h =>
    refine ⟨hb, Bool.eq_false_iff.mpr fun hab => ?_, b.not_servedBefore_self⟩
    rw [Strike.servedBefore_iff_place hb ha] at h
    rw [Strike.servedBefore_iff_place ha hb] at hab
    omega
  case isFalse h => exact ⟨ha, a.not_servedBefore_self, Bool.eq_false_iff.mpr h⟩

/-- No strike of a list is served before the first that a fold over it finds. -/
theorem foldl_firstServed_spec {now : Instant} : ∀ (l : List Strike) (k : Strike), k.originNear now →
    (∀ x ∈ l, x.originNear now) → (l.foldl Strike.firstServed k).originNear now
      ∧ k.servedBefore (l.foldl Strike.firstServed k) = false
      ∧ ∀ x ∈ l, x.servedBefore (l.foldl Strike.firstServed k) = false
  | [], k, hk, _ => ⟨hk, k.not_servedBefore_self, fun _ hx => absurd hx List.not_mem_nil⟩
  | y :: rest, k, hk, hl => by
    obtain ⟨hy, hrest⟩ := List.forall_mem_cons.mp hl
    obtain ⟨hnear, hfirstk, hfirsty⟩ := Strike.firstServed_spec hk hy
    obtain ⟨hlast, hlastFirst, hlastRest⟩ := foldl_firstServed_spec rest (k.firstServed y) hnear hrest
    exact ⟨hlast, Strike.not_servedBefore_trans hk hnear hlast hfirstk hlastFirst,
      List.forall_mem_cons.mpr ⟨Strike.not_servedBefore_trans hy hnear hlast hfirsty hlastFirst, hlastRest⟩⟩

/-- Where the original fire instants of the waiting set lie near an instant, none is served before the first. -/
theorem StrikeUnit.firstWaiting_first {now : Instant} {k : Strike} (h : u.firstWaiting = some k)
    (hnear : ∀ x ∈ u.waiting, x.originNear now) : ∀ j ∈ u.waiting, j.servedBefore k = false := by
  cases hw : u.waiting with
  | nil => exact fun _ hj => absurd hj List.not_mem_nil
  | cons y rest =>
    rw [StrikeUnit.firstWaiting_of_waiting hw, Option.some.injEq] at h
    obtain ⟨hy, hrest⟩ := List.forall_mem_cons.mp (hw ▸ hnear)
    obtain ⟨_, hfirst, hothers⟩ := foldl_firstServed_spec rest y hy hrest
    exact h ▸ List.forall_mem_cons.mpr ⟨hfirst, hothers⟩

/-! ## Serving -/

section
variable {s : State} {times : Nat}

theorem State.serveTimes_full (h : s.strikes.emax ≤ s.strikes.firing) : s.serveTimes times = s := by
  cases times with
  | zero => rfl
  | succ n => exact if_pos h

theorem State.serveTimes_none (h : s.strikes.firstWaiting = none) : s.serveTimes times = s := by
  cases times with
  | zero => rfl
  | succ n => simp only [State.serveTimes, h, ite_self]

theorem State.serveTimes_succ {k : Strike} (hplace : s.strikes.firing < s.strikes.emax)
    (h : s.strikes.firstWaiting = some k) : s.serveTimes (times + 1) = (s.examine k).serveTimes times := by
  simp only [State.serveTimes, h, if_neg (Nat.not_le.mpr hplace)]

end

theorem supplyServed : SupplyServed := by
  refine ⟨fun _ => rfl, fun _ _ => State.serveTimes_full,
    fun _ _ h => State.serveTimes_none (StrikeUnit.firstWaiting_eq_none_iff.mpr h), fun _ _ _ => State.serveTimes_succ,
    fun _ _ => StrikeUnit.firstWaiting_spec,
    fun _ ⟨k, hk, hheld⟩ hnone => StrikeUnit.firstWaiting_eq_none_iff.mp hnone k hk hheld,
    fun u j k hw => ?two, fun u k h hnear j hj hheld => ?first, Strike.servedBefore_iff⟩
  case two =>
    rw [StrikeUnit.firstWaiting_of_waiting hw]
    exact apply_ite some _ _ _
  case first =>
    obtain ⟨hk, hkheld⟩ := StrikeUnit.firstWaiting_spec h
    refine StrikeUnit.firstWaiting_first (now := k.original) h (fun x hx => ?_) j (StrikeUnit.mem_waiting.mpr ⟨hj, hheld⟩)
    obtain ⟨hxq, hxheld⟩ := StrikeUnit.mem_waiting.mp hx
    exact (hnear x hxq k hk hxheld hkheld).trans (by decide)

/-- Settles O39: an examination meets the tests of R95 in turn and firing writes the strike unit and one count; the search of the
arbiter finds a least strike, since instants within 70 s of each other are in an order. -/
theorem strikesFired : Obligations.StrikesFired := ⟨strikesFire, supplyServed⟩

end Sys2Proof.Machine
end

section
/-! SUPPORT. A bell from its pulse to its guard instant (R94, R99 to R103): each event where its instant has come and where it has
not, and the window of the strike in flight. -/
namespace Sys2Proof.Machine

variable {s : State} {b : BellNo} {f : InFlight}

/-! ## The guard's end (R94) -/

theorem guardInstantExpiry_waits
    (h : (s.bell b).guardRunning = false ∨ ∃ g, (s.bell b).guardInstant = some g ∧ before s.now g = true) :
    exec (.guardInstantExpiry b) s = .next s := by
  have hover : (s.bell b).guardOver s.now = false := by
    rcases h with hstopped | ⟨g, hg, hb⟩
    · rw [Bell.guardOver, hstopped, Bool.false_and]
    · simp only [Bell.guardOver, hg, reached, hb, Bool.not_true, Bool.and_false]
  simp only [exec, execGuardInstantExpiry, hover, Bool.false_eq_true, if_false]

theorem guardInstantExpiry_ends {g : Instant} (hr : (s.bell b).guardRunning = true)
    (hg : (s.bell b).guardInstant = some g) (hb : before s.now g = false) :
    exec (.guardInstantExpiry b) s = .next (s.setBell b { s.bell b with guardRunning := false }) := by
  have hover : (s.bell b).guardOver s.now = true := by
    simp only [Bell.guardOver, hr, hg, reached, hb, Bool.not_false, Bool.and_self]
  simp only [exec, execGuardInstantExpiry, hover, if_true]

/-! ## The pulse's end (R99) -/

theorem Bell.pulseOver_idle {x : Bell} (now : Instant) (h : x.state ≠ .firing) : x.pulseOver now = none := if_neg h

theorem Bell.pulseOver_firing_eq {x : Bell} {now : Instant} (h : x.state = .firing) (hf : x.inFlight = some f) :
    x.pulseOver now = if reached (f.firedAt + micros f.pulse) now then some f else none := by
  rw [Bell.pulseOver, if_pos h, hf, Option.filter_some]

/-- The output of a bell driven low. -/
def State.lowered (s : State) (b : BellNo) : State := { s with strikes := s.strikes.release b }

theorem pulseEnd_idle (h : (s.bell b).state ≠ .firing) : exec (.pulseEnd b) s = .next s := by
  simp only [exec, execPulseEnd, Bell.pulseOver_idle s.now h]

theorem pulseEnd_waits (h : (s.bell b).state = .firing) (hf : (s.bell b).inFlight = some f)
    (hb : before s.now (f.firedAt + micros f.pulse) = true) : exec (.pulseEnd b) s = .next s := by
  simp only [exec, execPulseEnd, Bell.pulseOver_firing_eq h hf, reached, hb, Bool.not_true, Bool.false_eq_true, if_false]

theorem pulseEnd_ends (h : (s.bell b).state = .firing) (hf : (s.bell b).inFlight = some f)
    (hb : before s.now (f.firedAt + micros f.pulse) = false) :
    exec (.pulseEnd b) s = .next (if f.window = .pending then (s.lowered b).pulseToFlight b
      else (s.lowered b).pulseToReady b f) := by
  simp only [exec, execPulseEnd, Bell.pulseOver_firing_eq h hf, reached, hb, Bool.not_false, if_true]
  rfl

theorem guardAndPulseEnd : GuardAndPulseEnd := by
  refine ⟨fun s b => ⟨guardInstantExpiry_waits, fun g => guardInstantExpiry_ends⟩,
    fun s b => ⟨pulseEnd_idle, fun f hfiring hf => ⟨pulseEnd_waits hfiring hf, fun hover hpending => ?toFlight,
      fun hover hdecided => ?toReady⟩⟩⟩
  case toFlight =>
    rw [pulseEnd_ends hfiring hf hover, if_pos hpending]
    rfl
  case toReady =>
    rw [pulseEnd_ends hfiring hf hover, if_neg hdecided]
    rfl

/-! ## Rising edges (R100, R102, R103) -/

theorem InFlight.windowOpen_iff (s : State) (f : InFlight) : f.windowOpen s.now = true ↔ WindowOpen s f := by
  simp only [InFlight.windowOpen, WindowOpen, Bool.and_eq_true, beq_iff_eq, Bool.not_eq_true', and_assoc]

theorem State.edge_confirms (hf : (s.bell b).inFlight = some f) (ho : WindowOpen s f) : s.edge b = s.confirm b f := by
  have hopen : ((s.bell b).inFlight.filter fun f => f.windowOpen s.now) = some f :=
    Option.filter_eq_some_iff.mpr ⟨hf, (f.windowOpen_iff s).mpr ho⟩
  simp only [State.edge, hopen]

theorem State.edge_unopened (h : ∀ f, (s.bell b).inFlight = some f → ¬WindowOpen s f) :
    s.edge b = if (s.bell b).absorbs s.now then s else s.stray b := by
  have hnone : ((s.bell b).inFlight.filter fun f => f.windowOpen s.now) = none :=
    Option.filter_eq_none_iff.mpr fun f hf ho => h f hf ((f.windowOpen_iff s).mp ho)
  simp only [State.edge, hnone]

theorem Bell.absorbs_iff (x : Bell) (now : Instant) : x.absorbs now = true ↔
    x.isDisabled = false ∧ ∃ t, x.confirmedEnd = some t ∧ before t now = false := by
  unfold Bell.absorbs
  cases x.confirmedEnd <;> simp

theorem Bell.not_absorbs {x : Bell} {now : Instant}
    (h : x.isDisabled = true ∨ ∀ t, x.confirmedEnd = some t → before t now = true) : ¬x.absorbs now = true := by
  rw [Bell.absorbs_iff]
  rintro ⟨henabled, t, ht, hnot⟩
  rcases h with hdisabled | hpassed
  · rw [hdisabled] at henabled
    cases henabled
  · rw [hpassed t ht] at hnot
    cases hnot

theorem senseEdge_rehearse (h : s.mode = .rehearse) : exec (.senseEdge b) s = .next s := congrArg _ (if_pos h)

theorem senseEdge_read (h : s.mode ≠ .rehearse) : exec (.senseEdge b) s = .next (s.edge b) := congrArg _ (if_neg h)

theorem senseEdges : SenseEdges := by
  refine fun s b => ⟨senseEdge_rehearse, fun f hm hf ho => ?confirmed, fun hm hclosed => ?unopened⟩
  case confirmed =>
    rw [senseEdge_read hm, State.edge_confirms hf ho]
    exact ⟨fun hflight => congrArg _ (if_pos hflight), fun hfiring => congrArg _ (if_neg hfiring)⟩
  case unopened =>
    rw [senseEdge_read hm, State.edge_unopened hclosed]
    refine ⟨fun hen hend => ?_, fun hnot => ?_⟩
    · rw [if_pos (((s.bell b).absorbs_iff s.now).mpr ⟨hen, hend⟩)]
    · rw [if_neg (Bell.not_absorbs hnot)]
      exact ⟨fun hlisten => congrArg _ (if_pos hlisten), fun hother => congrArg _ (if_neg hother)⟩

/-! ## Window ends (R101, R103) -/

/-- The strike in flight whose window ends now is undecided, in a mode that judges windows. -/
def InFlight.ends (s : State) (f : InFlight) : Prop :=
  f.window = .pending ∧ before s.now f.windowEnd = false ∧ (s.mode = .live ∨ s.mode = .listen)

theorem State.windowOver_eq_some_iff (hf : (s.bell b).inFlight = some f) :
    s.windowOver b = some f ↔ f.ends s := by
  unfold State.windowOver InFlight.ends
  split
  case isTrue hm => simp only [Option.filter_eq_some_iff, hf, hm, Bool.and_eq_true, beq_iff_eq, reached_iff, true_and, and_true]
  case isFalse hm => simp only [hm, and_false, reduceCtorEq]

theorem impactWindowEnd_stands (hf : (s.bell b).inFlight = some f) (h : ¬f.ends s) :
    exec (.impactWindowEnd b) s = .next s := by
  have hnone : s.windowOver b = none := by
    refine Option.eq_none_iff_forall_ne_some.mpr fun g hg => ?_
    have hsame : g = f := by
      unfold State.windowOver at hg
      split at hg
      · exact Option.some.inj ((Option.filter_eq_some_iff.mp hg).1.symm.trans hf)
      · cases hg
    exact h ((State.windowOver_eq_some_iff hf).mp (hsame ▸ hg))
  simp only [exec, execImpactWindowEnd, hnone]

theorem impactWindowEnd_ends (hf : (s.bell b).inFlight = some f) (h : f.ends s) :
    exec (.impactWindowEnd b) s = .next (if s.mode = .live then s.miss b f else s.shadowMiss b f) := by
  simp only [exec, execImpactWindowEnd, (State.windowOver_eq_some_iff hf).mpr h]

/-- The state in which BELL_MISS has been entered and the streak counted (R101 steps 1 and 2). -/
def State.missTold (s : State) (b : BellNo) (f : InFlight) : State :=
  let streak := min 7 ((s.bell b).streak + 1)
  ((s.setBell b { s.bell b with streak := streak }).latchBell b fun l => { l with miss := true }).notice
    (.bellMiss b streak f.owner f.due f.impact)

theorem State.missTold_bell (s : State) (b : BellNo) (f : InFlight) :
    (s.missTold b f).bell b = { s.bell b with streak := min 7 ((s.bell b).streak + 1) } := s.setBell_bell_self b _

theorem State.miss_eq (s : State) (b : BellNo) (f : InFlight) : s.miss b f =
    if (s.bell b).missLimit ≠ 0 ∧ (s.bell b).missLimit ≤ min 7 ((s.bell b).streak + 1) then
      (s.missTold b f).missDisable b (min 7 ((s.bell b).streak + 1))
    else (s.missTold b f).leaveWindow b f := rfl

/-- The bell leaves its window, in a state that holds it as x. -/
theorem State.leaveWindow_eq {u : State} {x : Bell} (h : u.bell b = x) : u.leaveWindow b f =
    if x.state = .flight then BecomesReady u b x f
    else u.setBell b { x with inFlight := some { f with window := .ended } } := by
  subst h
  rfl

theorem windowsEnd : WindowsEnd := by
  refine fun s b f hf => ⟨fun hnot => ?stands, fun hpending hover hm => ?listen, fun hpending hover hm => ⟨fun hlimit => ?left,
    fun hlimit hreached => ?disabled⟩⟩
  case stands =>
    refine impactWindowEnd_stands hf fun ⟨hpending, hover, hmode⟩ => ?_
    rcases hnot with h | h | h | h
    · exact h hpending
    · rw [h] at hover
      cases hover
    all_goals
      rw [h] at hmode
      rcases hmode with hmode | hmode <;> cases hmode
  case listen =>
    have hlive : s.mode ≠ .live := fun hl => by rw [hm] at hl; cases hl
    rw [impactWindowEnd_ends hf ⟨hpending, hover, .inr hm⟩, if_neg hlive]
    exact congrArg _ (State.leaveWindow_eq rfl)
  case left =>
    have hbelow : ¬((s.bell b).missLimit ≠ 0 ∧ (s.bell b).missLimit ≤ min 7 ((s.bell b).streak + 1)) := by omega
    rw [impactWindowEnd_ends hf ⟨hpending, hover, .inl hm⟩, if_pos hm, State.miss_eq, if_neg hbelow]
    exact congrArg _ (State.leaveWindow_eq (s.missTold_bell b f))
  case disabled =>
    rw [impactWindowEnd_ends hf ⟨hpending, hover, .inl hm⟩, if_pos hm, State.miss_eq, if_pos ⟨hlimit, hreached⟩,
      State.missDisable, State.missTold_bell]
    rfl

/-! ## A confirmed window end passes; deemed impacts (R100, R103) -/

theorem Bell.confirmedPassed_iff (x : Bell) (now : Instant) :
    x.confirmedPassed now = true ↔ ∃ t, x.confirmedEnd = some t ∧ before t now = true := by
  unfold Bell.confirmedPassed
  cases x.confirmedEnd <;> simp

theorem confirmedWindowEndPasses_stands (h : ∀ t, (s.bell b).confirmedEnd = some t → before t s.now = false) :
    exec (.confirmedWindowEndPasses b) s = .next s := by
  refine congrArg _ (if_neg fun hpassed => ?_)
  obtain ⟨t, ht, hb⟩ := ((s.bell b).confirmedPassed_iff s.now).mp hpassed
  rw [h t ht] at hb
  cases hb

theorem confirmedWindowEndPasses_passes {t : Instant} (ht : (s.bell b).confirmedEnd = some t)
    (hb : before t s.now = true) :
    exec (.confirmedWindowEndPasses b) s = .next (s.setBell b { s.bell b with confirmedEnd := none }) :=
  congrArg _ (if_pos (((s.bell b).confirmedPassed_iff s.now).mpr ⟨t, ht, hb⟩))

theorem deemedImpact_otherMode (h : s.mode ≠ .rehearse) : exec (.deemedImpact b) s = .next s := by
  simp only [exec, execDeemedImpact, State.impactDue, if_neg h]

theorem State.impactDue_rehearse (hm : s.mode = .rehearse) (hf : (s.bell b).inFlight = some f) :
    s.impactDue b = if f.window = .pending ∧ before s.now f.impact = false then some f else none := by
  simp only [State.impactDue, if_pos hm, hf, Option.filter_some, Bool.and_eq_true, beq_iff_eq, reached_iff]

theorem deemedImpact_waits (hm : s.mode = .rehearse) (hf : (s.bell b).inFlight = some f)
    (h : f.window ≠ .pending ∨ before s.now f.impact = true) : exec (.deemedImpact b) s = .next s := by
  have hnot : ¬(f.window = .pending ∧ before s.now f.impact = false) := fun ⟨hpending, hover⟩ =>
    h.elim (· hpending) fun hb => by rw [hb] at hover; cases hover
  simp only [exec, execDeemedImpact, State.impactDue_rehearse hm hf, if_neg hnot]

theorem deemedImpact_deems (hm : s.mode = .rehearse) (hf : (s.bell b).inFlight = some f) (hpending : f.window = .pending)
    (hover : before s.now f.impact = false) : exec (.deemedImpact b) s = .next (s.deem b f) := by
  simp only [exec, execDeemedImpact, State.impactDue_rehearse hm hf, if_pos (And.intro hpending hover)]

theorem windowsPass : WindowsPass := by
  refine ⟨fun s b => ⟨confirmedWindowEndPasses_stands, fun t => confirmedWindowEndPasses_passes⟩,
    fun s b => ⟨deemedImpact_otherMode, fun f hm hf => ⟨deemedImpact_waits hm hf, fun hpending hover => ?deemed⟩⟩⟩
  case deemed =>
    rw [deemedImpact_deems hm hf hpending hover]
    exact ⟨fun hflight => congrArg _ (if_pos hflight), fun hfiring => congrArg _ (if_neg hfiring)⟩

/-- Settles O40: each event of a bell acts on the strike in flight whose instant has come, and what a window that closes does to
the bell is one of two: READY from FLIGHT, or the decided window in FIRING. -/
theorem bellsAfterFiring : Obligations.BellsAfterFiring := ⟨guardAndPulseEnd, senseEdges, windowsEnd, windowsPass⟩

end Sys2Proof.Machine
end

section
/-! SUPPORT. What every step keeps of the figures: law 6, law 4 and the axis bus (R138). A hard reset leaves every axis
unconfigured, every claim free and SAFE. -/
namespace Sys2Proof.Machine

/-! ## The figures after a hard reset -/

theorem State.hardReset_axis (s : State) (baud : BitVec 2) (a : AxisNo) : (s.hardReset baud).axis a = Axis.reset :=
  tget_replicate _ a

theorem State.hardReset_claim (s : State) (baud : BitVec 2) (a : AxisNo) : (s.hardReset baud).claim a = none :=
  tget_replicate _ a

theorem State.hardReset_axesLawful (s : State) (baud : BitVec 2) : (s.hardReset baud).axesLawful := fun a =>
  Axis.lawful_of_none (congrArg Axis.config (s.hardReset_axis baud a))

theorem State.hardReset_claimsLawful (s : State) (baud : BitVec 2) : (s.hardReset baud).claimsLawful := by
  refine ⟨fun a n h => ?lane, fun a => ⟨fun h => ?exercise, fun ⟨e, he, _⟩ => ?running⟩, fun a h => ?link⟩
  case running => cases he
  all_goals
    rw [s.hardReset_claim baud a] at h
    cases h

theorem State.hardReset_busLawful (s : State) (baud : BitVec 2) : (s.hardReset baud).busLawful :=
  ⟨fun a _ => congrArg Axis.heard (s.hardReset_axis baud a), fun _ => rfl⟩

/-! ## Every step -/

theorem axisLawKept : AxisLawKept := fun _ _ hs h =>
  step_keeps_moves (I := State.axesLawful) (fun _ _ hs => hs) (fun _ hs => hs) Move.axesLawful
    State.hardReset_axesLawful h hs

theorem claimsKept : ClaimsKept := fun _ _ hs h =>
  step_keeps_moves (I := State.claimsLawful) (fun _ _ hs => hs) (fun _ hs => hs) Move.claimsLawful
    State.hardReset_claimsLawful h hs

theorem busKept : BusKept := fun _ _ hs h =>
  step_keeps_moves (I := State.busLawful) (fun _ _ hs => hs) (fun _ hs => hs) Move.busLawful
    State.hardReset_busLawful h hs

/-- Settles O58: each move keeps the three laws, and a hard reset leaves no axis configured, owned or driven. -/
theorem axesKept : Obligations.AxesKept := ⟨axisLawKept, claimsKept, busKept⟩

end Sys2Proof.Machine
end

section
/-! SUPPORT. SET_AXIS (R109): the fields it accepts, and its three answers. -/
namespace Sys2Proof.Machine

/-! ## The fields of SET_AXIS -/

section
variable {form : Byte} {lower upper vmax : Long} {dv stopDv tolerance : Half}

/-- The configuration of a SET_AXIS whose fields are accepted. -/
def givenConfig (form : Byte) (lower upper vmax : Long) (dv stopDv tolerance : Half) : AxisConfig :=
  ⟨if form = 0 then .wrap else .bounded lower.toInt upper.toInt, vmax.toNat, dv.toNat, stopDv.toNat, tolerance.toNat⟩

theorem axisConfigOf_accepted (h : AxisFieldsGood form lower upper vmax dv stopDv tolerance) :
    axisConfigOf form lower upper vmax dv stopDv tolerance =
      some (givenConfig form lower upper vmax dv stopDv tolerance) := by
  obtain ⟨hform, hv1, hv2, hd1, hd2, hs, ht1, ht2⟩ := h
  have hfields : 1 ≤ vmax.toInt ∧ vmax.toInt ≤ 360000 ∧ 1 ≤ dv.toNat ∧ dv.toNat ≤ 20000 ∧ dv.toNat ≤ stopDv.toNat
      ∧ stopDv.toNat ≤ 20000 ∧ 50 ≤ tolerance.toNat ∧ tolerance.toNat ≤ 20000 :=
    ⟨hv1, hv2, hd1, hd2.trans hs, hd2, hs, ht1, ht2⟩
  have hlimits : formOf form lower.toInt upper.toInt = some (givenConfig form lower upper vmax dv stopDv tolerance).form := by
    rcases hform with rfl | ⟨rfl, hbounds⟩
    · rfl
    · exact if_pos hbounds
  rw [axisConfigOf, hlimits, Option.bind_some, if_pos hfields]
  rfl

theorem formOf_some {l u : Int} {f : AxisForm} (h : formOf form l u = some f) :
    form = 0 ∨ (form = 1 ∧ -180000 ≤ l ∧ l ≤ 179999 ∧ l < u ∧ u ≤ 180000) := by
  unfold formOf at h
  split at h
  case isTrue hwrap => exact .inl hwrap
  case isFalse =>
    split at h
    case isTrue hbounded =>
      split at h
      case isTrue hlimits => exact .inr ⟨hbounded, hlimits⟩
      case isFalse => cases h
    case isFalse => cases h

theorem axisConfigOf_refused (h : ¬AxisFieldsGood form lower upper vmax dv stopDv tolerance) :
    axisConfigOf form lower upper vmax dv stopDv tolerance = none := by
  rw [axisConfigOf, Option.bind_eq_none_iff]
  intro f hf
  refine if_neg fun ⟨hv1, hv2, hd1, _, hd2, hs, ht⟩ => h ?_
  exact ⟨formOf_some hf, hv1, hv2, hd1, hd2, hs, ht⟩

end

/-! ## The answers -/

variable {s : State} {tag axis : Byte} {a : AxisNo} {k : AxisConfig}

theorem State.writeAxis_beyond (h : 11 < axis.toNat) (config : Option AxisConfig) :
    s.writeAxis tag axis config = s.reply tag 0x30 .badArg := by
  unfold State.writeAxis
  rw [index?_of_le h]

theorem State.writeAxis_noConfig (s : State) (tag axis : Byte) : s.writeAxis tag axis none = s.reply tag 0x30 .badArg := by
  unfold State.writeAxis
  split
  case h_1 hnone => cases hnone
  case h_2 => rfl

theorem State.writeAxis_busy (ha : axis.toNat = a.val) (hc : (s.axis a).config ≠ none) (hm : (s.axis a).mode ≠ .off) :
    s.writeAxis tag axis (some k) = s.reply tag 0x30 .busy := by
  unfold State.writeAxis
  rw [ha, index?_val]
  exact if_pos ⟨Option.isSome_iff_ne_none.mpr hc, hm⟩

theorem State.writeAxis_written (ha : axis.toNat = a.val) (h : (s.axis a).config = none ∨ (s.axis a).mode = .off) :
    s.writeAxis tag axis (some k) = (s.setAxis a ((s.axis a).configured k)).reply tag 0x30 .ok := by
  unfold State.writeAxis
  rw [ha, index?_val]
  refine if_neg fun ⟨hsome, hmode⟩ => ?_
  rcases h with h | h
  · exact Option.isSome_iff_ne_none.mp hsome h
  · exact hmode h

/-- Settles O44: the fields are accepted or give no configuration, and a configuration is written where the axis has none or
is OFF. -/
theorem axisConfigured : Obligations.AxisConfigured := by
  intro s tag axis form lower upper vmax dv stopDv tolerance htakes
  have hexec : exec (.setAxis tag axis form lower upper vmax dv stopDv tolerance) s =
    .next (s.writeAxis tag axis (axisConfigOf form lower upper vmax dv stopDv tolerance)) := next_taken htakes
  dsimp only
  rw [hexec]
  refine ⟨fun hbad => congrArg _ ?bad, fun a ha hgood => ?good⟩
  case bad =>
    by_cases haxis : axis.toNat ≤ 11
    case neg => exact State.writeAxis_beyond (Nat.lt_of_not_le haxis) _
    case pos => rw [axisConfigOf_refused fun hgood => hbad ⟨haxis, hgood⟩, State.writeAxis_noConfig]
  case good =>
    rw [axisConfigOf_accepted hgood]
    exact ⟨fun hc hm => congrArg _ (State.writeAxis_busy ha hc hm),
      fun hfree => congrArg _ (State.writeAxis_written ha hfree)⟩

end Sys2Proof.Machine
end

section
/-! SUPPORT. AXIS_CMD (R117 … R120, R123, R124): the gate every request passes, the motion command its arguments give, what a
command that is carried out makes of the axis, and the chain of a FOLLOW. -/
namespace Sys2Proof.Machine

variable {s : State} {tag axis : Byte} {a : AxisNo} {c : AxisConfig}

/-! ## The gate (R123, steps 1 to 4) -/

theorem State.axisGate_beyond (h : 11 < axis.toNat) : s.axisGate axis = .refused .badArg := by
  unfold State.axisGate
  rw [index?_of_le h]

section
variable (ha : axis.toNat = a.val)
include ha

theorem State.axisGate_notFound (hc : (s.axis a).config = none) : s.axisGate axis = .refused .notFound := by
  unfold State.axisGate
  rw [ha, index?_val]
  dsimp only
  rw [hc]

theorem State.axisGate_configured (hc : (s.axis a).config = some c) : s.axisGate axis =
    if (s.claim a).isSome then .refused .claimed else if s.mode = .safe then .refused .mode else .passed a c := by
  unfold State.axisGate
  rw [ha, index?_val]
  dsimp only
  rw [hc]

theorem State.axisGate_claimed (hc : (s.axis a).config = some c) (h : s.claim a ≠ none) :
    s.axisGate axis = .refused .claimed := by
  rw [State.axisGate_configured ha hc, if_pos (Option.isSome_iff_ne_none.mpr h)]

theorem State.axisGate_safe (hc : (s.axis a).config = some c) (h : s.claim a = none) (hm : s.mode = .safe) :
    s.axisGate axis = .refused .mode := by
  rw [State.axisGate_configured ha hc, h, hm]
  rfl

theorem State.axisGate_passes (hc : (s.axis a).config = some c) (h : s.claim a = none) (hm : s.mode ≠ .safe) :
    s.axisGate axis = .passed a c := by
  rw [State.axisGate_configured ha hc, h]
  exact if_neg hm

end

/-! ## What each request does where it is taken -/

/-- The motion command that the arguments of a motion request give, by the functions of its command. -/
def givenMotion (s : State) (a : AxisNo) (c : AxisConfig) : AxisRequest → Option MotionCommand
  | .move target rate direction => moveArguments target rate direction c
  | .spin rate => spinArguments rate c
  | .stop => some .stop
  | .follow leader numerator denominator offset => s.followArguments leader numerator denominator offset a
  | _ => none

/-- What a request of AXIS_CMD does where it is taken. -/
def requestTaken (s : State) (tag axis : Byte) : AxisRequest → State
  | .enable => s.enableAxis tag axis
  | .disable => s.disableAxis tag axis
  | .clear => s.clearAxis tag axis
  | q => s.motionCommand tag axis fun a c => givenMotion s a c q

theorem exec_axisRequest (q : AxisRequest) (htakes : s.takes = true) :
    exec (q.instr tag axis) s = .next (requestTaken s tag axis q) := by
  cases q <;> exact next_taken htakes

theorem requestTaken_motion {q : AxisRequest} (h : q.motion) :
    requestTaken s tag axis q = s.motionCommand tag axis fun a c => givenMotion s a c q := by
  cases q with
  | move | spin | stop | follow => rfl
  | enable | disable | clear => exact h.elim

theorem requestTaken_refused (q : AxisRequest) {r : Result} (h : s.axisGate axis = .refused r) :
    requestTaken s tag axis q = s.reply tag 0x31 r := by
  cases q with
  | enable => unfold requestTaken State.enableAxis; rw [h]
  | disable => unfold requestTaken State.disableAxis; rw [h]
  | clear => unfold requestTaken State.clearAxis; rw [h]
  | move | spin | stop | follow => unfold requestTaken State.motionCommand; rw [h]

theorem requestTaken_interlock {q : AxisRequest} (hq : q.motion) (h : s.axisGate axis = .passed a c)
    (hs : s.stopped = true) : requestTaken s tag axis q = s.reply tag 0x31 .interlock := by
  rw [requestTaken_motion hq, State.motionCommand, h]
  exact if_pos hs

theorem axisRequestsRefused : AxisRequestsRefused := by
  intro s tag axis q htakes
  rw [exec_axisRequest q htakes]
  refine ⟨fun hbeyond => congrArg _ (requestTaken_refused q (State.axisGate_beyond hbeyond)), fun a ha => ⟨fun hnone => ?_,
    fun hsome => ?_⟩⟩
  · exact congrArg _ (requestTaken_refused q (State.axisGate_notFound ha hnone))
  · obtain ⟨c, hc⟩ := Option.ne_none_iff_exists'.mp hsome
    refine ⟨fun howned => congrArg _ (requestTaken_refused q (State.axisGate_claimed ha hc howned)),
      fun hfree hsafe => congrArg _ (requestTaken_refused q (State.axisGate_safe ha hc hfree hsafe)),
      fun hfree hq hlive hopen => congrArg _ ?_⟩
    have hmode : s.mode ≠ .safe := fun hsafe => by rw [hlive] at hsafe; cases hsafe
    exact requestTaken_interlock hq (State.axisGate_passes ha hc hfree hmode) (s.stopped_iff.mpr ⟨hlive, hopen⟩)

/-! ## Arguments (R123, step 6) -/

theorem toNat_of_toInt_pos {w : Long} (h : 1 ≤ w.toInt) : (w.toNat : Int) = w.toInt := by
  have := w.isLt
  rw [BitVec.toInt_eq_toNat_cond] at h ⊢
  split at h <;> omega

theorem rateOf_eq_some_iff {rate : Long} {r : Nat} :
    rateOf rate = some r ↔ (r : Int) = rate.toInt ∧ 1 ≤ r ∧ r ≤ 360000 := by
  unfold rateOf
  constructor
  · intro h
    split at h
    case isTrue hrange =>
      cases h
      have := toNat_of_toInt_pos hrange.1
      omega
    case isFalse => cases h
  · rintro ⟨hr, hlo, hhi⟩
    have := toNat_of_toInt_pos (w := rate) (by omega)
    rw [if_pos (by omega), Option.some_inj]
    omega

theorem targetOf_eq_some_iff {form : AxisForm} {target : Long} {t : Int} :
    targetOf form target = some t ↔ t = target.toInt ∧ form.inRange t = true := by
  unfold targetOf
  split
  case isTrue h =>
    rw [Option.some_inj]
    exact ⟨fun ht => ht ▸ ⟨rfl, h⟩, fun ht => ht.1.symm⟩
  case isFalse h => exact ⟨fun ht => (by cases ht), fun ht => absurd (ht.1 ▸ ht.2) h⟩

theorem directionOf_eq_some_iff {b : Byte} {d : Direction} : directionOf b = some d ↔
    (b = 0 ∧ d = .short) ∨ (b = 1 ∧ d = .cw) ∨ (b = 2 ∧ d = .ccw) := by
  unfold directionOf
  split
  case isTrue h => subst h; cases d <;> simp
  case isFalse h0 =>
    split
    case isTrue h => subst h; cases d <;> simp
    case isFalse h1 =>
      split
      case isTrue h => subst h; cases d <;> simp
      case isFalse h2 => exact ⟨fun h => (by cases h), fun h => (by tauto)⟩

theorem moveArguments_eq_some_iff {target rate : Long} {direction : Byte} {m : MotionCommand} :
    moveArguments target rate direction c = some m ↔ ∃ t d r, m = .move t d r ∧ targetOf c.form target = some t
      ∧ rateOf rate = some r ∧ directionOf direction = some d := by
  unfold moveArguments
  cases targetOf c.form target <;> cases rateOf rate <;> cases directionOf direction <;> simp [eq_comm]

theorem followOutOfRange_eq_false_iff {axis leader denominator : Nat} {numerator offset : Int} :
    followOutOfRange axis leader numerator denominator offset = false ↔ leader ≤ 11 ∧ leader ≠ axis ∧ numerator ≠ 0
      ∧ numerator.natAbs ≤ 16 ∧ 1 ≤ denominator ∧ denominator ≤ 16 ∧ offset.natAbs ≤ 359999 := by
  simp only [followOutOfRange, Bool.or_eq_false_iff, decide_eq_false_iff_not, beq_eq_false_iff_ne, not_lt, and_assoc]

theorem State.followArguments_eq_some_iff {leader numerator denominator : Byte} {offset : Long} {m : MotionCommand} :
    s.followArguments leader numerator denominator offset a = some m ↔
      followOutOfRange a.val leader.toNat numerator.toInt denominator.toNat offset.toInt = false
        ∧ ∃ l : AxisNo, l.val = leader.toNat ∧ followRefused s.leaders a l = false
          ∧ m = .follow l numerator.toInt denominator.toNat offset.toInt := by
  unfold State.followArguments
  split
  case isTrue hout => simp [hout]
  case isFalse hin =>
    rw [Bool.not_eq_true] at hin
    simp only [hin, true_and]
    split
    case h_1 l hl =>
      rw [index?_eq_some_iff] at hl
      have huniq : ∀ x : AxisNo, x.val = leader.toNat ↔ x = l := fun x => by rw [← hl, Fin.val_inj]
      simp only [huniq, exists_eq_left]
      cases followRefused s.leaders a l <;> simp [eq_comm]
    case h_2 hnone =>
      rw [index?_eq_none_iff] at hnone
      exact ⟨fun h => (by cases h), fun ⟨l, hl, _⟩ => absurd hl (hnone l)⟩

/-- R123 step 6 accepts exactly the commands that the arguments give. -/
theorem accepted_iff {q : AxisRequest} (hq : q.motion) (m : MotionCommand) :
    q.accepted s a c m ↔ givenMotion s a c q = some m := by
  cases q with
  | enable | disable | clear => exact hq.elim
  | stop => cases m <;> simp [AxisRequest.accepted, givenMotion]
  | spin rate =>
    simp only [givenMotion, spinArguments, Option.ite_none_right_eq_some, Option.some_inj]
    cases m with
    | spin r =>
      simp only [AxisRequest.accepted, MotionCommand.spin.injEq]
      exact ⟨fun ⟨hr, hrest⟩ => ⟨hr ▸ hrest, hr.symm⟩, fun ⟨hrest, hr⟩ => ⟨hr.symm, hr ▸ hrest⟩⟩
    | move | stop | follow => simp [AxisRequest.accepted]
  | move target rate direction =>
    rw [givenMotion, moveArguments_eq_some_iff]
    simp only [targetOf_eq_some_iff, rateOf_eq_some_iff, directionOf_eq_some_iff]
    cases m with
    | move t d r => simp only [AxisRequest.accepted, MotionCommand.move.injEq]; grind
    | spin | stop | follow => simp [AxisRequest.accepted]
  | follow leader numerator denominator offset =>
    rw [givenMotion, State.followArguments_eq_some_iff, followOutOfRange_eq_false_iff]
    cases m with
    | follow l n d o => simp only [AxisRequest.accepted, MotionCommand.follow.injEq]; grind
    | move | spin | stop => simp [AxisRequest.accepted]

/-! ## A motion command carried out (R117 … R120) -/

/-- A moving mode is an enabled one other than HOLD. -/
theorem AxisMode.moving_iff (m : AxisMode) : m.moving = true ↔ m.enabled = true ∧ m ≠ .hold := by
  cases m <;> simp [AxisMode.moving, AxisMode.enabled]

/-- An axis written by a command, a dwell on it disturbed, is the axis given a command. -/
theorem State.setAxis_disturb (s : State) (a : AxisNo) (x : Axis) : (s.setAxis a x).disturb a = GivenTo s a x := by
  unfold State.disturb GivenTo
  by_cases h : s.verifier.scan = some a
  · rw [if_pos (by exact h), decide_eq_true h, Bool.or_true]
    rfl
  · rw [if_neg (by exact h), decide_eq_false h, Bool.or_false]
    rfl

@[simp] theorem givenTo_axis (s : State) (a : AxisNo) (x : Axis) : (GivenTo s a x).axis a = x := s.setAxis_axis_self a x

theorem commanded_stop {x : Axis} (h : x.mode.enabled = true) :
    Commanded x c .stop = ((x.stop c.dv).1, false, (x.stop c.dv).2) := by
  by_cases hhold : x.mode = .hold
  · simp only [Commanded, Axis.stop, hhold, AxisMode.moving, if_true, Bool.false_eq_true, if_false]
  · have hmoving := (AxisMode.moving_iff _).mpr ⟨h, hhold⟩
    by_cases hv : x.v = 0
    · simp only [Commanded, Axis.stop, Axis.held, hhold, hmoving, hv, if_true, if_false]
    · simp only [Commanded, Axis.stop, hhold, hmoving, hv, if_true, if_false]

/-- A command that nothing refuses is carried out on a configured axis in an enabled mode. -/
theorem Axis.command_eq {leaders : AxisNo → Axis} {x : Axis} {m : MotionCommand} (hc : x.config = some c)
    (he : x.mode.enabled = true) (hspin : ∀ r, m = .spin r → c.form = .wrap)
    (hfollow : ∀ l n d o, m = .follow l n d o → followRefused leaders a l = false) :
    x.command leaders a m = some ⟨(Commanded x c m).1, (Commanded x c m).2.1, (Commanded x c m).2.2⟩ := by
  unfold Axis.command
  split
  case h_1 hnone => rw [hc] at hnone; cases hnone
  case h_2 k hk =>
    obtain rfl : k = c := Option.some.inj (hk.symm.trans hc)
    rw [if_pos he]
    cases m with
    | move t d r => cases hform : k.form <;> simp [Commanded, clampTarget, bound, hform]
    | spin r => exact if_pos (hspin r rfl)
    | stop => rw [commanded_stop he]
    | follow l n d o => exact if_neg (ne_true_of_eq_false (hfollow l n d o rfl))

/-- What refuses a SPIN and a FOLLOW refuses none that R123 step 6 accepts. -/
theorem accepted_command {q : AxisRequest} {m : MotionCommand} (hc : (s.axis a).config = some c)
    (he : (s.axis a).mode.enabled = true) (h : q.accepted s a c m) : s.commandAxis a m =
      some (GivenTo s a (Commanded (s.axis a) c m).1, (Commanded (s.axis a) c m).2.1, (Commanded (s.axis a) c m).2.2) := by
  have hspin : ∀ r, m = .spin r → c.form = .wrap := by
    rintro r rfl
    cases q with
    | spin rate => exact h.2.1
    | _ => exact h.elim
  have hfollow : ∀ l n d o, m = .follow l n d o → followRefused s.leaders a l = false := by
    rintro l n d o rfl
    cases q with
    | follow leader numerator denominator offset =>
      obtain ⟨_, _, _, _, _, _, _, _, _, _, hnot⟩ := h
      exact hnot
    | _ => exact h.elim
  rw [State.commandAxis, Axis.command_eq hc he hspin hfollow, Option.map_some, State.setAxis_disturb]

theorem State.carryOut_disabled (tag : Byte) (m : MotionCommand) (h : (s.axis a).mode.enabled = false) :
    s.carryOut tag a m = s.reply tag 0x31 .disabled [(s.axis a).mode.code] := by
  rw [State.carryOut, h]
  rfl

theorem State.carryOut_done {x : Axis} {limited settled : Bool} {m : MotionCommand} (tag : Byte)
    (he : (s.axis a).mode.enabled = true) (h : s.commandAxis a m = some (GivenTo s a x, limited, settled)) :
    s.carryOut tag a m =
      if settled = true then ((GivenTo s a x).reply tag 0x31 .ok [x.mode.code, boolByte limited]).settle a
      else (GivenTo s a x).reply tag 0x31 .ok [x.mode.code, boolByte limited] := by
  rw [State.carryOut, if_pos he, h]
  dsimp only
  rw [givenTo_axis, axisReplyBytes]

theorem requestTaken_passed {q : AxisRequest} (hq : q.motion) (h : s.axisGate axis = .passed a c) (hs : ¬s.stopped = true) :
    requestTaken s tag axis q = match givenMotion s a c q with
      | none => s.reply tag 0x31 .badArg
      | some m => s.carryOut tag a m := by
  rw [requestTaken_motion hq, State.motionCommand, h]
  exact if_neg hs

theorem motionRequestsCarriedOut : MotionRequestsCarriedOut := by
  intro s tag axis q a c htakes ha hc hfree hmode hopen hq
  rw [exec_axisRequest q htakes, requestTaken_passed hq (State.axisGate_passes ha hc hfree hmode) (mt s.stopped_iff.mp hopen)]
  refine ⟨fun hnone => ?_, fun m hm => ?_⟩
  · have hgiven : givenMotion s a c q = none := Option.eq_none_iff_forall_ne_some.mpr fun m hm =>
      hnone m ((accepted_iff hq m).mpr hm)
    rw [hgiven]
  · rw [(accepted_iff hq m).mp hm]
    exact ⟨fun hoff => congrArg _ (State.carryOut_disabled tag m hoff),
      fun hon => congrArg _ (State.carryOut_done tag hon (accepted_command hc hon hm))⟩

/-! ## ENABLE, DISABLE and CLEAR (R124) -/

section
variable (h : s.axisGate axis = .passed a c)
include h

theorem State.enableAxis_fault {f : AxisFaultCause} (hm : (s.axis a).mode = .fault f) :
    s.enableAxis tag axis = s.reply tag 0x31 .disabled [6] := by
  unfold State.enableAxis
  rw [h]
  dsimp only
  rw [hm]
  rfl

theorem State.enableAxis_enabled (hm : (s.axis a).mode.enabled = true) :
    s.enableAxis tag axis = s.reply tag 0x31 .ok [(s.axis a).mode.code, 0] := by
  unfold State.enableAxis
  rw [h]
  dsimp only
  cases hmode : (s.axis a).mode with
  | off | fault => rw [hmode] at hm; cases hm
  | _ => rfl

theorem State.enableAxis_off (hm : (s.axis a).mode = .off) : s.enableAxis tag axis =
    match (s.axis a).enablePosition c with
    | none => s.reply tag 0x31 .busy
    | some m => (s.setAxis a ((s.axis a).enableAt m)).reviewScan.reply tag 0x31 .ok [1, 0] := by
  unfold State.enableAxis
  rw [h]
  dsimp only
  rw [hm]
  rfl

theorem State.clearAxis_fault {f : AxisFaultCause} (hm : (s.axis a).mode = .fault f) :
    s.clearAxis tag axis = (s.reply tag 0x31 .ok [0, 0]).putOff a := by
  unfold State.clearAxis
  rw [h]
  dsimp only
  rw [hm]
  rfl

theorem State.clearAxis_sound (hm : ∀ f, (s.axis a).mode ≠ .fault f) :
    s.clearAxis tag axis = s.reply tag 0x31 .ok [(s.axis a).mode.code, 0] := by
  unfold State.clearAxis
  rw [h]
  dsimp only
  cases hmode : (s.axis a).mode with
  | fault f => exact absurd hmode (hm f)
  | _ => rfl

theorem State.disableAxis_done : s.disableAxis tag axis = (s.reply tag 0x31 .ok [0, 0]).putOff a := by
  unfold State.disableAxis
  rw [h]
  rfl

end

theorem AxisForm.withinLimits_iff (form : AxisForm) (m : Int) :
    form.withinLimits m = true ↔ ∀ l u, form = .bounded l u → l ≤ m ∧ m ≤ u := by
  cases form <;> simp [AxisForm.withinLimits]

theorem Axis.enablePosition_eq_some {x : Axis} {m : Int} (hmissed : x.missed < 3) (hm : x.measured = some m)
    (hlimits : ∀ l u, c.form = .bounded l u → l ≤ m ∧ m ≤ u) : x.enablePosition c = some m := by
  rw [Axis.enablePosition, if_neg (Nat.not_le.mpr hmissed), hm]
  exact Option.filter_eq_some_iff.mpr ⟨rfl, (c.form.withinLimits_iff m).mpr hlimits⟩

theorem Axis.enablePosition_eq_none {x : Axis} (h : 3 ≤ x.missed ∨ x.measured = none
    ∨ ∃ m l u, x.measured = some m ∧ c.form = .bounded l u ∧ (m < l ∨ u < m)) : x.enablePosition c = none := by
  unfold Axis.enablePosition
  rcases h with hmissed | hnone | ⟨m, l, u, hm, hform, hout⟩
  · exact if_pos hmissed
  · rw [hnone, Option.filter_none, ite_self]
  · have hfar : ¬c.form.withinLimits m = true := fun hin => by
      have := (c.form.withinLimits_iff m).mp hin l u hform
      omega
    rw [hm, Option.filter_some, if_neg hfar, ite_self]

theorem axisSwitched : AxisSwitched := by
  intro s tag axis a c htakes ha hc hfree hmode
  have hgate := State.axisGate_passes ha hc hfree hmode
  have henable : exec (.axisCmdEnable tag axis) s = .next (s.enableAxis tag axis) := next_taken htakes
  have hdisable : exec (.axisCmdDisable tag axis) s = .next (s.disableAxis tag axis) := next_taken htakes
  have hclear : exec (.axisCmdClear tag axis) s = .next (s.clearAxis tag axis) := next_taken htakes
  dsimp only
  rw [henable, hdisable, hclear]
  refine ⟨fun f hf => ⟨?enableFault, ?clearFault⟩, fun hsound => ?clearSound, fun hon => ?enableOn,
    fun hoff => ⟨fun hbusy => ?enableBusy, fun m hmissed hm hlimits => ?enableOff⟩, ?disable⟩
  case enableFault => rw [State.enableAxis_fault hgate hf]
  case clearFault =>
    rw [State.clearAxis_fault hgate hf]
    rfl
  case clearSound => rw [State.clearAxis_sound hgate hsound]
  case enableOn => rw [State.enableAxis_enabled hgate hon]
  case enableBusy => rw [State.enableAxis_off hgate hoff, Axis.enablePosition_eq_none hbusy]
  case enableOff =>
    rw [State.enableAxis_off hgate hoff, Axis.enablePosition_eq_some hmissed hm hlimits]
    rfl
  case disable =>
    rw [State.disableAxis_done hgate]
    rfl

/-! ## The chain of a FOLLOW (R120) -/

/-- The axis that a mode follows. -/
def AxisMode.leader : AxisMode → Option AxisNo
  | .follow next _ _ _ => some next
  | _ => none

theorem chainReaches_succ (leaders : AxisNo → Axis) (follower l : AxisNo) (fuel : Nat) :
    chainReaches leaders follower (fuel + 1) l = true ↔
      l = follower ∨ ∃ next, (leaders l).mode.leader = some next ∧ chainReaches leaders follower fuel next = true := by
  rw [chainReaches, Bool.or_eq_true, beq_iff_eq]
  cases (leaders l).mode <;> simp [AxisMode.leader]

theorem followChain_succ (leaders : AxisNo → Axis) (l : AxisNo) (k : Nat) :
    FollowChain leaders l (k + 1) = (FollowChain leaders l k).bind fun a => (leaders a).mode.leader := by
  rw [FollowChain]
  refine Option.bind_congr fun a _ => ?_
  cases (leaders a).mode <;> rfl

/-- A chain passed from its first axis on, where `FollowChain` passes it from its last. -/
theorem followChain_from_next (leaders : AxisNo → Axis) (l : AxisNo) (k : Nat) :
    FollowChain leaders l (k + 1) = (leaders l).mode.leader.bind fun next => FollowChain leaders next k := by
  induction k with
  | zero => rw [followChain_succ, FollowChain, Option.bind_some]; exact (Option.bind_fun_some _).symm
  | succ k ih => rw [followChain_succ, ih, Option.bind_assoc]; simp only [followChain_succ]

theorem chainReaches_iff (leaders : AxisNo → Axis) (follower : AxisNo) (fuel : Nat) (l : AxisNo) :
    chainReaches leaders follower fuel l = true ↔ ∃ k, k < fuel ∧ FollowChain leaders l k = some follower := by
  induction fuel generalizing l with
  | zero => simp [chainReaches]
  | succ fuel ih =>
    rw [chainReaches_succ]
    constructor
    · rintro (rfl | ⟨next, hnext, hreach⟩)
      · exact ⟨0, Nat.succ_pos _, rfl⟩
      · obtain ⟨k, hk, hchain⟩ := (ih next).mp hreach
        exact ⟨k + 1, Nat.succ_lt_succ hk, by rw [followChain_from_next, hnext]; exact hchain⟩
    · rintro ⟨k, hk, hchain⟩
      cases k with
      | zero => exact .inl (Option.some.inj hchain)
      | succ k =>
        rw [followChain_from_next, Option.bind_eq_some_iff] at hchain
        obtain ⟨next, hnext, hchain⟩ := hchain
        exact .inr ⟨next, hnext, (ih next).mpr ⟨k, Nat.lt_of_succ_lt_succ hk, hchain⟩⟩

theorem AxisMode.enabled_false_iff (m : AxisMode) : m.enabled = false ↔ m = .off ∨ ∃ c, m = .fault c := by
  cases m <;> simp [AxisMode.enabled]

theorem followsRefused : FollowsRefused := fun leaders follower l => by
  simp only [followRefused, Bool.or_eq_true, beq_iff_eq, Option.isNone_iff_eq_none, Bool.not_eq_true',
    AxisMode.enabled_false_iff, chainReaches_iff, or_assoc]

/-- Settles O45: a request is refused at the gate, by its arguments or for an axis that is not enabled, and is otherwise
carried out. -/
theorem axisRequestsAnswered : Obligations.AxisRequestsAnswered :=
  ⟨axisRequestsRefused, motionRequestsCarriedOut, axisSwitched, followsRefused⟩

end Sys2Proof.Machine
end

section
/-! SUPPORT. The profile of one update (R111 step 1): the advance (R114), MOVE (R115, R116), SPIN, STOPPING (R117, R118) and
FOLLOW (R121). -/
namespace Sys2Proof.Machine

/-! ## The position advance (R114) -/

theorem wrapped_within {turns position : Int} (hlo : 0 ≤ position) (hhi : position < 360000) :
    Wrapped turns position = (position, turns) := by
  rw [Wrapped, if_neg (by omega), if_neg (by omega)]

theorem wrapped_above {turns position : Int} (h : 360000 ≤ position) :
    Wrapped turns position = (position - 360000, if 360359 ≤ turns then -360360 else turns + 1) := if_pos h

theorem wrapped_below {turns position : Int} (h : position < 0) :
    Wrapped turns position = (position + 360000, if turns ≤ -360360 then 360359 else turns - 1) := by
  rw [Wrapped, if_neg (by omega), if_pos h]

theorem advance_wrap (x : Axis) (v : Int) : advance .wrap x v = ({ x with
    cmd := some (Wrapped x.turns (Advanced x v).1).1, turns := (Wrapped x.turns (Advanced x v).1).2
    v := v, residue := (Advanced x v).2 }, false) := rfl

theorem advance_bounded (l u : Int) (x : Axis) (v : Int) : advance (.bounded l u) x v =
    if (Advanced x v).1 < l then ({ x with cmd := some l, v := 0, residue := 0 }, true)
    else if u < (Advanced x v).1 then ({ x with cmd := some u, v := 0, residue := 0 }, true)
    else ({ x with cmd := some (Advanced x v).1, v := v, residue := (Advanced x v).2 }, false) := rfl

theorem positionsAdvance : PositionsAdvance := by
  intro x v
  refine ⟨fun h => ?_, fun h => ?_, fun hlo hhi => ?_, fun l u hlu => ⟨fun h => ?_, fun h => ?_, fun hl hu => ?_⟩⟩
  · rw [advance_wrap, wrapped_above h]
  · rw [advance_wrap, wrapped_below h]
  · rw [advance_wrap, wrapped_within hlo hhi]
  · rw [advance_bounded, if_pos h]
  · rw [advance_bounded, if_neg (by omega), if_pos h]
  · rw [advance_bounded, if_neg (by omega), if_neg (by omega)]

/-! ## MOVE (R115, R116) -/

theorem shortestWay_range (d : Int) : -180000 ≤ shortestWay d ∧ shortestWay d < 180000 := by
  unfold shortestWay
  omega

/-- The shortest way differs from the distance by whole turns. -/
theorem shortestWay_emod (d : Int) : (shortestWay d - d) % 360000 = 0 := by
  unfold shortestWay
  omega

theorem moveVelocity_reverses {c : AxisConfig} {rate : Nat} {v d : Int} (h : v ≠ 0 ∧ v.sign ≠ d.sign) :
    moveVelocity c rate v d = shed v c.dv := if_pos h

theorem moveVelocity_forward {c : AxisConfig} {rate : Nat} {v d : Int} (h : ¬(v ≠ 0 ∧ v.sign ≠ d.sign)) :
    moveVelocity c rate v d = d.sign *
      ((if d.natAbs ≤ v.natAbs * v.natAbs / (200 * c.dv) then max (v.natAbs - c.dv) (min c.dv (min rate c.vmax))
        else if min rate c.vmax < v.natAbs then max (v.natAbs - c.dv) (min rate c.vmax)
        else min (v.natAbs + c.dv) (min rate c.vmax) : Nat) : Int) := if_neg h

theorem moveVelocities (c : AxisConfig) (rate : Nat) (v d : Int) :
    (0 < v → d < 0 → moveVelocity c rate v d = max (v - c.dv) 0)
    ∧ (v < 0 → 0 < d → moveVelocity c rate v d = min (v + c.dv) 0)
    ∧ (v = 0 ∨ (0 < v ∧ 0 < d) ∨ (v < 0 ∧ d < 0) → ¬(v ≠ 0 ∧ v.sign ≠ d.sign)) := by
  refine ⟨fun hv hd => ?_, fun hv hd => ?_, fun hsame ⟨hv, hsign⟩ => ?_⟩
  · rw [moveVelocity_reverses ⟨by omega, by rw [Int.sign_eq_one_of_pos hv, Int.sign_eq_neg_one_of_neg hd]; decide⟩, shed,
      if_pos hv]
  · rw [moveVelocity_reverses ⟨by omega, by rw [Int.sign_eq_neg_one_of_neg hv, Int.sign_eq_one_of_pos hd]; decide⟩, shed,
      if_neg (by omega)]
  · rcases hsame with h | ⟨hv, hd⟩ | ⟨hv, hd⟩
    · exact hv h
    · rw [Int.sign_eq_one_of_pos hv, Int.sign_eq_one_of_pos hd] at hsign
      exact hsign rfl
    · rw [Int.sign_eq_neg_one_of_neg hv, Int.sign_eq_neg_one_of_neg hd] at hsign
      exact hsign rfl

theorem moveDistance_cw {target cmd : Int} (ht : 0 ≤ target ∧ target < 360000) (hc : 0 ≤ cmd ∧ cmd < 360000) :
    moveDistance .wrap .cw target cmd = if cmd ≤ target then target - cmd else target - cmd + 360000 := by
  unfold moveDistance
  dsimp only
  omega

theorem moveDistance_ccw {target cmd : Int} (ht : 0 ≤ target ∧ target < 360000) (hc : 0 ≤ cmd ∧ cmd < 360000) :
    moveDistance .wrap .ccw target cmd = if target ≤ cmd then target - cmd else target - cmd - 360000 := by
  unfold moveDistance
  dsimp only
  omega

theorem covers_iff {travel d : Int} (h : d ≠ 0) :
    covers travel d = true ↔ (0 < d ∧ d ≤ travel) ∨ (d < 0 ∧ travel ≤ d) := by
  unfold covers
  split <;> rw [decide_eq_true_iff] <;> omega

/-- The turns of an axis that arrives over a distance d (log 21). -/
def arrivalTurns (form : AxisForm) (x : Axis) (d : Int) : Int :=
  match form with
  | .wrap => (Wrapped x.turns (x.cmd.getD 0 + d)).2
  | .bounded _ _ => x.turns

theorem Axis.arrive_eq (x : Axis) (form : AxisForm) (target d : Int) : x.arrive form target d =
    { x with mode := .hold, v := 0, residue := 0, cmd := some target, turns := arrivalTurns form x d } := by
  cases form <;> rfl

/-- How far the advance of a MOVE goes: to the soft limit it meets, or by the velocity (R116). -/
def moveTravel (c : AxisConfig) (x : Axis) (v : Int) : Int :=
  if (advance c.form x v).2 = true then (advance c.form x v).1.cmd.getD 0 - x.cmd.getD 0 else (v + x.residue) / 100

section
variable {c : AxisConfig} {x : Axis} {target d v : Int} {direction : Direction} {rate : Nat}
  (hd : moveDistance c.form direction target (x.cmd.getD 0) = d) (hv : moveVelocity c rate x.v d = v)
include hd

theorem moveUpdate_there (h : d = 0) : moveUpdate c x target direction rate = (x.arrive c.form target d, true) := by
  subst h
  unfold moveUpdate
  rw [hd]
  rfl

include hv

theorem moveUpdate_away (h : d ≠ 0) : moveUpdate c x target direction rate =
    if covers (moveTravel c x v) d = true then (x.arrive c.form target d, true) else ((advance c.form x v).1, false) := by
  unfold moveUpdate
  rw [hd]
  dsimp only
  rw [hv, if_neg h]
  rfl

theorem moveUpdate_arrives (h : d = 0 ∨ (0 < d ∧ d ≤ moveTravel c x v) ∨ (d < 0 ∧ moveTravel c x v ≤ d)) :
    moveUpdate c x target direction rate = (x.arrive c.form target d, true) := by
  by_cases h0 : d = 0
  · exact moveUpdate_there hd h0
  · rw [moveUpdate_away hd hv h0, if_pos ((covers_iff h0).mpr (h.resolve_left h0))]

theorem moveUpdate_advances (h0 : d ≠ 0) (h : ¬((0 < d ∧ d ≤ moveTravel c x v) ∨ (d < 0 ∧ moveTravel c x v ≤ d))) :
    moveUpdate c x target direction rate = ((advance c.form x v).1, false) := by
  rw [moveUpdate_away hd hv h0, if_neg fun hcov => h ((covers_iff h0).mp hcov)]

end

/-- An arrival at once counts no turn. -/
theorem arrivalTurns_there {form : AxisForm} {x : Axis} (hlo : 0 ≤ x.cmd.getD 0 ∨ form ≠ .wrap)
    (hhi : x.cmd.getD 0 < 360000 ∨ form ≠ .wrap) : arrivalTurns form x 0 = x.turns := by
  cases form with
  | wrap =>
    rw [arrivalTurns, wrapped_within (by simpa using hlo) (by simpa using hhi)]
  | bounded l u => rfl

theorem movesRun : MovesRun := by
  refine ⟨fun c rate v d _ => ?velocity, fun _ _ _ _ => ⟨rfl, rfl, rfl⟩, fun target cmd ht0 ht1 hc0 hc1 => ?distance,
    fun c x target direction rate => ?update⟩
  case velocity =>
    obtain ⟨hdown, hup, hsame⟩ := moveVelocities c rate v d
    exact ⟨hdown, hup, fun h => moveVelocity_forward (hsame h)⟩
  case distance =>
    have hrange := shortestWay_range (target - cmd)
    exact ⟨⟨hrange.1, hrange.2, shortestWay_emod _⟩, moveDistance_cw ⟨ht0, ht1⟩ ⟨hc0, hc1⟩,
      moveDistance_ccw ⟨ht0, ht1⟩ ⟨hc0, hc1⟩⟩
  case update =>
    refine ⟨fun h => ?_, fun h0 h => moveUpdate_advances rfl rfl h0 h, fun h0 hlo hhi => ?_⟩
    · exact (moveUpdate_arrives rfl rfl h).trans (congrArg (·, true) (Axis.arrive_eq _ _ _ _))
    · rw [h0]
      exact arrivalTurns_there hlo hhi

/-! ## SPIN, STOPPING and FOLLOW (R117, R118, R121) -/

theorem stopUpdate_eq (c : AxisConfig) (x : Axis) (dv : Nat) : stopUpdate c x dv =
    if shed x.v dv = 0 ∨ (advance c.form x (shed x.v dv)).2 = true then
      ((advance c.form x (shed x.v dv)).1.held, true)
    else ((advance c.form x (shed x.v dv)).1, false) := rfl

/-- The travel of a FOLLOW over a distance e, limited to Vmax (R121). -/
def followTravel (c : AxisConfig) (e : Int) : Int :=
  if ((c.vmax / 100 : Nat) : Int) < e.natAbs then e.sign * ((c.vmax / 100 : Nat) : Int) else e

section
variable {c : AxisConfig} (x leader : Axis) (numerator : Int) (denominator : Nat) (offset : Int)

theorem followUpdate_wrap (h : c.form = .wrap) {q e : Int}
    (hq : (leader.turns * 360000 + leader.cmd.getD 0) * numerator / (denominator : Int) = q)
    (he : shortestWay ((q + offset) % 360000 - x.cmd.getD 0) = e) :
    followUpdate c x leader numerator denominator offset =
      { x with
        cmd := some (Wrapped x.turns (x.cmd.getD 0 + followTravel c e)).1
        turns := (Wrapped x.turns (x.cmd.getD 0 + followTravel c e)).2
        v := followTravel c e * 100, residue := 0, lag := decide (((c.vmax / 100 : Nat) : Int) < e.natAbs) } := by
  subst hq he
  unfold followUpdate
  rw [h]
  rfl

theorem followUpdate_bounded {l u : Int} (h : c.form = .bounded l u) {q e : Int}
    (hq : (leader.turns * 360000 + leader.cmd.getD 0) * numerator / (denominator : Int) = q)
    (he : max l (min u (q + offset)) - x.cmd.getD 0 = e) :
    followUpdate c x leader numerator denominator offset =
      { x with
        cmd := some (x.cmd.getD 0 + followTravel c e)
        v := followTravel c e * 100, residue := 0, lag := decide (((c.vmax / 100 : Nat) : Int) < e.natAbs) } := by
  subst hq he
  unfold followUpdate
  rw [h]
  rfl

end

theorem Axis.stop_eq (x : Axis) (dv : Nat) : x.stop dv =
    if x.mode.moving = false then (x, false)
    else if x.v = 0 then ({ x with mode := .hold, v := 0, residue := 0 }, true)
    else ({ x with mode := .stopping dv }, false) := by
  unfold Axis.stop
  cases x.mode.moving <;> rfl

theorem spinsStopsFollows : SpinsStopsFollows := by
  refine ⟨Axis.stop_eq, fun _ _ _ => rfl, fun c x dv => stopUpdate_eq c x dv,
    fun c x leader numerator denominator offset => ⟨fun l u hform => ?bounded, fun hform => ?wrap⟩⟩
  case bounded => exact followUpdate_bounded x leader numerator denominator offset hform rfl rfl
  case wrap =>
    generalize hq : (leader.turns * 360000 + leader.cmd.getD 0) * numerator / (denominator : Int) = q
    have hrange := shortestWay_range ((q + offset) % 360000 - x.cmd.getD 0)
    have hturns := shortestWay_emod ((q + offset) % 360000 - x.cmd.getD 0)
    refine ⟨_, hrange.1, hrange.2, ?_, followUpdate_wrap x leader numerator denominator offset hform hq rfl⟩
    omega

/-! ## The profile -/

theorem axisProfilesComputed : AxisProfilesComputed := by
  refine ⟨positionsAdvance, movesRun, spinsStopsFollows, fun leaders c x => ⟨fun t d r h => ?move, fun r h => ?spin,
    fun dv h => ?stopping, fun l n d o h => ?follow, fun h => ?hold, fun h => ?disabled⟩⟩
  case disabled =>
    unfold profile
    cases hm : x.mode with
    | off | fault => rfl
    | _ => rw [hm] at h; cases h
  all_goals
    unfold profile
    rw [h]

/-! ## The update in its slot (R111, R137, R138, R158) -/

variable {s : State} {a : AxisNo} {c : AxisConfig}

/-- An update whose slot has come: the profile, the frame, the dwell and the LAG latch told, the settle event; in LISTEN the
reply heard. -/
theorem State.update_eq (hc : (s.axis a).config = some c) :
    let x := s.axis a
    let y := (profile s.axis c x).1
    let u := ((s.setAxis a (updated s x y)).driveFrame a y).noteUpdate a
    let u := if y.lag = true then u.latchAxis a fun l => { l with lag := true } else u
    let u := if (profile s.axis c x).2 = true then u.settle a else u
    s.update a = if s.mode = .listen then u.takeReply a x.heard else u := by
  unfold State.update
  dsimp only
  rw [hc]
  rfl

theorem execAxisUpdate_early (h : (s.axis a).config = none ∨ (s.axis a).slotTaken = true ∨ s.cycle ≠ 800 * a.val) :
    exec (.axisUpdate a) s = .next s := by
  refine congrArg _ (if_neg fun hdue => ?_)
  obtain ⟨hconfig, hfree, hcycle⟩ : (s.axis a).config ≠ none ∧ (s.axis a).slotTaken = false ∧ s.cycle = 800 * a.val :=
    s.slotDue_iff a |>.mp hdue
  rcases h with h | h | h
  · exact hconfig h
  · rw [hfree] at h
    cases h
  · exact h hcycle

theorem execAxisUpdate_due (hc : (s.axis a).config = some c) (hfree : (s.axis a).slotTaken = false)
    (hcycle : s.cycle = 800 * a.val) : exec (.axisUpdate a) s = .next (s.update a) := by
  have hdue : s.slotDue a = true := (s.slotDue_iff a).mpr ⟨by rw [hc]; exact Option.some_ne_none c, hfree, hcycle⟩
  exact congrArg _ (if_pos hdue)

theorem frameCommandFor_eq (o : OutputMode) (m : AxisMode) : frameCommandFor o m =
    if m.enabled = false then .disable else if o = .rehearse then .hold else .enable := by
  unfold frameCommandFor
  cases m.enabled <;> rfl

theorem State.noteUpdate_eq (s : State) (a : AxisNo) : s.noteUpdate a = { s with
    verifier := { s.verifier with updateSeen := s.verifier.updateSeen || decide (s.verifier.scan = some a) } } := by
  unfold State.noteUpdate
  by_cases h : s.verifier.scan = some a
  · rw [if_pos h, decide_eq_true h, Bool.or_true]
  · rw [if_neg h, decide_eq_false h, Bool.or_false]

theorem State.driveFrame_eq (s : State) (a : AxisNo) (x : Axis) : s.driveFrame a x = { s with
    motion := { s.motion with
      line := if s.mode = .listen then s.motion.line
        else some ⟨setpointBytes a (frameCommandFor s.mode x.mode) (s.setpointOf x), s.now + 90⟩ }
    choices := if x.cmd = none ∧ s.mode ≠ .listen then s.choices + 1 else s.choices } := by
  unfold State.driveFrame
  by_cases h : s.mode = .listen
  · simp only [h, if_true, ne_eq, not_true, and_false, if_false]
  · simp only [h, if_false, ne_eq, not_false_eq_true, and_true, Option.isNone_iff_eq_none]
    rfl

theorem State.setpointOf_cmd (s : State) {x : Axis} {p : Int} (h : x.cmd = some p) : s.setpointOf x = BitVec.ofInt 32 p := by
  unfold State.setpointOf
  rw [h]

theorem axisUpdated : AxisUpdated := by
  refine ⟨fun s a => ⟨execAxisUpdate_early, fun c hc hfree hcycle => ?_⟩, fun _ _ _ => rfl, rfl, rfl, rfl⟩
  dsimp only
  refine ⟨s.setpointOf (profile s.axis c (s.axis a)).1, fun p hp => s.setpointOf_cmd hp, ?_⟩
  rw [execAxisUpdate_due hc hfree hcycle, State.update_eq hc, State.noteUpdate_eq, State.driveFrame_eq, ← frameCommandFor_eq]
  rfl

/-- Settles O46: each mode's profile is that of its rule, and the update in its slot is the profile, the frame and the
settle event. -/
theorem axisUpdates : Obligations.AxisUpdates := ⟨axisProfilesComputed, axisUpdated⟩

end Sys2Proof.Machine
end

section
/-! SUPPORT. Amplifier replies and axis faults (R112, R113, R116, R122, R129, R137, R158): which bytes are a reply and which axis
they reach, what a reply taken or missing leaves and finds, and what a fault does. -/
namespace Sys2Proof.Machine

variable {s : State} {a : AxisNo} {c : AxisConfig}

/-! ## Replies on the bus (R158) -/

theorem statusOf_eq_some_iff {b : Byte} {st : AmpStatus} : statusOf b = some st ↔
    (b = 0 ∧ st = .ready) ∨ (b = 1 ∧ st = .notReady) ∨ (b = 2 ∧ st = .fault) := by
  unfold statusOf
  split
  case isTrue h => subst h; cases st <;> simp
  case isFalse h0 =>
    split
    case isTrue h => subst h; cases st <;> simp
    case isFalse h1 =>
      split
      case isTrue h => subst h; cases st <;> simp
      case isFalse h2 => exact ⟨fun h => (by cases h), fun h => (by tauto)⟩

/-- The bytes read as a reply are those of a valid one. -/
theorem readReply_eq_some_iff {bytes : List Byte} {address : Byte} {r : AmpReply} :
    readReply bytes = some (address, r) ↔ IsReply bytes address r := by
  constructor
  · intro h
    unfold readReply at h
    split at h
    case h_2 => cases h
    case h_1 start address' status m3 m2 m1 m0 c1 c0 =>
      split at h
      case isFalse => cases h
      case isTrue hframe =>
        obtain ⟨st, hst, heq⟩ := Option.map_eq_some_iff.mp h
        cases heq
        obtain ⟨rfl, hcheck⟩ := hframe
        exact ⟨status, m3, m2, m1, m0, c1, c0, rfl, hcheck, statusOf_eq_some_iff.mp hst, rfl⟩
  · rintro ⟨status, m3, m2, m1, m0, c1, c0, rfl, hcheck, hstatus, hmeasured⟩
    have hst : statusOf status = some r.status := statusOf_eq_some_iff.mpr hstatus
    unfold readReply
    dsimp only
    rw [if_pos ⟨rfl, hcheck⟩, hst, ← hmeasured]
    rfl

/-- The address of an axis on the bus. -/
theorem toNat_axisAddress (a : AxisNo) : (BitVec.ofNat 8 (a.val + 1)).toNat = a.val + 1 := by
  have := a.isLt
  rw [BitVec.toNat_ofNat]
  omega

theorem axisAddress_eq {address : Byte} (h : address.toNat = a.val + 1) : address = BitVec.ofNat 8 (a.val + 1) :=
  BitVec.eq_of_toNat_eq (h.trans (toNat_axisAddress a).symm)

/-! ## The axis whose reply is awaited (R158) -/

theorem State.heardReply_eq_some_iff {bytes : List Byte} {r : AmpReply} : s.heardReply a bytes = some r ↔
    IsReply bytes (BitVec.ofNat 8 (a.val + 1)) r ∧ ∃ c, (s.axis a).config = some c ∧ c.form.inRange r.measured = true := by
  unfold State.heardReply
  split
  case h_1 address reply c hread hconfig =>
    rw [readReply_eq_some_iff] at hread
    rw [Option.ite_none_right_eq_some, Option.some_inj]
    constructor
    · rintro ⟨⟨haddress, hrange⟩, rfl⟩
      exact ⟨axisAddress_eq haddress ▸ hread, c, hconfig, hrange⟩
    · rintro ⟨hreply, k, hk, hrange⟩
      have hsame := (readReply_eq_some_iff.mpr hread).symm.trans (readReply_eq_some_iff.mpr hreply)
      cases hsame
      cases hconfig.symm.trans hk
      exact ⟨⟨toNat_axisAddress a, hrange⟩, rfl⟩
  case h_2 hnot =>
    refine ⟨fun h => (by cases h), fun ⟨hreply, k, hk, _⟩ => ?_⟩
    exact (hnot _ _ k (readReply_eq_some_iff.mpr hreply) hk).elim

/-- What `State.awaited` asks of an axis. -/
def Axis.awaits (x : Axis) (now : Instant) : Bool :=
  match x.awaiting with
  | some deadline => reached (deadline - micros Config.replyAllowance) now && !before deadline now
  | none => false

theorem State.awaited_eq (s : State) : s.awaited = (indexes 12).find? fun a => (s.axis a).awaits s.now := rfl

theorem inAllowance_iff (s : State) (a : AxisNo) : (s.axis a).awaits s.now = true ↔ InAllowance s a := by
  unfold Axis.awaits InAllowance
  cases (s.axis a).awaiting with
  | none => simp
  | some t =>
    simp only [Bool.and_eq_true, reached_iff, Bool.not_eq_true', Option.some.injEq, exists_eq_left']
    exact Iff.rfl

theorem State.inAllowance_of_awaited (h : s.awaited = some a) : InAllowance s a :=
  (inAllowance_iff s a).mp (List.find?_some (p := fun b => (s.axis b).awaits s.now) (s.awaited_eq ▸ h))

theorem State.awaited_of_inAllowance (h : InAllowance s a) (hothers : ∀ b, b ≠ a → ¬InAllowance s b) :
    s.awaited = some a := by
  rw [State.awaited_eq]
  refine find?_finRange ((inAllowance_iff s a).mpr h) fun b hb => ?_
  rw [← Bool.not_eq_true, inAllowance_iff]
  exact hothers b (ne_of_lt hb)

theorem exec_axisReply_eq (s : State) (bytes : List Byte) : exec (.axisReply bytes) s = .next (s.takeBytes bytes) := rfl

theorem exec_axisReply_unawaited {bytes : List Byte} (h : s.awaited = none) : exec (.axisReply bytes) s = .next s := by
  rw [exec_axisReply_eq]
  unfold State.takeBytes
  rw [h]

theorem exec_axisReply_taken {bytes : List Byte} {r : AmpReply} (h : s.awaited = some a)
    (hr : s.heardReply a bytes = some r) : exec (.axisReply bytes) s = .next (s.takeReply a (some r)) := by
  rw [exec_axisReply_eq]
  unfold State.takeBytes
  rw [h]
  dsimp only
  rw [hr]

theorem exec_axisReply_left {bytes : List Byte} (h : s.awaited = some a) (hr : s.heardReply a bytes = none) :
    exec (.axisReply bytes) s = .next s := by
  rw [exec_axisReply_eq]
  unfold State.takeBytes
  rw [h]
  dsimp only
  rw [hr]

/-! ## The end of the allowance (R112) -/

theorem exec_axisReplyTimeout_early (h : ∀ t, (s.axis a).awaiting = some t → before s.now t = true) :
    exec (.axisReplyTimeout a) s = .next s := by
  refine congrArg _ (if_neg fun hover => ?_)
  obtain ⟨t, ht, hpassed⟩ : ∃ t, (s.axis a).awaiting = some t ∧ before s.now t = false := (s.replyOverdue_iff a).mp hover
  rw [h t ht] at hpassed
  cases hpassed

theorem exec_axisReplyTimeout_over {t : Instant} (ht : (s.axis a).awaiting = some t) (h : before s.now t = false) :
    exec (.axisReplyTimeout a) s = .next (s.takeReply a none) :=
  congrArg _ (if_pos ((s.replyOverdue_iff a).mpr ⟨t, ht, h⟩))

/-! ## Replies decoded in LISTEN (R138) -/

theorem exec_axisBusDecode_eq (s : State) (bytes : List Byte) :
    exec (.axisBusDecode bytes) s = .next (s.decodeBus bytes) := rfl

theorem exec_axisBusDecode_unread {bytes : List Byte} (h : s.mode ≠ .listen ∨ readReply bytes = none) :
    exec (.axisBusDecode bytes) s = .next s := by
  rw [exec_axisBusDecode_eq]
  unfold State.decodeBus
  split
  case isFalse => rfl
  case isTrue hm => rw [h.resolve_left (not_not_intro hm)]

theorem exec_axisBusDecode_stranger {bytes : List Byte} {address : Byte} {r : AmpReply} (h : readReply bytes = some (address, r))
    (hnone : ∀ a : AxisNo, address.toNat ≠ a.val + 1) : exec (.axisBusDecode bytes) s = .next s := by
  rw [exec_axisBusDecode_eq]
  unfold State.decodeBus
  rw [h]
  dsimp only
  split
  case isFalse => rfl
  case isTrue =>
    split
    case h_2 => rfl
    case h_1 a ha =>
      refine congrArg _ (if_neg fun ⟨hlow, _⟩ => hnone a ?_)
      have := index?_eq_some_iff.mp ha
      omega

theorem exec_axisBusDecode_addressed {bytes : List Byte} {r : AmpReply} (hm : s.mode = .listen)
    (h : readReply bytes = some (BitVec.ofNat 8 (a.val + 1), r)) : exec (.axisBusDecode bytes) s =
      .next (if (s.axis a).hears r = true then s.setAxis a { s.axis a with heard := some r } else s) := by
  rw [exec_axisBusDecode_eq]
  unfold State.decodeBus
  rw [if_pos hm, h]
  dsimp only
  rw [toNat_axisAddress, Nat.add_sub_cancel, index?_val]
  exact congrArg _ (if_congr (and_iff_right (Nat.le_add_left 1 a.val)) rfl rfl)

theorem Axis.hears_configured {x : Axis} (h : x.config = some c) (r : AmpReply) : x.hears r = c.form.inRange r.measured := by
  unfold Axis.hears
  rw [h]

theorem Axis.hears_unconfigured {x : Axis} (h : x.config = none) (r : AmpReply) : x.hears r = false := by
  unfold Axis.hears
  rw [h]

theorem repliesReachAxes : RepliesReachAxes := by
  refine ⟨fun s bytes => ⟨exec_axisReply_unawaited, fun a ha => ⟨fun r c hr hc hrange => ?taken, fun hnone => ?left⟩⟩,
    fun s a => State.inAllowance_of_awaited, fun s a => State.awaited_of_inAllowance,
    fun s a => ⟨exec_axisReplyTimeout_early, fun t => exec_axisReplyTimeout_over⟩,
    fun s bytes => ⟨fun hm => exec_axisBusDecode_unread (.inl hm), fun a r c hm hr hc => ?kept, fun a r hr hc => ?unkept,
      fun address r hr hnone => exec_axisBusDecode_stranger (readReply_eq_some_iff.mpr hr) hnone, fun hnone => ?unread⟩⟩
  case taken => exact exec_axisReply_taken ha (State.heardReply_eq_some_iff.mpr ⟨hr, c, hc, hrange⟩)
  case left =>
    refine exec_axisReply_left ha (Option.eq_none_iff_forall_ne_some.mpr fun r hr => ?_)
    obtain ⟨hreply, c, hc, hrange⟩ := State.heardReply_eq_some_iff.mp hr
    rw [hnone r c hreply hc] at hrange
    cases hrange
  case kept =>
    rw [exec_axisBusDecode_addressed hm (readReply_eq_some_iff.mpr hr), Axis.hears_configured hc]
  case unkept =>
    by_cases hm : s.mode = .listen
    · rw [exec_axisBusDecode_addressed hm (readReply_eq_some_iff.mpr hr), Axis.hears_unconfigured hc]
      rfl
    · exact exec_axisBusDecode_unread (.inl hm)
  case unread =>
    refine exec_axisBusDecode_unread (.inr (Option.eq_none_iff_forall_ne_some.mpr fun ⟨address, r⟩ h => ?_))
    exact hnone address r (readReply_eq_some_iff.mp h)

/-! ## What a reply finds (R112) -/

theorem AxisConfig.overtravel_iff (c : AxisConfig) (m : Int) : c.overtravel m = true ↔
    ∃ l u, c.form = .bounded l u ∧ (m < l - c.tolerance ∨ u + c.tolerance < m) := by
  unfold AxisConfig.overtravel
  cases c.form with
  | wrap => exact ⟨fun h => (by cases h), fun ⟨_, _, h, _⟩ => (by cases h)⟩
  | bounded l u =>
    rw [Bool.or_eq_true, decide_eq_true_iff, decide_eq_true_iff]
    exact ⟨fun h => ⟨l, u, rfl, h⟩, fun ⟨_, _, hform, h⟩ => by cases hform; exact h⟩

/-- The amplifier has failed: it was enabled, and reports a fault, or not ready where it was enabled before too. -/
def Axis.ampFailed (x : Axis) (status : AmpStatus) : Prop :=
  x.lastCommand = some .enable ∧ (status = .fault ∨ (status = .notReady ∧ x.previousCommand = some .enable))

theorem replyFault_failed {x : Axis} {status : AmpStatus} (h : x.ampFailed status) (m : Int) :
    replyFault c x status m = some .ampFault := by
  obtain ⟨henable, hfault | ⟨hready, hbefore⟩⟩ := h
  · exact if_pos ⟨hfault, henable⟩
  · rw [replyFault, if_neg fun h => by rw [hready] at h; cases h.1]
    exact if_pos ⟨hready, henable, hbefore⟩

theorem replyFault_sound {x : Axis} {status : AmpStatus} (h : ¬x.ampFailed status) (m : Int) :
    replyFault c x status m = if c.overtravel m = true then some .overtravel else none := by
  rw [replyFault, if_neg fun hf => h ⟨hf.2, .inl hf.1⟩, if_neg fun hr => h ⟨hr.2.1, .inr ⟨hr.1, hr.2.2⟩⟩]

/-! ## The order of a fault and the counts (R128, R129) -/

theorem State.dwellEnds_iff (s : State) (a : AxisNo) : s.dwellEnds a = true ↔
    s.verifier.scan = some a ∧ s.verifier.updateSeen = true ∧ 20 ≤ s.verifier.dwell + 1 := by
  rw [State.dwellEnds, Bool.and_eq_true, Bool.and_eq_true, beq_iff_eq, decide_eq_true_iff, and_assoc]
  exact Iff.rfl

/-- A fault and the verifier's count come in the order of R112, or in either where the count ends the dwell (log 49). -/
theorem State.countReply_fault (s : State) (a : AxisNo) (valid : Bool) (cause : AxisFaultCause) :
    FaultCounted s a valid cause ((s.countReply a valid (some cause)).exerciseUpdate a) := by
  unfold State.countReply
  dsimp only
  refine ⟨fun hstays => ?_, fun hends => ?_⟩
  · rw [if_neg (mt (s.dwellEnds_iff a).mp hstays)]
  · rw [if_pos ((s.dwellEnds_iff a).mpr hends)]
    cases s.freeBool
    · exact .inr rfl
    · exact .inl rfl

/-! ## Replies taken and missing (R112, R137) -/

theorem State.loopsBack_iff (s : State) (a : AxisNo) :
    s.loopsBack a = true ↔ s.mode = .rehearse ∧ (s.axis a).mode.enabled = true := by
  rw [State.loopsBack, Bool.and_eq_true, beq_iff_eq]

/-- The measured position a valid reply leaves: in REHEARSE that of an enabled axis is looped back (R137, log 20). -/
def State.measuredBy (s : State) (a : AxisNo) (r : AmpReply) : Int :=
  if s.mode = .rehearse ∧ (s.axis a).mode.enabled = true then (s.axis a).slotCmd.getD r.measured else r.measured

/-- The state in which a valid reply has been taken. -/
def State.replied (s : State) (a : AxisNo) (m : Int) : State :=
  s.setAxis a { s.axis a with
    awaiting := none, missed := 0, measured := some m, cmd := if (s.axis a).mode = .off then some m else (s.axis a).cmd }

theorem State.replyValid_eq (s : State) (a : AxisNo) (c : AxisConfig) (r : AmpReply) : s.replyValid a c r =
    (s.replied a (s.measuredBy a r), replyFault c (s.axis a) r.status (s.measuredBy a r)) := by
  have hm : s.measuredBy a r = if s.loopsBack a = true then (s.axis a).slotCmd.getD r.measured else r.measured :=
    if_congr (s.loopsBack_iff a).symm rfl rfl
  rw [hm]
  rfl

theorem State.takeReply_valid {r : AmpReply} (hc : (s.axis a).config = some c) (hr : c.form.inRange r.measured = true) :
    s.takeReply a (some r) = ((s.replied a (s.measuredBy a r)).countReply a true
      (replyFault c (s.axis a) r.status (s.measuredBy a r))).exerciseUpdate a := by
  unfold State.takeReply
  rw [hc]
  dsimp only
  rw [Option.filter_some, if_pos hr]
  dsimp only
  rw [State.replyValid_eq]

/-- The state in which the reply of an update has been found missing. -/
def State.unanswered (s : State) (a : AxisNo) : State :=
  s.setAxis a { s.axis a with
    awaiting := none, missed := min 3 ((s.axis a).missed + 1)
    measured := if (s.mode = .rehearse ∧ (s.axis a).mode.enabled = true) ∧ (s.axis a).slotCmd ≠ none
      then (s.axis a).slotCmd else (s.axis a).measured }

theorem State.replyMissing_eq (s : State) (a : AxisNo) : s.replyMissing a =
    (s.unanswered a, if min 3 ((s.axis a).missed + 1) = 3 then some .axisLink else none) := by
  have hloop : (s.loopsBack a && (s.axis a).slotCmd.isSome) = true ↔
      (s.mode = .rehearse ∧ (s.axis a).mode.enabled = true) ∧ (s.axis a).slotCmd ≠ none := by
    rw [Bool.and_eq_true, s.loopsBack_iff, Option.isSome_iff_ne_none]
  unfold State.replyMissing State.unanswered
  simp only [hloop]

theorem State.takeReply_missing (hc : (s.axis a).config = some c) : s.takeReply a none =
    ((s.unanswered a).countReply a false
      (if min 3 ((s.axis a).missed + 1) = 3 then some .axisLink else none)).exerciseUpdate a := by
  unfold State.takeReply
  rw [hc]
  dsimp only
  rw [Option.filter_none, State.replyMissing_eq]

theorem repliesTaken : RepliesTaken := by
  intro s a c hc x rehearsed
  refine ⟨fun r hr => ?valid, ?missing⟩
  case valid =>
    intro m y u after enable failed beyond
    have htaken : s.takeReply a (some r) = (u.countReply a true (replyFault c x r.status m)).exerciseUpdate a :=
      State.takeReply_valid hc hr
    refine ⟨fun hfail => ?_, fun hsound hover => ?_, fun hsound hnear => ?_⟩
    · rw [htaken, replyFault_failed hfail]
      exact u.countReply_fault a true .ampFault
    · rw [htaken, replyFault_sound hsound, if_pos ((c.overtravel_iff m).mpr hover)]
      exact u.countReply_fault a true .overtravel
    · rw [htaken, replyFault_sound hsound, if_neg (mt (c.overtravel_iff m).mp hnear)]
      rfl
  case missing =>
    intro missed m u after
    have htaken : s.takeReply a none = (u.countReply a false (if missed = 3 then some .axisLink else none)).exerciseUpdate a :=
      State.takeReply_missing hc
    refine ⟨fun hfew => ?_, fun hthree => ?_⟩
    · rw [htaken, if_neg (Nat.ne_of_lt hfew)]
      rfl
    · rw [htaken, if_pos hthree]
      exact u.countReply_fault a false .axisLink

/-! ## Faults (R113) -/

theorem axesFault : AxesFault := by
  intro s a cause x
  refine ⟨fun hoff => if_neg (ne_true_of_eq_false hoff), fun hon => ?_⟩
  have hfaulted : x.enterFault cause =
      { x with mode := .fault cause, cmd := if x.measured = none then x.cmd else x.measured, v := 0, residue := 0 } := by
    unfold Axis.enterFault
    cases x.measured <;> rfl
  rw [← hfaulted]
  exact if_pos hon

/-! ## Followers, settle events and the exercise (R116, R122, R134) -/

theorem State.stopFollower_other {leader f : AxisNo} (h : ∀ n d o, (s.axis f).mode ≠ .follow leader n d o) :
    s.stopFollower leader f = s := by
  unfold State.stopFollower
  split
  case h_1 l n d o hm =>
    refine if_neg fun hl => h n d o ?_
    rw [hm, hl]
  case h_2 => rfl

/-- A follower of the leader is given STOP with its own dv. -/
theorem State.stopFollower_stops {leader f : AxisNo} {n o : Int} {d : Nat} (h : (s.axis f).mode = .follow leader n d o) :
    s.stopFollower leader f = if ((s.axis f).stop (s.axis f).dv).2 = true
      then (GivenTo s f ((s.axis f).stop (s.axis f).dv).1).settle f else GivenTo s f ((s.axis f).stop (s.axis f).dv).1 := by
  have hmoving : (s.axis f).mode.moving = true := by rw [h]; rfl
  unfold State.stopFollower
  rw [h]
  dsimp only
  rw [if_pos rfl, State.stopAxis, if_pos hmoving]
  dsimp only
  rw [State.setAxis_disturb]

theorem Axis.stop_rest {x : Axis} (hm : x.mode.moving = true) (hv : x.v = 0) (dv : Nat) :
    x.stop dv = ({ x with mode := .hold, v := 0, residue := 0 }, true) := by
  rw [Axis.stop, if_pos hm, if_pos hv, Axis.held]

theorem Axis.stop_turning {x : Axis} (hm : x.mode.moving = true) (hv : x.v ≠ 0) (dv : Nat) :
    x.stop dv = ({ x with mode := .stopping dv }, false) := by
  rw [Axis.stop, if_pos hm, if_neg hv]

theorem Axis.dv_configured {x : Axis} (h : x.config = some c) : x.dv = c.dv := by
  unfold Axis.dv
  rw [h]

/-- The abort of a running exercise is its record done, the notice and the claim, and then the walk. -/
theorem State.abortExercise_eq {e : Exercise} (h : s.exercise = some e) (hp : e.phase ≠ .done) (cause : AbortCause) :
    s.abortExercise cause = (ExerciseAbortedBy cause s).walk := by
  unfold State.abortExercise ExerciseAbortedBy
  rw [State.exercising_of_phase h hp, h]
  dsimp only
  rw [if_neg hp]
  rfl

theorem State.exerciseFault_spared (h : ∀ e, s.exercise = some e → e.axis = a → e.phase = .done) :
    s.exerciseFault a = s := by
  unfold State.exerciseFault
  split
  case h_1 e he =>
    obtain ⟨hsome, hphase⟩ := State.exercising_spec he
    exact if_neg fun hax => hphase (h e hsome hax)
  case h_2 => rfl

theorem State.exerciseFault_aborts {e : Exercise} (h : s.exercise = some e) (hax : e.axis = a) (hp : e.phase ≠ .done) :
    s.exerciseFault a = (ExerciseAbortedBy .fault s).walk := by
  unfold State.exerciseFault
  rw [State.exercising_of_phase h hp]
  dsimp only
  rw [if_pos hax, State.abortExercise_eq h hp]

theorem faultsSpread : FaultsSpread := by
  refine ⟨fun _ _ => rfl, fun s leader f => ⟨State.stopFollower_other, fun n d o h => ?follower⟩, fun _ _ => ⟨rfl, rfl⟩,
    fun s a => ⟨State.exerciseFault_spared, fun e => State.exerciseFault_aborts⟩⟩
  case follower =>
    have hmoving : (s.axis f).mode.moving = true := by rw [h]; rfl
    refine ⟨fun hv => ?_, fun c hv hc => ?_⟩
    · rw [State.stopFollower_stops h, Axis.stop_rest hmoving hv]
      rfl
    · rw [State.stopFollower_stops h, Axis.stop_turning hmoving hv, Axis.dv_configured hc]
      rfl

/-- Settles O47: the bus hands a valid reply to the axis awaited, the reply or its absence finds a fault or none, and a fault
goes through the steps of R113. -/
theorem axisRepliesTaken : Obligations.AxisRepliesTaken := ⟨repliesReachAxes, repliesTaken, axesFault, faultsSpread⟩

end Sys2Proof.Machine
end

section
/-! SUPPORT. The tracking verifier (R128 … R131): the next dwell axis as the first eligible one of the cyclic order, the switch
of SET_VERIFY, and the updates that a dwell counts, with the verdict of the last. -/
namespace Sys2Proof.Machine

variable {s : State} {a : AxisNo}

/-! ## The next dwell axis (R128) -/

theorem State.eligible_iff (s : State) (a : AxisNo) :
    s.eligible a = true ↔ (s.axis a).config ≠ none ∧ (s.axis a).mode.enabled = true := by
  rw [State.eligible, Bool.and_eq_true, Option.isSome_iff_ne_none]

/-- The axis at a place of the cyclic order that begins after the last dwell axis. -/
def scanAxis (last : Option AxisNo) (i : AxisNo) : AxisNo :=
  match last with
  | some l => l + 1 + i
  | none => i

/-- The place of an axis in that order. -/
def scanPlace (last : Option AxisNo) (a : AxisNo) : Nat :=
  match last with
  | some l => (a.val + 11 - l.val) % 12
  | none => a.val

theorem scanOrder_eq (last : Option AxisNo) : scanOrder last = (List.finRange 12).map (scanAxis last) := by
  cases last <;> rfl

theorem scanPlace_lt (last : Option AxisNo) (a : AxisNo) : scanPlace last a < 12 := by
  cases last with
  | none => exact a.isLt
  | some l => exact Nat.mod_lt _ (by decide)

theorem scanPlace_scanAxis (last : Option AxisNo) (i : AxisNo) : scanPlace last (scanAxis last i) = i.val := by
  cases last with
  | none => rfl
  | some l => simp only [scanPlace, scanAxis, Fin.val_add]; omega

theorem scanAxis_scanPlace (last : Option AxisNo) (a : AxisNo) :
    scanAxis last ⟨scanPlace last a, scanPlace_lt last a⟩ = a := by
  cases last with
  | none => rfl
  | some l => simp only [scanPlace, scanAxis, Fin.ext_iff, Fin.val_add]; omega

/-- The first axis of the cyclic order with a property is the one whose place is the least. -/
theorem find?_scanOrder {last : Option AxisNo} {p : AxisNo → Bool} (ha : p a = true)
    (hleast : ∀ b, p b = true → scanPlace last a ≤ scanPlace last b) : (scanOrder last).find? p = some a := by
  have hplace : (List.finRange 12).find? (p ∘ scanAxis last) = some ⟨scanPlace last a, scanPlace_lt last a⟩ := by
    refine find?_finRange ?_ fun j hj => ?_
    · rw [Function.comp_apply, scanAxis_scanPlace, ha]
    · rw [Function.comp_apply, ← Bool.not_eq_true]
      intro hp
      have hle := hleast _ hp
      rw [scanPlace_scanAxis] at hle
      exact absurd hj (Nat.not_lt.mpr hle)
  rw [scanOrder_eq, List.find?_map, hplace, Option.map_some, scanAxis_scanPlace]

theorem State.chooseDwell_none (hon : s.verifier.enable = true) (h : ∀ a, s.eligible a = false) :
    s.chooseDwell = { s with verifier := { s.verifier with scan := none } } := by
  have hnone : (scanOrder s.verifier.last).find? s.eligible = none :=
    List.find?_eq_none.mpr fun a _ => ne_true_of_eq_false (h a)
  unfold State.chooseDwell
  dsimp only
  rw [if_pos hon, hnone]

theorem State.chooseDwell_some (hon : s.verifier.enable = true)
    (h : (scanOrder s.verifier.last).find? s.eligible = some a) :
    s.chooseDwell = { s with verifier := { s.verifier with
      scan := some a, last := some a, dwell := 0, disturbed := false, previousSetpoint := none, updateSeen := false } } := by
  unfold State.chooseDwell
  dsimp only
  rw [if_pos hon, h]

theorem State.chooseDwell_off (hoff : s.verifier.enable = false) : s.chooseDwell = s := by
  unfold State.chooseDwell
  exact if_neg (ne_true_of_eq_false hoff)

theorem State.chooseDwell_chosen (hon : s.verifier.enable = true) : DwellChosen s s.chooseDwell := by
  unfold DwellChosen
  simp only [← State.eligible_iff]
  exact ⟨fun h => State.chooseDwell_none hon fun a => Bool.eq_false_iff.mpr (h a),
    fun a ha hleast => State.chooseDwell_some hon (find?_scanOrder ha hleast)⟩

/-! ## SET_VERIFY (R131) -/

theorem exec_setVerify (tag on : Byte) (htakes : s.takes = true) : exec (.setVerify tag on) s = .next (s.setVerify tag on) :=
  next_taken htakes

theorem State.setVerify_badArg {on : Byte} (tag : Byte) (h : ¬(on = 0 ∨ on = 1)) :
    s.setVerify tag on = s.reply tag 0x32 .badArg := by
  rw [State.setVerify, boolOf_none h]

theorem State.setVerify_bit {on : Byte} (tag : Byte) (h : on = 0 ∨ on = 1) : s.setVerify tag on =
    if decide (on = 1) = s.verifier.enable then s.reply tag 0x32 .ok
    else if on = 1 then (s.reply tag 0x32 .ok).verifyOn else (s.reply tag 0x32 .ok).verifyOff := by
  rw [State.setVerify, boolOf_bit h]
  simp only [State.reply_verifier, decide_eq_true_iff]

/-- Settles O48: a value in force changes nothing, off abandons the dwell, and on chooses the next dwell axis. -/
theorem verifySwitched : Obligations.VerifySwitched := by
  intro s tag on htakes
  have hzero := exec_setVerify tag 0 htakes
  have hone := exec_setVerify tag 1 htakes
  rw [State.setVerify_bit tag (.inl rfl)] at hzero
  rw [State.setVerify_bit tag (.inr rfl)] at hone
  refine ⟨fun hbad => ?_, fun hon => ?_, fun hoff => ?_⟩
  · rw [exec_setVerify tag on htakes, State.setVerify_badArg tag (not_or.mpr hbad)]
  · rw [hon] at hzero hone
    exact ⟨hzero, hone⟩
  · rw [hoff] at hzero hone
    exact ⟨hzero, _, hone, State.chooseDwell_chosen rfl⟩

/-! ## The updates of a dwell (R128) -/

section
variable {valid : Bool}

theorem State.verifierUpdate_other (h : s.verifier.scan ≠ some a ∨ s.verifier.updateSeen = false) :
    s.verifierUpdate a valid = s := by
  refine if_neg fun ⟨hscan, hseen⟩ => ?_
  rcases h with h | h
  · exact h hscan
  · exact ne_true_of_eq_false h hseen

/-- The state in which an update of the dwell has been counted. -/
def State.dwellCounted (s : State) : State :=
  { s with verifier := { s.verifier with dwell := s.verifier.dwell + 1, updateSeen := false } }

variable (hscan : s.verifier.scan = some a) (hseen : s.verifier.updateSeen = true)
include hscan hseen

theorem State.verifierUpdate_counts (h : s.verifier.dwell + 1 < 20) :
    s.verifierUpdate a valid = { s.dwellCounted with verifier := { s.dwellCounted.verifier with
      previousSetpoint := some (s.axis a).sent } } := by
  unfold State.verifierUpdate
  dsimp only
  rw [if_pos ⟨hscan, hseen⟩]
  exact if_pos h

theorem State.verifierUpdate_ends (h : 20 ≤ s.verifier.dwell + 1) :
    s.verifierUpdate a valid = s.dwellCounted.endDwell a (s.dwellCounted.judge a valid) := by
  unfold State.verifierUpdate
  dsimp only
  rw [if_pos ⟨hscan, hseen⟩]
  exact if_neg (Nat.not_lt.mpr h)

end

/-! ## Verdicts (R129, R130) -/

theorem positionError_eq (form : AxisForm) (p q : Int) : positionError form p q = match form with
    | .wrap => ((p - q + 180000) % 360000 - 180000).natAbs
    | .bounded _ _ => (p - q).natAbs := by
  cases form <;> rfl

/-- The verdict of a dwell by error and allowance, SKIPPED where it was disturbed or its last reply was not valid. -/
theorem State.judge_eq {c : AxisConfig} {m p : Int} (valid : Bool) (hc : (s.axis a).config = some c)
    (hm : (s.axis a).measured = some m) (hp : s.verifier.previousSetpoint = some p) :
    s.judge a valid =
      if s.verifier.disturbed = true ∨ valid = false then ⟨.skipped, none, none⟩
      else ⟨if c.tolerance + (s.axis a).v.natAbs / 100 < positionError c.form m p then .fail else .pass,
        some (positionError c.form m p), some (c.tolerance + (s.axis a).v.natAbs / 100)⟩ := by
  unfold State.judge
  dsimp only
  rw [hc, hm, hp]
  simp only [Bool.or_eq_true, Bool.not_eq_true']

section
variable {r : VerdictRecord}

theorem State.endDwell_notFail (h : r.verdict ≠ .fail) : s.endDwell a r = (s.verdict a r).chooseDwell := by
  unfold State.endDwell
  dsimp only
  rw [if_neg h]

theorem State.endDwell_fail (h : r.verdict = .fail) : s.endDwell a r = ((s.verdict a r).trackingFail a).chooseDwell := by
  unfold State.endDwell
  dsimp only
  rw [if_pos h]

end

theorem State.trackingFail_driven (h : s.mode = .live ∨ s.mode = .rehearse) :
    s.trackingFail a = s.enterFault a .tracking := by
  unfold State.trackingFail
  rcases h with h | h <;> rw [h]

theorem State.trackingFail_listen (h : s.mode = .listen) :
    s.trackingFail a = (s.latchAxis a fun l => { l with mismatch := true }).notice (.shadowMismatch a) := by
  unfold State.trackingFail
  rw [h]

theorem State.skipDwell_other (h : s.verifier.scan ≠ some a) : s.skipDwell a = s := if_neg h

theorem State.skipDwell_scan (h : s.verifier.scan = some a) :
    s.skipDwell a = (s.verdict a ⟨.skipped, none, none⟩).chooseDwell := if_pos h

/-- Settles O49: the scan's choice, the updates a dwell counts, and what each verdict does. -/
theorem dwellsJudged : Obligations.DwellsJudged := by
  refine ⟨fun s => ⟨State.chooseDwell_chosen, State.chooseDwell_off⟩, fun s a valid => ?update,
    fun s a => ⟨State.skipDwell_other, State.skipDwell_scan⟩⟩
  refine ⟨State.verifierUpdate_other, State.verifierUpdate_counts, fun c m p hscan hseen hlast hc hm hp => ?_⟩
  intro error allowance record t
  have hrecord : s.dwellCounted.judge a valid = record := by
    have hjudged := State.judge_eq (s := s.dwellCounted) valid hc hm hp
    rw [positionError_eq] at hjudged
    exact hjudged
  have hends : s.verifierUpdate a valid = s.dwellCounted.endDwell a record :=
    hrecord ▸ State.verifierUpdate_ends hscan hseen hlast
  have hverdict : s.dwellCounted.verdict a record = t := rfl
  have hmode : t.mode = s.mode := rfl
  rw [hends, ← hmode]
  refine ⟨State.endDwell_notFail, fun hfail hdriven => ?_, fun hfail hlisten => ?_⟩
  · rw [State.endDwell_fail hfail, hverdict, State.trackingFail_driven hdriven]
  · rw [State.endDwell_fail hfail, hverdict, State.trackingFail_listen hlisten]

end Sys2Proof.Machine
end

section
/-! SUPPORT. The axis exercise (R132 … R134): the answers of EXERCISE in the order they are examined, the moves and measurements
of an exercise that runs, its completion, and its abort. -/
namespace Sys2Proof.Machine

variable {s : State} {tag axis : Byte} {a : AxisNo} {c : AxisConfig} {e : Exercise}

/-! ## EXERCISE (R132) -/

theorem exec_exercise (tag axis : Byte) (htakes : s.takes = true) :
    exec (.exercise tag axis) s = .next (s.startExercise tag axis) := next_taken htakes

theorem State.startExercise_beyond (tag : Byte) (h : 11 < axis.toNat) :
    s.startExercise tag axis = s.reply tag 0x33 .badArg := by
  unfold State.startExercise
  rw [index?_of_le h]

section
variable (tag) (ha : axis.toNat = a.val)
include ha

theorem State.startExercise_notFound (hc : (s.axis a).config = none) :
    s.startExercise tag axis = s.reply tag 0x33 .notFound := by
  unfold State.startExercise
  rw [ha, index?_val]
  dsimp only
  rw [hc]

theorem State.startExercise_configured (hc : (s.axis a).config = some c) : s.startExercise tag axis =
    if (s.claim a).isSome then s.reply tag 0x33 .claimed else s.exerciseFree tag a c := by
  unfold State.startExercise
  rw [ha, index?_val]
  dsimp only
  rw [hc]

theorem State.startExercise_claimed (hc : (s.axis a).config = some c) (h : s.claim a ≠ none) :
    s.startExercise tag axis = s.reply tag 0x33 .claimed := by
  rw [State.startExercise_configured tag ha hc, if_pos (Option.isSome_iff_ne_none.mpr h)]

theorem State.startExercise_free (hc : (s.axis a).config = some c) (h : s.claim a = none) :
    s.startExercise tag axis = s.exerciseFree tag a c := by
  rw [State.startExercise_configured tag ha hc, h]
  rfl

end

/-! The examination from the output mode on. -/

theorem State.exerciseFree_mode (h : s.mode = .safe ∨ s.mode = .listen) :
    s.exerciseFree tag a c = s.reply tag 0x33 .mode := by
  refine if_pos ?_
  rcases h with h | h <;> rw [h] <;> decide

theorem State.exerciseFree_interlock (hmode : s.mode = .live) (hopen : s.output.isOpen = true) :
    s.exerciseFree tag a c = s.reply tag 0x33 .interlock := by
  unfold State.exerciseFree
  dsimp only
  rw [if_neg fun h => h.1 hmode, if_pos (s.stopped_iff.mpr ⟨hmode, hopen⟩)]

/-- The outputs may play: REHEARSE, or LIVE with the interlock closed. -/
theorem State.exerciseFree_plays (h : s.mode = .rehearse ∨ (s.mode = .live ∧ s.output.isOpen = false)) :
    s.exerciseFree tag a c =
      if s.exercising.isSome then s.reply tag 0x33 .busy
      else if !(s.axis a).mode.enabled then s.reply tag 0x33 .disabled [(s.axis a).mode.code]
      else if (s.axis a).mode.moving then s.reply tag 0x33 .busy
      else s.beginExercise tag (Exercise.opened a c ((s.axis a).cmd.getD 0)) := by
  have hmode : ¬(s.mode ≠ .live ∧ s.mode ≠ .rehearse) := fun hnot =>
    h.elim hnot.2 fun hlive => hnot.1 hlive.1
  have hstopped : ¬s.stopped = true := fun hstop => by
    obtain ⟨hlive, hopen⟩ := s.stopped_iff.mp hstop
    rcases h with h | h
    · rw [hlive] at h; cases h
    · rw [hopen] at h; cases h.2
  unfold State.exerciseFree
  dsimp only
  rw [if_neg hmode, if_neg hstopped]

section
variable (hplays : s.mode = .rehearse ∨ (s.mode = .live ∧ s.output.isOpen = false))
include hplays

theorem State.exerciseFree_running (h : ∃ e, s.exercise = some e ∧ e.phase ≠ .done) :
    s.exerciseFree tag a c = s.reply tag 0x33 .busy := by
  rw [State.exerciseFree_plays hplays, if_pos (s.exercising_isSome_iff.mpr h)]

variable (hidle : ¬∃ e, s.exercise = some e ∧ e.phase ≠ .done)
include hidle

theorem State.exerciseFree_disabled (h : (s.axis a).mode.enabled = false) :
    s.exerciseFree tag a c = s.reply tag 0x33 .disabled [(s.axis a).mode.code] := by
  rw [State.exerciseFree_plays hplays, if_neg (mt s.exercising_isSome_iff.mp hidle), h]
  rfl

theorem State.exerciseFree_moving (h : (s.axis a).mode.moving = true) :
    s.exerciseFree tag a c = s.reply tag 0x33 .busy := by
  obtain ⟨henabled, _⟩ := (AxisMode.moving_iff _).mp h
  rw [State.exerciseFree_plays hplays, if_neg (mt s.exercising_isSome_iff.mp hidle), henabled, h]
  rfl

theorem State.exerciseFree_begins {start : Int} (h : (s.axis a).mode = .hold) (hcmd : (s.axis a).cmd = some start) :
    s.exerciseFree tag a c = s.beginExercise tag (Exercise.opened a c start) := by
  rw [State.exerciseFree_plays hplays, if_neg (mt s.exercising_isSome_iff.mp hidle), h, hcmd]
  rfl

end

theorem exerciseOpened_opened {start : Int} (hcmd : (s.axis a).cmd = some start) :
    ExerciseOpened s a c start (Exercise.opened a c start) := by
  refine ⟨rfl, rfl, hcmd, rfl, rfl, rfl, rfl, rfl, fun k => tget_replicate _ k, fun k => ?_⟩
  rw [Exercise.opened, tget_ofFn]
  cases c.form <;> rfl

theorem exerciseAsked : ExerciseAsked := by
  intro s tag axis htakes
  dsimp only
  rw [exec_exercise tag axis htakes]
  refine ⟨fun hbeyond => congrArg _ (State.startExercise_beyond tag hbeyond), fun a ha =>
    ⟨fun hnone => congrArg _ (State.startExercise_notFound tag ha hnone), fun c hc =>
      ⟨fun howned => congrArg _ (State.startExercise_claimed tag ha hc howned), fun hfree => ?_⟩⟩⟩
  rw [State.startExercise_free tag ha hc hfree]
  refine ⟨fun hmode => congrArg _ (State.exerciseFree_mode hmode),
    fun hlive hopen => congrArg _ (State.exerciseFree_interlock hlive hopen), fun hplays => ?_⟩
  exact ⟨fun hrunning => congrArg _ (State.exerciseFree_running hplays hrunning),
    fun hidle hoff => congrArg _ (State.exerciseFree_disabled hplays hidle hoff),
    fun hidle hmoving => congrArg _ (State.exerciseFree_moving hplays hidle hmoving),
    fun start hidle hhold hcmd => ⟨_, exerciseOpened_opened hcmd,
      congrArg _ (State.exerciseFree_begins hplays hidle hhold hcmd)⟩⟩

/-! ## The moves and the settle events of an exercise (R133) -/

/-- An exercise with one more update of its dwell counted. -/
def Exercise.counted (e : Exercise) : Exercise := { e with dwell := e.dwell + 1 }

/-- A MOVE that nothing refuses is given to the axis of the exercise. -/
theorem State.exerciseMove_given (target : Int) (hc : (s.axis e.axis).config = some c)
    (he : (s.axis e.axis).mode.enabled = true) : s.exerciseMove e target =
      GivenTo s e.axis (Commanded (s.axis e.axis) c (.move target .short e.rate)).1 := by
  have hcarried := Axis.command_eq (a := e.axis) (leaders := s.leaders) (m := .move target .short e.rate) hc he
    (fun _ h => by cases h) (fun _ _ _ _ h => by cases h)
  unfold State.exerciseMove State.commandAxis
  rw [hcarried]
  exact s.setAxis_disturb e.axis _

section
variable (hrun : s.exercising = some e)
include hrun

theorem State.exerciseSettle_eq (a : AxisNo) : s.exerciseSettle a =
    if e.axis = a ∧ e.phase = .moving then { s with exercise := some { e with phase := .dwelling, dwell := 0 } } else s := by
  unfold State.exerciseSettle
  rw [hrun]

/-- An update that the exercise does not wait for: of another axis, or outside a dwell. -/
theorem State.exerciseUpdate_other (h : ¬(e.axis = a ∧ e.phase = .dwelling)) : s.exerciseUpdate a = s := by
  unfold State.exerciseUpdate
  rw [hrun]
  exact if_neg h

/-! ## The dwell at a test position (R133) -/

variable (hdwells : e.phase = .dwelling)
include hdwells

theorem State.exerciseUpdate_counts (h : e.dwell + 1 < 20) :
    s.exerciseUpdate e.axis = { s with exercise := some e.counted } := by
  unfold State.exerciseUpdate
  rw [hrun]
  dsimp only
  rw [if_pos ⟨rfl, hdwells⟩]
  exact if_pos h

theorem State.exerciseUpdate_measures {m : Int} (h : 20 ≤ e.dwell + 1) (hc : (s.axis e.axis).config = some c)
    (hm : (s.axis e.axis).measured = some m) : s.exerciseUpdate e.axis =
      { s with exercise := some e.counted }.exerciseMeasure e.counted c m := by
  have hcounted : ∀ x, ({ s with exercise := x } : State).axis e.axis = s.axis e.axis := fun _ => rfl
  unfold State.exerciseUpdate
  rw [hrun]
  dsimp only
  rw [if_pos ⟨rfl, hdwells⟩]
  refine (if_neg (Nat.not_lt.mpr h)).trans ?_
  rw [hcounted, hc, hm]
  rfl

end

/-- An exercise with the error and the result of its test position recorded. -/
def Exercise.measured (e : Exercise) (c : AxisConfig) (m : Int) : Exercise :=
  let error := positionError c.form m (tget e.positions e.index)
  { e with results := tset e.results e.index (some ⟨error, decide (error ≤ c.tolerance)⟩) }

theorem State.exerciseMeasure_next (s : State) (c : AxisConfig) (m : Int) (k : Fin 8) (h : k.val = e.index.val + 1) :
    s.exerciseMeasure e c m =
    { s with exercise := some { e.measured c m with index := k, phase := .moving } }.exerciseMove
      { e.measured c m with index := k, phase := .moving } (tget e.positions k) := by
  have hlt : e.index.val + 1 < 8 := h ▸ k.isLt
  obtain rfl : k = ⟨e.index.val + 1, hlt⟩ := Fin.ext h
  exact dif_pos hlt

theorem State.exerciseMeasure_last (s : State) (c : AxisConfig) (m : Int) (h : e.index.val = 7) : s.exerciseMeasure e c m =
    { s with exercise := some { e.measured c m with phase := .returning } }.exerciseMove
      { e.measured c m with phase := .returning } e.start :=
  dif_neg (Nat.not_lt.mpr (Nat.le_of_eq (congrArg Nat.succ h.symm)))

/-! ## The completion (R133 step 4; log 48) -/

theorem Exercise.allPassed_iff (e : Exercise) :
    e.allPassed = true ↔ ∀ k : Fin 8, ∃ r, tget e.results k = some r ∧ r.passed = true := by
  unfold Exercise.allPassed
  simp only [List.all_eq_true, mem_toList_tget, forall_exists_index, forall_apply_eq_imp_iff]
  refine forall_congr' fun k => ?_
  cases tget e.results k <;> simp

theorem State.exerciseHome_eq_some_iff : s.exerciseHome = some e ↔ ReturnEnded s e := by
  unfold State.exerciseHome ReturnEnded
  rw [Option.filter_eq_some_iff, Bool.and_eq_true, beq_iff_eq, beq_iff_eq]
  constructor
  · rintro ⟨hrun, hreturning, hhold⟩
    exact ⟨(State.exercising_spec hrun).1, hreturning, hhold⟩
  · rintro ⟨hsome, hreturning, hhold⟩
    exact ⟨State.exercising_of_phase hsome (by rw [hreturning]; decide), hreturning, hhold⟩

theorem State.completeExercise_home (h : ReturnEnded s e) :
    s.completeExercise = s.endExercise e (if e.allPassed = true then .pass else .fail) := by
  unfold State.completeExercise
  rw [State.exerciseHome_eq_some_iff.mpr h]

theorem State.completeExercise_away (h : ∀ e, ¬ReturnEnded s e) : s.completeExercise = s := by
  have hnone : s.exerciseHome = none :=
    Option.eq_none_iff_forall_ne_some.mpr fun e => mt State.exerciseHome_eq_some_iff.mp (h e)
  unfold State.completeExercise
  rw [hnone]

theorem exerciseProceeds : ExerciseProceeds := by
  intro s e hsome hphase
  have hrun := State.exercising_of_phase hsome hphase
  refine ⟨fun c target => State.exerciseMove_given target, fun a hother => ⟨?settleOther, ?updateOther⟩, fun hmoving => ?arrives,
    fun hmoving => ?settleUnheard, fun hhome => ?completes, fun haway => ?runsOn, fun hdwells => ?updateUnheard,
    fun hdwells => State.exerciseUpdate_counts hrun hdwells, fun c m hdwells hlast hc hm => ?measures, fun _ => rfl⟩
  case settleOther => rw [State.exerciseSettle_eq hrun, if_neg fun h => hother h.1.symm]
  case updateOther => exact State.exerciseUpdate_other hrun fun h => hother h.1.symm
  case arrives => rw [State.exerciseSettle_eq hrun, if_pos ⟨rfl, hmoving⟩]
  case settleUnheard => rw [State.exerciseSettle_eq hrun, if_neg fun h => hmoving h.2]
  case completes =>
    refine congrArg _ ((State.completeExercise_home hhome).trans (congrArg _ ?_))
    exact if_congr e.allPassed_iff rfl rfl
  case runsOn =>
    refine congrArg _ (State.completeExercise_away fun x hx => haway ?_)
    obtain rfl : e = x := Option.some.inj (hsome.symm.trans hx.1)
    exact hx
  case updateUnheard => exact State.exerciseUpdate_other hrun fun h => hdwells h.2
  case measures =>
    intro d error measured
    have hmeasured : e.counted.measured c m = measured := by
      unfold Exercise.measured
      rw [positionError_eq]
      rfl
    have hnext := State.exerciseMeasure_next (e := e.counted) { s with exercise := some e.counted } c m
    have hreturn := State.exerciseMeasure_last (e := e.counted) { s with exercise := some e.counted } c m
    rw [hmeasured] at hnext hreturn
    rw [State.exerciseUpdate_measures hrun hdwells hlast hc hm]
    exact ⟨hnext, hreturn⟩

/-! ## The abort (R134) -/

theorem exec_exerciseAbort (tag : Byte) (htakes : s.takes = true) :
    exec (.exerciseAbort tag) s = .next (s.hostAbort tag) := next_taken htakes

theorem State.exercising_none (h : ∀ e, s.exercise = some e → e.phase = .done) : s.exercising = none :=
  Option.eq_none_iff_forall_ne_some.mpr fun e he =>
    (State.exercising_spec he).2 (h e (State.exercising_spec he).1)

theorem State.abortExercise_none (h : s.exercising = none) (cause : AbortCause) : s.abortExercise cause = s := by
  unfold State.abortExercise
  rw [h]

theorem State.abortExercise_running (h : s.exercising = some e) (cause : AbortCause) :
    s.abortExercise cause = s.endExercise e (.aborted cause) := by
  unfold State.abortExercise
  rw [h]

theorem State.hostAbort_none (tag : Byte) (h : s.exercising = none) : s.hostAbort tag = s.reply tag 0x34 .notFound := by
  unfold State.hostAbort
  rw [h]

theorem State.stopExercised_rest (h : (s.axis a).mode.moving = false) : s.stopExercised a = s := by
  unfold State.stopExercised State.stopAxis
  dsimp only
  rw [if_neg (ne_true_of_eq_false h)]

theorem State.stopExercised_moving (h : (s.axis a).mode.moving = true) :
    s.stopExercised a = GivenTo s a ((s.axis a).stop (s.axis a).dv).1 := by
  unfold State.stopExercised State.stopAxis
  dsimp only
  rw [if_pos h]
  exact s.setAxis_disturb a _

/-- The STOP leaves the record of the exercise, so that the abort finds it running. -/
theorem State.hostAbort_running (tag : Byte) (h : s.exercising = some e) :
    s.hostAbort tag = ((s.reply tag 0x34 .ok).stopExercised e.axis).endExercise e (.aborted .host) := by
  have hkept : ((s.reply tag 0x34 .ok).stopExercised e.axis).exercise = s.exercise := by
    obtain ⟨_, _, _, _, hexercise, _⟩ :=
      State.stopAxis_fields (s.reply tag 0x34 .ok) e.axis ((s.reply tag 0x34 .ok).axis e.axis).dv
    exact hexercise
  obtain ⟨hsome, hphase⟩ := State.exercising_spec h
  unfold State.hostAbort
  rw [h]
  exact State.abortExercise_running (State.exercising_of_phase (hkept.trans hsome) hphase) .host

theorem exerciseAborted : ExerciseAborted := by
  intro s tag htakes
  rw [exec_exerciseAbort tag htakes]
  refine ⟨fun hdone => ?_, fun e hsome hphase => ?_⟩
  · have hnone := State.exercising_none hdone
    exact ⟨congrArg _ (State.hostAbort_none tag hnone), State.abortExercise_none hnone⟩
  · have hrun := State.exercising_of_phase hsome hphase
    rw [State.hostAbort_running tag hrun]
    refine ⟨fun hrest => ?_, fun hmoving => ?_, State.abortExercise_running hrun⟩
    · rw [State.stopExercised_rest (by exact hrest)]
    · rw [State.stopExercised_moving (by exact hmoving)]
      rfl

/-- Settles O50: EXERCISE in the order it is examined, the exercise from its first move to its completion, and its abort. -/
theorem exerciseRuns : Obligations.ExerciseRuns := ⟨exerciseAsked, exerciseProceeds, exerciseAborted⟩

end Sys2Proof.Machine
end

section
/-! SUPPORT. The parts of a stopped tower (R51, R105, R106, R129, R134, R139, R142): every run ended and every strike removed, the
hammers stopped, the axes at rest, the exercise aborted, while nothing may start. -/
namespace Sys2Proof.Machine

variable {s : State} {o : RunOutcome}

/-! ## A fold with one update at each index -/

/-- Where each step of a fold over distinct indexes updates its own cell alone, the listed cells are updated once. -/
theorem foldl_cells {α ι β : Type} [DecidableEq ι] {f : α → ι → α} {cell : α → ι → β} {g : β → β}
    (h : ∀ a i j, cell (f a i) j = if i = j then g (cell a j) else cell a j) (j : ι) :
    ∀ (l : List ι) (a : α), l.Nodup → cell (l.foldl f a) j = if j ∈ l then g (cell a j) else cell a j
  | [], _, _ => by simp
  | i :: rest, a, hl => by
    obtain ⟨hi, hrest⟩ := List.nodup_cons.mp hl
    rw [List.foldl_cons, foldl_cells h j rest _ hrest, h]
    by_cases hij : i = j
    · subst hij
      simp [hi]
    · simp [hij, Ne.symm hij]

theorem foldl_indexes_cells {α β : Type} {n : Nat} {f : α → Fin n → α} {cell : α → Fin n → β} {g : β → β}
    (h : ∀ a i j, cell (f a i) j = if i = j then g (cell a j) else cell a j) (a : α) (j : Fin n) :
    cell ((indexes n).foldl f a) j = g (cell a j) :=
  (foldl_cells h j _ a (List.nodup_finRange n)).trans (if_pos (mem_indexes j))

/-! ## What ends of runs and removals of strikes leave -/

@[simp] theorem Port.enterNotice_interlock (p : Port) (now : Instant) (n : Notice) :
    (p.enterNotice now n).latches.interlock = p.latches.interlock := by
  unfold Port.enterNotice
  split
  · split <;> rfl
  · rfl

/-- Only the lanes, the strike queue, the port's queue of notices, the claims and the key inputs differ. -/
structure EndsAlone (s t : State) : Prop where
  rest : t = { s with
    lanes := t.lanes
    strikes := { s.strikes with queue := t.strikes.queue }
    port := t.port
    sched := { s.sched with claims := t.sched.claims, inputs := t.sched.inputs } }
  interlock : t.port.latches.interlock = s.port.latches.interlock

theorem EndsAlone.refl (s : State) : EndsAlone s s := ⟨rfl, rfl⟩

theorem EndsAlone.trans {s t u : State} (h : EndsAlone s t) (h' : EndsAlone t u) : EndsAlone s u where
  rest := by rw [h'.rest, h.rest]
  interlock := h'.interlock.trans h.interlock

/-! What such acts leave, field by field. -/

section
variable {t : State} (h : EndsAlone s t)
include h

theorem EndsAlone.now : t.now = s.now := by rw [h.rest]
theorem EndsAlone.cal : t.cal = s.cal := by rw [h.rest]
theorem EndsAlone.store : t.store = s.store := by rw [h.rest]
theorem EndsAlone.requests : t.sched.queue = s.sched.queue := by rw [h.rest]
theorem EndsAlone.bells : t.strikes.bells = s.strikes.bells := by rw [h.rest]
theorem EndsAlone.motion : t.motion = s.motion := by rw [h.rest]
theorem EndsAlone.exercise : t.exercise = s.exercise := by rw [h.rest]
theorem EndsAlone.output : t.output = s.output := by rw [h.rest]

end

theorem State.endRun_idle {n : LaneNo} (h : (s.lane n).run = none) (o : RunOutcome) : s.endRun n o = s := by
  unfold State.endRun
  rw [h]

/-- An end that leaves the axes to output control (R51 step 3). -/
theorem State.endRun_alone (ho : o.stopsAxes = false) (s : State) (n : LaneNo) : EndsAlone s (s.endRun n o) := by
  cases hrun : (s.lane n).run with
  | none =>
    rw [State.endRun_idle hrun]
    exact .refl s
  | some r =>
    have hstop (u : State) : u.stopOwned n o = u := if_neg (ne_true_of_eq_false ho)
    refine ⟨?_, ?_⟩
    · rw [State.endRun_of_run hrun, hstop, State.finalise_rest]
      rfl
    · rw [State.endRun_port hrun]
      exact Port.enterNotice_interlock _ _ _

theorem State.endRuns_alone (ho : o.stopsAxes = false) (s : State) : EndsAlone s (s.endRuns o) :=
  foldl_rel EndsAlone .refl .trans _ (State.endRun_alone ho) _ s

theorem State.removeInhibited_eq (s : State) : s.removeInhibited =
    { s with lanes := s.removeInhibited.lanes, strikes := { s.strikes with queue := [] } } :=
  foldl_countFor_eq (fun _ r => { r with droppedInhibited := satInc r.droppedInhibited }) _ _

theorem State.removeInhibited_alone (s : State) : EndsAlone s s.removeInhibited where
  rest := by rw [s.removeInhibited_eq]
  interlock := by rw [s.removeInhibited_eq]

/-! ## The lanes -/

/-- A lane whose run, if it has one, has ended. -/
def Lane.ended (x : Lane) (o : RunOutcome) : Lane :=
  match x.run with
  | some r => ⟨none, some (r.closed o)⟩
  | none => x

theorem Lane.ended_of_run {x : Lane} {r : Run} (h : x.run = some r) : x.ended o = ⟨none, some (r.closed o)⟩ := by
  rw [Lane.ended, h]

theorem Lane.ended_of_idle {x : Lane} (h : x.run = none) : x.ended o = x := by
  rw [Lane.ended, h]

theorem Lane.ended_run (x : Lane) : (x.ended o).run = none := by
  cases hrun : x.run with
  | none => rw [Lane.ended_of_idle hrun, hrun]
  | some r => rw [Lane.ended_of_run hrun]

theorem State.endRun_lane_eq (s : State) (n m : LaneNo) :
    (s.endRun n o).lane m = if n = m then (s.lane m).ended o else s.lane m := by
  cases hrun : (s.lane n).run with
  | none =>
    rw [State.endRun_idle hrun]
    split
    · next hnm => rw [Lane.ended_of_idle (hnm ▸ hrun)]
    · rfl
  | some r =>
    split
    · next hnm => rw [← hnm, State.endRun_lane_self hrun, Lane.ended_of_run hrun]
    · next hnm => exact State.endRun_lane_of_ne hrun o (Ne.symm hnm)

theorem State.endRuns_lane_eq (s : State) (n : LaneNo) : (s.endRuns o).lane n = (s.lane n).ended o :=
  foldl_indexes_cells (cell := State.lane) (g := fun x => x.ended o) State.endRun_lane_eq s n

/-- A lane as counts for its run leave it: IDLE as it was, or with a run of the same id. -/
def Lane.counted (x y : Lane) : Prop :=
  (x.run = none ∧ y = x) ∨ ∃ r r', x.run = some r ∧ y.run = some r' ∧ r'.record.id = r.record.id

theorem Lane.counted_refl (x : Lane) : x.counted x := by
  cases hx : x.run with
  | none => exact .inl ⟨hx, rfl⟩
  | some r => exact .inr ⟨r, r, hx, hx, rfl⟩

theorem Lane.counted_trans {x y z : Lane} (h : x.counted y) (h' : y.counted z) : x.counted z := by
  rcases h with ⟨hidle, rfl⟩ | ⟨r, r', hx, hy, hid⟩
  · exact h'
  · rcases h' with ⟨hidle, rfl⟩ | ⟨q, q', hy', hz, hid'⟩
    · exact .inr ⟨r, r', hx, hy, hid⟩
    · obtain rfl : r' = q := Option.some.inj (hy.symm.trans hy')
      exact .inr ⟨r, q', hx, hz, hid'.trans hid⟩

theorem Lane.counted_running {x y : Lane} (h : x.counted y) : y.run ≠ none ↔ x.run ≠ none := by
  rcases h with ⟨hidle, rfl⟩ | ⟨r, r', hx, hy, _⟩
  · rfl
  · simp [hx, hy]

/-- A count that leaves the id of the run. -/
theorem State.countFor_counted (s : State) (w : Owner) {f : RunRecord → RunRecord} (hf : ∀ r, (f r).id = r.id) (n : LaneNo) :
    (s.lane n).counted ((s.countFor w f).lane n) := by
  cases w with
  | link | exercise => exact Lane.counted_refl _
  | lane m =>
    cases hrun : (s.lane m).run with
    | none =>
      rw [State.countFor_idle hrun]
      exact Lane.counted_refl _
    | some r =>
      rw [State.countFor_lane hrun, State.setRun, State.setLane_lane]
      split
      · next hmn =>
        subst hmn
        exact .inr ⟨r, _, hrun, rfl, hf r.record⟩
      · exact Lane.counted_refl _

theorem State.removeInhibited_counted (s : State) (n : LaneNo) : (s.lane n).counted (s.removeInhibited.lane n) :=
  foldl_rel (fun u v : State => (u.lane n).counted (v.lane n)) (fun _ => Lane.counted_refl _) Lane.counted_trans _
    (fun u (k : Strike) => u.countFor_counted k.owner
      (f := fun r => { r with droppedInhibited := satInc r.droppedInhibited }) (fun _ => rfl) n) _ (s.setQueue [])

/-! ## The claims -/

/-- Lane n has a run that owns axis a. -/
def State.runClaims (s : State) (a : AxisNo) (n : LaneNo) : Prop := s.claim a = some (.lane n) ∧ (s.lane n).run ≠ none

open Classical in
theorem State.endRun_claim_eq (s : State) (n : LaneNo) (a : AxisNo) :
    (s.endRun n o).claim a = if s.runClaims a n then none else s.claim a := by
  cases hrun : (s.lane n).run with
  | none => rw [State.endRun_idle hrun, if_neg fun h => h.2 hrun]
  | some r =>
    rw [State.endRun_claim hrun]
    exact if_congr (by simp [State.runClaims, hrun]) rfl rfl

/-- An end of another lane's run, or of no run, leaves who owns an axis. -/
theorem State.endRun_runClaims {n : LaneNo} {a : AxisNo} (h : ¬s.runClaims a n) (m : LaneNo) :
    (s.endRun n o).runClaims a m ↔ s.runClaims a m := by
  unfold State.runClaims
  rw [State.endRun_claim_eq, if_neg h, State.endRun_lane]
  by_cases hnm : n = m
  · subst hnm
    simpa [State.runClaims] using h
  · rw [if_neg hnm]

open Classical in
theorem State.foldl_endRun_claim (a : AxisNo) : ∀ (l : List LaneNo) (s : State),
    (l.foldl (fun u n => u.endRun n o) s).claim a = if ∃ n ∈ l, s.runClaims a n then none else s.claim a
  | [], _ => by simp
  | n :: rest, s => by
    rw [List.foldl_cons, State.foldl_endRun_claim a rest, State.endRun_claim_eq]
    by_cases hn : s.runClaims a n
    · simp [hn]
    · simp [hn, State.endRun_runClaims hn]

open Classical in
theorem State.endRuns_claim (s : State) (o : RunOutcome) (a : AxisNo) :
    (s.endRuns o).claim a = if ∃ n, s.runClaims a n then none else s.claim a := by
  refine (State.foldl_endRun_claim a (indexes 4) s).trans ?_
  simp only [mem_indexes, true_and]

/-! ## The hammers (R106) -/

theorem Bell.hammerStop_eq (b : Bell) : b.hammerStop =
    if b.state = .firing ∨ b.state = .flight then { b with state := .ready, inFlight := none, confirmedEnd := none }
    else { b with confirmedEnd := none } := by
  unfold Bell.hammerStop
  cases b.state <;> rfl

theorem StrikeUnit.hammerStop_eq (u : StrikeUnit) : u.hammerStop = HammersStopped u := by
  unfold StrikeUnit.hammerStop HammersStopped
  simp only [Bell.hammerStop_eq]

@[simp] theorem hammersStopped_hammers (u : StrikeUnit) : (HammersStopped u).hammers = 0 := rfl

@[simp] theorem hammersStopped_queue (u : StrikeUnit) : (HammersStopped u).queue = u.queue := by
  rw [← StrikeUnit.hammerStop_eq, StrikeUnit.hammerStop_queue]

theorem hammersStopped_bell (u : StrikeUnit) (b : BellNo) : tget (HammersStopped u).bells b = (tget u.bells b).hammerStop := by
  rw [← StrikeUnit.hammerStop_eq, StrikeUnit.hammerStop_bell]

theorem Bell.hammerStop_rests (b : Bell) : b.hammerStop.state ≠ .firing ∧ b.hammerStop.state ≠ .flight := by
  rw [Bell.hammerStop_eq]
  split
  · exact ⟨nofun, nofun⟩
  · next h => exact not_or.mp h

/-- A bell that is READY or DISABLED stays so. -/
theorem Bell.hammerStop_state {b : Bell} (h : b.state = .ready ∨ b.isDisabled = true) : b.hammerStop.state = b.state := by
  rw [Bell.hammerStop_eq, if_neg]
  unfold Bell.isDisabled at h
  rintro (hb | hb) <;> simp [hb] at h

/-- The guard of a bell goes on (log 35). -/
theorem Bell.hammerStop_guard (b : Bell) : b.hammerStop.lastImpact = b.lastImpact
    ∧ b.hammerStop.guardInstant = b.guardInstant ∧ b.hammerStop.guardRunning = b.guardRunning := by
  rw [Bell.hammerStop_eq]
  split <;> exact ⟨rfl, rfl, rfl⟩

/-! ## The exercise (R134) -/

/-- The exercise runs on axis a. -/
def State.exercisesAxis (s : State) (a : AxisNo) : Prop := ∃ e, s.exercise = some e ∧ e.phase ≠ .done ∧ e.axis = a

section
variable (cause : AbortCause)

theorem exerciseAbortedBy_running {e : Exercise} (h : s.exercise = some e) (hp : e.phase ≠ .done) :
    ExerciseAbortedBy cause s = (({ s with
      exercise := some { e with phase := .done, verdict := some (.aborted cause) } }.notice
        (.exerciseDone { e with phase := .done, verdict := some (.aborted cause) })).setClaim e.axis none) := by
  unfold ExerciseAbortedBy
  rw [h]
  exact if_neg hp

theorem exerciseAbortedBy_over (h : ∀ e, s.exercise = some e → e.phase = .done) : ExerciseAbortedBy cause s = s := by
  unfold ExerciseAbortedBy
  split
  · next e he => exact if_pos (h e he)
  · rfl

/-- An abort writes the exercise, the port's queue of notices and the claims. -/
theorem exerciseAbortedBy_rest (s : State) : ExerciseAbortedBy cause s = { s with
    exercise := (ExerciseAbortedBy cause s).exercise
    port := (ExerciseAbortedBy cause s).port
    sched := { s.sched with claims := (ExerciseAbortedBy cause s).sched.claims } } := by
  unfold ExerciseAbortedBy
  split
  · dsimp only
    split <;> rfl
  · rfl

/-! What an abort leaves, field by field. -/

section
variable (s : State)

@[simp] theorem exerciseAbortedBy_now : (ExerciseAbortedBy cause s).now = s.now := by rw [exerciseAbortedBy_rest]
@[simp] theorem exerciseAbortedBy_cal : (ExerciseAbortedBy cause s).cal = s.cal := by rw [exerciseAbortedBy_rest]
@[simp] theorem exerciseAbortedBy_store : (ExerciseAbortedBy cause s).store = s.store := by rw [exerciseAbortedBy_rest]
@[simp] theorem exerciseAbortedBy_requests : (ExerciseAbortedBy cause s).sched.queue = s.sched.queue := by
  rw [exerciseAbortedBy_rest]
@[simp] theorem exerciseAbortedBy_lanes : (ExerciseAbortedBy cause s).lanes = s.lanes := by rw [exerciseAbortedBy_rest]
@[simp] theorem exerciseAbortedBy_strikes : (ExerciseAbortedBy cause s).strikes = s.strikes := by rw [exerciseAbortedBy_rest]
@[simp] theorem exerciseAbortedBy_motion : (ExerciseAbortedBy cause s).motion = s.motion := by rw [exerciseAbortedBy_rest]
@[simp] theorem exerciseAbortedBy_output : (ExerciseAbortedBy cause s).output = s.output := by rw [exerciseAbortedBy_rest]

end

theorem exerciseAbortedBy_exercise {e : Exercise} (h : s.exercise = some e) (hp : e.phase ≠ .done) :
    (ExerciseAbortedBy cause s).exercise = some { e with phase := .done, verdict := some (.aborted cause) } := by
  rw [exerciseAbortedBy_running cause h hp]
  rfl

theorem exerciseAbortedBy_interlock (s : State) :
    (ExerciseAbortedBy cause s).port.latches.interlock = s.port.latches.interlock := by
  unfold ExerciseAbortedBy
  split
  · dsimp only
    split
    · rfl
    · exact Port.enterNotice_interlock _ _ _
  · rfl

open Classical in
theorem exerciseAbortedBy_claim (s : State) (a : AxisNo) :
    (ExerciseAbortedBy cause s).claim a = if s.exercisesAxis a then none else s.claim a := by
  by_cases hruns : ∃ e, s.exercise = some e ∧ e.phase ≠ .done
  · obtain ⟨e, he, hp⟩ := hruns
    rw [exerciseAbortedBy_running cause he hp, State.setClaim_claim]
    exact if_congr (by simp [State.exercisesAxis, he, hp]) rfl rfl
  · rw [exerciseAbortedBy_over cause fun e he => not_not.mp fun hp => hruns ⟨e, he, hp⟩,
      if_neg fun ⟨e, he, hp, _⟩ => hruns ⟨e, he, hp⟩]

/-- While the walk is held, the abort is all that happens. -/
theorem State.abortExercise_held (h : WalkHeld s) : s.abortExercise cause = ExerciseAbortedBy cause s := by
  by_cases hruns : ∃ e, s.exercise = some e ∧ e.phase ≠ .done
  · obtain ⟨e, he, hp⟩ := hruns
    rw [State.abortExercise_eq he hp, State.walk_held]
    rw [exerciseAbortedBy_rest]
    exact h
  · have hdone : ∀ e, s.exercise = some e → e.phase = .done := fun e he => not_not.mp fun hp => hruns ⟨e, he, hp⟩
    rw [exerciseAbortedBy_over cause hdone, State.abortExercise_none (State.exercising_none hdone)]

end

/-! ## Axes put in OFF (R124, R129, R139, R140) -/

/-- Where no axis is left to dwell on, a dwell that is skipped is followed by no other. -/
theorem State.skipDwell_last {a : AxisNo} (hscan : s.verifier.scan = some a) (h : ∀ b, s.eligible b = false) :
    s.skipDwell a = s.verdict a ⟨.skipped, none, none⟩ := by
  rw [State.skipDwell_scan hscan]
  by_cases hon : s.verifier.enable = true
  · exact State.chooseDwell_none (s := s.verdict a _) hon h
  · exact State.chooseDwell_off (s := s.verdict a _) (Bool.eq_false_iff.mpr hon)

/-- The axes with a property of their mode put in OFF, the verifier as it was. -/
def State.axesOff (s : State) (p : AxisMode → Bool) : State := { s with motion := { s.motion with
  axes := Vector.ofFn fun a => if p (s.axis a).mode = true then PutOff (s.axis a) else s.axis a } }

theorem State.axesOff_axis (p : AxisMode → Bool) (a : AxisNo) :
    (s.axesOff p).axis a = if p (s.axis a).mode = true then PutOff (s.axis a) else s.axis a := tget_ofFn _ a

/-- Where every axis in an enabled mode has the property, none is left to dwell on. -/
theorem State.axesOff_eligible {p : AxisMode → Bool}
    (h : ∀ a, (s.axis a).mode.enabled = true → p (s.axis a).mode = true) (b : AxisNo) : (s.axesOff p).eligible b = false := by
  rw [← Bool.not_eq_true, State.eligible_iff, State.axesOff_axis]
  rintro ⟨_, henabled⟩
  split at henabled
  · cases henabled
  · next hp => exact hp (h b henabled)

section
variable {a : AxisNo}

theorem State.allOff_skips {p : AxisMode → Bool} (hscan : s.verifier.scan = some a) (hp : p (s.axis a).mode = true) :
    s.allOff p = (s.axesOff p).skipDwell a := by
  unfold State.allOff
  dsimp only
  rw [hscan]
  exact if_pos hp

theorem State.allOff_spares {p : AxisMode → Bool} (h : ∀ a, s.verifier.scan = some a → ¬p (s.axis a).mode = true) :
    s.allOff p = s.axesOff p := by
  unfold State.allOff
  dsimp only
  cases hscan : s.verifier.scan with
  | none => rfl
  | some a => exact if_neg (h a hscan)

theorem dwellSkipped_leaves {leaves : AxisNo → Bool} (hscan : s.verifier.scan = some a) (hl : leaves a = true) :
    DwellSkipped s leaves = (s.verdict a ⟨.skipped, none, none⟩).verifier := by
  unfold DwellSkipped
  rw [hscan]
  exact if_pos hl

theorem dwellSkipped_spared {leaves : AxisNo → Bool} (h : ∀ a, s.verifier.scan = some a → ¬leaves a = true) :
    DwellSkipped s leaves = s.verifier := by
  unfold DwellSkipped
  cases hscan : s.verifier.scan with
  | none => rfl
  | some a => exact if_neg (h a hscan)

end

/-- Axes with a property of their mode put in OFF, where every axis in an enabled mode has it: a dwell on one of them ends
SKIPPED and no other begins. -/
theorem State.allOff_eq {p : AxisMode → Bool} (h : ∀ a, (s.axis a).mode.enabled = true → p (s.axis a).mode = true) :
    s.allOff p = { s.axesOff p with verifier := DwellSkipped s fun a => p (s.axis a).mode } := by
  by_cases hskips : ∃ a, s.verifier.scan = some a ∧ p (s.axis a).mode = true
  · obtain ⟨a, hscan, hp⟩ := hskips
    rw [State.allOff_skips hscan hp, dwellSkipped_leaves hscan hp, State.skipDwell_last (by exact hscan) (State.axesOff_eligible h)]
    rfl
  · have hspared (a : AxisNo) (hscan : s.verifier.scan = some a) : ¬p (s.axis a).mode = true := fun hp => hskips ⟨a, hscan, hp⟩
    rw [State.allOff_spares hspared, dwellSkipped_spared hspared]
    rfl

/-! ## The fast stop (R118, R142) -/

/-- An axis at the fast stop. -/
def Axis.fastStopped (x : Axis) : Axis := if x.mode.moving = true then (x.stop x.stopDv).1 else x

theorem State.fastStop_alone (s : State) : AxesAlone s s.fastStop :=
  foldl_rel AxesAlone .refl .trans _ (fun u a => u.stopAxis_alone a _) _ s

theorem State.stopAxis_fastStopped (s : State) (a c : AxisNo) :
    (s.stopAxis a (s.axis a).stopDv).1.axis c = if a = c then (s.axis c).fastStopped else s.axis c := by
  rw [State.stopAxis_axis]
  by_cases hac : a = c
  · subst hac
    simp [Axis.fastStopped]
  · simp [hac]

theorem State.fastStop_axis (s : State) (a : AxisNo) : s.fastStop.axis a = (s.axis a).fastStopped :=
  foldl_indexes_cells State.stopAxis_fastStopped s a

/-- A dwell is in progress on axis a, and the axis moves: its stop disturbs the dwell (R129). -/
def State.dwellMoves (s : State) (a : AxisNo) : Bool := s.verifier.scan == some a && (s.axis a).mode.moving

theorem State.stopAxis_disturbed (s : State) (a : AxisNo) (dv : Nat) :
    (s.stopAxis a dv).1.verifier.disturbed = (s.verifier.disturbed || s.dwellMoves a) := by
  unfold State.stopAxis State.dwellMoves
  dsimp only
  split
  · next hm => simp [State.setAxis_disturb, GivenTo, hm, beq_eq_decide]
  · next hm => rw [Bool.not_eq_true _ |>.mp hm, Bool.and_false, Bool.or_false]

theorem State.foldl_fastStop_disturbed : ∀ (l : List AxisNo) (s : State), l.Nodup →
    (l.foldl (fun u a => (u.stopAxis a (u.axis a).stopDv).1) s).verifier.disturbed
      = (s.verifier.disturbed || l.any s.dwellMoves)
  | [], s, _ => by simp
  | a :: rest, s, hl => by
    obtain ⟨ha, hrest⟩ := List.nodup_cons.mp hl
    have hsame : rest.any (s.stopAxis a (s.axis a).stopDv).1.dwellMoves = rest.any s.dwellMoves := by
      rw [Bool.eq_iff_iff, List.any_eq_true, List.any_eq_true]
      refine exists_congr fun b => and_congr_right fun hb => ?_
      have hne : a ≠ b := fun hab => ha (hab ▸ hb)
      rw [State.dwellMoves, State.stopAxis_fastStopped, if_neg hne, s.stopAxis_alone a _]
      rfl
    rw [List.foldl_cons, State.foldl_fastStop_disturbed rest _ hrest, State.stopAxis_disturbed, hsame, List.any_cons,
      Bool.or_assoc]

/-- The one dwell in progress is disturbed where its axis moves. -/
theorem State.any_dwellMoves (s : State) : (indexes 12).any s.dwellMoves = (match s.verifier.scan with
    | some a => (s.axis a).mode.moving
    | none => false) := by
  cases hscan : s.verifier.scan with
  | none => simp [State.dwellMoves, hscan]
  | some a =>
    rw [Bool.eq_iff_iff, List.any_eq_true]
    simp [State.dwellMoves, hscan]

theorem State.fastStop_eq (s : State) : s.fastStop = { s with
    motion := { s.motion with
      axes := Vector.ofFn fun a => if (s.axis a).mode.moving = true then ((s.axis a).stop (s.axis a).stopDv).1 else s.axis a }
    verifier := { s.verifier with
      disturbed := s.verifier.disturbed || (match s.verifier.scan with
        | some a => (s.axis a).mode.moving
        | none => false) } } := by
  have haxes : s.fastStop.motion.axes = Vector.ofFn fun a => (s.axis a).fastStopped :=
    Vector.ext fun i hi => by
      rw [Vector.getElem_ofFn]
      exact s.fastStop_axis ⟨i, hi⟩
  have hdisturbed := State.foldl_fastStop_disturbed (indexes 12) s (List.nodup_finRange 12)
  rw [State.any_dwellMoves] at hdisturbed
  have halone := s.fastStop_alone
  unfold AxesAlone at halone
  rw [haxes] at halone
  rw [halone, State.fastStop, hdisturbed]
  rfl

end Sys2Proof.Machine
end

section
/-! SUPPORT. SET_MODE (R139, R140): the conditions of a quiet tower, the change to SAFE, the changes out of SAFE and between
running modes. -/
namespace Sys2Proof.Machine

variable {s : State} {tag : Byte} {m : OutputMode}

/-! ## The examination (R139) -/

theorem exec_setMode (tag mode : Byte) (htakes : s.takes = true) : exec (.setMode tag mode) s = .next (s.askMode tag mode) :=
  next_taken htakes

theorem outputModeOf_code (m : OutputMode) : outputModeOf m.code = some m := by cases m <;> rfl

theorem outputModeOf_unknown {b : Byte} (h : 3 < b.toNat) : outputModeOf b = none := by
  have hne (c : Byte) (hc : c.toNat ≤ 3) : b ≠ c := fun hbc => Nat.not_le.mpr h (hbc ▸ hc)
  unfold outputModeOf
  rw [if_neg (hne 0 (by decide)), if_neg (hne 1 (by decide)), if_neg (hne 2 (by decide)), if_neg (hne 3 (by decide))]

theorem State.askMode_unknown (tag : Byte) {b : Byte} (h : 3 < b.toNat) : s.askMode tag b = s.reply tag 0x38 .badArg := by
  unfold State.askMode
  rw [outputModeOf_unknown h]

theorem State.askMode_code (s : State) (tag : Byte) (m : OutputMode) : s.askMode tag m.code = s.changeMode tag m := by
  unfold State.askMode
  rw [outputModeOf_code]

theorem State.changeMode_present (tag : Byte) (h : m = s.mode) : s.changeMode tag m = s.reply tag 0x38 .ok [m.code] :=
  if_pos h

theorem State.changeMode_toSafe (tag : Byte) (h : s.mode ≠ .safe) :
    s.changeMode tag .safe = (s.reply tag 0x38 .ok [OutputMode.safe.code]).toSafe :=
  (if_neg (Ne.symm h)).trans (if_pos rfl)

section
variable (tag) (hnew : m ≠ s.mode) (hruns : m ≠ .safe)
include hnew hruns

theorem State.changeMode_running : s.changeMode tag m =
    if s.mode = .safe then ((s.reply tag 0x38 .ok [m.code]).setOutputMode m).walk
    else if s.unquiet ≠ 0 then s.reply tag 0x38 .busy [s.mode.code, s.unquiet]
    else (s.reply tag 0x38 .ok [m.code]).betweenRunning m :=
  (if_neg hnew).trans (if_neg hruns)

theorem State.changeMode_outOfSafe (h : s.mode = .safe) :
    s.changeMode tag m = ((s.reply tag 0x38 .ok [m.code]).setOutputMode m).walk :=
  (State.changeMode_running tag hnew hruns).trans (if_pos h)

theorem State.changeMode_unquiet (h : s.mode ≠ .safe) (hu : s.unquiet ≠ 0) :
    s.changeMode tag m = s.reply tag 0x38 .busy [s.mode.code, s.unquiet] :=
  (State.changeMode_running tag hnew hruns).trans ((if_neg h).trans (if_pos hu))

theorem State.changeMode_quiet (h : s.mode ≠ .safe) (hu : s.unquiet = 0) :
    s.changeMode tag m = (s.reply tag 0x38 .ok [m.code]).betweenRunning m :=
  (State.changeMode_running tag hnew hruns).trans ((if_neg h).trans (if_neg (not_not.mpr hu)))

end

theorem State.unquiet_eq (s : State) : s.unquiet = Unquiet s := by
  unfold State.unquiet Unquiet
  congr 1
  · congr 1
    · congr 1
      · congr 1
        · exact if_congr (by simp [Option.isSome_iff_ne_none]) rfl rfl
        · exact if_congr List.isEmpty_iff rfl rfl
      · exact if_congr (by simp) rfl rfl
    · exact if_congr (by simp) rfl rfl
  · exact if_congr s.exercising_isSome_iff rfl rfl

/-! ## Between running modes (R140) -/

/-- In a quiet tower the axes in an enabled mode are those in HOLD. -/
theorem State.hold_of_enabled (hquiet : s.unquiet = 0) (a : AxisNo) (h : (s.axis a).mode.enabled = true) :
    (s.axis a).mode = .hold := by
  obtain ⟨_, _, _, hrest, _⟩ := State.unquiet_zero hquiet
  by_contra hhold
  have hmoving := (AxisMode.moving_iff _).mpr ⟨h, hhold⟩
  rw [hrest a] at hmoving
  cases hmoving

theorem State.betweenRunning_eq (hquiet : s.unquiet = 0) (m : OutputMode) : s.betweenRunning m = ({ s with
    output := { s.output with mode := m }
    motion := ⟨Vector.ofFn fun a => if (s.axis a).mode = .hold then PutOff (s.axis a) else s.axis a,
      if m = .listen then none else s.motion.line⟩
    verifier := DwellSkipped s fun a => decide ((s.axis a).mode = .hold) } : State).walk := by
  unfold State.betweenRunning
  rw [State.allOff_eq (p := fun x => x == .hold) fun a ha => beq_iff_eq.mpr (State.hold_of_enabled hquiet a ha)]
  simp only [State.axesOff, beq_eq_decide, decide_eq_true_eq]
  rfl

/-! ## The change to SAFE (R139) -/

/-- The tower in SAFE with every run ended: what the change to SAFE finds before the strikes, the axes and the exercise. -/
def State.safeEnded (s : State) : State := (s.setOutputMode .safe).endRuns .mode

theorem State.safeEnded_alone (s : State) : EndsAlone { s with output := { s.output with mode := .safe } } s.safeEnded :=
  State.endRuns_alone rfl _

/-- The strikes gone, the hammers stopped, the axes OFF. -/
def State.safeRested (v : State) : State := { v with
  strikes := { HammersStopped v.strikes with queue := [] }
  motion := { v.motion with
    axes := Vector.ofFn fun a => if (v.axis a).mode = .off then v.axis a else PutOff (v.axis a) }
  verifier := DwellSkipped v fun a => decide ((v.axis a).mode ≠ .off) }

theorem madeSafe_eq (s : State) : MadeSafe s = ExerciseAbortedBy .mode s.safeEnded.safeRested := rfl

/-! The fields of the tower at rest. -/

section
variable (v : State)

@[simp] theorem State.safeRested_now : v.safeRested.now = v.now := by simp only [State.safeRested]
@[simp] theorem State.safeRested_cal : v.safeRested.cal = v.cal := by simp only [State.safeRested]
@[simp] theorem State.safeRested_store : v.safeRested.store = v.store := by simp only [State.safeRested]
@[simp] theorem State.safeRested_sched : v.safeRested.sched = v.sched := by simp only [State.safeRested]
@[simp] theorem State.safeRested_lanes : v.safeRested.lanes = v.lanes := by simp only [State.safeRested]
@[simp] theorem State.safeRested_exercise : v.safeRested.exercise = v.exercise := by simp only [State.safeRested]
@[simp] theorem State.safeRested_output : v.safeRested.output = v.output := by simp only [State.safeRested]
@[simp] theorem State.safeRested_strikes : v.safeRested.strikes = { HammersStopped v.strikes with queue := [] } := by
  simp only [State.safeRested]
theorem State.safeRested_axis (a : AxisNo) :
    v.safeRested.axis a = if (v.axis a).mode = .off then v.axis a else PutOff (v.axis a) := by
  simp only [State.safeRested, State.axis, tget_ofFn]

end

theorem State.safeEnded_mode (s : State) : s.safeEnded.safeRested.mode = .safe := by
  rw [State.mode, State.safeRested_output, s.safeEnded_alone.output]

/-- Every axis in an enabled mode is one that is not OFF. -/
theorem State.allOff_notOff (v : State) (u : StrikeUnit) :
    ({ v with strikes := u } : State).allOff (fun x => x != .off) = { v with
      strikes := u
      motion := { v.motion with
        axes := Vector.ofFn fun a => if (v.axis a).mode = .off then v.axis a else PutOff (v.axis a) }
      verifier := DwellSkipped v fun a => decide ((v.axis a).mode ≠ .off) } := by
  have hp : (fun x : AxisMode => x != .off) = fun x => decide (x ≠ .off) := by
    funext x
    rw [Bool.eq_iff_iff, bne_iff_ne, decide_eq_true_iff]
  rw [hp, State.allOff_eq]
  · simp only [State.axesOff, decide_eq_true_iff, ne_eq, ite_not]
    rfl
  · intro a henabled
    rw [decide_eq_true_iff]
    intro hoff
    rw [hoff] at henabled
    cases henabled

theorem State.safeRested_eq (v : State) : v.safeRested =
    ({ v with strikes := { v.strikes.hammerStop with queue := [] } } : State).allOff fun x => x != .off := by
  rw [State.allOff_notOff, StrikeUnit.hammerStop_eq]
  rfl

theorem madeSafe_mode (s : State) : (MadeSafe s).mode = .safe := by
  rw [State.mode, madeSafe_eq, exerciseAbortedBy_output]
  exact s.safeEnded_mode

theorem State.toSafe_eq (s : State) : s.toSafe = MadeSafe s := by
  have habort : s.safeEnded.safeRested.abortExercise .mode = MadeSafe s := State.abortExercise_held .mode (.inl s.safeEnded_mode)
  have hwalked : s.toSafe = (s.safeEnded.safeRested.abortExercise .mode).walk := by
    rw [State.safeRested_eq]
    rfl
  rw [hwalked, habort, State.walk_held (.inl (madeSafe_mode s))]

/-! The tower after the change to SAFE. -/

section
variable (s : State)

theorem madeSafe_lane (n : LaneNo) : (MadeSafe s).lane n = (s.lane n).ended .mode := by
  rw [State.lane, madeSafe_eq, exerciseAbortedBy_lanes, State.safeRested_lanes]
  exact State.endRuns_lane_eq (s.setOutputMode .safe) n

theorem madeSafe_strikes : (MadeSafe s).strikes = { HammersStopped s.safeEnded.strikes with queue := [] } := by
  rw [madeSafe_eq, exerciseAbortedBy_strikes, State.safeRested_strikes]

theorem madeSafe_bell (b : BellNo) : (MadeSafe s).bell b = (s.bell b).hammerStop := by
  rw [State.bell, madeSafe_strikes, hammersStopped_bell, s.safeEnded_alone.bells]
  rfl

theorem madeSafe_axis (a : AxisNo) :
    (MadeSafe s).axis a = if (s.axis a).mode = .off then s.axis a else PutOff (s.axis a) := by
  rw [State.axis, madeSafe_eq, exerciseAbortedBy_motion]
  refine (s.safeEnded.safeRested_axis a).trans ?_
  rw [State.axis, s.safeEnded_alone.motion]
  rfl

theorem madeSafe_exercise {e : Exercise} (h : s.exercise = some e) (hp : e.phase ≠ .done) :
    (MadeSafe s).exercise = some { e with phase := .done, verdict := some (.aborted .mode) } := by
  refine exerciseAbortedBy_exercise .mode (s := s.safeEnded.safeRested) ?_ hp
  rw [State.safeRested_exercise, s.safeEnded_alone.exercise]
  exact h

theorem madeSafe_requests : (MadeSafe s).sched.queue = s.sched.queue := by
  rw [madeSafe_eq, exerciseAbortedBy_requests, State.safeRested_sched, s.safeEnded_alone.requests]

theorem madeSafe_cal : (MadeSafe s).cal = s.cal := by
  rw [madeSafe_eq, exerciseAbortedBy_cal, State.safeRested_cal, s.safeEnded_alone.cal]

theorem madeSafe_store : (MadeSafe s).store = s.store := by
  rw [madeSafe_eq, exerciseAbortedBy_store, State.safeRested_store, s.safeEnded_alone.store]

theorem madeSafe_output : (MadeSafe s).output = { s.output with mode := .safe } := by
  rw [madeSafe_eq, exerciseAbortedBy_output, State.safeRested_output, s.safeEnded_alone.output]

theorem madeSafe_now : (MadeSafe s).now = s.now := by
  rw [madeSafe_eq, exerciseAbortedBy_now, State.safeRested_now, s.safeEnded_alone.now]

end

/-- Settles O51: the examination of SET_MODE in its order; the change to SAFE is `MadeSafe`, read field by field, and the others
set the mode and walk. -/
theorem modeSet : Obligations.ModeSet := by
  refine ⟨fun s tag mode htakes hbeyond => ?unknown, fun s tag mode m htakes hmode => ?known⟩
  case unknown => rw [exec_setMode tag mode htakes, State.askMode_unknown tag hbeyond]
  case known =>
    subst hmode
    intro ok answer line
    have hanswer : answer = .next (s.changeMode tag m) := by
      rw [← State.askMode_code]
      exact exec_setMode tag m.code htakes
    rw [hanswer]
    refine ⟨fun hpresent => ?present, fun hnew hruns hsafe => ?outOfSafe, fun hnew hruns hlive hunquiet => ?unquiet,
      fun hnew hruns hlive hquiet => ?quiet, fun hto hlive => ?toSafe⟩
    case present => rw [State.changeMode_present tag hpresent]
    case outOfSafe => exact congrArg _ (State.changeMode_outOfSafe tag hnew hruns hsafe)
    case unquiet =>
      rw [← State.unquiet_eq] at hunquiet ⊢
      rw [State.changeMode_unquiet tag hnew hruns hlive hunquiet]
    case quiet =>
      rw [← State.unquiet_eq] at hquiet
      rw [State.changeMode_quiet tag hnew hruns hlive hquiet]
      exact congrArg _ (State.betweenRunning_eq (s := ok) hquiet m)
    case toSafe =>
      subst hto
      refine ⟨MadeSafe ok, ?answered, rfl, madeSafe_mode ok, fun n => ?lane, ?queue, ?hammers, fun b => ?bell, madeSafe_axis ok,
        fun e => madeSafe_exercise ok, madeSafe_requests ok, madeSafe_cal ok, madeSafe_store ok, madeSafe_output ok,
        madeSafe_now ok⟩
      case answered => rw [State.changeMode_toSafe tag hlive, State.toSafe_eq]
      case lane =>
        rw [madeSafe_lane]
        exact ⟨Lane.ended_run _, fun r hr => congrArg Lane.last (Lane.ended_of_run hr), Lane.ended_of_idle⟩
      case queue => rw [madeSafe_strikes]
      case hammers => rw [madeSafe_strikes, hammersStopped_hammers]
      case bell =>
        obtain ⟨hfiring, hflight⟩ := (s.bell b).hammerStop_rests
        rw [madeSafe_bell]
        exact ⟨hfiring, hflight, fun hdisabled => Bell.hammerStop_state (.inr hdisabled)⟩

end Sys2Proof.Machine
end

section
/-! SUPPORT. The atrium interlock (R141 … R143): the debounce, the closing, the opening out of LIVE, and the tower that an
opening in LIVE stops. -/
namespace Sys2Proof.Machine

variable {s : State}

/-! ## The input and the debounce (R141) -/

theorem exec_atriumDebounceChange (s : State) : exec .atriumDebounceChange s =
    .next (if s.atriumDue then (if s.output.isOpen then s.closeInterlock else s.openInterlock) else s) := rfl

theorem exec_atriumDebounceChange_early
    (h : s.output.atriumClear ≠ s.output.isOpen ∨ before s.now (s.output.changedAt + 20000) = true) :
    exec .atriumDebounceChange s = .next s := by
  rw [exec_atriumDebounceChange, if_neg]
  rw [State.atriumDue_iff]
  rintro ⟨hopposite, hheld⟩
  rcases h with h | h
  · exact h hopposite
  · rw [hheld] at h
    cases h

theorem exec_atriumDebounceChange_due (hopposite : s.output.atriumClear = s.output.isOpen)
    (hheld : before s.now (s.output.changedAt + 20000) = false) :
    exec .atriumDebounceChange s = .next (if s.output.isOpen then s.closeInterlock else s.openInterlock) := by
  rw [exec_atriumDebounceChange, if_pos (s.atriumDue_iff.mpr ⟨hopposite, hheld⟩)]

theorem State.closeInterlock_eq (s : State) : s.closeInterlock =
    ({ s with output := { s.output with isOpen := false } }.notice (.interlock false s.mode)).walk := rfl

/-- The debounced state OPEN with its latch. -/
def State.opened (s : State) : State := (s.setOpen true).latch fun l => { l with interlock := true }

theorem State.openInterlock_recorded (h : s.mode ≠ .live) :
    s.openInterlock = (s.opened.notice (.interlock true s.mode)).walk := by
  have hmode : s.opened.mode ≠ .live := h
  unfold State.openInterlock
  exact congrArg (fun u : State => (u.notice (.interlock true u.mode)).walk) (if_neg hmode)

/-! ## The strikes and the runs at an opening (R54, R142; log 6) -/

/-- The tower cleared of strikes and runs, whichever of the two has gone first. -/
structure Cleared (s t : State) : Prop where
  alone : EndsAlone s t
  queue : t.strikes.queue = []
  idle : ∀ n, (t.lane n).run = none
  last : ∀ n r, (s.lane n).run = some r →
    ∃ record, (t.lane n).last = some record ∧ record.outcome = some .interlock ∧ record.id = r.record.id
  owned : ∀ a, (∃ n, s.runClaims a n) → t.claim a = none
  kept : ∀ a, (¬∃ n, s.runClaims a n) → t.claim a = s.claim a

/-- A removal leaves which lanes have runs, and the claims. -/
theorem State.removeInhibited_runClaims (s : State) (a : AxisNo) (n : LaneNo) :
    s.removeInhibited.runClaims a n ↔ s.runClaims a n := by
  have hclaim : s.removeInhibited.claim a = s.claim a := by
    rw [s.removeInhibited_eq]
    rfl
  unfold State.runClaims
  rw [hclaim, Lane.counted_running (s.removeInhibited_counted n)]

/-- The strikes are removed before the runs end. -/
theorem cleared_strikesFirst (s : State) : Cleared s (s.removeInhibited.endRuns .interlock) where
  alone := s.removeInhibited_alone.trans (State.endRuns_alone rfl _)
  queue := State.endRuns_queue _ (by rw [s.removeInhibited_eq])
  idle := State.endRuns_lane _ _
  last n r hr := by
    rcases s.removeInhibited_counted n with ⟨hidle, _⟩ | ⟨q, q', hq, hq', hid⟩
    · rw [hidle] at hr
      cases hr
    · obtain rfl : q = r := Option.some.inj (hq.symm.trans hr)
      rw [State.endRuns_lane_eq, Lane.ended_of_run hq']
      exact ⟨_, rfl, rfl, hid⟩
  owned a h := by
    rw [State.endRuns_claim, if_pos]
    simpa only [State.removeInhibited_runClaims] using h
  kept a h := by
    rw [State.endRuns_claim, if_neg, s.removeInhibited_eq]
    · rfl
    · simpa only [State.removeInhibited_runClaims] using h

/-- The runs end before the strikes are removed, which then count for no run. -/
theorem cleared_runsFirst (s : State) : Cleared s (s.endRuns .interlock).removeInhibited := by
  have hlane (n : LaneNo) : (s.endRuns .interlock).removeInhibited.lane n = (s.lane n).ended .interlock := by
    rcases (s.endRuns .interlock).removeInhibited_counted n with ⟨_, heq⟩ | ⟨q, _, hq, _⟩
    · rw [heq, State.endRuns_lane_eq]
    · rw [State.endRuns_lane] at hq
      cases hq
  have hclaim (a : AxisNo) : (s.endRuns .interlock).removeInhibited.claim a = (s.endRuns .interlock).claim a := by
    rw [State.removeInhibited_eq]
    rfl
  refine ⟨(State.endRuns_alone rfl s).trans (State.removeInhibited_alone _), ?_, fun n => ?_, fun n r hr => ?_, fun a h => ?_,
    fun a h => ?_⟩
  · rw [State.removeInhibited_eq]
  · rw [hlane, Lane.ended_run]
  · rw [hlane, Lane.ended_of_run hr]
    exact ⟨_, rfl, rfl, rfl⟩
  · rw [hclaim, State.endRuns_claim, if_pos h]
  · rw [hclaim, State.endRuns_claim, if_neg h]

theorem State.clearTower_cases (s : State) : s.clearTower = s.nextChoice.removeInhibited.endRuns .interlock
    ∨ s.clearTower = (s.nextChoice.endRuns .interlock).removeInhibited := by
  unfold State.clearTower
  split
  · exact .inl rfl
  · exact .inr rfl

theorem State.clearTower_cleared (s : State) : Cleared s.nextChoice s.clearTower := by
  rcases s.clearTower_cases with h | h <;> rw [h]
  · exact cleared_strikesFirst _
  · exact cleared_runsFirst _

/-! ## The tower stopped (R142) -/

theorem State.fastStop_strikes (v : State) (u : StrikeUnit) : ({ v with strikes := u } : State).fastStop = { v with
    strikes := u
    motion := { v.motion with
      axes := Vector.ofFn fun a => if (v.axis a).mode.moving = true then ((v.axis a).stop (v.axis a).stopDv).1 else v.axis a }
    verifier := { v.verifier with
      disturbed := v.verifier.disturbed || (match v.verifier.scan with
        | some a => (v.axis a).mode.moving
        | none => false) } } :=
  State.fastStop_eq _

/-- The hammers stopped and the fast stop given. -/
def State.fastRested (v : State) : State := ({ v with strikes := HammersStopped v.strikes } : State).fastStop

theorem stoppedFast_eq (v : State) : StoppedFast v = ExerciseAbortedBy .interlock v.fastRested := by
  rw [State.fastRested, State.fastStop_strikes]
  rfl

section
variable (v : State)

theorem State.fastRested_alone : v.fastRested = { v with
    strikes := HammersStopped v.strikes, motion := v.fastRested.motion, verifier := v.fastRested.verifier } := by
  rw [State.fastRested, State.fastStop_strikes]

theorem State.fastRested_axis (a : AxisNo) : v.fastRested.axis a = (v.axis a).fastStopped := by
  rw [State.fastRested, State.fastStop_strikes, State.axis, tget_ofFn]
  rfl

/-! The fields of the tower once stopped. -/

theorem stoppedFast_output : (StoppedFast v).output = v.output := by
  rw [stoppedFast_eq, exerciseAbortedBy_output, State.fastRested_alone]

theorem stoppedFast_cal : (StoppedFast v).cal = v.cal := by
  rw [stoppedFast_eq, exerciseAbortedBy_cal, State.fastRested_alone]

theorem stoppedFast_store : (StoppedFast v).store = v.store := by
  rw [stoppedFast_eq, exerciseAbortedBy_store, State.fastRested_alone]

theorem stoppedFast_requests : (StoppedFast v).sched.queue = v.sched.queue := by
  rw [stoppedFast_eq, exerciseAbortedBy_requests, State.fastRested_alone]

theorem stoppedFast_interlock : (StoppedFast v).port.latches.interlock = v.port.latches.interlock := by
  rw [stoppedFast_eq, exerciseAbortedBy_interlock, State.fastRested_alone]

theorem stoppedFast_strikes : (StoppedFast v).strikes = HammersStopped v.strikes := by
  rw [stoppedFast_eq, exerciseAbortedBy_strikes, State.fastRested_alone]

theorem stoppedFast_lane (n : LaneNo) : (StoppedFast v).lane n = v.lane n := by
  rw [State.lane, stoppedFast_eq, exerciseAbortedBy_lanes, State.fastRested_alone, State.lane]

theorem stoppedFast_bell (b : BellNo) : (StoppedFast v).bell b = (v.bell b).hammerStop := by
  rw [State.bell, stoppedFast_strikes, hammersStopped_bell, State.bell]

theorem stoppedFast_axis (a : AxisNo) : (StoppedFast v).axis a = (v.axis a).fastStopped := by
  rw [State.axis, stoppedFast_eq, exerciseAbortedBy_motion]
  exact v.fastRested_axis a

theorem State.fastRested_exercise : v.fastRested.exercise = v.exercise := by rw [State.fastRested_alone]

theorem State.fastRested_claim (a : AxisNo) : v.fastRested.claim a = v.claim a := by
  rw [State.claim, State.fastRested_alone, State.claim]

open Classical in
theorem stoppedFast_claim (a : AxisNo) : (StoppedFast v).claim a = if v.exercisesAxis a then none else v.claim a := by
  rw [stoppedFast_eq, exerciseAbortedBy_claim, State.fastRested_claim, State.exercisesAxis, State.fastRested_exercise]
  rfl

theorem stoppedFast_exercise {e : Exercise} (h : v.exercise = some e) (hp : e.phase ≠ .done) :
    (StoppedFast v).exercise = some { e with phase := .done, verdict := some (.aborted .interlock) } := by
  rw [stoppedFast_eq]
  exact exerciseAbortedBy_exercise .interlock (v.fastRested_exercise.trans h) hp

end

/-- In LIVE with the interlock open the walk is held, so that the abort of the exercise starts nothing. -/
theorem State.stopTower_eq (hlive : s.mode = .live) (hopen : s.output.isOpen = true) :
    s.stopTower = StoppedFast s.clearTower := by
  have houtput : s.clearTower.fastRested.output = s.output := by
    rw [State.fastRested_alone]
    exact s.clearTower_cleared.alone.output
  have hheld : WalkHeld s.clearTower.fastRested := by
    rw [WalkHeld, State.mode, houtput]
    exact .inr (.inr ⟨hlive, hopen⟩)
  have hstopped : s.stopTower = s.clearTower.fastRested.abortExercise .interlock := by
    unfold State.stopTower State.fastRested
    rw [← StrikeUnit.hammerStop_eq]
  rw [hstopped, State.abortExercise_held _ hheld, stoppedFast_eq]

/-- The tower that an opening leaves, the strikes and the runs cleared in either order. -/
theorem Cleared.towerStopped {v : State} (h : Cleared (Opened s) v)
    (horder : v = RunsEnded .interlock (Inhibited (Opened s)) ∨ v = Inhibited (RunsEnded .interlock (Opened s))) :
    TowerStopped s (StoppedFast v) := by
  refine ⟨horder.imp (congrArg _) (congrArg _), fun n => ?idle, fun n r hr => ?last, ?queue, ?hammers, fun b => ?bell,
    fun a => ?axis, fun a => ?claim, fun e he hp => ?exercise, ?requests, ?cal, ?store⟩
  case idle => rw [stoppedFast_lane, h.idle n]
  case last =>
    rw [stoppedFast_lane]
    exact h.last n r hr
  case queue => rw [stoppedFast_strikes, hammersStopped_queue, h.queue]
  case hammers => rw [stoppedFast_strikes, hammersStopped_hammers]
  case bell =>
    have hbell : v.bell b = s.bell b := congrArg (tget · b) h.alone.bells
    obtain ⟨hfiring, hflight⟩ := (s.bell b).hammerStop_rests
    rw [stoppedFast_bell, hbell]
    exact ⟨hfiring, hflight, Bell.hammerStop_state, (s.bell b).hammerStop_guard⟩
  case axis =>
    have haxis : v.axis a = s.axis a := congrArg (fun m : Motion => tget m.axes a) h.alone.motion
    rw [stoppedFast_axis, haxis, Axis.fastStopped]
  case claim =>
    have hexercise : v.exercisesAxis a ↔ s.exercisesAxis a := by
      unfold State.exercisesAxis
      rw [h.alone.exercise]
      rfl
    rw [stoppedFast_claim]
    refine ⟨fun hended => ?_, fun hnot => ?_⟩
    · split
      · rfl
      · next hother => exact h.owned a (hended.resolve_right (mt hexercise.mpr hother))
    · rw [if_neg fun hruns => hnot (.inr (hexercise.mp hruns))]
      exact h.kept a fun hruns => hnot (.inl hruns)
  case exercise => exact stoppedFast_exercise v (h.alone.exercise.trans he) hp
  case requests => exact (stoppedFast_requests v).trans h.alone.requests
  case cal => exact (stoppedFast_cal v).trans h.alone.cal
  case store => exact (stoppedFast_store v).trans h.alone.store

theorem State.openInterlock_live (h : s.mode = .live) :
    s.openInterlock = (StoppedFast s.opened.clearTower).notice (.interlock true .live) := by
  have hlive : s.opened.mode = .live := h
  have houtput : (StoppedFast s.opened.clearTower).output = s.opened.output :=
    (stoppedFast_output _).trans s.opened.clearTower_cleared.alone.output
  have hmode : (StoppedFast s.opened.clearTower).mode = .live := (congrArg OutputControl.mode houtput).trans hlive
  have hopen : (StoppedFast s.opened.clearTower).output.isOpen = true := congrArg OutputControl.isOpen houtput
  have hstop : s.openInterlock =
      ((StoppedFast s.opened.clearTower).notice (.interlock true (StoppedFast s.opened.clearTower).mode)).walk := by
    rw [← State.stopTower_eq hlive rfl]
    exact congrArg (fun u : State => (u.notice (.interlock true u.mode)).walk) (if_pos hlive)
  rw [hstop, hmode, State.walk_held]
  exact .inr (.inr ⟨hmode, hopen⟩)

/-- Settles O52: the debounce, the closing and the opening case by case; the opening in LIVE clears the tower in a free order
and then stops what is left of it. -/
theorem interlockDebounced : Obligations.InterlockDebounced := by
  refine ⟨fun s level => ⟨fun hsame => ?same, fun hchange => ?change⟩, fun s => ⟨exec_atriumDebounceChange_early, fun hheld =>
    ⟨fun hclear hopen => ?closing, fun hclear hopen hmode => ?recorded, fun hclear hopen hlive => ?stops⟩⟩⟩
  case same => exact congrArg _ (if_pos hsame)
  case change => exact congrArg _ (if_neg hchange)
  case closing =>
    rw [exec_atriumDebounceChange_due (hclear.trans hopen.symm) hheld, if_pos hopen, State.closeInterlock_eq]
  case recorded =>
    rw [exec_atriumDebounceChange_due (hclear.trans hopen.symm) hheld, if_neg (ne_true_of_eq_false hopen),
      State.openInterlock_recorded hmode]
    rfl
  case stops =>
    have hcleared : Cleared (Opened s) s.opened.clearTower := s.opened.clearTower_cleared
    refine ⟨StoppedFast s.opened.clearTower, ?answer, ?output, ?latch, hcleared.towerStopped s.opened.clearTower_cases⟩
    case answer =>
      rw [exec_atriumDebounceChange_due (hclear.trans hopen.symm) hheld, if_neg (ne_true_of_eq_false hopen),
        State.openInterlock_live hlive]
    case output => exact (stoppedFast_output _).trans hcleared.alone.output
    case latch => exact (stoppedFast_interlock _).trans hcleared.alone.interlock

end Sys2Proof.Machine
end

section
/-! SUPPORT. The receiver (R144): what it makes of a byte, of a missing stop bit and of a gap, while hunting and inside a
frame. -/
namespace Sys2Proof.Machine

variable {s : State} {bytes : List Byte}

/-! ## Complete frames and gaps -/

/-- LEN and two bytes follow the LEN byte. -/
theorem frameIsComplete_iff (bytes : List Byte) : frameIsComplete bytes = true ↔
    ∃ (len : Byte) (more : List Byte), bytes = len :: more ∧ more.length = len.toNat + 2 := by
  cases bytes with
  | nil => simp [frameIsComplete]
  | cons len more => simp [frameIsComplete]

theorem State.completeFrame_complete (hr : s.port.receiver = .inside bytes) (hc : frameIsComplete bytes = true) :
    s.completeFrame = s.examineFrame bytes := by
  simp [State.completeFrame, State.frameWaiting, hr, hc]

theorem State.completeFrame_none
    (h : ∀ bytes, s.port.receiver = .inside bytes → frameIsComplete bytes = false) : s.completeFrame = s := by
  cases hr : s.port.receiver with
  | hunting => simp [State.completeFrame, State.frameWaiting, hr]
  | inside bytes => simp [State.completeFrame, State.frameWaiting, hr, h bytes hr]

theorem State.completeFrame_hunting (hr : s.port.receiver = .hunting) : s.completeFrame = s :=
  State.completeFrame_none fun bytes h => by rw [hr] at h; cases h

theorem State.completeFrame_incomplete (hr : s.port.receiver = .inside bytes) (hc : frameIsComplete bytes = false) :
    s.completeFrame = s :=
  State.completeFrame_none fun other h => by rw [hr] at h; cases h; exact hc

/-- The frame discarded. -/
theorem State.discardFrame_eq (s : State) : s.discardFrame = { s with port := { s.port with
    receiver := .hunting, latches := { s.port.latches with linkFraming := true } } } := rfl

theorem State.passGap_hunting (hr : s.port.receiver = .hunting) : s.passGap = s := by
  simp [State.passGap, State.gapPassed, hr]

theorem State.passGap_early (h : before s.now (s.port.lastByte + 2001) = true) : s.passGap = s := by
  unfold State.passGap
  refine if_neg fun hg => ?_
  obtain ⟨_, _, _, hcome⟩ := s.gapPassed_iff.mp hg
  rw [h] at hcome
  cases hcome

theorem State.passGap_over (hr : s.port.receiver = .inside bytes) (hc : frameIsComplete bytes = false)
    (h : before s.now (s.port.lastByte + 2001) = false) : s.passGap = s.discardFrame := by
  unfold State.passGap
  exact if_pos (s.gapPassed_iff.mpr ⟨bytes, hr, hc, h⟩)

/-! ## One byte -/

theorem State.receive_hunting (hr : s.port.receiver = .hunting) (b : Byte) : s.receive b = { s with port := { s.port with
    lastByte := s.now, receiver := if b = 0xC5 then .inside [] else .hunting } } := by
  unfold State.receive
  dsimp only
  rw [hr]
  dsimp only
  split
  · rfl
  · rw [← hr]

/-- A byte is bad where it is a LEN outside 2 … 240. -/
theorem State.receive_inside (hr : s.port.receiver = .inside bytes) (b : Byte) : s.receive b =
    if bytes = [] ∧ ¬(2 ≤ b.toNat ∧ b.toNat ≤ 240) then
      { s with port := { s.port with
        lastByte := s.now, receiver := .hunting, latches := { s.port.latches with linkFraming := true } } }
    else { s with port := { s.port with lastByte := s.now, receiver := .inside (bytes ++ [b]) } } := by
  unfold State.receive
  dsimp only
  rw [hr]
  cases bytes with
  | nil =>
    dsimp only
    by_cases hlen : 2 ≤ b.toNat ∧ b.toNat ≤ 240
    · rw [if_pos hlen, if_neg fun h => h.2 hlen]
      rfl
    · rw [if_neg hlen, if_pos ⟨rfl, hlen⟩]
      rfl
  | cons _ _ =>
    exact (if_neg fun h => List.cons_ne_nil _ _ h.1).symm

theorem exec_receivedByte (b : Byte) (s : State) :
    exec (.receivedByte b) s = .next (s.completeFrame.passGap.receive b) := rfl

theorem exec_frameByteError (s : State) : exec .frameByteError s = .next s.completeFrame.byteError := rfl

theorem exec_frameGapTimeout (s : State) : exec .frameGapTimeout s = .next s.passGap := rfl

theorem receiverCollectsBytes : ReceiverCollectsBytes := by
  intro s b
  rw [exec_receivedByte]
  refine ⟨fun hr => ?hunting, fun bytes hr hc hgap => ?inside⟩
  case hunting => rw [s.completeFrame_hunting hr, s.passGap_hunting hr, s.receive_hunting hr]
  case inside => rw [s.completeFrame_incomplete hr hc, s.passGap_early hgap, s.receive_inside hr]

theorem receiverDiscardsFrames : ReceiverDiscardsFrames := by
  intro s
  simp only [exec_receivedByte, exec_frameByteError, exec_frameGapTimeout]
  refine ⟨fun hr => ⟨?ignored, ?noGap⟩, fun bytes hr hc => ?inside⟩
  case ignored => simp [s.completeFrame_hunting hr, State.byteError, hr]
  case noGap => rw [s.passGap_hunting hr]
  case inside =>
    rw [s.completeFrame_incomplete hr hc]
    refine ⟨?stopBit, fun hgap => by rw [s.passGap_early hgap], fun hgap => ?gap⟩
    case stopBit => simp [State.byteError, hr, State.discardFrame_eq]
    case gap =>
      rw [s.passGap_over hr hc hgap]
      exact ⟨rfl, fun b => by rw [State.receive_hunting rfl]; rfl⟩

/-- Settles O4: a byte meets first a complete frame, then a passed gap, then the receiver; where the frame is incomplete only
the last two act. -/
theorem framesReceived : Obligations.FramesReceived := ⟨receiverCollectsBytes, receiverDiscardsFrames⟩

end Sys2Proof.Machine
end

section
/-! SUPPORT. The check (R145), computed bit by bit, and the examination of a complete frame. -/
namespace Sys2Proof.Machine

/-! ## The check -/

/-- One bit fed to the check. -/
def feedBit (c : Half) (bit : Bool) : Half := if c.msb ≠ bit then (c <<< 1) ^^^ 0x1021#16 else c <<< 1

/-- The bits still to be fed stand in the register, above its remainder. -/
theorem checkBit_xor (c y : Half) : checkBit (c ^^^ y) = feedBit c y.msb ^^^ (y <<< 1) := by
  unfold checkBit feedBit
  rw [BitVec.msb_xor, BitVec.shiftLeft_xor_distrib]
  cases c.msb
  · cases y.msb
    · simp
    · simp [BitVec.xor_assoc, BitVec.xor_comm (y <<< 1)]
  · cases y.msb
    · simp [BitVec.xor_assoc, BitVec.xor_comm (y <<< 1)]
    · simp

theorem foldl_checkBit_xor (c y : Half) (n : Nat) : (List.range n).foldl (fun r _ => checkBit r) (c ^^^ y) =
    (List.range n).foldl (fun r i => feedBit r (y <<< i).msb) c ^^^ (y <<< n) := by
  induction n with
  | zero => simp
  | succ n ih =>
    rw [List.range_succ, List.foldl_append, List.foldl_append, ih]
    simp only [List.foldl_cons, List.foldl_nil]
    rw [checkBit_xor, BitVec.shiftLeft_add]

/-- The high half of the register leaves it in eight shifts. -/
theorem highByte_shiftLeft (b : Byte) : (b ++ (0 : Byte) : Half) <<< 8 = 0 := by
  apply BitVec.eq_of_toNat_eq
  have := b.isLt
  simp only [BitVec.toNat_shiftLeft, BitVec.toNat_append, Nat.shiftLeft_eq]
  simp
  omega

/-- A byte in the high half of the register comes to its top bit by bit, the most significant first. -/
theorem highByte_msb (b : Byte) {i : Nat} (hi : i < 8) : ((b ++ (0 : Byte) : Half) <<< i).msb = b.getLsbD (7 - i) := by
  have hhigh : ¬ 15 - i < 8 := by omega
  have hbit : 15 - i - 8 = 7 - i := by omega
  rw [BitVec.msb_eq_getLsbD_last, BitVec.getLsbD_shiftLeft, BitVec.getLsbD_append]
  simp [hhigh, hbit]
  omega

/-- The bits of a byte, the most significant first. -/
theorem checkByte_eq (c : Half) (b : Byte) :
    checkByte c b = ([7, 6, 5, 4, 3, 2, 1, 0] : List Nat).foldl (fun c i => feedBit c (b.getLsbD i)) c := by
  have hbits : ∀ r : Half, (List.range 8).foldl (fun r i => feedBit r ((b ++ (0 : Byte) : Half) <<< i).msb) r =
      (List.range 8).foldl (fun r i => feedBit r (b.getLsbD (7 - i))) r := fun r =>
    List.foldl_ext _ _ r fun _ _ hi => by rw [highByte_msb b (List.mem_range.mp hi)]
  rw [checkByte, foldl_checkBit_xor, hbits, highByte_shiftLeft]
  exact BitVec.xor_zero

theorem checkOf_append (bytes : List Byte) (b : Byte) : checkOf (bytes ++ [b]) = checkByte (checkOf bytes) b := by
  simp [checkOf]

theorem checkComputed : CheckComputed :=
  ⟨rfl, fun bytes b => by
    rw [checkOf_append, checkByte_eq]
    rfl⟩

/-! ## A complete frame -/

/-- A two-byte field is the two bytes it is sent as, high byte first. -/
@[simp] theorem two_append (high low : Byte) : two (high ++ low) = [high, low] := by
  simp only [two]
  rw [BitVec.extractLsb'_append_eq_left, BitVec.extractLsb'_append_eq_right]

/-- The bytes of a two-byte field make the field. -/
@[simp] theorem two_joined (h : Half) : h.extractLsb' 8 8 ++ h.extractLsb' 0 8 = h := by
  rw [BitVec.extractLsb'_append_extractLsb'_eq_extractLsb' (Nat.zero_add 8).symm]
  exact BitVec.extractLsb'_eq_self

theorem two_eq_iff {h : Half} {high low : Byte} : two h = [high, low] ↔ high ++ low = h := by
  constructor
  · intro heq
    obtain ⟨rfl, hlow⟩ := List.cons.inj heq
    obtain ⟨rfl, _⟩ := List.cons.inj hlow
    exact two_joined h
  · rintro rfl
    exact two_append high low

theorem splitCheck_append (body : List Byte) (high low : Byte) :
    splitCheck (body ++ [high, low]) = (body, [high, low]) := by
  simp [splitCheck]

section Complete

variable {s : State} {len tag kind high low : Byte} {payload : List Byte}

/-- A complete frame by its parts: the check first, then the kind. -/
theorem exec_frameComplete (hr : s.port.receiver = .inside ((len :: tag :: kind :: payload) ++ [high, low]))
    (hlen : len.toNat = payload.length + 2) : exec .frameComplete s = .next
      (if high ++ low = checkOf (len :: tag :: kind :: payload) then
        if 0x80 ≤ kind.toNat then (s.setReceiver .hunting).latch fun l => { l with linkFraming := true }
        else (s.setReceiver .hunting).offer ⟨tag, kind, payload⟩
      else (s.setReceiver .hunting).latch fun l => { l with linkCheck := true }) := by
  have hc : frameIsComplete ((len :: tag :: kind :: payload) ++ [high, low]) = true :=
    (frameIsComplete_iff _).mpr ⟨len, (tag :: kind :: payload) ++ [high, low], rfl, by simp [hlen]⟩
  refine congrArg Host.Outcome.next ((State.completeFrame_complete hr hc).trans ?_)
  unfold State.examineFrame
  rw [splitCheck_append]
  simp only [two_eq_iff]

end Complete

theorem frameExamined : FrameExamined := by
  refine ⟨fun s len tag kind payload high low hr hlen => ?_, fun s h => ?_, frameIsComplete_iff⟩
  · rw [exec_frameComplete hr hlen]
    refine ⟨fun hbad => ?bad, fun hgood hkind => ?noRequest, fun hgood hkind => ?request⟩
    case bad => rw [if_neg hbad]; rfl
    case noRequest => rw [if_pos hgood, if_pos hkind]; rfl
    case request => rw [if_pos hgood, if_neg (Nat.not_le.mpr hkind)]; rfl
  · exact congrArg Host.Outcome.next (State.completeFrame_none h)

/-- Settles O5: the check is computed bit by bit, the bits of a byte standing in the register above its remainder; a complete
frame meets the check and then its kind. -/
theorem completeFrameExamined : Obligations.CompleteFrameExamined := ⟨checkComputed, frameExamined⟩

end Sys2Proof.Machine
end

section
/-! SUPPORT. The reset state satisfies the laws that the steps keep: it is what a hard reset leaves of itself. -/
namespace Sys2Proof.Machine

/-- A hard reset with BAUD1:0 at 00 and the input pins low leaves the reset state (log 4). -/
theorem State.hardReset_reset : State.reset.hardReset 0 = State.reset := by
  have hinputs : Vector.ofFn (fun k : KeyNo => (tget State.reset.sched.inputs k).hardReset) = State.reset.sched.inputs := by
    decide
  unfold State.hardReset
  rw [hinputs]
  rfl

/-- Settles O60: the reset state is left by a hard reset, which leaves every queue empty, every lane IDLE and every axis
unconfigured. -/
theorem resetIsLawful : Obligations.ResetIsLawful := by
  unfold Obligations.ResetIsLawful
  rw [← State.hardReset_reset]
  generalize State.reset = s
  obtain ⟨hspaced, _, hordered⟩ := s.hardReset_queueLawful 0
  have hempty := s.not_mem_hardReset_queue 0
  exact ⟨s.hardReset_withinCapacity 0, s.hardReset_ordered 0, Calendar.reset_timeInRange, Store.reset_lawful,
    s.hardReset_withinSupply 0, hspaced, fun k hk => absurd hk (hempty k), s.hardReset_axesLawful 0,
    s.hardReset_towerSafe 0, s.hardReset_cursorsInside 0, fun k hk => absurd hk (hempty k),
    fun k hk => absurd hk (hempty k), hordered, s.hardReset_claimsLawful 0, s.hardReset_busLawful 0⟩

end Sys2Proof.Machine
end

section
/-! SUPPORT. RESET and the soft reset (R154): what the soft reset makes of each table, block by block. -/
namespace Sys2Proof.Machine

variable {s : State}

theorem exec_reset (tag : Byte) (h : s.takes = true) : exec (.reset tag) s = .next (s.askReset tag) := next_taken h

/-- A RESET reply that waits keeps the port from taking requests. -/
theorem State.portReady_of_resetWaiting (h : s.port.resetWaiting = true) : s.portReady = false := by
  simp [State.portReady, h]

theorem resetAsked : ResetAsked := fun s tag h =>
  ⟨s.askReset tag, exec_reset tag h, State.portReady_of_resetWaiting rfl, rfl⟩

theorem Store.softReset_entry (st : Store) (i : Fin 64) :
    tget st.softReset.directory i = if (tget st.directory i).isOpened then .free else tget st.directory i :=
  tget_ofFn _ i

theorem Bell.softReset_eq (b : Bell) : b.softReset = if b.state = .firing ∨ b.state = .flight then
    { b with state := .ready, inFlight := none, confirmedEnd := none, streak := 0 }
    else { b with confirmedEnd := none, streak := 0 } := by
  unfold Bell.softReset Bell.hammerStop
  cases hb : b.state <;> simp

theorem softResetLeaves : SoftResetLeaves := by
  intro s
  refine ⟨s.softReset, rfl, rfl, fun i => ?entry, fun n => tget_replicate _ n, fun a => tget_replicate _ a,
    fun k => tget_ofFn _ k, fun b => ?bell, fun a => tget_ofFn _ a, fun a => tget_replicate _ a⟩
  case entry =>
    refine (s.store.softReset_entry i).trans ?_
    cases tget s.store.directory i <;> rfl
  case bell => exact (tget_ofFn _ b).trans (Bell.softReset_eq _)

/-- Settles O9: RESET waits for its reply to leave, and the soft reset writes each table entry by entry. -/
theorem softResetOnRequest : Obligations.SoftResetOnRequest := ⟨resetAsked, softResetLeaves⟩

end Sys2Proof.Machine
end

section
/-! SUPPORT. The hard reset (R155): which low levels of RESET_N make one, the latches and the alarm it leaves. -/
namespace Sys2Proof.Machine

theorem exec_hardReset (cause : ResetCause) (baud : BitVec 2) (s : State) :
    exec (.hardReset cause baud) s = .next (if resetActs cause then s.hardReset baud else s) := rfl

theorem resetActs_iff (cause : ResetCause) :
    resetActs cause = true ↔ cause = .powerUp ∨ ∃ low, cause = .pin low ∧ 10 ≤ low := by
  cases cause with
  | powerUp => simp [resetActs]
  | pin low => simp [resetActs]

/-- The latches after a hard reset are those its level causes set (R150). -/
theorem State.hardReset_levelLatches (s : State) (baud : BitVec 2) : levelLatches (s.hardReset baud) = Latches.reset := by
  have hbells : StrikeUnit.reset.bells.map bellLevel = Latches.reset.bells := Vector.map_replicate
  have haxes : Motion.reset.axes.map axisLevel = Latches.reset.axes := Vector.map_replicate
  unfold levelLatches
  rw [show (s.hardReset baud).strikes.bells.map bellLevel = _ from hbells,
    show (s.hardReset baud).motion.axes.map axisLevel = _ from haxes]
  rfl

theorem State.alarmN_of_timeInvalid {s : State} (h : s.cal.timeValid = false) : s.alarmN = false := by
  simp [State.alarmN, State.alarm, h]

theorem State.hardReset_outputPins (s : State) (baud : BitVec 2) :
    (s.hardReset baud).outputPins = { pinsInReset with alarmN := false } :=
  congrArg (OutputPins.mk 0 false true) (State.alarmN_of_timeInvalid rfl)

/-- Settles O10: a reset that acts leaves every block at its reset value, and one that does not changes nothing. -/
theorem hardResetLeaves : Obligations.HardResetLeaves := by
  intro s baud
  refine ⟨fun low hlow => ?short, fun cause hcause => ⟨s.hardReset baud, ?acts, rfl, rfl, rfl, rfl, rfl, rfl, rfl, rfl, rfl,
    fun a => tget_replicate _ a, fun k => tget_replicate _ k, fun k => tget_ofFn _ k, fun n => tget_replicate _ n,
    rfl, rfl, rfl, rfl, rfl, rfl, rfl, rfl, rfl, rfl, rfl, rfl, rfl, rfl, rfl, rfl, rfl,
    (s.hardReset_levelLatches baud).symm, s.hardReset_outputPins baud, rfl, rfl⟩⟩
  case short =>
    have hnot : resetActs (.pin low) = false := by simp [resetActs, hlow]
    rw [exec_hardReset, hnot]
    rfl
  case acts => rw [exec_hardReset, if_pos ((resetActs_iff cause).mpr hcause)]

end Sys2Proof.Machine
end

section
/-! SUPPORT. STATUS (R151), ALARM_N (R152), PING (R153) and NOTICE_MASK (R149). -/
namespace Sys2Proof.Machine

variable {s : State} {tag : Byte}

/-! ## STATUS -/

theorem tget_map {α β : Type} {n : Nat} (f : α → β) (t : Vector α n) (i : Fin n) : tget (t.map f) i = f (tget t i) := by
  simp [tget]

/-- Of a bell's latches the DISABLED one alone has a level cause. -/
theorem State.clearLatches_bell (s : State) (b : BellNo) : tget s.clearLatches.port.latches.bells b =
    ⟨false, (tget s.port.latches.bells b).disabled && (s.bell b).isDisabled, false, false, false⟩ := by
  refine (tget_ofFn _ b).trans ?_
  rw [show tget (levelLatches s).bells b = bellLevel (s.bell b) from tget_map _ _ b]
  simp [BellLatches.keep, bellLevel]

/-- FAULT and LAG have level causes, MISMATCH has none. -/
theorem State.clearLatches_axis (s : State) (a : AxisNo) : tget s.clearLatches.port.latches.axes a =
    ⟨if (s.axis a).isFault then (tget s.port.latches.axes a).fault else none,
      (tget s.port.latches.axes a).lag && (s.axis a).lag, false⟩ := by
  refine (tget_ofFn _ a).trans ?_
  rw [show tget (levelLatches s).axes a = axisLevel (s.axis a) from tget_map _ _ a]
  exact congrArg (AxisLatches.mk _ _) (Bool.and_false _)

/-- The reset record as PING and STATUS send it. -/
theorem ResetRecord.bytes_eq (r : ResetRecord) : r.bytes =
    [(match r.kind with | .hard => 0 | .soft => 1), (if r.reported then 1 else 0)] := by
  unfold ResetRecord.bytes
  cases r.kind <;> rfl

theorem exec_status (h : s.takes = true) :
    exec (.status tag) s = .next (s.clearLatches.reply tag 0x03 .ok s.statusRecord) := next_taken h

theorem statusReadsAndClears : StatusReadsAndClears := by
  intro s tag h
  refine ⟨s.clearLatches, ?reply, rfl, s.clearLatches_bell, s.clearLatches_axis, rfl, rfl, rfl, ?_, ?_, ?_, ?_, ?_, ?_⟩
  case reply =>
    exact (exec_status h).trans (congrArg (fun record => Host.Outcome.next (s.clearLatches.reply tag 0x03 .ok
      (s.port.latches.bytes ++ [s.mode.code, boolByte s.output.isOpen] ++ two s.verifier.pass
        ++ [byteOf s.port.rx.length, byteOf s.port.tx.length] ++ record))) (ResetRecord.bytes_eq _))
  -- the latches without a level cause
  all_goals exact Bool.and_false _

/-! ## ALARM_N -/

theorem Axis.isSome_faultCause_iff (x : Axis) : x.faultCause.isSome = true ↔ ∃ c, x.mode = .fault c := by
  unfold Axis.faultCause
  cases x.mode <;> simp

theorem alarmFollowsCauses : AlarmFollowsCauses := by
  intro s
  have hstopped : s.stopped = true ↔ s.output.isOpen = true ∧ s.output.mode = .live := by
    simp [State.stopped, State.mode, and_comm]
  simp only [State.alarmN, State.alarm, Bool.not_eq_false', Bool.or_eq_true, List.any_eq_true, mem_indexes, true_and,
    Axis.isSome_faultCause_iff, hstopped, Bell.alarms, beq_iff_eq, Bool.not_eq_true', or_assoc]

/-- Settles O11: STATUS fixes its record, clears the latches against their level causes and then replies; the alarm is its
causes one by one. -/
theorem statusAndAlarm : Obligations.StatusAndAlarm := ⟨statusReadsAndClears, alarmFollowsCauses⟩

/-! ## PING -/

theorem Port.makeRoom_resetRecord {p q : Port} (h : p.makeRoom = some q) : q.resetRecord = p.resetRecord := by
  unfold Port.makeRoom at h
  split at h
  · cases h
    rfl
  · split at h
    · cases h
    · obtain ⟨_, _, rfl⟩ := Option.map_eq_some_iff.mp h
      rfl

@[simp] theorem Port.enterReply_resetRecord (p : Port) (now : Instant) (f : TxFrame) :
    (p.enterReply now f).resetRecord = p.resetRecord := by
  unfold Port.enterReply
  split
  · next q hq => exact Port.makeRoom_resetRecord (q := q) hq
  · rfl

/-- The capacities of section 11.4 as they are sent. -/
theorem capacityBytes_eq : capacityBytes = [32, 12, 4, 64, 0x20, 0x00, 8, 8, 64, 4, 16] := by decide

theorem exec_ping (h : s.takes = true) : exec (.ping tag) s = .next (s.reply tag 0x01 .ok
    ([Config.familyCode, Config.revision] ++ capacityBytes ++ s.port.resetRecord.bytes)).setReported := next_taken h

theorem pingReports : PingReports := by
  intro s tag h
  refine ⟨_, ?_, rfl⟩
  rw [exec_ping h, State.setReported, State.reply_port, Port.enterReply_resetRecord, ResetRecord.bytes_eq,
    capacityBytes_eq]
  rfl

/-! ## NOTICE_MASK, and a kind that is no request -/

/-- A mask of the twelve notice kinds, as the reply carries it. -/
theorem two_mask {mask : Half} (h : mask.toNat < 4096) :
    two ((mask.setWidth 12).setWidth 16) = [(mask >>> 8).setWidth 8, mask.setWidth 8] := by
  have hmask : (mask.setWidth 12).setWidth 16 = mask := by
    apply BitVec.eq_of_toNat_eq
    simp only [BitVec.toNat_setWidth]
    omega
  rw [hmask]
  rfl

theorem State.writeMask_inside {mask : Half} (h : mask.toNat < 4096) : s.writeMask tag mask =
    { s with port := { s.port with mask := mask.setWidth 12 } }.reply tag 0x04 .ok
      [(mask >>> 8).setWidth 8, mask.setWidth 8] := by
  have hinside : ¬ maskBeyond mask = true := fun hb => Nat.not_le.mpr h ((maskBeyond_iff mask).mp hb)
  rw [State.writeMask, if_neg hinside, axisMaskOf_eq, ← two_mask h]

theorem State.writeMask_beyond {mask : Half} (h : 4096 ≤ mask.toNat) :
    s.writeMask tag mask = s.reply tag 0x04 .badArg := if_pos ((maskBeyond_iff mask).mpr h)

theorem exec_noticeMask (mask : Half) (h : s.takes = true) :
    exec (.noticeMask tag mask) s = .next (s.writeMask tag mask) := next_taken h

theorem maskAndUnknownKind : MaskAndUnknownKind := by
  intro s tag h
  refine ⟨fun mask hmask => ?inside, fun mask hmask => ?beyond, fun kind payload => next_taken h⟩
  case inside => rw [exec_noticeMask mask h, State.writeMask_inside hmask]
  case beyond => rw [exec_noticeMask mask h, State.writeMask_beyond hmask]

/-- Settles O12: each is a request whose reply is written out; PING sets the reported flag after its reply has entered. -/
theorem pingAndMask : Obligations.PingAndMask := ⟨pingReports, maskAndUnknownKind⟩

end Sys2Proof.Machine
end

section
/-! SUPPORT. The transmit queue (R147, R148, R149): room made for a reply, what enters and what does not, the time of a frame
and the head frame that leaves. -/
namespace Sys2Proof.Machine

variable {p : Port} {now : Instant} {f : TxFrame}

/-! ## Room -/

/-- The oldest notice goes. -/
theorem dropNotice_append {n : TxFrame} (hn : n.role = .notice) (newer : List TxFrame) :
    ∀ {older : List TxFrame}, (∀ g ∈ older, g.role ≠ .notice) → dropNotice (older ++ n :: newer) = some (older ++ newer)
  | [], _ => by simp [dropNotice, hn]
  | g :: rest, h => by
    obtain ⟨hg, hrest⟩ := List.forall_mem_cons.mp h
    simp [dropNotice, hg, dropNotice_append hn newer hrest]

theorem dropNotice_none : ∀ {l : List TxFrame}, (∀ g ∈ l, g.role ≠ .notice) → dropNotice l = none
  | [], _ => rfl
  | g :: rest, h => by
    obtain ⟨hg, hrest⟩ := List.forall_mem_cons.mp h
    simp [dropNotice, hg, dropNotice_none hrest]

theorem Port.makeRoom_room (h : p.tx.length < 16) : p.makeRoom = some p := if_pos h

theorem Port.makeRoom_full {head : TxFrame} {rest : List TxFrame} (h : 16 ≤ p.tx.length) (htx : p.tx = head :: rest) :
    p.makeRoom = (dropNotice rest).map fun rest' =>
      { p with tx := head :: rest', latches := { p.latches with noticeLost := true } } := by
  have hfull : ¬ p.tx.length < Config.transmitCapacity := Nat.not_lt.mpr h
  rw [Port.makeRoom, if_neg hfull, htx]

/-! ## Entry -/

theorem Port.append_eq (p : Port) (now : Instant) (f : TxFrame) : p.append now f = FrameJoined p now p.tx f := by
  simp [Port.append, FrameJoined]

theorem Port.enterReply_some {q : Port} (h : p.makeRoom = some q) : p.enterReply now f = q.append now f := by
  simp [Port.enterReply, h]

theorem Port.enterReply_none (h : p.makeRoom = none) : p.enterReply now f = { p with held := some f } := by
  simp [Port.enterReply, h]

theorem Port.enterBusy_some {q : Port} (h : p.makeRoom = some q) : p.enterBusy now f = q.append now f := by
  simp [Port.enterBusy, h]

theorem Port.enterBusy_none (h : p.makeRoom = none) : p.enterBusy now f = p := by
  simp [Port.enterBusy, h]

/-- A frame that joins a queue which is not empty starts no sending. -/
theorem Port.append_sending {head : TxFrame} {rest : List TxFrame} (h : p.tx = head :: rest) (now : Instant) (f : TxFrame) :
    p.append now f = { p with tx := p.tx ++ [f] } := by
  simp [Port.append, h]

theorem Port.enterNotice_masked {n : Notice} (h : p.mask.getLsbD n.number = false) : p.enterNotice now n = p := by
  simp [Port.enterNotice, h]

theorem Port.enterNotice_full {n : Notice} (h : p.mask.getLsbD n.number = true) (hfull : 16 ≤ p.tx.length) :
    p.enterNotice now n = { p with latches := { p.latches with noticeLost := true } } := by
  have hfull : ¬ p.tx.length < Config.transmitCapacity := Nat.not_lt.mpr hfull
  rw [Port.enterNotice, if_pos h, if_neg hfull]

theorem Port.enterNotice_room {n : Notice} (h : p.mask.getLsbD n.number = true) (hroom : p.tx.length < 16) :
    p.enterNotice now n = p.append now n.frame := by
  have hroom : p.tx.length < Config.transmitCapacity := hroom
  rw [Port.enterNotice, if_pos h, if_pos hroom]

theorem transmitTable : TransmitTable := by
  refine ⟨fun p now f hroom => ?room, fun p now f head n older newer hfull htx hn holder => ?displaced,
    fun p now f head rest hfull htx hrest => ?held, fun p now n => ⟨Port.enterNotice_masked, Port.enterNotice_full, ?notice⟩⟩
  case room =>
    have hmade := p.makeRoom_room hroom
    rw [Port.enterReply_some hmade, Port.enterBusy_some hmade]
    exact ⟨p.append_eq now f, rfl⟩
  case displaced =>
    have hmade := p.makeRoom_full hfull htx
    rw [dropNotice_append hn newer holder] at hmade
    rw [Port.enterReply_some hmade, Port.enterBusy_some hmade]
    exact ⟨Port.append_sending rfl now f, rfl⟩
  case held =>
    have hmade := p.makeRoom_full hfull htx
    rw [dropNotice_none hrest] at hmade
    exact ⟨Port.enterReply_none hmade, Port.enterBusy_none hmade⟩
  case notice =>
    intro hmask hroom
    rw [Port.enterNotice_room hmask hroom, Port.append_eq]

/-! ## The time of a frame -/

/-- A quotient rounded up. -/
theorem ceil_bounds {bits rate : Nat} (h : 0 < rate) :
    bits ≤ (bits + rate - 1) / rate * rate ∧ (bits + rate - 1) / rate * rate < bits + rate := by
  have hle := Nat.div_mul_le_self (bits + rate - 1) rate
  have hlt := Nat.lt_div_mul_add (a := bits + rate - 1) h
  omega

theorem baudRate_pos (baud : BitVec 2) : 0 < Config.baudRate baud := by
  unfold Config.baudRate
  split_ifs <;> decide

theorem framesTimed : FramesTimed := fun baud _ => ceil_bounds (baudRate_pos baud)

/-! ## The form of frames -/

theorem replyFrameForm : ReplyFrameForm := ⟨fun _ _ _ _ _ => rfl, fun _ _ => rfl, fun _ => ⟨rfl, rfl⟩⟩

/-! ## The head frame leaves -/

theorem exec_transmitFrameSent (s : State) : exec .transmitFrameSent s =
    .next (if s.frameGone then { s with port := s.port.frameSent s.now } else s) := rfl

/-- The port when its head frame has been sent. -/
theorem Port.frameSent_eq {head : TxFrame} {rest : List TxFrame} (h : p.tx = head :: rest) (now : Instant) :
    p.frameSent now = { p with
      tx := rest ++ p.held.toList, held := none
      sentAt := (rest ++ p.held.toList).head?.map fun f => now + micros (frameTime p.baud f)
      resetDue := p.resetDue || head.role == .resetReply } := by
  unfold Port.frameSent
  rw [h]
  cases p.held <;> simp

theorem headFrameLeaves : HeadFrameLeaves := by
  simp only [HeadFrameLeaves, exec_transmitFrameSent]
  refine ⟨fun s h => ?early, fun s head rest gone htx hgone hnow => ?leaves⟩
  case early =>
    have hnot : ¬ s.frameGone = true := fun hg => by
      obtain ⟨gone, hsent, hcome⟩ := s.frameGone_iff.mp hg
      rw [h gone hsent] at hcome
      cases hcome
    rw [if_neg hnot]
  case leaves =>
    rw [if_pos (s.frameGone_iff.mpr ⟨gone, hgone, hnow⟩), Port.frameSent_eq htx]
    exact ⟨_, rfl, rfl, rfl, rfl, by simp, rfl⟩

/-- Settles O8: what enters is decided by the room there is or can be made; a frame's time is a quotient rounded up; the head
leaves when its instant has come. -/
theorem framesSent : Obligations.FramesSent := ⟨transmitTable, framesTimed, replyFrameForm, headFrameLeaves⟩

end Sys2Proof.Machine
end

section
/-! SUPPORT. Fields on the wire (section 11.2): the bytes of a field make the field, and bytes are those of the field they
make. -/
namespace Sys2Proof.Machine

/-! ## Fields of three and four bytes -/

@[simp] theorem three_joined (w : BitVec 24) : w.extractLsb' 16 8 ++ w.extractLsb' 8 8 ++ w.extractLsb' 0 8 = w := by
  rw [BitVec.extractLsb'_append_extractLsb'_eq_extractLsb' (show 16 = 8 + 8 from rfl),
    BitVec.extractLsb'_append_extractLsb'_eq_extractLsb' (show 8 = 0 + 8 from rfl)]
  exact BitVec.extractLsb'_eq_self

@[simp] theorem four_joined (w : Long) :
    w.extractLsb' 24 8 ++ w.extractLsb' 16 8 ++ w.extractLsb' 8 8 ++ w.extractLsb' 0 8 = w := by
  rw [BitVec.extractLsb'_append_extractLsb'_eq_extractLsb' (show 24 = 16 + 8 from rfl),
    BitVec.extractLsb'_append_extractLsb'_eq_extractLsb' (show 16 = 8 + 8 from rfl),
    BitVec.extractLsb'_append_extractLsb'_eq_extractLsb' (show 8 = 0 + 8 from rfl)]
  exact BitVec.extractLsb'_eq_self

/-- A byte above the last is a byte of what the last was joined to. -/
theorem extractByte_append {v : Nat} (x : BitVec v) (b : Byte) (start : Nat) :
    (x ++ b).extractLsb' (start + 8) 8 = x.extractLsb' start 8 := by
  rw [BitVec.extractLsb'_append_eq_of_le (Nat.le_add_left 8 start), Nat.add_sub_cancel]

@[simp] theorem three_append (b2 b1 b0 : Byte) : three (b2 ++ b1 ++ b0) = [b2, b1, b0] := by
  simp only [three]
  rw [extractByte_append _ b0 8, extractByte_append _ b0 0, BitVec.extractLsb'_append_eq_right,
    BitVec.extractLsb'_append_eq_left, BitVec.extractLsb'_append_eq_right]

@[simp] theorem four_append (b3 b2 b1 b0 : Byte) : four (b3 ++ b2 ++ b1 ++ b0) = [b3, b2, b1, b0] := by
  simp only [four]
  rw [extractByte_append _ b0 16, extractByte_append _ b0 8, extractByte_append _ b0 0, BitVec.extractLsb'_append_eq_right,
    extractByte_append _ b1 8, extractByte_append _ b1 0, BitVec.extractLsb'_append_eq_right,
    BitVec.extractLsb'_append_eq_left, BitVec.extractLsb'_append_eq_right]

/-! ## Step records and points -/

/-- The bytes of a record are the eight it is made of. -/
theorem stepBytes_append (b0 b1 b2 b3 b4 b5 b6 b7 : Byte) :
    stepBytes (b0 ++ b1 ++ b2 ++ b3 ++ b4 ++ b5 ++ b6 ++ b7) = [b0, b1, b2, b3, b4, b5, b6, b7] := by
  have hbytes (w : StepWord) : stepBytes w = [w.extractLsb' 56 8, w.extractLsb' 48 8, w.extractLsb' 40 8,
      w.extractLsb' 32 8, w.extractLsb' 24 8, w.extractLsb' 16 8, w.extractLsb' 8 8, w.extractLsb' 0 8] := rfl
  rw [hbytes]
  simp only [extractByte_append, BitVec.extractLsb'_append_eq_right, BitVec.extractLsb'_eq_self]

theorem recordsOf_stepBytes (w : StepWord) (rest : List Byte) :
    recordsOf (stepBytes w ++ rest) = (recordsOf rest).map (w :: ·) := by
  exact congrArg (fun x => (recordsOf rest).map (x :: ·)) (Memory.stepOfBytes_stepByte w)

theorem recordsOf_flatMap : ∀ records : List StepWord, recordsOf (records.flatMap stepBytes) = some records
  | [] => rfl
  | w :: rest => by rw [List.flatMap_cons, recordsOf_stepBytes, recordsOf_flatMap rest]; rfl

theorem halvesOf_flatMap : ∀ points : List Half, halvesOf (points.flatMap two) = some points
  | [] => rfl
  | h :: rest => by
    rw [List.flatMap_cons, two]
    simp [halvesOf, halvesOf_flatMap rest]

end Sys2Proof.Machine
end

section
/-! SUPPORT. The frame of a request parses to that request (R147, R156). -/
namespace Sys2Proof.Machine

variable {tag : Byte}

theorem parseRequest_showData (showNo : Byte) (start : Half) {records : List StepWord}
    (h : 1 ≤ records.length ∧ records.length ≤ 24) :
    parseRequest ⟨tag, 0x13, showNo :: (two start ++ records.flatMap stepBytes)⟩ =
      .request (.showData tag showNo start records) := by
  have hparsed : parseShowData tag (showNo :: (two start ++ records.flatMap stepBytes)) =
      .request (.showData tag showNo start records) := by
    simp [parseShowData, two, recordsOf_flatMap, h]
  exact hparsed

theorem parseRequest_setCurve {points : List Half} (h : points.length = 17) :
    parseRequest ⟨tag, 0x2B, points.flatMap two⟩ = .request (.setCurve tag points) := by
  have hparsed : parseSetCurve tag (points.flatMap two) = .request (.setCurve tag points) := by
    simp [parseSetCurve, halvesOf_flatMap, h]
  exact hparsed

theorem parseRequest_noRequestKind {f : RxFrame} (h : isRequestKind f.kind = false) :
    parseRequest f = .request (.requestBadKind f.tag f.kind f.payload) := if_neg (by simp [h])

theorem framesReadBack : FramesReadBack := by
  intro c f hwf hf
  cases c
  case requestBadKind tag kind payload =>
    cases hf
    have hkind : isRequestKind kind = false := by
      simp only [Instr.wf, Bool.and_eq_true, Bool.not_eq_true'] at hwf
      exact hwf.1.1
    exact parseRequest_noRequestKind hkind
  case showData tag showNo start records =>
    cases hf
    simp only [Instr.wf, Bool.and_eq_true, decide_eq_true_eq] at hwf
    exact parseRequest_showData showNo start hwf
  case setCurve tag points =>
    cases hf
    exact parseRequest_setCurve (beq_iff_eq.mp hwf)
  -- an event has no frame, and a payload of another request parses byte by byte: its fields are joined again
  all_goals cases hf
  all_goals refine congrArg Parsed.request ?_
  all_goals simp only [two_joined, three_joined, four_joined]

end Sys2Proof.Machine
end

section
/-! SUPPORT. What a taken frame asks for (R147, R156): which payloads a kind allows, the request that such a payload spells, and
what every other frame is answered. -/
namespace Sys2Proof.Machine

/-! ## Lengths -/

theorem recordsOf_length : ∀ {bytes : List Byte} {records : List StepWord}, recordsOf bytes = some records →
    bytes.length = 8 * records.length
  | [], _, h => by cases h; rfl
  | _ :: _ :: _ :: _ :: _ :: _ :: _ :: _ :: rest, _, h => by
    obtain ⟨records, hrest, rfl⟩ := Option.map_eq_some_iff.mp h
    have := recordsOf_length hrest
    simp only [List.length_cons]
    omega

theorem halvesOf_length : ∀ {bytes : List Byte} {points : List Half}, halvesOf bytes = some points →
    bytes.length = 2 * points.length
  | [], _, h => by cases h; rfl
  | _ :: _ :: rest, _, h => by
    obtain ⟨points, hrest, rfl⟩ := Option.map_eq_some_iff.mp h
    have := halvesOf_length hrest
    simp only [List.length_cons]
    omega

/-- Bytes that divide into records are the bytes of records. -/
theorem exists_records : ∀ (n : Nat) {bytes : List Byte}, bytes.length = 8 * n →
    ∃ records : List StepWord, records.length = n ∧ records.flatMap stepBytes = bytes
  | 0, _, h => ⟨[], rfl, (List.length_eq_zero_iff.mp h).symm⟩
  | n + 1, b0 :: b1 :: b2 :: b3 :: b4 :: b5 :: b6 :: b7 :: rest, h => by
    obtain ⟨records, hlength, hbytes⟩ := exists_records n (bytes := rest) (by simp only [List.length_cons] at h; omega)
    refine ⟨(b0 ++ b1 ++ b2 ++ b3 ++ b4 ++ b5 ++ b6 ++ b7) :: records, congrArg (· + 1) hlength, ?_⟩
    rw [List.flatMap_cons, stepBytes_append, hbytes]
    rfl

theorem exists_points : ∀ (n : Nat) {bytes : List Byte}, bytes.length = 2 * n →
    ∃ points : List Half, points.length = n ∧ points.flatMap two = bytes
  | 0, _, h => ⟨[], rfl, (List.length_eq_zero_iff.mp h).symm⟩
  | n + 1, b1 :: b0 :: rest, h => by
    obtain ⟨points, hlength, hbytes⟩ := exists_points n (bytes := rest) (by simp only [List.length_cons] at h; omega)
    refine ⟨(b1 ++ b0) :: points, congrArg (· + 1) hlength, ?_⟩
    rw [List.flatMap_cons, two_append, hbytes]
    rfl

/-! ## The request kinds -/

theorem isRequestKind_iff {kind : Byte} : isRequestKind kind = true ↔
    kind = 0x01 ∨ kind = 0x02 ∨ kind = 0x03 ∨ kind = 0x04 ∨ kind = 0x05 ∨ kind = 0x08 ∨ kind = 0x09 ∨ kind = 0x0A
      ∨ kind = 0x0B ∨ kind = 0x0C ∨ kind = 0x0D ∨ kind = 0x0E ∨ kind = 0x12 ∨ kind = 0x13 ∨ kind = 0x14 ∨ kind =
      0x15 ∨ kind = 0x16 ∨ kind = 0x17 ∨ kind = 0x20 ∨ kind = 0x21 ∨ kind = 0x22 ∨ kind = 0x23 ∨ kind = 0x28 ∨ kind
      = 0x29 ∨ kind = 0x2A ∨ kind = 0x2B ∨ kind = 0x2C ∨ kind = 0x30 ∨ kind = 0x31 ∨ kind = 0x32 ∨ kind = 0x33 ∨
      kind = 0x34 ∨ kind = 0x38 := by
  simp only [isRequestKind, requestKinds, List.contains_iff_mem, List.mem_cons, List.not_mem_nil, or_false]

theorem isRequestKind_of_lengthAllowed {kind : Byte} {payload : List Byte} (h : LengthAllowed kind payload) :
    isRequestKind kind = true := by
  unfold LengthAllowed at h
  split at h
  case h_34 => exact h.elim
  all_goals
    next hkind => simp [isRequestKind, requestKinds, ← BitVec.toNat_inj, hkind]

section

variable (tag : Byte) {kind : Byte} {payload : List Byte}

/-! ## QUERY -/

/-- The lengths of a QUERY by its selector. -/
theorem lengthAllowed_query_iff {selector : Byte} {rest : List Byte} : LengthAllowed 0x05 (selector :: rest) ↔
    (selector.toNat ≤ 2 ∧ rest.length = 1) ∨ (selector.toNat = 3 ∧ rest.length = 0)
      ∨ (selector.toNat = 4 ∧ rest.length = 2) ∨ (selector.toNat = 5 ∧ rest.length = 0) := by
  constructor
  · rintro ⟨_, hselector, h⟩
    cases hselector
    simpa using h
  · exact fun h => ⟨selector, rfl, by simpa using h⟩

theorem parseQuery_unknown {selector : Byte} (h : 5 < selector.toNat) (rest : List Byte) :
    parseQuery tag (selector :: rest) = .answer .badArg := by
  unfold parseQuery
  dsimp only
  generalize selector.toNat = n at h
  obtain ⟨k, rfl⟩ := Nat.exists_eq_add_of_le' (Nat.succ_le_of_lt h)
  exact if_neg (by omega)

theorem parseQuery_badLength (hknown : ¬ UnknownCode 0x05 payload) (h : ¬ LengthAllowed 0x05 payload) :
    parseQuery tag payload = .answer .badLength := by
  cases payload with
  | nil => rfl
  | cons selector rest =>
    have hcode : selector.toNat ≤ 5 := Nat.le_of_not_lt fun hlt => hknown (.inl ⟨rfl, selector, rfl, hlt⟩)
    rw [lengthAllowed_query_iff] at h
    unfold parseQuery
    dsimp only
    generalize selector.toNat = n at h hcode
    split
    case h_7 => exact if_pos hcode
    all_goals exact absurd (by simp) h

/-! ## AXIS_CMD -/

/-- The lengths of an AXIS_CMD by its command byte. -/
theorem lengthAllowed_axisCmd_iff {axis command : Byte} {rest : List Byte} :
    LengthAllowed 0x31 (axis :: command :: rest) ↔
      (command.toNat = 0 ∧ rest.length = 9) ∨ (command.toNat = 1 ∧ rest.length = 4)
        ∨ (command.toNat = 3 ∧ rest.length = 7)
        ∨ ((command.toNat = 2 ∨ 4 ≤ command.toNat ∧ command.toNat ≤ 6) ∧ rest.length = 0) := by
  constructor
  · rintro ⟨_, hcommand, h⟩
    cases hcommand
    simpa using h
  · exact fun h => ⟨command, rfl, by simpa using h⟩

theorem parseAxisCmd_unknown {command : Byte} (h : 6 < command.toNat) (axis : Byte) (rest : List Byte) :
    parseAxisCmd tag (axis :: command :: rest) = .answer .badArg := by
  unfold parseAxisCmd
  dsimp only
  generalize command.toNat = n at h
  obtain ⟨k, rfl⟩ := Nat.exists_eq_add_of_le' (Nat.succ_le_of_lt h)
  exact if_neg (by omega)

theorem parseAxisCmd_badLength (hknown : ¬ UnknownCode 0x31 payload) (h : ¬ LengthAllowed 0x31 payload) :
    parseAxisCmd tag payload = .answer .badLength := by
  rcases payload with _ | ⟨axis, _ | ⟨command, rest⟩⟩
  · rfl
  · rfl
  · have hcode : command.toNat ≤ 6 := Nat.le_of_not_lt fun hlt => hknown (.inr ⟨rfl, command, rfl, hlt⟩)
    rw [lengthAllowed_axisCmd_iff] at h
    unfold parseAxisCmd
    dsimp only
    generalize command.toNat = n at h hcode
    interval_cases n
    · rcases rest with _ | ⟨_, _ | ⟨_, _ | ⟨_, _ | ⟨_, _ | ⟨_, _ | ⟨_, _ | ⟨_, _ | ⟨_, _ | ⟨_, _ | ⟨_, _⟩⟩⟩⟩⟩⟩⟩⟩⟩⟩
      on_goal 10 => exact absurd (by simp) h
      all_goals rfl
    · rcases rest with _ | ⟨_, _ | ⟨_, _ | ⟨_, _ | ⟨_, _ | ⟨_, _⟩⟩⟩⟩⟩
      on_goal 5 => exact absurd (by simp) h
      all_goals rfl
    · rcases rest with _ | ⟨_, _⟩
      on_goal 1 => exact absurd (by simp) h
      all_goals rfl
    · rcases rest with _ | ⟨_, _ | ⟨_, _ | ⟨_, _ | ⟨_, _ | ⟨_, _ | ⟨_, _ | ⟨_, _ | ⟨_, _⟩⟩⟩⟩⟩⟩⟩⟩
      on_goal 8 => exact absurd (by simp) h
      all_goals rfl
    · rcases rest with _ | ⟨_, _⟩
      on_goal 1 => exact absurd (by simp) h
      all_goals rfl
    · rcases rest with _ | ⟨_, _⟩
      on_goal 1 => exact absurd (by simp) h
      all_goals rfl
    · rcases rest with _ | ⟨_, _⟩
      on_goal 1 => exact absurd (by simp) h
      all_goals rfl

/-! ## SHOW_DATA and SET_CURVE -/

theorem parseShowData_badLength (h : ¬ LengthAllowed 0x13 payload) : parseShowData tag payload = .answer .badLength := by
  unfold parseShowData
  split
  · next showNo s1 s0 rest =>
    split
    · next records hrecords =>
      refine if_neg fun hcount => h ⟨records.length, hcount.1, hcount.2, ?_⟩
      have := recordsOf_length hrecords
      simp only [List.length_cons]
      omega
    · rfl
  · rfl

theorem parseSetCurve_badLength (h : ¬ LengthAllowed 0x2B payload) : parseSetCurve tag payload = .answer .badLength := by
  unfold parseSetCurve
  split
  · next points hpoints =>
    refine if_neg fun hcount => h ?_
    have hlength := halvesOf_length hpoints
    rw [hcount] at hlength
    exact hlength
  · rfl

/-! ## A payload of no allowed length -/

/-- The request kinds by the length of their payload: 0, 1, 2, 8, 10, then each with its own. -/
theorem requestKind_by_length (h : isRequestKind kind = true) :
    (kind = 0x01 ∨ kind = 0x02 ∨ kind = 0x03 ∨ kind = 0x09 ∨ kind = 0x16 ∨ kind = 0x34)
      ∨ (kind = 0x0C ∨ kind = 0x0E ∨ kind = 0x14 ∨ kind = 0x15 ∨ kind = 0x17 ∨ kind = 0x21 ∨
        kind = 0x22 ∨ kind = 0x32 ∨ kind = 0x33 ∨ kind = 0x38)
      ∨ (kind = 0x04 ∨ kind = 0x2A)
      ∨ (kind = 0x0B ∨ kind = 0x12)
      ∨ (kind = 0x08 ∨ kind = 0x0D)
      ∨ kind = 0x28 ∨ kind = 0x23 ∨ kind = 0x2C ∨ kind = 0x0A ∨ kind = 0x29 ∨ kind = 0x30 ∨ kind = 0x20
      ∨ kind = 0x05 ∨ kind = 0x13 ∨ kind = 0x2B ∨ kind = 0x31 := by
  rcases isRequestKind_iff.mp h with rfl | rfl | rfl | rfl | rfl | rfl | rfl | rfl | rfl | rfl | rfl | rfl | rfl | rfl |
    rfl | rfl | rfl | rfl | rfl | rfl | rfl | rfl | rfl | rfl | rfl | rfl | rfl | rfl | rfl | rfl | rfl | rfl | rfl
  all_goals decide

/-- A payload shorter or longer than its kind allows falls through the pattern of its kind. -/
theorem parseRequest_badLength (hkind : isRequestKind kind = true) (hknown : ¬ UnknownCode kind payload)
    (h : ¬ LengthAllowed kind payload) : parseRequest ⟨tag, kind, payload⟩ = .answer .badLength := by
  rcases requestKind_by_length hkind with hk | hk | hk | hk | hk | rfl | rfl | rfl | rfl | rfl | rfl | rfl | rfl | rfl |
    rfl | rfl
  · rcases hk with rfl | rfl | rfl | rfl | rfl | rfl
    all_goals
      rcases payload with _ | ⟨_, _⟩
      on_goal 1 => exact absurd rfl h
      all_goals rfl
  · rcases hk with rfl | rfl | rfl | rfl | rfl | rfl | rfl | rfl | rfl | rfl
    all_goals
      rcases payload with _ | ⟨_, _ | ⟨_, _⟩⟩
      on_goal 2 => exact absurd rfl h
      all_goals rfl
  · rcases hk with rfl | rfl
    all_goals
      rcases payload with _ | ⟨_, _ | ⟨_, _ | ⟨_, _⟩⟩⟩
      on_goal 3 => exact absurd rfl h
      all_goals rfl
  · rcases hk with rfl | rfl
    all_goals
      rcases payload with _ | ⟨_, _ | ⟨_, _ | ⟨_, _ | ⟨_, _ | ⟨_, _ | ⟨_, _ | ⟨_, _ | ⟨_, _ | ⟨_, _⟩⟩⟩⟩⟩⟩⟩⟩⟩
      on_goal 9 => exact absurd rfl h
      all_goals rfl
  · rcases hk with rfl | rfl
    all_goals
      rcases payload with _ | ⟨_, _ | ⟨_, _ | ⟨_, _ | ⟨_, _ | ⟨_, _ | ⟨_, _ | ⟨_, _ | ⟨_, _ |
          ⟨_, _ | ⟨_, _ | ⟨_, _⟩⟩⟩⟩⟩⟩⟩⟩⟩⟩⟩
      on_goal 11 => exact absurd rfl h
      all_goals rfl
  · rcases payload with _ | ⟨_, _ | ⟨_, _ | ⟨_, _ | ⟨_, _ | ⟨_, _⟩⟩⟩⟩⟩
    on_goal 5 => exact absurd rfl h
    all_goals rfl
  · rcases payload with _ | ⟨_, _ | ⟨_, _ | ⟨_, _ | ⟨_, _ | ⟨_, _ | ⟨_, _⟩⟩⟩⟩⟩⟩
    on_goal 6 => exact absurd rfl h
    all_goals rfl
  · rcases payload with _ | ⟨_, _ | ⟨_, _ | ⟨_, _ | ⟨_, _ | ⟨_, _ | ⟨_, _ | ⟨_, _⟩⟩⟩⟩⟩⟩⟩
    on_goal 7 => exact absurd rfl h
    all_goals rfl
  · rcases payload with _ | ⟨_, _ | ⟨_, _ | ⟨_, _ | ⟨_, _ | ⟨_, _ | ⟨_, _ | ⟨_, _ | ⟨_, _⟩⟩⟩⟩⟩⟩⟩⟩
    on_goal 8 => exact absurd rfl h
    all_goals rfl
  · rcases payload with _ | ⟨_, _ | ⟨_, _ | ⟨_, _ | ⟨_, _ | ⟨_, _ | ⟨_, _ | ⟨_, _ | ⟨_, _ |
      ⟨_, _ | ⟨_, _ | ⟨_, _ | ⟨_, _ | ⟨_, _ | ⟨_, _⟩⟩⟩⟩⟩⟩⟩⟩⟩⟩⟩⟩⟩⟩
    on_goal 14 => exact absurd rfl h
    all_goals rfl
  · rcases payload with _ | ⟨_, _ | ⟨_, _ | ⟨_, _ | ⟨_, _ | ⟨_, _ | ⟨_, _ | ⟨_, _ | ⟨_, _ |
      ⟨_, _ | ⟨_, _ | ⟨_, _ | ⟨_, _ | ⟨_, _ | ⟨_, _ | ⟨_, _ | ⟨_, _ | ⟨_, _ | ⟨_, _ | ⟨_, _ | ⟨_, _ | ⟨_, _⟩⟩⟩⟩⟩⟩⟩⟩⟩⟩⟩⟩⟩⟩⟩⟩⟩⟩⟩⟩⟩
    on_goal 21 => exact absurd rfl h
    all_goals rfl
  · rcases payload with _ | ⟨_, _ | ⟨_, _ | ⟨_, _ | ⟨_, _ | ⟨_, _ | ⟨_, _ | ⟨_, _ | ⟨_, _ |
      ⟨_, _ | ⟨_, _ | ⟨_, _⟩⟩⟩⟩⟩⟩⟩⟩⟩⟩⟩
    on_goal 4 => exact absurd (.inl rfl) h
    on_goal 10 => exact absurd (.inr rfl) h
    all_goals rfl
  · exact parseQuery_badLength tag hknown h
  · exact parseShowData_badLength tag h
  · exact parseSetCurve_badLength tag h
  · exact parseAxisCmd_badLength tag hknown h

/-! ## The request that a payload of an allowed length spells -/

/-- A request that the line can carry has this frame. -/
def Spelled (f : RxFrame) : Prop := ∃ c : Instr, c.wf = true ∧ requestFrame c = some f

theorem spelled_query (h : LengthAllowed 0x05 payload) : Spelled ⟨tag, 0x05, payload⟩ := by
  cases payload with
  | nil => obtain ⟨_, hselector, _⟩ := h; cases hselector
  | cons selector rest =>
    rcases lengthAllowed_query_iff.mp h with ⟨hs, hlen⟩ | ⟨hs, hlen⟩ | ⟨hs, hlen⟩ | ⟨hs, hlen⟩
    · obtain ⟨index, rfl⟩ := List.length_eq_one_iff.mp hlen
      have hthree : selector.toNat = 0 ∨ selector.toNat = 1 ∨ selector.toNat = 2 := by omega
      rcases hthree with hs | hs | hs
      · rw [BitVec.eq_of_toNat_eq (y := 0) hs]; exact ⟨.queryLane tag index, rfl, rfl⟩
      · rw [BitVec.eq_of_toNat_eq (y := 1) hs]; exact ⟨.queryBell tag index, rfl, rfl⟩
      · rw [BitVec.eq_of_toNat_eq (y := 2) hs]; exact ⟨.queryAxis tag index, rfl, rfl⟩
    · obtain rfl := List.length_eq_zero_iff.mp hlen
      rw [BitVec.eq_of_toNat_eq (y := 3) hs]; exact ⟨.queryQueue tag, rfl, rfl⟩
    · obtain ⟨sub, index, rfl⟩ := List.length_eq_two.mp hlen
      rw [BitVec.eq_of_toNat_eq (y := 4) hs]; exact ⟨.queryCalendar tag sub index, rfl, rfl⟩
    · obtain rfl := List.length_eq_zero_iff.mp hlen
      rw [BitVec.eq_of_toNat_eq (y := 5) hs]; exact ⟨.queryExercise tag, rfl, rfl⟩

theorem spelled_axisCmd (h : LengthAllowed 0x31 payload) : Spelled ⟨tag, 0x31, payload⟩ := by
  rcases payload with _ | ⟨axis, _ | ⟨command, rest⟩⟩
  · obtain ⟨_, hcommand, _⟩ := h; cases hcommand
  · obtain ⟨_, hcommand, _⟩ := h; cases hcommand
  · rcases lengthAllowed_axisCmd_iff.mp h with ⟨hc, hlen⟩ | ⟨hc, hlen⟩ | ⟨hc, hlen⟩ | ⟨hc, hlen⟩
    · rw [BitVec.eq_of_toNat_eq (y := 0) hc]
      match rest, hlen with
      | [p3, p2, p1, p0, r3, r2, r1, r0, direction], _ =>
        exact ⟨.axisCmdMove tag axis (p3 ++ p2 ++ p1 ++ p0) (r3 ++ r2 ++ r1 ++ r0) direction, rfl, by simp [requestFrame]⟩
    · rw [BitVec.eq_of_toNat_eq (y := 1) hc]
      match rest, hlen with
      | [r3, r2, r1, r0], _ => exact ⟨.axisCmdSpin tag axis (r3 ++ r2 ++ r1 ++ r0), rfl, by simp [requestFrame]⟩
    · rw [BitVec.eq_of_toNat_eq (y := 3) hc]
      match rest, hlen with
      | [leader, numerator, denominator, o3, o2, o1, o0], _ =>
        exact ⟨.axisCmdFollow tag axis leader numerator denominator (o3 ++ o2 ++ o1 ++ o0), rfl, by simp [requestFrame]⟩
    · obtain rfl := List.length_eq_zero_iff.mp hlen
      have hfour : command.toNat = 2 ∨ command.toNat = 4 ∨ command.toNat = 5 ∨ command.toNat = 6 := by omega
      rcases hfour with hc | hc | hc | hc
      · rw [BitVec.eq_of_toNat_eq (y := 2) hc]; exact ⟨.axisCmdStop tag axis, rfl, rfl⟩
      · rw [BitVec.eq_of_toNat_eq (y := 4) hc]; exact ⟨.axisCmdEnable tag axis, rfl, rfl⟩
      · rw [BitVec.eq_of_toNat_eq (y := 5) hc]; exact ⟨.axisCmdDisable tag axis, rfl, rfl⟩
      · rw [BitVec.eq_of_toNat_eq (y := 6) hc]; exact ⟨.axisCmdClear tag axis, rfl, rfl⟩

theorem spelled_showData (h : LengthAllowed 0x13 payload) : Spelled ⟨tag, 0x13, payload⟩ := by
  obtain ⟨n, hlow, hhigh, hlen⟩ := h
  rcases payload with _ | ⟨showNo, _ | ⟨s1, _ | ⟨s0, rest⟩⟩⟩
  on_goal 4 =>
    have hrest : rest.length = 8 * n := by
      simp only [List.length_cons] at hlen
      omega
    obtain ⟨records, rfl, rfl⟩ := exists_records n hrest
    exact ⟨.showData tag showNo (s1 ++ s0) records, by simp [Instr.wf, hlow, hhigh], by simp [requestFrame]⟩
  all_goals
    simp only [List.length_cons, List.length_nil] at hlen
    omega

theorem spelled_setCurve (h : LengthAllowed 0x2B payload) : Spelled ⟨tag, 0x2B, payload⟩ := by
  obtain ⟨points, hcount, rfl⟩ := exists_points 17 (h : payload.length = 2 * 17)
  exact ⟨.setCurve tag points, beq_iff_eq.mpr hcount, rfl⟩

/-- Kind by kind: the fields of the request are read off the payload. -/
theorem spelled_of_lengthAllowed (h : LengthAllowed kind payload) : Spelled ⟨tag, kind, payload⟩ := by
  rcases isRequestKind_iff.mp (isRequestKind_of_lengthAllowed h) with rfl | rfl | rfl | rfl | rfl | rfl | rfl | rfl | rfl |
    rfl | rfl | rfl | rfl | rfl | rfl | rfl | rfl | rfl | rfl | rfl | rfl | rfl | rfl | rfl | rfl | rfl | rfl | rfl | rfl |
    rfl | rfl | rfl | rfl
  · match payload, (h : payload.length = 0) with
    | [], _ => exact ⟨.ping tag, rfl, rfl⟩
  · match payload, (h : payload.length = 0) with
    | [], _ => exact ⟨.reset tag, rfl, rfl⟩
  · match payload, (h : payload.length = 0) with
    | [], _ => exact ⟨.status tag, rfl, rfl⟩
  · match payload, (h : payload.length = 2) with
    | [m1, m0], _ => exact ⟨.noticeMask tag (m1 ++ m0), rfl, by simp [requestFrame]⟩
  · exact spelled_query tag h
  · match payload, (h : payload.length = 10) with
    | [y1, y0, month, day, hour, minute, second, ms1, ms0, pps], _ =>
      exact ⟨.setTime tag (y1 ++ y0) month day hour minute second (ms1 ++ ms0) pps, rfl, by simp [requestFrame]⟩
  · match payload, (h : payload.length = 0) with
    | [], _ => exact ⟨.getTime tag, rfl, rfl⟩
  · match payload, (h : payload.length = 7) with
    | [programme, openLevel, quietLevel, s1, s0, e1, e0], _ =>
      exact ⟨.setProgramme tag programme openLevel quietLevel (s1 ++ s0) (e1 ++ e0), rfl, by simp [requestFrame]⟩
  · match payload, (h : payload.length = 8) with
    | [entry, sm, sd, em, ed, weekdays, programme, priority], _ =>
      exact ⟨.setSeason tag entry sm sd em ed weekdays programme priority, rfl, rfl⟩
  · match payload, (h : payload.length = 1) with
    | [entry], _ => exact ⟨.clearSeason tag entry, rfl, rfl⟩
  · match payload, (h : payload.length = 10) with
    | [entry, selector, h2, h1, h0, minute, weekdays, showNo, priority, grace], _ =>
      exact ⟨.setTrigger tag entry selector (h2 ++ h1 ++ h0) minute weekdays showNo priority grace,
        rfl, by simp [requestFrame]⟩
  · match payload, (h : payload.length = 1) with
    | [entry], _ => exact ⟨.clearTrigger tag entry, rfl, rfl⟩
  · match payload, (h : payload.length = 8) with
    | [showNo, kind, n1, n0, c1, c0, l1, l0], _ =>
      exact ⟨.showOpen tag showNo kind (n1 ++ n0) (c1 ++ c0) (l1 ++ l0), rfl, by simp [requestFrame]⟩
  · exact spelled_showData tag h
  · match payload, (h : payload.length = 1) with
    | [showNo], _ => exact ⟨.showClose tag showNo, rfl, rfl⟩
  · match payload, (h : payload.length = 1) with
    | [showNo], _ => exact ⟨.showErase tag showNo, rfl, rfl⟩
  · match payload, (h : payload.length = 0) with
    | [], _ => exact ⟨.storeCompact tag, rfl, rfl⟩
  · match payload, (h : payload.length = 1) with
    | [first], _ => exact ⟨.storeList tag first, rfl, rfl⟩
  · rcases (h : payload.length = 3 ∨ payload.length = 10) with h | h
    · match payload, h with
      | [showNo, priority, grace], _ => exact ⟨.play tag showNo priority grace, rfl, rfl⟩
    · match payload, h with
      | [showNo, priority, grace, y1, y0, month, day, hour, minute, second], _ =>
        exact ⟨.playTimed tag showNo priority grace (y1 ++ y0) month day hour minute second, rfl, by simp [requestFrame]⟩
  · match payload, (h : payload.length = 1) with
    | [id], _ => exact ⟨.cancel tag id, rfl, rfl⟩
  · match payload, (h : payload.length = 1) with
    | [flags], _ => exact ⟨.setFlags tag flags, rfl, rfl⟩
  · match payload, (h : payload.length = 5) with
    | [key, enabled, showNo, priority, grace], _ => exact ⟨.setKey tag key enabled showNo priority grace, rfl, rfl⟩
  · match payload, (h : payload.length = 4) with
    | [bell, velocity, d1, d0], _ => exact ⟨.strike tag bell velocity (d1 ++ d0), rfl, by simp [requestFrame]⟩
  · match payload, (h : payload.length = 13) with
    | [bell, k3, k2, k1, k0, n1, n0, x1, x0, g1, g0, window, missLimit], _ =>
      exact ⟨.setBell tag bell (k3 ++ k2 ++ k1 ++ k0) (n1 ++ n0) (x1 ++ x0) (g1 ++ g0) window missLimit,
        rfl, by simp [requestFrame]⟩
  · match payload, (h : payload.length = 2) with
    | [bell, on], _ => exact ⟨.bellEnable tag bell on, rfl, rfl⟩
  · exact spelled_setCurve tag h
  · match payload, (h : payload.length = 6) with
    | [master, emax, b3, b2, b1, b0], _ =>
      exact ⟨.setLevel tag master emax (b3 ++ b2 ++ b1 ++ b0), rfl, by simp [requestFrame]⟩
  · match payload, (h : payload.length = 20) with
    | [axis, form, l3, l2, l1, l0, u3, u2, u1, u0, v3, v2, v1, v0, d1, d0, p1, p0, e1, e0], _ =>
      exact ⟨.setAxis tag axis form (l3 ++ l2 ++ l1 ++ l0) (u3 ++ u2 ++ u1 ++ u0) (v3 ++ v2 ++ v1 ++ v0)
        (d1 ++ d0) (p1 ++ p0) (e1 ++ e0), rfl, by simp [requestFrame]⟩
  · exact spelled_axisCmd tag h
  · match payload, (h : payload.length = 1) with
    | [on], _ => exact ⟨.setVerify tag on, rfl, rfl⟩
  · match payload, (h : payload.length = 1) with
    | [axis], _ => exact ⟨.exercise tag axis, rfl, rfl⟩
  · match payload, (h : payload.length = 0) with
    | [], _ => exact ⟨.exerciseAbort tag, rfl, rfl⟩
  · match payload, (h : payload.length = 1) with
    | [mode], _ => exact ⟨.setMode tag mode, rfl, rfl⟩

end

/-! ## What every frame asks for -/

theorem parseRequest_unknown {f : RxFrame} (h : UnknownCode f.kind f.payload) : parseRequest f = .answer .badArg := by
  obtain ⟨tag, kind, payload⟩ := f
  rcases h with ⟨hkind, selector, hselector, hlt⟩ | ⟨hkind, command, hcommand, hlt⟩
  · obtain rfl : kind = 0x05 := hkind
    rcases payload with _ | ⟨first, rest⟩
    · cases hselector
    · cases hselector
      exact parseQuery_unknown tag hlt rest
  · obtain rfl : kind = 0x31 := hkind
    rcases payload with _ | ⟨axis, _ | ⟨second, rest⟩⟩
    · cases hcommand
    · cases hcommand
    · cases hcommand
      exact parseAxisCmd_unknown tag hlt axis rest

theorem framesParsed : FramesParsed := by
  intro f
  refine ⟨parseRequest_noRequestKind, parseRequest_unknown, fun h => ?_, parseRequest_badLength f.tag⟩
  obtain ⟨c, hwf, hframe⟩ := spelled_of_lengthAllowed f.tag h
  exact ⟨c, framesReadBack c f hwf hframe, hframe⟩

/-- Settles O7: a frame parses to the request whose frame it is; a payload of an allowed length spells a request, and one of
another length falls through the patterns of its kind. -/
theorem requestFramesReadBack : Obligations.RequestFramesReadBack := ⟨framesReadBack, framesParsed⟩

end Sys2Proof.Machine
end

section
/-! SUPPORT. The mark of the handing over (`Port.handing`; log 11): no operation of the port writes it, and so none of the
operations at the state that are made of them. One lemma for each operation, from the port's own to those of whole commands. -/
namespace Sys2Proof.Machine

theorem Port.makeRoom_handing {p q : Port} (h : p.makeRoom = some q) : q.handing = p.handing := by
  unfold Port.makeRoom at h
  split at h
  · cases h
    rfl
  · split at h
    · cases h
    · obtain ⟨_, _, rfl⟩ := Option.map_eq_some_iff.mp h
      rfl

section PortOps

variable (p : Port) (now : Instant) (f : TxFrame)

@[simp] theorem Port.append_handing : (p.append now f).handing = p.handing := rfl

@[simp] theorem Port.enterReply_handing : (p.enterReply now f).handing = p.handing := by
  unfold Port.enterReply
  split
  · next q hq => exact Port.makeRoom_handing (q := q) hq
  · rfl

@[simp] theorem Port.enterBusy_handing : (p.enterBusy now f).handing = p.handing := by
  unfold Port.enterBusy
  split
  · next q hq => exact Port.makeRoom_handing (q := q) hq
  · rfl

@[simp] theorem Port.enterNotice_handing (n : Notice) : (p.enterNotice now n).handing = p.handing := by
  unfold Port.enterNotice
  split
  · split <;> rfl
  · rfl

@[simp] theorem Port.offer_handing (f : RxFrame) : (p.offer now f).handing = p.handing := by
  unfold Port.offer
  split
  · rfl
  · exact Port.enterBusy_handing _ _ _

@[simp] theorem Port.frameSent_handing : (p.frameSent now).handing = p.handing := by
  unfold Port.frameSent
  split
  · rfl
  · rfl

end PortOps

@[simp] theorem foldl_handing {β : Type} {f : State → β → State} (h : ∀ s x, (f s x).port.handing = s.port.handing) (l : List β) :
    ∀ s, (l.foldl f s).port.handing = s.port.handing := by
  induction l with
  | nil => exact fun _ => rfl
  | cons x rest ih => exact fun s => (ih (f s x)).trans (h s x)

@[simp] theorem handing_ite {p : Prop} [Decidable p] (s t : State) :
    (if p then s else t).port.handing = if p then s.port.handing else t.port.handing :=
  apply_ite (fun s : State => s.port.handing) p s t

/-! ## The operations of the units, in the order of the model -/

section Operations

variable (s : State)

/-! Latches. -/

@[simp] theorem State.latchBell_handing (b : BellNo) (f : BellLatches → BellLatches) :
    (s.latchBell b f).port.handing = s.port.handing := rfl
@[simp] theorem State.latchAxis_handing (a : AxisNo) (f : AxisLatches → AxisLatches) :
    (s.latchAxis a f).port.handing = s.port.handing := rfl

/-! Motion commands. -/

@[simp] theorem State.disturb_handing (a : AxisNo) : (s.disturb a).port.handing = s.port.handing := by simp [State.disturb]

@[simp] theorem State.stopAxis_handing (a : AxisNo) (dv : Nat) : (s.stopAxis a dv).1.port.handing = s.port.handing := by
  unfold State.stopAxis
  dsimp only
  (repeat' split) <;> simp

/-! The programme in force. -/

@[simp] theorem State.reviewProgramme_handing : s.reviewProgramme.port.handing = s.port.handing := by
  simp [State.reviewProgramme]
@[simp] theorem State.reviewLevel_handing : s.reviewLevel.port.handing = s.port.handing := rfl

/-! Requests, runs and the walk. -/

@[simp] theorem State.assigned_handing (id : Nat) : (s.assigned id).port.handing = s.port.handing := rfl

@[simp] theorem State.releaseKey_handing (source : Source) (id : Nat) :
    (s.releaseKey source id).port.handing = s.port.handing := by
  unfold State.releaseKey
  split <;> simp

@[simp] theorem State.holdKey_handing (source : Source) (id : Nat) :
    (s.holdKey source id).port.handing = s.port.handing := by
  unfold State.holdKey
  split <;> simp

@[simp] theorem State.dropRequest_handing (id showNo : Nat) (source : Source) (reason : DropReason) :
    (s.dropRequest id showNo source reason).port.handing = s.port.handing := by
  simp [State.dropRequest]
@[simp] theorem State.dropQueued_handing (r : Request) (reason : DropReason) :
    (s.dropQueued r reason).port.handing = s.port.handing := by
  simp [State.dropQueued]

@[simp] theorem State.countFor_handing (o : Owner) (f : RunRecord → RunRecord) :
    (s.countFor o f).port.handing = s.port.handing := by
  unfold State.countFor
  (repeat' split) <;> simp

@[simp] theorem State.releaseClaims_handing (o : Owner) : (s.releaseClaims o).port.handing = s.port.handing := rfl
@[simp] theorem State.finalise_handing (n : LaneNo) (r : Run) (outcome : RunOutcome) :
    (s.finalise n r outcome).port.handing = s.port.handing := by
  simp [State.finalise]

@[simp] theorem State.stopEnded_handing (a : AxisNo) : (s.stopEnded a).port.handing = s.port.handing := by
  unfold State.stopEnded
  dsimp only
  (repeat' split) <;> simp

@[simp] theorem State.endRun_handing (n : LaneNo) (outcome : RunOutcome) :
    (s.endRun n outcome).port.handing = s.port.handing := by
  unfold State.endRun
  split <;> simp

@[simp] theorem State.claimFor_handing (n : LaneNo) (mask : BitVec 12) :
    (s.claimFor n mask).port.handing = s.port.handing := rfl
@[simp] theorem State.startRun_handing (n : LaneNo) (r : Request) (b : Block) (mask : BitVec 12) (limit : Nat) :
    (s.startRun n r b mask limit).port.handing = s.port.handing := by
  simp [State.startRun]

@[simp] theorem State.tryStart_handing (r : Request) : (s.tryStart r).port.handing = s.port.handing := by
  unfold State.tryStart
  dsimp only
  (repeat' split) <;> simp

@[simp] theorem State.walk_handing : s.walk.port.handing = s.port.handing := by simp [State.walk]
@[simp] theorem State.endAndWalk_handing (n : LaneNo) (outcome : RunOutcome) :
    (s.endAndWalk n outcome).port.handing = s.port.handing := by
  simp [State.endAndWalk]

@[simp] theorem State.drainCheck_handing (n : LaneNo) : (s.drainCheck n).port.handing = s.port.handing := by
  unfold State.drainCheck
  split <;> simp

@[simp] theorem State.finished_handing (o : Owner) : (s.finished o).port.handing = s.port.handing := by
  unfold State.finished
  split <;> simp

@[simp] theorem State.finishedAll_handing : s.finishedAll.port.handing = s.port.handing := by simp [State.finishedAll]

@[simp] theorem State.expireUnstarted_handing (id : Nat) : (s.expireUnstarted id).port.handing = s.port.handing := by
  unfold State.expireUnstarted
  split <;> simp

@[simp] theorem State.enterRequest_handing (w : Wish) (evicted : Option Request) :
    (s.enterRequest w evicted).port.handing = s.port.handing := by
  unfold State.enterRequest
  split <;> simp

@[simp] theorem State.enterWish_handing (w : Wish) : (s.enterWish w).port.handing = s.port.handing := by
  unfold State.enterWish
  (repeat' split) <;> simp

/-! Strikes and bells. -/

@[simp] theorem State.countIfLate_handing (o : Owner) (newly : Bool) :
    (s.countIfLate o newly).port.handing = s.port.handing := by
  simp [State.countIfLate]

@[simp] theorem State.enterStrike_handing (owner : Owner) (e : Entry) :
    (s.enterStrike owner e).port.handing = s.port.handing := by
  unfold State.enterStrike
  split <;> simp

@[simp] theorem State.holdStrike_handing (k : Strike) (f : FireState) :
    (s.holdStrike k f).port.handing = s.port.handing := rfl
@[simp] theorem State.fire_handing (k : Strike) : (s.fire k).port.handing = s.port.handing := by simp [State.fire]

@[simp] theorem State.examine_handing (k : Strike) : (s.examine k).port.handing = s.port.handing := by
  unfold State.examine
  dsimp only
  (repeat' split) <;> simp

@[simp] theorem State.examineMerged_handing (e : Entry) : (s.examineMerged e).port.handing = s.port.handing := by
  unfold State.examineMerged
  split <;> simp

@[simp] theorem State.laneStrike_handing (n : LaneNo) (bell : BellNo) (velocity : Nat) (due : Instant) :
    (s.laneStrike n bell velocity due).port.handing = s.port.handing := by
  unfold State.laneStrike
  dsimp only
  (repeat' split) <;> simp

@[simp] theorem State.serveTimes_handing (k : Nat) : (s.serveTimes k).port.handing = s.port.handing := by
  induction k generalizing s with
  | zero => rfl
  | succ k ih =>
    unfold State.serveTimes
    (repeat' split) <;> simp [ih]

@[simp] theorem State.serve_handing : s.serve.port.handing = s.port.handing := by simp [State.serve]

@[simp] theorem State.examineHeldBell_handing (order : Nat) :
    (s.examineHeldBell order).port.handing = s.port.handing := by
  unfold State.examineHeldBell
  split <;> simp

@[simp] theorem State.releaseHeld_handing (b : BellNo) : (s.releaseHeld b).port.handing = s.port.handing := by
  simp [State.releaseHeld]
@[simp] theorem State.flightReady_handing (b : BellNo) (x : Bell) (f : InFlight) :
    (s.flightReady b x f).port.handing = s.port.handing := by
  simp [State.flightReady]
@[simp] theorem State.removeForBell_handing (b : BellNo) : (s.removeForBell b).port.handing = s.port.handing := by
  simp [State.removeForBell]
@[simp] theorem State.removeInhibited_handing : s.removeInhibited.port.handing = s.port.handing := by
  simp [State.removeInhibited]
@[simp] theorem State.disableBell_handing (b : BellNo) (cause : DisableCause) :
    (s.disableBell b cause).port.handing = s.port.handing := by
  simp [State.disableBell]
@[simp] theorem State.afterDisable_handing (wasFiring : Bool) :
    (s.afterDisable wasFiring).port.handing = s.port.handing := by
  simp [State.afterDisable]

/-! A lane's steps. -/

@[simp] theorem State.takeEnd_handing (n : LaneNo) (r : Run) : (s.takeEnd n r).port.handing = s.port.handing := by
  simp [State.takeEnd]

theorem State.commandAxis_handing {s t : State} {a : AxisNo} {m : MotionCommand} {x : Bool × Bool}
    (h : s.commandAxis a m = some (t, x)) : t.port.handing = s.port.handing := by
  obtain ⟨c, _, hc⟩ := Option.map_eq_some_iff.mp h
  cases hc
  simp

theorem State.laneCommand_handing {s t : State} {n : LaneNo} {axis : Nat} {form : Option Bool} {m : Option MotionCommand}
    {limited : Bool} (h : s.laneCommand n axis form m = some (t, limited)) : t.port.handing = s.port.handing := by
  unfold State.laneCommand at h
  split at h
  · dsimp only at h
    split at h
    · obtain ⟨⟨u, x⟩, hu, hx⟩ := Option.map_eq_some_iff.mp h
      cases hx
      exact State.commandAxis_handing hu
    · cases h
  · cases h

@[simp] theorem State.takeStep_handing (n : LaneNo) (r : Run) (step : Step) (due : Instant) :
    (s.takeStep n r step due).1.port.handing = s.port.handing := by
  unfold State.takeStep
  dsimp only
  (repeat' split) <;> simp
  -- a command that an axis takes
  all_goals exact State.laneCommand_handing ‹_›

@[simp] theorem State.lookStep_handing (n : LaneNo) : (s.lookStep n).1.port.handing = s.port.handing := by
  unfold State.lookStep
  dsimp only
  (repeat' split) <;> simp

@[simp] theorem State.stepTimes_handing (n : LaneNo) (k : Nat) : (s.stepTimes n k).port.handing = s.port.handing := by
  induction k generalizing s with
  | zero => rfl
  | succ k ih =>
    unfold State.stepTimes
    have hlook := State.lookStep_handing s n
    split
    · next hstep => rw [hstep] at hlook; rw [ih, hlook]
    · next hstep => rwa [hstep] at hlook

@[simp] theorem State.runSteps_handing (n : LaneNo) : (s.runSteps n).port.handing = s.port.handing := by
  simp [State.runSteps]
@[simp] theorem State.endWait_handing (n : LaneNo) (r : Run) (result : WaitResult) :
    (s.endWait n r result).port.handing = s.port.handing := by
  simp [State.endWait]

@[simp] theorem State.waitReview_handing (a : AxisNo) (n : LaneNo) :
    (s.waitReview a n).port.handing = s.port.handing := by
  unfold State.waitReview
  (repeat' split) <;> simp

@[simp] theorem State.tellLanes_handing (a : AxisNo) : (s.tellLanes a).port.handing = s.port.handing := by
  simp [State.tellLanes]

/-! Axes, the verifier and the exercise. -/

@[simp] theorem State.chooseDwell_handing : s.chooseDwell.port.handing = s.port.handing := by
  unfold State.chooseDwell
  dsimp only
  (repeat' split) <;> simp

@[simp] theorem State.reviewScan_handing : s.reviewScan.port.handing = s.port.handing := by simp [State.reviewScan]
@[simp] theorem State.verdict_handing (a : AxisNo) (r : VerdictRecord) :
    (s.verdict a r).port.handing = s.port.handing := rfl
@[simp] theorem State.skipDwell_handing (a : AxisNo) : (s.skipDwell a).port.handing = s.port.handing := by
  simp [State.skipDwell]

@[simp] theorem State.exerciseMove_handing (e : Exercise) (target : Int) :
    (s.exerciseMove e target).port.handing = s.port.handing := by
  unfold State.exerciseMove
  split
  · next hcommand => exact State.commandAxis_handing hcommand
  · rfl

@[simp] theorem State.endExercise_handing (e : Exercise) (verdict : ExerciseVerdict) :
    (s.endExercise e verdict).port.handing = s.port.handing := by
  simp [State.endExercise]

@[simp] theorem State.abortExercise_handing (cause : AbortCause) :
    (s.abortExercise cause).port.handing = s.port.handing := by
  unfold State.abortExercise
  split <;> simp

@[simp] theorem State.exerciseSettle_handing (a : AxisNo) : (s.exerciseSettle a).port.handing = s.port.handing := by
  unfold State.exerciseSettle
  split <;> simp

@[simp] theorem State.completeExercise_handing : s.completeExercise.port.handing = s.port.handing := by
  unfold State.completeExercise
  split <;> simp

@[simp] theorem State.exerciseMeasure_handing (e : Exercise) (c : AxisConfig) (measured : Int) :
    (s.exerciseMeasure e c measured).port.handing = s.port.handing := by
  unfold State.exerciseMeasure
  dsimp only
  (repeat' split) <;> simp

@[simp] theorem State.exerciseUpdate_handing (a : AxisNo) : (s.exerciseUpdate a).port.handing = s.port.handing := by
  unfold State.exerciseUpdate
  dsimp only
  (repeat' split) <;> simp

@[simp] theorem State.settle_handing (a : AxisNo) : (s.settle a).port.handing = s.port.handing := by simp [State.settle]

@[simp] theorem State.stopFollower_handing (leader : AxisNo) (s : State) (f : AxisNo) :
    (State.stopFollower leader s f).port.handing = s.port.handing := by
  unfold State.stopFollower
  split <;> simp

@[simp] theorem State.stopFollowers_handing (leader : AxisNo) :
    (s.stopFollowers leader).port.handing = s.port.handing := by
  simp [State.stopFollowers]

@[simp] theorem State.exerciseFault_handing (a : AxisNo) : (s.exerciseFault a).port.handing = s.port.handing := by
  unfold State.exerciseFault
  split <;> simp

@[simp] theorem State.enterFault_handing (a : AxisNo) (cause : AxisFaultCause) :
    (s.enterFault a cause).port.handing = s.port.handing := by
  simp [State.enterFault]
@[simp] theorem State.putOff_handing (a : AxisNo) : (s.putOff a).port.handing = s.port.handing := by simp [State.putOff]

@[simp] theorem State.trackingFail_handing (a : AxisNo) : (s.trackingFail a).port.handing = s.port.handing := by
  unfold State.trackingFail
  split <;> simp

@[simp] theorem State.endDwell_handing (a : AxisNo) (r : VerdictRecord) :
    (s.endDwell a r).port.handing = s.port.handing := by
  simp [State.endDwell]
@[simp] theorem State.verifierUpdate_handing (a : AxisNo) (valid : Bool) :
    (s.verifierUpdate a valid).port.handing = s.port.handing := by
  simp [State.verifierUpdate]
@[simp] theorem State.replyMissing_handing (a : AxisNo) : (s.replyMissing a).1.port.handing = s.port.handing := rfl
@[simp] theorem State.replyValid_handing (a : AxisNo) (c : AxisConfig) (r : AmpReply) :
    (s.replyValid a c r).1.port.handing = s.port.handing := rfl

@[simp] theorem State.countReply_handing (a : AxisNo) (valid : Bool) (fault : Option AxisFaultCause) :
    (s.countReply a valid fault).port.handing = s.port.handing := by
  unfold State.countReply
  split <;> simp

@[simp] theorem State.takeReply_handing (a : AxisNo) (r : Option AmpReply) :
    (s.takeReply a r).port.handing = s.port.handing := by
  unfold State.takeReply
  dsimp only
  (repeat' split) <;> simp

@[simp] theorem State.driveFrame_handing (a : AxisNo) (x : Axis) : (s.driveFrame a x).port.handing = s.port.handing := by
  simp [State.driveFrame]
@[simp] theorem State.noteUpdate_handing (a : AxisNo) : (s.noteUpdate a).port.handing = s.port.handing := by
  simp [State.noteUpdate]

@[simp] theorem State.update_handing (a : AxisNo) : (s.update a).port.handing = s.port.handing := by
  unfold State.update
  dsimp only
  (repeat' split) <;> simp

/-! The message port. -/

@[simp] theorem State.setReported_handing : s.setReported.port.handing = s.port.handing := rfl
@[simp] theorem State.askReset_handing (tag : Byte) : (s.askReset tag).port.handing = s.port.handing := by
  simp [State.askReset]
@[simp] theorem State.clearLatches_handing : s.clearLatches.port.handing = s.port.handing := by simp [State.clearLatches]
@[simp] theorem State.writeMask_handing (tag : Byte) (mask : Half) :
    (s.writeMask tag mask).port.handing = s.port.handing := by
  simp [State.writeMask]
@[simp] theorem State.setReceiver_handing (r : Receiver) : (s.setReceiver r).port.handing = s.port.handing := rfl
@[simp] theorem State.discardFrame_handing : s.discardFrame.port.handing = s.port.handing := rfl

@[simp] theorem State.examineFrame_handing (bytes : List Byte) :
    (s.examineFrame bytes).port.handing = s.port.handing := by
  unfold State.examineFrame
  (repeat' split) <;> simp

@[simp] theorem State.completeFrame_handing : s.completeFrame.port.handing = s.port.handing := by
  unfold State.completeFrame
  split <;> simp

@[simp] theorem State.passGap_handing : s.passGap.port.handing = s.port.handing := by simp [State.passGap]

@[simp] theorem State.byteError_handing : s.byteError.port.handing = s.port.handing := by
  unfold State.byteError
  split <;> simp

@[simp] theorem State.receive_handing (b : Byte) : (s.receive b).port.handing = s.port.handing := by
  unfold State.receive
  dsimp only
  (repeat' split) <;> simp

/-! Commands and replies of an axis. -/

@[simp] theorem State.writeAxis_handing (tag axis : Byte) (config : Option AxisConfig) :
    (s.writeAxis tag axis config).port.handing = s.port.handing := by
  unfold State.writeAxis
  split <;> simp

@[simp] theorem State.carryOut_handing (tag : Byte) (a : AxisNo) (m : MotionCommand) :
    (s.carryOut tag a m).port.handing = s.port.handing := by
  unfold State.carryOut
  (repeat' split) <;> simp
  -- a command that the axis takes
  all_goals exact State.commandAxis_handing ‹_›

@[simp] theorem State.motionCommand_handing (tag axis : Byte) (arguments : AxisNo → AxisConfig → Option MotionCommand) :
    (s.motionCommand tag axis arguments).port.handing = s.port.handing := by
  unfold State.motionCommand
  (repeat' split) <;> simp

@[simp] theorem State.enableAxis_handing (tag axis : Byte) : (s.enableAxis tag axis).port.handing = s.port.handing := by
  unfold State.enableAxis
  dsimp only
  (repeat' split) <;> simp

@[simp] theorem State.disableAxis_handing (tag axis : Byte) :
    (s.disableAxis tag axis).port.handing = s.port.handing := by
  unfold State.disableAxis
  split <;> simp

@[simp] theorem State.clearAxis_handing (tag axis : Byte) : (s.clearAxis tag axis).port.handing = s.port.handing := by
  unfold State.clearAxis
  (repeat' split) <;> simp

@[simp] theorem State.takeBytes_handing (bytes : List Byte) : (s.takeBytes bytes).port.handing = s.port.handing := by
  unfold State.takeBytes
  (repeat' split) <;> simp

@[simp] theorem State.decodeBus_handing (bytes : List Byte) : (s.decodeBus bytes).port.handing = s.port.handing := by
  unfold State.decodeBus
  (repeat' split) <;> simp

/-! Output modes and the interlock. -/

@[simp] theorem State.setOutputMode_handing (m : OutputMode) : (s.setOutputMode m).port.handing = s.port.handing := rfl
@[simp] theorem State.endRuns_handing (outcome : RunOutcome) : (s.endRuns outcome).port.handing = s.port.handing := by
  simp [State.endRuns]

@[simp] theorem State.allOff_handing (p : AxisMode → Bool) : (s.allOff p).port.handing = s.port.handing := by
  unfold State.allOff
  split <;> simp

@[simp] theorem State.toSafe_handing : s.toSafe.port.handing = s.port.handing := by simp [State.toSafe]
@[simp] theorem State.betweenRunning_handing (m : OutputMode) : (s.betweenRunning m).port.handing = s.port.handing := by
  simp [State.betweenRunning]
@[simp] theorem State.changeMode_handing (tag : Byte) (m : OutputMode) :
    (s.changeMode tag m).port.handing = s.port.handing := by
  simp [State.changeMode]

@[simp] theorem State.askMode_handing (tag mode : Byte) : (s.askMode tag mode).port.handing = s.port.handing := by
  unfold State.askMode
  split <;> simp

@[simp] theorem State.atriumChange_handing (level : Bool) : (s.atriumChange level).port.handing = s.port.handing := by
  simp [State.atriumChange]
@[simp] theorem State.fastStop_handing : s.fastStop.port.handing = s.port.handing := by simp [State.fastStop]
@[simp] theorem State.clearTower_handing : s.clearTower.port.handing = s.port.handing := by simp [State.clearTower]
@[simp] theorem State.stopTower_handing : s.stopTower.port.handing = s.port.handing := by simp [State.stopTower]
@[simp] theorem State.setOpen_handing (isOpen : Bool) : (s.setOpen isOpen).port.handing = s.port.handing := rfl
@[simp] theorem State.openInterlock_handing : s.openInterlock.port.handing = s.port.handing := by simp [State.openInterlock]
@[simp] theorem State.closeInterlock_handing : s.closeInterlock.port.handing = s.port.handing := by
  simp [State.closeInterlock]

/-! Queries. -/

@[simp] theorem State.queryLane_handing (tag lane : Byte) : (s.queryLane tag lane).port.handing = s.port.handing := by
  unfold State.queryLane
  split <;> simp

@[simp] theorem State.queryBell_handing (tag bell : Byte) : (s.queryBell tag bell).port.handing = s.port.handing := by
  unfold State.queryBell
  split <;> simp

@[simp] theorem State.queryAxis_handing (tag axis : Byte) : (s.queryAxis tag axis).port.handing = s.port.handing := by
  unfold State.queryAxis
  split <;> simp

@[simp] theorem State.queryCalendar_handing (tag : Byte) (sub index : Nat) :
    (s.queryCalendar tag sub index).port.handing = s.port.handing := by
  unfold State.queryCalendar
  split <;> simp

/-! The soft reset. -/

@[simp] theorem State.softResetBlocks_handing : s.softResetBlocks.port.handing = s.port.handing := rfl
@[simp] theorem State.softReset_handing : s.softReset.port.handing = s.port.handing := rfl

/-! The calendar. -/

@[simp] theorem State.setPlays_handing (l : List TimedPlay) : (s.setPlays l).port.handing = s.port.handing := rfl
@[simp] theorem State.dropPlay_handing (p : TimedPlay) (reason : DropReason) :
    (s.dropPlay p reason).port.handing = s.port.handing := by
  simp [State.dropPlay]
@[simp] theorem State.releasePlay_handing (p : TimedPlay) : (s.releasePlay p).port.handing = s.port.handing := by
  simp [State.releasePlay]
@[simp] theorem State.releasePlays_handing : s.releasePlays.port.handing = s.port.handing := by simp [State.releasePlays]
@[simp] theorem State.loadTime_handing (t : MallTime) (flag : Bool) :
    (s.loadTime t flag).port.handing = s.port.handing := rfl
@[simp] theorem State.expirePlays_handing : s.expirePlays.port.handing = s.port.handing := by simp [State.expirePlays]

@[simp] theorem State.setTime_handing (tag : Byte) (t : MallTime) (pps : Byte) :
    (s.setTime tag t pps).port.handing = s.port.handing := by
  unfold State.setTime
  split <;> simp

@[simp] theorem State.writeProgramme_handing (tag : Byte) (n : Nat) (p : Programme) :
    (s.writeProgramme tag n p).port.handing = s.port.handing := by
  unfold State.writeProgramme
  split <;> simp

@[simp] theorem State.setSeasonEntry_handing (i : Fin 16) (e : Season) :
    (s.setSeasonEntry i e).port.handing = s.port.handing := rfl

@[simp] theorem State.writeSeason_handing (tag : Byte) (n : Nat) (e : Season) (mask : Byte) :
    (s.writeSeason tag n e mask).port.handing = s.port.handing := by
  unfold State.writeSeason
  split <;> simp

@[simp] theorem State.clearSeason_handing (tag : Byte) (n : Nat) :
    (s.clearSeason tag n).port.handing = s.port.handing := by
  unfold State.clearSeason
  split <;> simp

@[simp] theorem State.setTriggerEntry_handing (i : Fin 96) (t : Trigger) :
    (s.setTriggerEntry i t).port.handing = s.port.handing := rfl

@[simp] theorem State.writeTrigger_handing (tag entry selector : Byte) (hours : BitVec 24)
    (minute weekdays showNo priority grace : Byte) :
    (s.writeTrigger tag entry selector hours minute weekdays showNo priority grace).port.handing = s.port.handing := by
  unfold State.writeTrigger
  split <;> simp

@[simp] theorem State.clearTrigger_handing (tag : Byte) (n : Nat) :
    (s.clearTrigger tag n).port.handing = s.port.handing := by
  unfold State.clearTrigger
  split <;> simp

@[simp] theorem State.invalidateTime_handing : s.invalidateTime.port.handing = s.port.handing := by
  simp [State.invalidateTime]
@[simp] theorem State.testTrigger_handing (i : Fin 96) : (s.testTrigger i).port.handing = s.port.handing := by
  simp [State.testTrigger]
@[simp] theorem State.fireTriggers_handing : s.fireTriggers.port.handing = s.port.handing := by simp [State.fireTriggers]
@[simp] theorem State.minuteBoundary_handing (before : MallTime) :
    (s.minuteBoundary before).port.handing = s.port.handing := by
  simp [State.minuteBoundary]
@[simp] theorem State.carry_handing : s.carry.port.handing = s.port.handing := by simp [State.carry]
@[simp] theorem State.alignTime_handing : s.alignTime.port.handing = s.port.handing := by simp [State.alignTime]
@[simp] theorem State.lockPps_handing : s.lockPps.port.handing = s.port.handing := by simp [State.lockPps]
@[simp] theorem State.losePps_handing : s.losePps.port.handing = s.port.handing := by simp [State.losePps]

/-! PLAY, CANCEL and the keys. -/

@[simp] theorem State.playAdmitted_handing (tag showNo priority grace : Byte) :
    (s.playAdmitted tag showNo priority grace).port.handing = s.port.handing := by
  unfold State.playAdmitted
  dsimp only
  (repeat' split) <;> simp

@[simp] theorem State.playNow_handing (tag showNo priority grace : Byte) :
    (s.playNow tag showNo priority grace).port.handing = s.port.handing := by
  simp [State.playNow]
@[simp] theorem State.listPlay_handing (tag showNo priority grace : Byte) (start : DateTime) :
    (s.listPlay tag showNo priority grace start).port.handing = s.port.handing := by
  simp [State.listPlay]
@[simp] theorem State.playTimed_handing (tag showNo priority grace : Byte) (start : DateTime) :
    (s.playTimed tag showNo priority grace start).port.handing = s.port.handing := by
  simp [State.playTimed]

@[simp] theorem State.cancel_handing (tag : Byte) (id : Nat) : (s.cancel tag id).port.handing = s.port.handing := by
  unfold State.cancel
  (repeat' split) <;> simp

@[simp] theorem State.writeKey_handing (tag key enabled showNo priority grace : Byte) :
    (s.writeKey tag key enabled showNo priority grace).port.handing = s.port.handing := by
  unfold State.writeKey
  split <;> simp

@[simp] theorem State.setInput_handing (k : KeyNo) (x : KeyInput) : (s.setInput k x).port.handing = s.port.handing := rfl
@[simp] theorem State.keyChange_handing (k : KeyNo) (level : Bool) :
    (s.keyChange k level).port.handing = s.port.handing := by
  simp [State.keyChange]
@[simp] theorem State.press_handing (k : KeyNo) : (s.press k).port.handing = s.port.handing := by simp [State.press]
@[simp] theorem State.debounceKey_handing (k : KeyNo) : (s.debounceKey k).port.handing = s.port.handing := by
  simp [State.debounceKey]

/-! The show store. -/

@[simp] theorem State.showOpen_handing (tag showNo kind : Byte) (count claims limit : Half) :
    (s.showOpen tag showNo kind count claims limit).port.handing = s.port.handing := by
  unfold State.showOpen
  (repeat' split) <;> simp

@[simp] theorem State.showData_handing (tag showNo : Byte) (start : Half) (records : List StepWord) :
    (s.showData tag showNo start records).port.handing = s.port.handing := by
  unfold State.showData
  (repeat' split) <;> simp

@[simp] theorem State.showClose_handing (tag showNo : Byte) :
    (s.showClose tag showNo).port.handing = s.port.handing := by
  unfold State.showClose
  (repeat' split) <;> simp

@[simp] theorem State.dropForShow_handing (showNo : Nat) : (s.dropForShow showNo).port.handing = s.port.handing := by
  simp [State.dropForShow]

@[simp] theorem State.showErase_handing (tag showNo : Byte) :
    (s.showErase tag showNo).port.handing = s.port.handing := by
  unfold State.showErase
  (repeat' split) <;> simp

@[simp] theorem State.endCompaction_handing (tag : Byte) : (s.endCompaction tag).port.handing = s.port.handing := by
  simp [State.endCompaction]
@[simp] theorem State.storeCompact_handing (tag : Byte) : (s.storeCompact tag).port.handing = s.port.handing := by
  simp [State.storeCompact]
@[simp] theorem State.storeList_handing (tag : Byte) (first : Nat) :
    (s.storeList tag first).port.handing = s.port.handing := by
  simp [State.storeList]

/-! STRIKE, the bells and their events. -/

@[simp] theorem State.replyEntry_handing (tag : Byte) (x : Entry) :
    (s.replyEntry tag x).port.handing = s.port.handing := by
  unfold State.replyEntry
  split <;> simp

@[simp] theorem State.strikeMessage_handing (tag bell velocity : Byte) (delay : Half) :
    (s.strikeMessage tag bell velocity delay).port.handing = s.port.handing := by
  unfold State.strikeMessage
  (repeat' split) <;> simp

@[simp] theorem State.writeBell_handing (tag bell : Byte) (k : Long) (pmin pmax guard : Half) (window missLimit : Byte) :
    (s.writeBell tag bell k pmin pmax guard window missLimit).port.handing = s.port.handing := by
  unfold State.writeBell
  split <;> simp

@[simp] theorem State.bellEnable_handing (tag bell on : Byte) :
    (s.bellEnable tag bell on).port.handing = s.port.handing := by
  unfold State.bellEnable
  split <;> simp

@[simp] theorem State.writeCurve_handing (tag : Byte) (points : List Nat) :
    (s.writeCurve tag points).port.handing = s.port.handing := by
  simp [State.writeCurve]
@[simp] theorem State.writeLevel_handing (tag : Byte) (master emax tau : Nat) :
    (s.writeLevel tag master emax tau).port.handing = s.port.handing := by
  simp [State.writeLevel]
@[simp] theorem State.pulseToFlight_handing (b : BellNo) : (s.pulseToFlight b).port.handing = s.port.handing := by
  simp [State.pulseToFlight]
@[simp] theorem State.pulseToReady_handing (b : BellNo) (f : InFlight) :
    (s.pulseToReady b f).port.handing = s.port.handing := by
  simp [State.pulseToReady]
@[simp] theorem State.endPulse_handing (b : BellNo) (f : InFlight) : (s.endPulse b f).port.handing = s.port.handing := by
  simp [State.endPulse]
@[simp] theorem State.confirm_handing (b : BellNo) (f : InFlight) : (s.confirm b f).port.handing = s.port.handing := by
  simp [State.confirm]
@[simp] theorem State.stray_handing (b : BellNo) : (s.stray b).port.handing = s.port.handing := by simp [State.stray]

@[simp] theorem State.edge_handing (b : BellNo) : (s.edge b).port.handing = s.port.handing := by
  unfold State.edge
  split <;> simp

@[simp] theorem State.leaveWindow_handing (b : BellNo) (f : InFlight) :
    (s.leaveWindow b f).port.handing = s.port.handing := by
  simp [State.leaveWindow]
@[simp] theorem State.missDisable_handing (b : BellNo) (streak : Nat) :
    (s.missDisable b streak).port.handing = s.port.handing := by
  simp [State.missDisable]
@[simp] theorem State.miss_handing (b : BellNo) (f : InFlight) : (s.miss b f).port.handing = s.port.handing := by
  simp [State.miss]
@[simp] theorem State.shadowMiss_handing (b : BellNo) (f : InFlight) :
    (s.shadowMiss b f).port.handing = s.port.handing := by
  simp [State.shadowMiss]
@[simp] theorem State.deem_handing (b : BellNo) (f : InFlight) : (s.deem b f).port.handing = s.port.handing := by
  simp [State.deem]

/-! SET_VERIFY and EXERCISE. -/

@[simp] theorem State.verifyOff_handing : s.verifyOff.port.handing = s.port.handing := rfl
@[simp] theorem State.verifyOn_handing : s.verifyOn.port.handing = s.port.handing := by simp [State.verifyOn]

@[simp] theorem State.setVerify_handing (tag on : Byte) : (s.setVerify tag on).port.handing = s.port.handing := by
  unfold State.setVerify
  split <;> simp

@[simp] theorem State.beginExercise_handing (tag : Byte) (e : Exercise) :
    (s.beginExercise tag e).port.handing = s.port.handing := by
  simp [State.beginExercise]
@[simp] theorem State.exerciseFree_handing (tag : Byte) (a : AxisNo) (c : AxisConfig) :
    (s.exerciseFree tag a c).port.handing = s.port.handing := by
  simp [State.exerciseFree]

@[simp] theorem State.startExercise_handing (tag axis : Byte) :
    (s.startExercise tag axis).port.handing = s.port.handing := by
  unfold State.startExercise
  (repeat' split) <;> simp

@[simp] theorem State.stopExercised_handing (a : AxisNo) : (s.stopExercised a).port.handing = s.port.handing := by
  simp [State.stopExercised]

@[simp] theorem State.hostAbort_handing (tag : Byte) : (s.hostAbort tag).port.handing = s.port.handing := by
  unfold State.hostAbort
  split <;> simp

/-! One microsecond. -/

@[simp] theorem State.tick_handing : s.tick.port.handing = s.port.handing := rfl

end Operations

end Sys2Proof.Machine
end

section
/-! SUPPORT. When the port takes a request, what waits, and the taking of a frame (R146, R147; log 11); the mark of the handing
over is set by no command, and so stands at no other time. -/
namespace Sys2Proof.Machine

variable {s t : State} {c : Instr}

/-! ## Requests -/

/-- A command with a frame is a request at the port, and what it does when taken leaves the mark. -/
theorem exec_request {f : RxFrame} (h : requestFrame c = some f) : ∃ taken : State → State,
    (∀ s, exec c s = .next (takeRequest c taken s)) ∧ ∀ s, (taken s).port.handing = s.port.handing := by
  cases c
  -- an event has no frame
  all_goals cases h
  all_goals exact ⟨_, fun _ => rfl, fun s => by simp⟩

theorem takeRequest_waits {f : RxFrame} (h : requestFrame c = some f) (hs : s.takes = false) (taken : State → State) :
    takeRequest c taken s = s.offer f := by
  simp [takeRequest, hs, h]

theorem takeRequest_handing {taken : State → State} (h : ∀ s, (taken s).port.handing = s.port.handing) (c : Instr)
    (s : State) : (takeRequest c taken s).port.handing = s.port.handing := by
  unfold takeRequest
  split
  · exact h s
  · split
    · exact Port.offer_handing _ _ _
    · rfl

theorem portTakes : PortTakes := by
  refine fun s => ⟨?_, ?_⟩
  · simp [State.portReady, and_assoc]
  · simp [State.takes]

theorem offersWait : OffersWait := by
  refine ⟨fun c f s hf hs => ?waits, fun p now f hroom => if_pos hroom, fun p now f hfull => ?overflows⟩
  case waits =>
    obtain ⟨taken, hexec, _⟩ := exec_request hf
    rw [hexec, takeRequest_waits hf hs]
    rfl
  case overflows => exact if_neg (Nat.not_lt.mpr hfull)

/-! ## The mark of the handing over -/

theorem exec_event_handing (hframe : requestFrame c = none) (h : exec c s = .next t) :
    t.port.handing = s.port.handing ∨ ∃ baud, t = s.hardReset baud := by
  cases c
  case hardReset cause baud =>
    cases h
    split
    · exact .inr ⟨baud, rfl⟩
    · exact .inl rfl
  all_goals cases hframe
  all_goals
    cases h
    left
    (repeat' split) <;> simp

theorem exec_handing (h : exec c s = .next t) : t.port.handing = s.port.handing ∨ ∃ baud, t = s.hardReset baud := by
  cases hframe : requestFrame c with
  | none => exact exec_event_handing hframe h
  | some f =>
    obtain ⟨taken, hexec, htaken⟩ := exec_request hframe
    rw [hexec] at h
    cases h
    exact .inl (takeRequest_handing htaken c s)

/-- A hard reset clears the mark, and every other command leaves it. -/
theorem exec_unmarked (hs : s.port.handing = false) (h : exec c s = .next t) : t.port.handing = false := by
  rcases exec_handing h with heq | ⟨_, rfl⟩
  · rw [heq, hs]
  · rfl

/-! ## The oldest frame -/

section Oldest

variable {f : RxFrame} {rest : List RxFrame}

theorem State.takeFrame_answer {r : Result} (hrx : s.port.rx = f :: rest) (hp : parseRequest f = .answer r) :
    s.takeFrame = .next ({ s with port := { s.port with rx := rest } }.reply f.tag f.kind r) := by
  simp only [State.takeFrame, hrx, hp]

/-- The mark is set before the request is carried out, and cleared after. -/
theorem State.takeFrame_request (hrx : s.port.rx = f :: rest) (hp : parseRequest f = .request c)
    (h : exec c { s with port := { s.port with rx := rest, handing := true } } = .next t) :
    s.takeFrame = .next (t.setHanding false) := by
  have hover : State.handOver { s with port := { s.port with rx := rest } } c = .next (t.setHanding false) := by
    unfold State.handOver
    rw [show exec c (State.setHanding { s with port := { s.port with rx := rest } } true) = .next t from h]
  simp only [State.takeFrame, hrx, hp, hover]

theorem State.takeFrame_unmarked (hs : s.port.handing = false) (h : s.takeFrame = .next t) : t.port.handing = false := by
  cases hrx : s.port.rx with
  | nil =>
    simp only [State.takeFrame, hrx] at h
    cases h
    exact hs
  | cons f rest =>
    cases hp : parseRequest f with
    | answer r =>
      rw [State.takeFrame_answer hrx hp] at h
      cases h
      exact (Port.enterReply_handing _ _ _).trans hs
    | request c =>
      obtain ⟨u, hu⟩ := exec_next c { s with port := { s.port with rx := rest, handing := true } }
      rw [State.takeFrame_request hrx hp hu] at h
      cases h
      rfl

end Oldest

theorem State.doDue_unmarked {d : Due} (hs : s.port.handing = false) (h : s.doDue d = .next t) :
    t.port.handing = false := by
  cases d with
  | takeFrame => exact State.takeFrame_unmarked hs h
  | completeExercise =>
    cases h
    exact s.completeExercise_handing.trans hs
  | event c => exact exec_unmarked hs h

theorem step_unmarked (hs : s.port.handing = false) (h : step s = .next t) : t.port.handing = false := by
  unfold step at h
  split at h
  · next rest _ => exact exec_unmarked (s := { s with pending := rest }) hs h
  · unfold State.idle at h
    split at h
    · cases h
      exact hs
    · exact State.doDue_unmarked hs h
    · exact State.doDue_unmarked (s := s.nextChoice) hs h

theorem oldestFrameTaken : OldestFrameTaken := by
  refine ⟨fun s f rest hrx => ⟨fun r hp => State.takeFrame_answer hrx hp, fun c hp => ?request⟩, fun s t => step_unmarked⟩
  obtain ⟨t, ht⟩ := exec_next c { s with port := { s.port with rx := rest, handing := true } }
  exact ⟨t, ht, State.takeFrame_request hrx hp ht⟩

/-- Settles O6: every request is `takeRequest` of what it does when taken; the taking of a frame sets and clears the mark of the
handing over, which nothing else writes. -/
theorem unreadyPortOffers : Obligations.UnreadyPortOffers := ⟨portTakes, offersWait, oldestFrameTaken⟩

end Sys2Proof.Machine
end

section
/-! SUPPORT. Commands and the queue they wait in (log 1, 4): a step takes the command at the front, and carrying a command out
leaves those that wait. -/
namespace Sys2Proof.Machine

variable {s t : State} {c : Instr}

/-- The second case of a step, beside `step_idle`. -/
theorem step_front {rest : List Instr} (h : s.pending = c :: rest) : step s = exec c { s with pending := rest } := by
  simp only [step, h]

/-- A hard reset keeps the waiting commands, which are the model's own and no field of the part (log 4). -/
theorem State.hardReset_pending (s : State) (baud : BitVec 2) : (s.hardReset baud).pending = s.pending := rfl

theorem exec_pending (h : exec c s = .next t) : t.pending = s.pending := by
  rcases exec_trace h with hmoves | ⟨_, baud, _, _, rfl⟩
  · exact hmoves.pending_eq
  · exact s.hardReset_pending baud

/-- Settles O3: every command answers a next state, reached by moves that leave the queue of waiting commands, or by a hard
reset, which keeps it. -/
theorem everyCommandAnswersNext : Obligations.EveryCommandAnswersNext := by
  intro c s
  obtain ⟨t, ht⟩ := exec_next c s
  exact ⟨t, ht, exec_pending ht⟩

/-- Settles O1, by the case of a step in which a command waits. -/
theorem stepRunsFrontCommand : Obligations.StepRunsFrontCommand := fun _ _ _ => step_front

end Sys2Proof.Machine
end
